-- ==== Sys2Proof/Word.lean ====
section
/-! DEFINITION. The word types of WVCORE (spec/00_scope.md R13, R14). -/

namespace Sys2Proof

/-- A stream byte, u8. -/
abbrev Byte := BitVec 8

/-- A u32: a command word, an argument word, a header field, a register the host reads. -/
abbrev Word := BitVec 32

/-- An s32: a residual, a sample, a history entry, a weight, in two's complement (R14).
Adding two of them is the source's wrap-around, `wrap32`. -/
abbrev S32 := BitVec 32

end Sys2Proof
end

