-- ==== Sys2Proof/Syntax.lean ====
section
/-! DEFINITION. The commands of WVCORE, one constructor per row of spec/opcode_table.json
(spec/30_encoding.md R95). A constructor holds the operands the command uses: an immediate where the
imm column is not 0, and the argument word where the arg column is not "ignored" (R92). -/

namespace Sys2Proof

/-- A command of the command port. -/
inductive Instr where
  /-- OPEN, 0x01 (spec/42_context.md R200). -/
  | openCtx
  /-- UNPACK , max: 0x02 (spec/43_decorrelation.md R240). -/
  | unpack (max : Word)
  /-- CLOSE, 0x03 (spec/42_context.md R213). -/
  | closeCtx
  /-- GET_SAMPLE_RATE, 0x10 (spec/42_context.md R227). -/
  | getSampleRate
  /-- GET_NUM_CHANNELS, 0x11 (R215). -/
  | getNumChannels
  /-- GET_BITS_PER_SAMPLE, 0x12 (R216). -/
  | getBitsPerSample
  /-- GET_BYTES_PER_SAMPLE, 0x13 (R217). -/
  | getBytesPerSample
  /-- GET_NUM_SAMPLES, 0x14 (R218). -/
  | getNumSamples
  /-- GET_CRC_ERRORS, 0x15 (R219). -/
  | getCrcErrors
  /-- GET_REDUCED_CHANNELS, 0x16 (R220). -/
  | getReducedChannels
  /-- GET_CHANNEL_MASK, 0x17 (R221). -/
  | getChannelMask
  /-- GET_FLOAT_EXP, 0x18 (R222). -/
  | getFloatExp
  /-- GET_CURSOR k, 0x19 (R223). -/
  | getCursor (k : BitVec 8)
  /-- GET_STATUS, 0x1A (R224). -/
  | getStatus
  /-- GET_HDR k, 0x1B (R225). -/
  | getHdr (k : BitVec 8)
  /-- BR_ATTACH , budget: 0x20 (spec/40_bit_reader.md R139). -/
  | brAttach (budget : Word)
  /-- BR_READ_BITS n, 0x21 (R135). -/
  | brReadBits (n : BitVec 8)
  /-- BR_READ_BIT, 0x22 (R136). -/
  | brReadBit
  /-- LOC_READ_HEADER, 0x23 (spec/41_block_locator.md R168). -/
  | locReadHeader
  deriving DecidableEq, Repr

end Sys2Proof
end

