-- ==== Sys2Proof/WellFormed.lean ====
section
/-! DEFINITION. Which commands have an encoding the port accepts (spec/30_encoding.md R96): the
immediate of GET_CURSOR is 0 or 1 and that of GET_HDR is 0..10. Every immediate of BR_READ_BITS is
legal to decode: 33..255 is the contract violation of R98 step 6. -/

namespace Sys2Proof

/-- The check: the command's immediate is one R96 does not call illegal. -/
def Instr.immLegal (i : Instr) : Bool :=
  match i with
  | .openCtx => true
  | .unpack _ => true
  | .closeCtx => true
  | .getSampleRate => true
  | .getNumChannels => true
  | .getBitsPerSample => true
  | .getBytesPerSample => true
  | .getNumSamples => true
  | .getCrcErrors => true
  | .getReducedChannels => true
  | .getChannelMask => true
  | .getFloatExp => true
  | .getCursor k => decide (k.toNat ≤ 1)
  | .getStatus => true
  | .getHdr k => decide (k.toNat ≤ 10)
  | .brAttach _ => true
  | .brReadBits _ => true
  | .brReadBit => true
  | .locReadHeader => true

/-- A well-formed command. -/
abbrev WellFormed (i : Instr) : Prop := i.immLegal = true

end Sys2Proof
end

