-- ==== Sys2Proof/Decode.lean ====
section
/-! DEFINITION. The decoder and the encoder of the command port (spec/30_encoding.md R90 to R98).

A command is two words, the command word and the argument word; every command has that length (R90).
The decoder makes steps 1 to 3 of the decode order R98; steps 4 to 6 depend on the state and are made
by the meanings (Machine/Operands.lean). -/

namespace Sys2Proof

/-! ### The fields of a command word (R91) -/

/-- `op`, bits 7:0. -/
def cmdOp (cmd : Word) : BitVec 8 := cmd.extractLsb' 0 8

/-- `imm`, bits 15:8. -/
def cmdImm (cmd : Word) : BitVec 8 := cmd.extractLsb' 8 8

/-- `rsv`, bits 31:16. -/
def cmdRsv (cmd : Word) : BitVec 16 := cmd.extractLsb' 16 16

/-- A command word from its fields: `op | imm << 8`, with `rsv` zero (R91, R99). -/
def cmdWord (op imm : BitVec 8) : Word := 0#16 ++ imm ++ op

/-! ### Decoding -/

/-- Why a command word is illegal: steps 1, 2 and 3 of R98. The port answers ILLEGAL_CMD to each. -/
inductive Illegal where
  /-- Step 1: `rsv` is not zero (R93). -/
  | reservedBits
  /-- Step 2: the opcode is reserved (R96). -/
  | reservedOpcode
  /-- Step 3: the immediate is illegal for the opcode (R96). -/
  | illegalImm
  deriving DecidableEq, Repr

/-- The command an assigned opcode stands for, with the immediate and the argument as they come;
`none` for a reserved opcode (R95, R96). -/
def opcodeMap (op imm : BitVec 8) (arg : Word) : Option Instr :=
  match op.toNat with
  | 0x01 => some .openCtx
  | 0x02 => some (.unpack arg)
  | 0x03 => some .closeCtx
  | 0x10 => some .getSampleRate
  | 0x11 => some .getNumChannels
  | 0x12 => some .getBitsPerSample
  | 0x13 => some .getBytesPerSample
  | 0x14 => some .getNumSamples
  | 0x15 => some .getCrcErrors
  | 0x16 => some .getReducedChannels
  | 0x17 => some .getChannelMask
  | 0x18 => some .getFloatExp
  | 0x19 => some (.getCursor imm)
  | 0x1A => some .getStatus
  | 0x1B => some (.getHdr imm)
  | 0x20 => some (.brAttach arg)
  | 0x21 => some (.brReadBits imm)
  | 0x22 => some .brReadBit
  | 0x23 => some .locReadHeader
  | _ => none

/-- Does the command name its immediate as an operand (the imm column of R95 is not 0)? -/
def Instr.usesImm (i : Instr) : Bool :=
  match i with
  | .getCursor _ => true
  | .getHdr _ => true
  | .brReadBits _ => true
  | .openCtx => false
  | .unpack _ => false
  | .closeCtx => false
  | .getSampleRate => false
  | .getNumChannels => false
  | .getBitsPerSample => false
  | .getBytesPerSample => false
  | .getNumSamples => false
  | .getCrcErrors => false
  | .getReducedChannels => false
  | .getChannelMask => false
  | .getFloatExp => false
  | .getStatus => false
  | .brAttach _ => false
  | .brReadBit => false
  | .locReadHeader => false

/-- The decoder: steps 1 to 3 of R98, in that order. The argument word is never checked (R97). -/
def decode (cmd arg : Word) : Except Illegal Instr :=
  if cmdRsv cmd ≠ 0 then .error .reservedBits
  else match opcodeMap (cmdOp cmd) (cmdImm cmd) arg with
    | none => .error .reservedOpcode
    | some i =>
      if i.usesImm = false ∧ cmdImm cmd ≠ 0 then .error .illegalImm
      else if i.immLegal = false then .error .illegalImm
      else .ok i

/-! ### Encoding -/

/-- The opcode of a command, the op column of R95. -/
def Instr.opcode (i : Instr) : BitVec 8 :=
  match i with
  | .openCtx => 0x01
  | .unpack _ => 0x02
  | .closeCtx => 0x03
  | .getSampleRate => 0x10
  | .getNumChannels => 0x11
  | .getBitsPerSample => 0x12
  | .getBytesPerSample => 0x13
  | .getNumSamples => 0x14
  | .getCrcErrors => 0x15
  | .getReducedChannels => 0x16
  | .getChannelMask => 0x17
  | .getFloatExp => 0x18
  | .getCursor _ => 0x19
  | .getStatus => 0x1A
  | .getHdr _ => 0x1B
  | .brAttach _ => 0x20
  | .brReadBits _ => 0x21
  | .brReadBit => 0x22
  | .locReadHeader => 0x23

/-- The immediate a command is encoded with: 0 where the imm column of R95 is 0. -/
def Instr.immField (i : Instr) : BitVec 8 :=
  match i with
  | .getCursor k => k
  | .getHdr k => k
  | .brReadBits n => n
  | .openCtx => 0
  | .unpack _ => 0
  | .closeCtx => 0
  | .getSampleRate => 0
  | .getNumChannels => 0
  | .getBitsPerSample => 0
  | .getBytesPerSample => 0
  | .getNumSamples => 0
  | .getCrcErrors => 0
  | .getReducedChannels => 0
  | .getChannelMask => 0
  | .getFloatExp => 0
  | .getStatus => 0
  | .brAttach _ => 0
  | .brReadBit => 0
  | .locReadHeader => 0

/-- The argument word a command is encoded with: 0 where it is ignored (R92, R99). -/
def Instr.argWord (i : Instr) : Word :=
  match i with
  | .unpack max => max
  | .brAttach budget => budget
  | .openCtx => 0
  | .closeCtx => 0
  | .getSampleRate => 0
  | .getNumChannels => 0
  | .getBitsPerSample => 0
  | .getBytesPerSample => 0
  | .getNumSamples => 0
  | .getCrcErrors => 0
  | .getReducedChannels => 0
  | .getChannelMask => 0
  | .getFloatExp => 0
  | .getCursor _ => 0
  | .getStatus => 0
  | .getHdr _ => 0
  | .brReadBits _ => 0
  | .brReadBit => 0
  | .locReadHeader => 0

/-- The command word and the argument word of a command (R91, R92, R99). -/
def encode (i : Instr) : Word × Word := (cmdWord i.opcode i.immField, i.argWord)

/-! ### Words numbered as the opcode table numbers them -/

/-- The command and argument words of a table word: bits 31:0 are the first word, bits 63:32 the
second, and every bit above `nbits` is 0 (log entry 25). -/
def tableWords (nbits w : Nat) : Word × Word :=
  let v := w % 2 ^ nbits
  (BitVec.ofNat 32 v, BitVec.ofNat 32 (v / 2 ^ 32))

/-- What the decoder reads from an instruction whose table bits are `w`. -/
def decodeTableWord (nbits w : Nat) : Option Instr :=
  match decode (tableWords nbits w).1 (tableWords nbits w).2 with
  | .ok i => some i
  | .error _ => none

end Sys2Proof
end

