-- ==== Sys2Proof/Config.lean ====
section
/-! DEFINITION. What the spec leaves to an implementation (spec/00_scope.md R10 to R12): the types the
parameters speak of, the record `Params` of all of them, and the uninterpreted parameter set
`Config.openParams`.

A requirement the spec puts on a parameter is built into the type of its field wherever it can be
(log entries 4 and 5), so that every value of `Params` is an instantiation the spec allows. -/

namespace Sys2Proof

/-- The typed header record HDR (spec/10_state.md R27). -/
structure Hdr where
  magic : Word
  ckSize : Word
  version : BitVec 16
  track : Byte
  index : Byte
  total : Word
  blockIndex : Word
  blockSamples : Word
  flags : Word
  crc : Word
  valid : Bool
  deriving DecidableEq, Repr, Inhabited

/-- One channel's history of a pass: MAX_HIST values, the newest at index 0 (R22; MAX_HIST is a
parameter, so the length is an invariant: log entry 2). -/
abbrev Hist := List S32

/-- One entry of the pass register file (R22). `term` is the signed term selector, an s8; `delta`, a
u`DELTA_BITS`, and the weights, each an s`WEIGHT_BITS`, stand by their values (the widths are parameters,
so the ranges are an invariant: log entry 2). -/
structure Pass where
  term : BitVec 8
  delta : Nat
  wA : Int
  wB : Int
  hA : Hist
  hB : Hist
  deriving DecidableEq, Repr, Inhabited

/-- A coded channel: A is channel 0 (left or mono), B is channel 1 (spec/43_decorrelation.md R253). -/
inductive Chan where
  | a
  | b
  deriving DecidableEq, Repr

/-- What `FlagField` returns (spec/30_encoding.md R112). -/
structure FlagRec where
  stored : BitVec 2
  shift : BitVec 5
  srate : BitVec 4
  mono : Bool
  float : Bool
  initial : Bool
  final : Bool
  joint : Bool
  deriving DecidableEq, Repr, Inhabited

/-- ES_T, the entropy decoder's state: a list of words, enough to write out any finite state
(spec/10_state.md R32; log entry 3). -/
abbrev ES := List Word

/-- A computation that reads bits only through `BR_ReadBits(n)` with n at most 32, a finite number
of times, and always returns: exactly what spec/43_decorrelation.md R252 requires of
`EntropyDecode` (log entry 4). -/
inductive BitProg (α : Type) where
  | ret (a : α)
  | read (n : Fin 33) (k : Word → BitProg α)
  deriving Inhabited

/-- The configuration `MetaParse` returns with Done (spec/43_decorrelation.md R246). -/
structure MetaCfg where
  fresh : Bool
  passes : List Pass
  esInit : Option ES
  fexp : Option S32
  deriving DecidableEq, Repr, Inhabited

/-- The three answers of `MetaParse` (R246). -/
inductive MetaResult where
  | need
  | fail
  | done (cfg : MetaCfg) (bitlen : Word)
  deriving DecidableEq, Repr, Inhabited

/-- The kind of a term outside 1..8 (R256): the source fixes SHORT = 1..8 and nothing else. -/
inductive OtherKind where
  | long
  | joint
  | invalid
  deriving DecidableEq, Repr, Inhabited

/-- What a JOINT pass chooses (R262): the predictor input of each channel and the histories after
the step. The outputs and the weights then follow from `ApplyWeight`, `wrap32` and R260. -/
structure JointPlan where
  sA : S32
  sB : S32
  hA : Hist
  hB : Hist
  deriving DecidableEq, Repr, Inhabited

/-- One triple of HV_CONSTRAINTS (spec/00_scope.md R12). The offset is in 4..31
(spec/41_block_locator.md R161): the field holds the offset less 4. -/
structure HvConstraint where
  offLess4 : Fin 28
  mask : Byte
  value : Byte
  deriving DecidableEq, Repr, Inhabited

/-- Every implementation parameter of WVCORE (spec/00_scope.md R10, R11, R12). The reader of a
field is named in Machine/Params.lean. -/
structure Params where
  /-- BR_BUF_BYTES (R10); 0 counts as 1, since it is at least 1. -/
  brBufRaw : Nat
  /-- MAX_PASSES (R10). -/
  maxPasses : Nat
  /-- MAX_HIST (R10); less than 8 counts as 8, since it is at least 8. -/
  maxHistRaw : Nat
  /-- WEIGHT_BITS (R10); less than 2 counts as 2, since a weight bound is positive (R260). -/
  weightBitsRaw : Nat
  /-- DELTA_BITS (R10). -/
  deltaBits : Nat
  /-- HV_VERS_OFF less 4 (R12; the offset is in 4..31). -/
  hvVersOffLess4 : Fin 28
  /-- HV_VMIN and HV_VMAX (R12). -/
  hvVMin : Byte
  hvVMax : Byte
  /-- HV_CONSTRAINTS (R12). -/
  hvConstraints : List HvConstraint
  /-- FlagField (spec/30_encoding.md R112). -/
  flagField : Word → FlagRec
  /-- RATE_TABLE (spec/42_context.md R206): the one code that means Custom, and the other codes' rates. -/
  rateCustom : BitVec 4
  rateOther : BitVec 4 → Word
  /-- DefaultMask (spec/42_context.md R208). -/
  defaultMask : Word → Word
  /-- MetaParse (spec/43_decorrelation.md R246): the header and the payload read so far. A history it
  gives is cut or filled with zeros to MAX_HIST values. -/
  metaParse : Hdr → List Byte → MetaResult
  /-- ES_RESET (spec/10_state.md R36). -/
  esReset : ES
  /-- EntropyDecode (spec/43_decorrelation.md R252). -/
  entropyDecode : ES → Chan → BitProg (S32 × ES)
  /-- TermKind of the terms outside 1..8 (R256). -/
  otherKind : BitVec 8 → OtherKind
  /-- PredInput of a LONG term (R258). -/
  longInput : BitVec 8 → Hist → S32
  /-- ApplyWeight (R259). -/
  applyWeight : Int → S32 → S32
  /-- WBound (R260): a value outside 1..2^(WEIGHT_BITS − 1) − 1 counts as the nearest in it. -/
  wBoundRaw : BitVec 8 → Nat
  /-- The choices of JointStep (R262). A history it gives is cut or filled as MetaParse's. -/
  jointPlan : Pass → S32 → S32 → JointPlan
  /-- PostChain on a frame of one and of two values (R264): the length is kept. -/
  postMono : Word → S32 → S32
  postStereo : Word → S32 → S32 → S32 × S32
  /-- CRC_INIT and CrcStep (R266). -/
  crcInit : Word
  crcStep : Word → S32 → Word
  /-- Fixup (R268): the flags, the float exponent and the value. -/
  fixup : Word → S32 → S32 → S32
  deriving Inhabited

/-- A parameter set of which nothing is known: the free value of this model (log entry 1). Whatever
is proved of a state whose build is `uninterpreted` holds of every instantiation of the parameters. -/
opaque Config.openParams : Params

end Sys2Proof
end

