-- ==== Sys2Proof/Machine/Params.lean ====
section
/-! DEFINITION. The fixed values of the source (spec/00_scope.md R9), the fixed-width arithmetic of
R14, and the reader of each implementation parameter: the functions the rules call, with the part the
source fixes put in front of the part it leaves open. -/

namespace Sys2Proof

/-! ### Fixed values (spec/00_scope.md R9) -/

/-- HDR_BYTES, the header window and header length. -/
def hdrBytes : Nat := 32

/-- RESYNC_BUDGET, the largest skipped-byte count at which a header test still happens. -/
def resyncBudget : Nat := 1048576

/-- NBITS_MAX, the widest bit request. -/
def nbitsMax : Nat := 32

/-- RATE_DEFAULT. -/
def rateDefault : Word := 44100

/-- FLOAT_BITS and FLOAT_BYTES. -/
def floatBits : Word := 24
def floatBytes : Word := 3

/-- The total-sample sentinel "unknown" (spec/30_encoding.md R103). -/
def totalUnknown : Word := 0xFFFFFFFF

/-! ### Arithmetic primitives (spec/00_scope.md R14) -/

/-- The s32 with the same value modulo 2^32. -/
def wrap32 (v : Int) : S32 := BitVec.ofInt 32 v

/-- −1, 0 or +1. -/
def sgn (v : Int) : Int := if v < 0 then -1 else if v = 0 then 0 else 1

/-- `min (max v lo) hi`. -/
def clampInt (v lo hi : Int) : Int := min (max v lo) hi

/-- The little-endian value of a byte string: the byte at the lower offset is less significant
(spec/20_memory.md R69). -/
def leNat : List Byte → Nat
  | [] => 0
  | b :: bs => b.toNat + 256 * leNat bs

/-- `le(w, o, n)`: the little-endian value of the n bytes of w from offset o
(spec/41_block_locator.md R166). -/
def leField (w : List Byte) (o n : Nat) : Nat := leNat ((w.drop o).take n)

/-! ### Histories (spec/10_state.md R22) -/

/-- MAX_HIST, at least 8 (spec/00_scope.md R10). -/
def Params.maxHist (P : Params) : Nat := max 8 P.maxHistRaw

/-- The history entry at an index, 0 the newest; past the last it reads 0 (no rule reads one). -/
def histAt (h : Hist) (i : Nat) : S32 := h.getD i 0

/-- The history push: the new value enters at index 0 and `h[MAX_HIST − 1]` is evicted
(spec/43_decorrelation.md R261). -/
def Params.histPush (P : Params) (h : Hist) (y : S32) : Hist := y :: h.take (P.maxHist - 1)

/-- A history a parameter gives, at MAX_HIST values. -/
def Params.histFit (P : Params) (h : Hist) : Hist :=
  h.take P.maxHist ++ List.replicate (P.maxHist - h.length) 0

/-- A history of n zeros. -/
def histZero (n : Nat) : Hist := List.replicate n 0

/-! ### The parameters as the rules read them -/

/-- BR_BUF_BYTES, at least 1 (spec/00_scope.md R10). -/
def Params.bufBytes (P : Params) : Nat := max 1 P.brBufRaw

/-- WEIGHT_BITS, at least 2 (spec/00_scope.md R10, spec/43_decorrelation.md R260). -/
def Params.weightBits (P : Params) : Nat := max 2 P.weightBitsRaw

/-- The largest s`WEIGHT_BITS`. -/
def Params.weightMax (P : Params) : Nat := 2 ^ (P.weightBits - 1) - 1

/-- WBound, positive and at most 2^(WEIGHT_BITS − 1) − 1 (spec/43_decorrelation.md R260). -/
def Params.wBound (P : Params) (t : BitVec 8) : Nat := max 1 (min (P.wBoundRaw t) P.weightMax)

/-- A pass tuple a parameter gives, with both histories at MAX_HIST values. -/
def Params.passFit (P : Params) (p : Pass) : Pass :=
  { p with hA := P.histFit p.hA, hB := P.histFit p.hB }

/-- MetaParse, with every history at MAX_HIST values (spec/43_decorrelation.md R246). -/
def Params.parseMeta (P : Params) (h : Hdr) (q : List Byte) : MetaResult :=
  match P.metaParse h q with
  | .need => .need
  | .fail => .fail
  | .done cfg bitlen => .done { cfg with passes := cfg.passes.map (Params.passFit P) } bitlen

/-- The kinds of a term (R256). -/
inductive TermKind where
  | short
  | long
  | joint
  | invalid
  deriving DecidableEq, Repr

/-- TermKind: SHORT is exactly 1..8, which the source fixes; the other terms are the parameter's (R256). -/
def Params.termKind (P : Params) (t : BitVec 8) : TermKind :=
  if 1 ≤ t.toNat ∧ t.toNat ≤ 8 then .short
  else match P.otherKind t with
    | .long => .long
    | .joint => .joint
    | .invalid => .invalid

/-- RateOf: RATE_TABLE's rate, or 44100 for the one code that means Custom (spec/42_context.md R206). -/
def Params.rateOf (P : Params) (code : BitVec 4) : Word :=
  if code = P.rateCustom then rateDefault else P.rateOther code

/-- PredInput: `h[t − 1]` for a SHORT term t, the parameter's for a LONG one (R258). -/
def Params.predInput (P : Params) (t : BitVec 8) (h : Hist) : S32 :=
  match P.termKind t with
  | .short => histAt h (t.toNat - 1)
  | .long => P.longInput t h
  | .joint => P.longInput t h
  | .invalid => P.longInput t h

/-- The weight update U(w, s, x) of a term with a delta: computed exactly, clamped to the bound, which
fits in WEIGHT_BITS (R260). -/
def Params.updWeight (P : Params) (t : BitVec 8) (delta : Nat) (w : Int) (s x : S32) : Int :=
  clampInt (w + sgn s.toInt * sgn x.toInt * (delta : Int)) (-(P.wBound t : Int)) (P.wBound t : Int)

/-- JointStep (R262): the inputs and the histories are the parameter's choice; each output is
`wrap32 (x + ApplyWeight(w, s))` and each weight moves by R260. -/
def Params.jointStep (P : Params) (p : Pass) (xA xB : S32) : (S32 × S32) × Pass :=
  let j := P.jointPlan p xA xB
  ((xA + P.applyWeight p.wA j.sA, xB + P.applyWeight p.wB j.sB),
    { p with
      wA := P.updWeight p.term p.delta p.wA j.sA xA
      wB := P.updWeight p.term p.delta p.wB j.sB xB
      hA := P.histFit j.hA
      hB := P.histFit j.hB })

end Sys2Proof
end

