-- ==== Sys2Proof/Machine/TestInst.lean ====
section
/-! DEFINITION. The test instantiation TI (spec/43_decorrelation.md R280 to R282): the defaults of the
spec for every parameter that has one, TI-META and TI-ENT. The defaults K2 to K13 are PRESUMED by the
spec itself (general knowledge, not in its source: spec/93_implementation_defined.md); log entry 22. -/

namespace Sys2Proof

/-- The default HV_CONSTRAINTS (spec/41_block_locator.md R161): size even, size below 2^20, version
high byte 4. -/
def tiConstraints : List HvConstraint :=
  [ { offLess4 := 0, mask := 0x01, value := 0x00 },
    { offLess4 := 2, mask := 0xF0, value := 0x00 },
    { offLess4 := 3, mask := 0xFF, value := 0x00 },
    { offLess4 := 5, mask := 0xFF, value := 0x04 } ]

/-- The default FlagField (spec/30_encoding.md R111). -/
def tiFlagField (f : Word) : FlagRec :=
  { stored := f.extractLsb' 0 2
    mono := f.getLsbD 2
    joint := f.getLsbD 4
    float := f.getLsbD 7
    initial := f.getLsbD 11
    final := f.getLsbD 12
    shift := f.extractLsb' 13 5
    srate := f.extractLsb' 23 4 }

/-- The rates of the default RATE_TABLE; code 15 is Custom (spec/42_context.md R206). -/
def tiRate (code : BitVec 4) : Word :=
  match code.toNat with
  | 0 => 6000
  | 1 => 8000
  | 2 => 9600
  | 3 => 11025
  | 4 => 12000
  | 5 => 16000
  | 6 => 22050
  | 7 => 24000
  | 8 => 32000
  | 9 => 44100
  | 10 => 48000
  | 11 => 64000
  | 12 => 88200
  | 13 => 96000
  | 14 => 192000
  | _ => 44100

/-- The default DefaultMask (spec/42_context.md R208). -/
def tiDefaultMask (nch : Word) : Word := if nch = 1 then 0x4 else 0x3

/-- The default kinds of the terms outside 1..8 (R256): LONG is 17 and 18, JOINT is −1, −2 and −3. -/
def tiOtherKind (t : BitVec 8) : OtherKind :=
  if t = 17 ∨ t = 18 then .long
  else if t = 0xFF ∨ t = 0xFE ∨ t = 0xFD then .joint
  else .invalid

/-- The default PredInput of the LONG terms (R258). -/
def tiLongInput (t : BitVec 8) (h : Hist) : S32 :=
  if t = 17 then wrap32 (2 * (histAt h 0).toInt - (histAt h 1).toInt)
  else (wrap32 (3 * (histAt h 0).toInt - (histAt h 1).toInt)).sshiftRight 1

/-- The default ApplyWeight (R259): the product is exact and the shift is a floor division by 1024. -/
def tiApplyWeight (w : Int) (s : S32) : S32 := wrap32 ((w * s.toInt + 512) / 1024)

/-- The choices of the default JointStep for the terms −1, −2 and −3 (R262). -/
def tiJointPlan (p : Pass) (xA xB : S32) : JointPlan :=
  if p.term = 0xFF then
    let sA := histAt p.hA 0
    let yA := xA + tiApplyWeight p.wA sA
    let yB := xB + tiApplyWeight p.wB yA
    { sA := sA, sB := yA, hA := p.hA.set 0 yB, hB := p.hB }
  else if p.term = 0xFE then
    let sB := histAt p.hB 0
    let yB := xB + tiApplyWeight p.wB sB
    let yA := xA + tiApplyWeight p.wA yB
    { sA := yB, sB := sB, hA := p.hA, hB := p.hB.set 0 yA }
  else
    let sA := histAt p.hA 0
    let sB := histAt p.hB 0
    let yA := xA + tiApplyWeight p.wA sA
    let yB := xB + tiApplyWeight p.wB sB
    { sA := sA, sB := sB, hA := p.hA.set 0 yB, hB := p.hB.set 0 yA }

/-- The default CrcStep: `3·crc + s` modulo 2^32 (R266). -/
def tiCrcStep (crc : Word) (s : S32) : Word := 3 * crc + s

/-- TI's MAX_PASSES and MAX_HIST, the spec's defaults (spec/00_scope.md R10). -/
def tiMaxPasses : Nat := 16
def tiMaxHist : Nat := 8

/-- The i-th pass tuple of a TI-META prefix (R281): term, delta, wA and wB, with zero histories. -/
def tiPass (q : List Byte) (i : Nat) : Pass :=
  { term := q.getD (2 + 6 * i) 0
    delta := (q.getD (3 + 6 * i) 0).toNat
    wA := (BitVec.ofNat 16 (leField q (4 + 6 * i) 2)).toInt
    wB := (BitVec.ofNat 16 (leField q (6 + 6 * i) 2)).toInt
    hA := histZero tiMaxHist
    hB := histZero tiMaxHist }

/-- TI's weight bound, the default 1024 for every term (R260). -/
def tiWBound : Nat := 1024

/-- A tuple TI-META accepts: the term is not Invalid and the weights are within the bound (R281). -/
def tiPassValid (p : Pass) : Bool :=
  (decide (1 ≤ p.term.toNat ∧ p.term.toNat ≤ 8) || decide (tiOtherKind p.term ≠ .invalid))
    && decide (p.wA.natAbs ≤ tiWBound) && decide (p.wB.natAbs ≤ tiWBound)

/-- TI-META (R281). -/
def tiMetaParse (q : List Byte) : MetaResult :=
  match q with
  | fresh :: n :: _ =>
    if fresh.toNat ≠ 0 ∧ fresh.toNat ≠ 1 then .fail
    else if fresh = 0 ∧ n ≠ 0 then .fail
    else if tiMaxPasses < n.toNat then .fail
    else if q.length < 6 + 6 * n.toNat then .need
    else
      let passes := (List.range n.toNat).map (tiPass q)
      if passes.all tiPassValid then
        .done { fresh := fresh = 1, passes := passes, esInit := none, fexp := none }
          (BitVec.ofNat 32 (leField q (2 + 6 * n.toNat) 4))
      else .fail
  | _ => .need

/-- TI-ENT (R282): each residual is one signed byte of the bitstream. -/
def tiEntropy : BitProg (S32 × ES) :=
  .read 8 fun v => .ret ((v.setWidth 8).signExtend 32, [])

/-- The test instantiation (R280). -/
def Params.ti : Params where
  brBufRaw := 1024
  maxPasses := tiMaxPasses
  maxHistRaw := tiMaxHist
  weightBitsRaw := 32
  deltaBits := 8
  hvVersOffLess4 := 4
  hvVMin := 0x02
  hvVMax := 0x10
  hvConstraints := tiConstraints
  flagField := tiFlagField
  rateCustom := 15
  rateOther := tiRate
  defaultMask := tiDefaultMask
  metaParse := fun _ q => tiMetaParse q
  esReset := []
  entropyDecode := fun _ _ => tiEntropy
  otherKind := tiOtherKind
  longInput := tiLongInput
  applyWeight := tiApplyWeight
  wBoundRaw := fun _ => tiWBound
  jointPlan := tiJointPlan
  postMono := fun _ v => v
  postStereo := fun _ a b => (a, b)
  crcInit := 0xFFFFFFFF
  crcStep := tiCrcStep
  fixup := fun _ _ v => v

end Sys2Proof
end

