-- ==== Sys2Proof/Machine/State.lean ====
section
/-! DEFINITION. The state of WVCORE (spec/10_state.md) and of its three ports, its reset value, and
the reasons a step can stop. State is plain data. -/

namespace Sys2Proof.Machine

/-- SEQ.state, the context phase (R21). -/
inductive Phase where
  | noctx
  | ready
  | ended
  | failed
  deriving DecidableEq, Repr

/-- SEQ.cause (R35); a locate's outcome uses the same names (spec/41_block_locator.md R160). -/
inductive Cause where
  | none
  | eos
  | exhausted
  | format
  deriving DecidableEq, Repr

/-- SEQ: sequencer and status (R20, R33). -/
structure Seq where
  phase : Phase
  cause : Cause
  contract : Bool
  deriving DecidableEq, Repr

/-- BR: the bit reader (R25). `fin` is BR.end. A buffer position past the end of `buf` reads 0; no
rule reads one (R37; log entry 6). -/
structure BitReader where
  buf : List Byte
  idx : Nat
  fin : Nat
  acc : BitVec 39
  cnt : Nat
  eod : Bool
  budget : Word
  deriving DecidableEq, Repr

/-- CTX: the frozen configuration and the running counters (R28). `frameWidth` is CTX.W. -/
structure Ctx where
  rate : Word
  nch : Word
  bits : Word
  bytes : Word
  mask : Word
  reduced : Word
  total : Word
  crcErrors : Word
  cursor : BitVec 64
  frameWidth : Word
  deriving DecidableEq, Repr

/-- BLK: the active block (R30, R31). -/
structure Blk where
  active : Bool
  bytesLeft : Word
  crc : Word
  bc : Nat
  blockIndex : Word
  blockSamples : Word
  flags : Word
  crcStored : Word
  deriving DecidableEq, Repr

/-- Response codes (spec/30_encoding.md R94). -/
inductive RespCode where
  | ok
  | endOfStream
  | fail
  | illegalCmd
  | illegalState
  | contract
  deriving DecidableEq, Repr

/-- A response of the command port (R90, R94). -/
structure Response where
  code : RespCode
  data : Word
  deriving DecidableEq, Repr

/-- The byte source as WVCORE meets it (spec/20_memory.md R60, R61, R63): the bytes not yet taken, how
many bytes the next responses carry (a request beyond the list is answered in full), and how many
bytes have been taken (log entry 8). The stream is finite: an unbounded source, which R60 allows, is
left out (log entry 28). -/
structure Source where
  stream : List Byte
  splits : List Nat
  taken : Nat
  deriving DecidableEq, Repr

/-- One transaction of a data port (R61, R66): a source request with its length and the signed count
of its response, or a sample written at a u32 index. A sample whose exact index (R265) no u32 holds is
an `outWriteFar` (log entry 11). -/
inductive PortEvent where
  | srcRead (len : Word) (count : S32)
  | outWrite (i : Word) (v : S32)
  | outWriteFar (n : Nat) (v : S32)
  deriving DecidableEq, Repr

/-- The output buffer: index and sample, the indexes strictly rising (R66; log entry 10). An index
that is not listed has not been written. -/
abbrev Memory := List (Nat × S32)

/-- What the environment does next (spec/70_reset_and_hazards.md R350; log entries 12 to 14, 23). -/
inductive HostInput where
  /-- A command presented while WVCORE is idle. -/
  | command (cmd arg : Word)
  /-- A command, and a second one presented while the first is running (R345). -/
  | overlapped (cmd arg cmd2 arg2 : Word)
  /-- Reset asserted between commands (R340). -/
  | reset
  /-- A command, and reset asserted while it runs, after `n` of its port transactions (R342). -/
  | resetDuring (n : Nat) (cmd arg : Word)
  /-- A byte source is connected (R343). -/
  | connect (stream : List Byte) (splits : List Nat)
  /-- Another agent takes bytes from the source (R347). -/
  | taken (n : Nat)
  /-- The host provides an output buffer in which nothing has been written (R343). -/
  | provideBuffer
  deriving DecidableEq, Repr

/-- Which parameter set the unit was built with: one of which nothing is known, or TI (log entry 1). -/
inductive Build where
  | uninterpreted
  | ti
  deriving DecidableEq, Repr

/-- The parameters of a build. -/
def Build.params : Build → Params
  | .uninterpreted => Config.openParams
  | .ti => Params.ti

/-- Why the machine would stop with a fault. -/
inductive Fault where
  /-- The header loop of OPEN or the loop of UNPACK ran past the bound of its rounds. Raised by
  `openLoop` and `unpackLoop` only; R352 says no command loops for ever, and no step raises it. Safe:
  a run that would need more rounds stops. Log entry 16. -/
  | loopBound
  deriving DecidableEq, Repr

/-- Why the machine would refuse an instruction. -/
inductive Refusal where
  /-- An instruction that has no meaning in this model, by its mnemonic. Raised by `exec` only; no
  instruction raises it. Safe. -/
  | notModelled (mnemonic : String)
  deriving DecidableEq, Repr

end Sys2Proof.Machine

namespace Sys2Proof.Machine

/-- The state of WVCORE and its ports. -/
@[ext]
structure State where
  /-- SEQ. -/
  seq : Seq
  /-- BR. -/
  br : BitReader
  /-- LOC.win (R26). -/
  win : List Byte
  /-- HDR (R27). -/
  hdr : Hdr
  /-- CTX. -/
  ctx : Ctx
  /-- BLK. -/
  blk : Blk
  /-- PASS, the entries below PASS.n in registration order; PASS.n is the length (R22; log entry 7). -/
  pass : List Pass
  /-- ES (R32). -/
  es : ES
  /-- FLT.exp (R29). -/
  fexp : S32
  /-- The byte-source port's environment side. -/
  src : Source
  /-- The output buffer. -/
  out : Memory
  /-- The response last presented on the command port. -/
  resp : Option Response
  /-- The inputs the environment will present, in order (the model's own; log entry 12). -/
  host : List HostInput
  /-- The port transactions of the command, newest first (the model's own; log entry 19). -/
  log : List PortEvent
  /-- The build (the model's own; log entry 1). -/
  build : Build
  deriving DecidableEq, Repr

/-- What a meaning answers. -/
abbrev Out := Host.Outcome State Fault Refusal

/-- The parameters the unit was built with. -/
def State.params (s : State) : Params := s.build.params

/-! ### One update per field -/

def State.setSeq (s : State) (x : Seq) : State := { s with seq := x }
def State.setBr (s : State) (x : BitReader) : State := { s with br := x }
def State.setWin (s : State) (x : List Byte) : State := { s with win := x }
def State.setHdr (s : State) (x : Hdr) : State := { s with hdr := x }
def State.setCtx (s : State) (x : Ctx) : State := { s with ctx := x }
def State.setBlk (s : State) (x : Blk) : State := { s with blk := x }
def State.setPass (s : State) (x : List Pass) : State := { s with pass := x }
def State.setEs (s : State) (x : ES) : State := { s with es := x }
def State.setFexp (s : State) (x : S32) : State := { s with fexp := x }
def State.setSrc (s : State) (x : Source) : State := { s with src := x }
def State.setOut (s : State) (x : Memory) : State := { s with out := x }
def State.setResp (s : State) (x : Option Response) : State := { s with resp := x }
def State.setHost (s : State) (x : List HostInput) : State := { s with host := x }
def State.setLog (s : State) (x : List PortEvent) : State := { s with log := x }

/-! ### Reset (spec/10_state.md R36) -/

/-- HDR after reset. -/
def Hdr.reset : Hdr :=
  { magic := 0, ckSize := 0, version := 0, track := 0, index := 0, total := 0, blockIndex := 0,
    blockSamples := 0, flags := 0, crc := 0, valid := false }

/-- BR after reset. -/
def BitReader.reset : BitReader :=
  { buf := [], idx := 0, fin := 0, acc := 0, cnt := 0, eod := false, budget := 0 }

/-- CTX after reset: the fallbacks of R34. -/
def Ctx.reset (P : Params) : Ctx :=
  { rate := rateDefault, nch := 2, bits := 16, bytes := 2, mask := P.defaultMask 2, reduced := 0,
    total := totalUnknown, crcErrors := 0, cursor := 0, frameWidth := 2 }

/-- BLK after reset. -/
def Blk.reset (P : Params) : Blk :=
  { active := false, bytesLeft := 0, crc := P.crcInit, bc := 0, blockIndex := 0, blockSamples := 0,
    flags := 0, crcStored := 0 }

/-- The machine of a build right after reset, with no input waiting. No byte source is connected, and
one that is not connected answers as an exhausted one (log entry 29). -/
def State.resetOf (b : Build) : State :=
  { seq := { phase := .noctx, cause := .none, contract := false }
    br := BitReader.reset
    win := []
    hdr := Hdr.reset
    ctx := Ctx.reset b.params
    blk := Blk.reset b.params
    pass := []
    es := b.params.esReset
    fexp := 0
    src := { stream := [], splits := [], taken := 0 }
    out := []
    resp := none
    host := []
    log := []
    build := b }

/-- The machine right after reset (R36), built with the test instantiation (log entry 1). -/
def State.reset : State := State.resetOf .ti

end Sys2Proof.Machine
end

