-- ==== Sys2Proof/Machine/Ops.lean ====
section
/-! DEFINITION. The named operations over the ports and the registers: the output buffer, the two data
ports, the response, the terminal transitions and the clearing of a context. -/

namespace Sys2Proof.Machine

/-! ### The output buffer (spec/20_memory.md R66) -/

/-- The canonical form: the indexes strictly rise. Every listed index holds a sample, and an index
that is not listed holds none, so equal buffers are equal lists. -/
abbrev Memory.wf (m : Memory) : Prop := m.Pairwise (fun a b => a.1 < b.1)

/-- The sample at an index, or nothing where none has been written. -/
def Memory.read (m : Memory) (i : Nat) : Option S32 :=
  match m with
  | [] => none
  | (j, v) :: rest => if i = j then some v else Memory.read rest i

/-- Write a sample at an index; a later write to the same index overwrites (R66). -/
def Memory.write (m : Memory) (i : Nat) (v : S32) : Memory :=
  match m with
  | [] => [(i, v)]
  | (j, w) :: rest =>
    if i < j then (i, v) :: (j, w) :: rest
    else if i = j then (i, v) :: rest
    else (j, w) :: Memory.write rest i v

/-! ### The data ports -/

/-- Record a port transaction. -/
def State.emit (e : PortEvent) (s : State) : State := s.setLog (e :: s.log)

/-- The byte source after it has answered a request with `got` bytes. -/
def Source.drop (r : Source) (got : Nat) : Source :=
  { stream := r.stream.drop got, splits := r.splits.tail, taken := r.taken + got }

/-- The largest count a response can carry, a signed 32-bit number (R61). -/
def countMax : Nat := 2147483647

/-- The bytes the source answers a request of length L with: at most L, at most the draw, which is at
least 1, at most `countMax`, and none only when the stream has none left (R61 to R64; log entry 8). -/
def Source.answer (r : Source) (L : Nat) : List Byte :=
  match r.splits with
  | [] => r.stream.take (min L countMax)
  | k :: _ => r.stream.take (min (min L countMax) (max 1 k))

/-- How many bytes a response with a count carries: none where the count is 0 or negative (R61). -/
def countBytes (count : S32) : Nat := count.toInt.toNat

/-- `SrcRead(L)`: one request of the byte-source port; the empty list means exhaustion (R62). -/
def srcRead (L : Nat) (s : State) : List Byte × State :=
  let d := s.src.answer L
  (d, (s.setSrc (s.src.drop d.length)).emit (.srcRead (BitVec.ofNat 32 L) (BitVec.ofNat 32 d.length)))

/-- Read until n bytes are held or the source is exhausted, asking each time for what is still
missing: the loop of the locator's refill (spec/41_block_locator.md R162) and of `Drain`
(spec/42_context.md R226). `fuel` is at least n, and each round that goes on takes a byte. -/
def srcTake : Nat → Nat → State → List Byte × State
  | 0, _, s => ([], s)
  | fuel + 1, n, s =>
    if n = 0 then ([], s)
    else
      let r := srcRead n s
      if r.1 = [] then ([], r.2)
      else
        let r' := srcTake fuel (n - r.1.length) r.2
        (r.1 ++ r'.1, r'.2)

/-- `Drain(n)`: take and discard the next n payload bytes; false when the source runs out (R226). -/
def drain (n : Nat) (s : State) : Bool × State :=
  let r := srcTake n n s
  (decide (r.1.length = n), r.2)

/-- `OutWrite(i, v)`, with i a u32: write one sample of the output buffer (R66). -/
def outWrite (i : Word) (v : S32) (s : State) : State :=
  (s.setOut (s.out.write i.toNat v)).emit (.outWrite i v)

/-- The same for a sample whose index no u32 holds (spec/43_decorrelation.md R265; log entry 11). -/
def outWriteFar (n : Nat) (v : S32) (s : State) : State :=
  (s.setOut (s.out.write n v)).emit (.outWriteFar n v)

/-- Write the sample number n of a command at index n, exactly and without wrap: through `OutWrite`
where a u32 holds the index (spec/00_scope.md R14, R66, spec/43_decorrelation.md R265). -/
def writeSample (n : Nat) (v : S32) (s : State) : State :=
  if n < 2 ^ 32 then outWrite (BitVec.ofNat 32 n) v s else outWriteFar n v s

/-! ### Responses (spec/30_encoding.md R94) -/

/-- `respond(code, data)`. -/
def State.respond (code : RespCode) (data : Word) (s : State) : State :=
  s.setResp (some { code := code, data := data })

/-- An illegal command word: ILLEGAL_CMD with data 0 and no other change (R93, R96;
spec/60_exceptions.md R306). -/
def illegalCmd (s : State) : State := s.respond .illegalCmd 0

/-- A command not allowed in the phase: ILLEGAL_STATE with data 0 and no other change
(spec/60_exceptions.md R307). -/
def illegalState (s : State) : State := s.respond .illegalState 0

/-! ### Errors (spec/60_exceptions.md R303, R305) -/

/-- `raise Contract()`: the sticky contract bit and CONTRACT, nothing else (R305; log entry 15). -/
def raiseContract (s : State) : State :=
  (s.setSeq { s.seq with contract := true }).respond .contract 0

/-- `EndStream(c)`: the terminal transition inside UNPACK (R303, spec/43_decorrelation.md R241). The
loop then ends. -/
def endStream (c : Cause) (s : State) : State :=
  (s.setSeq { s.seq with phase := .ended, cause := c }).setBlk { s.blk with active := false }

/-- `BR_Attach(budget)`: ready the bit reader for a new stream (spec/40_bit_reader.md R133). The
buffer's contents stay; they are no longer valid. -/
def brAttachOp (budget : Word) (s : State) : State :=
  s.setBr { s.br with idx := 0, fin := 0, acc := 0, cnt := 0, eod := false, budget := budget }

/-- `ContextClear()`: every context register at its fallback or reset value
(spec/42_context.md R201). -/
def contextClear (P : Params) (s : State) : State :=
  brAttachOp 0
    (((((s.setCtx (Ctx.reset P)).setFexp 0).setBlk (Blk.reset P)).setPass []).setEs P.esReset)

/-- `OpenFail(c)`: the terminal transition inside OPEN (spec/42_context.md R204, R303). -/
def openFail (P : Params) (c : Cause) (s : State) : State :=
  let s1 := contextClear P s
  (s1.setSeq { s1.seq with phase := .failed, cause := c }).respond .fail 0

end Sys2Proof.Machine
end

