-- ==== Sys2Proof/Machine/Flags.lean ====
section
/-! DEFINITION. The status word and the codes of the command port (spec/10_state.md R33, R35;
spec/30_encoding.md R94). WVCORE has no condition codes (R33). -/

namespace Sys2Proof.Machine

/-- The code of SEQ.state in the status word (R35). -/
def Phase.code : Phase → Nat
  | .noctx => 0
  | .ready => 1
  | .ended => 2
  | .failed => 3

/-- The code of SEQ.cause in the status word (R35). -/
def Cause.code : Cause → Nat
  | .none => 0
  | .eos => 1
  | .exhausted => 2
  | .format => 3

/-- The 4-bit code of a response (spec/30_encoding.md R94). -/
def RespCode.code : RespCode → Nat
  | .ok => 0
  | .endOfStream => 1
  | .fail => 2
  | .illegalCmd => 3
  | .illegalState => 4
  | .contract => 5

/-- The status word `SEQ.state | SEQ.cause << 4 | BR.eod << 8 | SEQ.contract << 9 | HDR.valid << 10`
(R35, spec/42_context.md R224); every other bit is 0. -/
def statusWord (s : State) : Word :=
  BitVec.ofNat 32 (s.seq.phase.code + s.seq.cause.code * 16 + s.br.eod.toNat * 256
    + s.seq.contract.toNat * 512 + s.hdr.valid.toNat * 1024)

end Sys2Proof.Machine
end

