-- ==== Sys2Proof/Machine/Operands.lean ====
section
/-! DEFINITION. The operand forms of a command (spec/30_encoding.md R92) and the checks of the decode
order that depend on the phase (R98 steps 4 and 5). -/

namespace Sys2Proof.Machine

/-- An immediate, zero-extended: the bit count of BR_READ_BITS, the word select of GET_CURSOR, the
field number of GET_HDR. No immediate is sign-extended or scaled (R92). -/
def immOperand (imm : BitVec 8) : Nat := imm.toNat

/-- The argument word, a u32 used whole: the frame count of UNPACK (R92). -/
def framesOperand (arg : Word) : Nat := arg.toNat

/-- R98 step 4: the component commands 0x20..0x23 run only in NOCTX. -/
def onlyInNoctx (s : State) (run : Out) : Out :=
  if s.seq.phase = .noctx then run else .next (illegalState s)

/-- R98 step 5: UNPACK runs only in READY and ENDED. -/
def onlyWithContext (s : State) (run : Out) : Out :=
  if s.seq.phase = .noctx ∨ s.seq.phase = .failed then .next (illegalState s) else run

end Sys2Proof.Machine
end

