-- ==== Sys2Proof/Machine/Accessors.lean ====
section
/-! DEFINITION. The accessor commands 0x10..0x1B (spec/42_context.md R214 to R227). Every one is legal
in any phase, changes no state and responds OK, unless its immediate is illegal. In NOCTX and FAILED
the registers hold the fallbacks of spec/10_state.md R34, so each reads its register directly
(R214; log entry 17). -/

namespace Sys2Proof.Machine

/-- The common form of an accessor: respond with a register (R214). -/
def answer (data : Word) (s : State) : Out := .next (s.respond .ok data)

/-- GET_SAMPLE_RATE (R227). -/
def execGetSampleRate (s : State) : Out := answer s.ctx.rate s

/-- GET_NUM_CHANNELS (R215). -/
def execGetNumChannels (s : State) : Out := answer s.ctx.nch s

/-- GET_BITS_PER_SAMPLE (R216). -/
def execGetBitsPerSample (s : State) : Out := answer s.ctx.bits s

/-- GET_BYTES_PER_SAMPLE (R217). -/
def execGetBytesPerSample (s : State) : Out := answer s.ctx.bytes s

/-- GET_NUM_SAMPLES (R218). -/
def execGetNumSamples (s : State) : Out := answer s.ctx.total s

/-- GET_CRC_ERRORS (R219). -/
def execGetCrcErrors (s : State) : Out := answer s.ctx.crcErrors s

/-- GET_REDUCED_CHANNELS (R220). -/
def execGetReducedChannels (s : State) : Out := answer s.ctx.reduced s

/-- GET_CHANNEL_MASK (R221). -/
def execGetChannelMask (s : State) : Out := answer s.ctx.mask s

/-- GET_FLOAT_EXP (R222). -/
def execGetFloatExp (s : State) : Out := answer s.fexp s

/-- One word of the cursor: 0 the low one, 1 the high one (R223). -/
def cursorWord (k : Nat) (c : BitVec 64) : Option Word :=
  match k with
  | 0 => some (c.extractLsb' 0 32)
  | 1 => some (c.extractLsb' 32 32)
  | _ => none

/-- GET_CURSOR k (R223); k above 1 responds ILLEGAL_CMD. -/
def execGetCursor (k : BitVec 8) (s : State) : Out :=
  match cursorWord (immOperand k) s.ctx.cursor with
  | some w => answer w s
  | none => .next (illegalCmd s)

/-- GET_STATUS (R224). -/
def execGetStatus (s : State) : Out := answer (statusWord s) s

/-- One field of the last parsed header, zero-extended to 32 bits (R225). -/
def hdrField (k : Nat) (h : Hdr) : Option Word :=
  match k with
  | 0 => some h.magic
  | 1 => some h.ckSize
  | 2 => some (h.version.setWidth 32)
  | 3 => some (h.track.setWidth 32)
  | 4 => some (h.index.setWidth 32)
  | 5 => some h.total
  | 6 => some h.blockIndex
  | 7 => some h.blockSamples
  | 8 => some h.flags
  | 9 => some h.crc
  | 10 => some (if h.valid then 1 else 0)
  | _ => none

/-- GET_HDR k (R225); k above 10 responds ILLEGAL_CMD. -/
def execGetHdr (k : BitVec 8) (s : State) : Out :=
  match hdrField (immOperand k) s.hdr with
  | some w => answer w s
  | none => .next (illegalCmd s)

end Sys2Proof.Machine
end

