-- ==== Sys2Proof/Machine/BitReader.lean ====
section
/-! DEFINITION. The bit reader (spec/40_bit_reader.md): its internal operations and its three
commands. -/

namespace Sys2Proof.Machine

/-- The bit reader's buffer after a refill with the bytes d, which start at position 0. -/
def BitReader.load (b : BitReader) (d : List Byte) : BitReader :=
  { b with
    buf := d ++ b.buf.drop d.length
    idx := 0
    fin := d.length
    budget := b.budget - BitVec.ofNat 32 d.length }

/-- Bytes a refill takes inside a context are deducted from BLK.bytes_left (R131). -/
def deductPayload (n : Nat) (s : State) : State :=
  if s.seq.phase = .ready then
    s.setBlk { s.blk with bytesLeft := s.blk.bytesLeft - BitVec.ofNat 32 n }
  else s

/-- `BR_Refill()` (R131). -/
def brRefill (P : Params) (s : State) : Bool × State :=
  if s.br.eod = false ∧ s.br.budget ≠ 0 then
    let r := srcRead (min P.bufBytes s.br.budget.toNat) s
    if r.1 = [] then (false, r.2)
    else (true, deductPayload r.1.length (r.2.setBr (r.2.br.load r.1)))
  else (false, s)

/-- The next byte of the buffer. -/
def brNextByte (s : State) : Byte × State :=
  (s.br.buf.getD s.br.idx 0, s.setBr { s.br with idx := s.br.idx + 1 })

/-- `BR_FetchByte()`: the next byte, or 0xFF and the end-of-data flag (R132). -/
def brFetchByte (P : Params) (s : State) : Byte × State :=
  if s.br.idx = s.br.fin then
    let r := brRefill P s
    if r.1 then brNextByte r.2 else (0xFF, r.2.setBr { r.2.br with eod := true })
  else brNextByte s

/-- One byte into the accumulator, above the pending bits (R134). -/
def BitReader.shiftIn (b : BitReader) (x : Byte) : BitReader :=
  { b with acc := b.acc ||| (x.setWidth 39 <<< b.cnt), cnt := b.cnt + 8 }

/-- Fetch bytes while the accumulator holds fewer than n bits (R134). Each round adds 8 bits, so
`fuel = n` rounds are enough. -/
def brFill (P : Params) : Nat → Nat → State → State
  | 0, _, s => s
  | fuel + 1, n, s =>
    if s.br.cnt < n then
      let r := brFetchByte P s
      brFill P fuel n (r.2.setBr (r.2.br.shiftIn r.1))
    else s

/-- `BR_ReadBits(n)`, for n at most 32 (R134). -/
def brReadBitsOp (P : Params) (n : Nat) (s : State) : Word × State :=
  let s1 := brFill P n n s
  (BitVec.ofNat 32 (s1.br.acc.toNat % 2 ^ n),
    s1.setBr { s1.br with acc := s1.br.acc >>> n, cnt := s1.br.cnt - n })

/-- Run a computation that reads bits only through `BR_ReadBits`
(spec/43_decorrelation.md R252). -/
def runBits {α : Type} (P : Params) : BitProg α → State → α × State
  | .ret a, s => (a, s)
  | .read n k, s =>
    let r := brReadBitsOp P n.val s
    runBits P (k r.1) r.2

/-! ### The commands -/

/-- BR_ATTACH , budget (R139). -/
def execBrAttach (budget : Word) (s : State) : Out :=
  onlyInNoctx s (.next ((brAttachOp budget s).respond .ok 0))

/-- BR_READ_BITS n (R135); n above 32 is the contract violation (R137). -/
def execBrReadBits (n : BitVec 8) (s : State) : Out :=
  onlyInNoctx s
    (if nbitsMax < immOperand n then .next (raiseContract s)
    else
      let r := brReadBitsOp s.params (immOperand n) s
      .next (r.2.respond .ok r.1))

/-- BR_READ_BIT (R136). -/
def execBrReadBit (s : State) : Out :=
  onlyInNoctx s
    (let r := brReadBitsOp s.params 1 s
    .next (r.2.respond .ok r.1))

end Sys2Proof.Machine
end

