-- ==== Sys2Proof/Machine/Block.lean ====
section
/-! DEFINITION. The start of a block: the metadata front-end, the checks of a configuration, and
`BeginBlock` (spec/43_decorrelation.md R246 to R249). -/

namespace Sys2Proof.Machine

/-- One weight is within the bound of its term (R248, spec/10_state.md R24). -/
def Params.weightOk (P : Params) (t : BitVec 8) (w : Int) : Bool :=
  decide (w.natAbs ≤ P.wBound t)

/-- One pass tuple satisfies `ConfigValid` (R248). -/
def Params.passValid (P : Params) (p : Pass) : Bool :=
  decide (P.termKind p.term ≠ .invalid) && Params.weightOk P p.term p.wA
    && Params.weightOk P p.term p.wB && decide (p.delta < 2 ^ P.deltaBits)

/-- `ConfigValid(cfg)` (R248). -/
def configValid (P : Params) (passes : List Pass) : Bool :=
  decide (passes.length ≤ P.maxPasses) && passes.all (Params.passValid P)

/-- A pass whose term is cross-channel. -/
def Params.isJoint (P : Params) (p : Pass) : Bool := decide (P.termKind p.term = .joint)

/-- `ChainFits(chain, bc)` for a frame width (R249). -/
def chainFits (P : Params) (chain : List Pass) (bc : Nat) (frameWidth : Word) : Bool :=
  !(decide (bc = 1) && chain.any (Params.isJoint P)) && !(decide (bc = 2) && decide (frameWidth = 1))

/-- The number of channels a block's flags code (R247). -/
def codedChannels (P : Params) (flags : Word) : Nat := if (P.flagField flags).mono then 1 else 2

/-- What reading a block's metadata comes to. -/
inductive MetaRead where
  | bad (c : Cause)
  | done (cfg : MetaCfg) (bitlen : Word)

/-- The loop of `BeginBlock` over the metadata, one byte at a time (R247). `left` is BLK.bytes_left. -/
def metaLoop (P : Params) : Nat → List Byte → State → MetaRead × State
  | left, q, s =>
    match P.parseMeta s.hdr q with
    | .fail => (.bad .format, s)
    | .done cfg bitlen => (.done cfg bitlen, s)
    | .need =>
      match left with
      | 0 => (.bad .format, s)
      | left + 1 =>
        let r := srcRead 1 s
        if r.1 = [] then (.bad .exhausted, r.2)
        else
          metaLoop P left (q ++ r.1)
            (r.2.setBlk { r.2.blk with bytesLeft := r.2.blk.bytesLeft - 1 })

/-- The header fields the active block needs are copied into BLK (R247, spec/10_state.md R31). -/
def copyHeader (s : State) : State :=
  s.setBlk { s.blk with
    blockIndex := s.hdr.blockIndex
    blockSamples := s.hdr.blockSamples
    flags := s.hdr.flags
    crcStored := s.hdr.crc
    bytesLeft := s.hdr.ckSize - 24 }

/-- The pass chain a block decodes with: the fresh configuration's, or the one that persists (R247). -/
def chainOf (cfg : MetaCfg) (s : State) : List Pass := if cfg.fresh then cfg.passes else s.pass

/-- The configuration is taken over and the bit reader attached to the bitstream (R247). -/
def commitBlock (P : Params) (cfg : MetaCfg) (bitlen : Word) (s : State) : State :=
  let s1 := s.setPass (chainOf cfg s)
  let s2 := s1.setEs (cfg.esInit.getD s1.es)
  let s3 := s2.setFexp (cfg.fexp.getD s2.fexp)
  let s4 := s3.setBlk { s3.blk with bc := codedChannels P s3.blk.flags, crc := P.crcInit }
  let s5 := brAttachOp bitlen s4
  s5.setBlk { s5.blk with active := true }

/-- `BeginBlock()` (R247): a cause, NONE when the block has begun. -/
def beginBlock (P : Params) (s : State) : Cause × State :=
  let s0 := copyHeader s
  let r := metaLoop P s0.blk.bytesLeft.toNat [] s0
  match r.1 with
  | .bad c => (c, r.2)
  | .done cfg bitlen =>
    if r.2.blk.bytesLeft.toNat < bitlen.toNat then (.format, r.2)
    else if cfg.fresh = true ∧ configValid P cfg.passes = false then (.format, r.2)
    else if chainFits P (chainOf cfg r.2) (codedChannels P r.2.blk.flags) r.2.ctx.frameWidth = false
      then (.format, r.2)
    else (.none, commitBlock P cfg bitlen r.2)

end Sys2Proof.Machine
end

