-- ==== Sys2Proof/Machine/Locator.lean ====
section
/-! DEFINITION. The block locator and header parser (spec/41_block_locator.md) and its command. -/

namespace Sys2Proof.Machine

/-- The window starts with the magic, ASCII "wvpk" (R161). -/
def magicOk (w : List Byte) : Bool :=
  decide (w.getD 0 0 = 0x77) && decide (w.getD 1 0 = 0x76) && decide (w.getD 2 0 = 0x70)
    && decide (w.getD 3 0 = 0x6B)

/-- The version byte is in the supported inclusive range (R161). -/
def versionOk (P : Params) (w : List Byte) : Bool :=
  let v := w.getD (P.hvVersOffLess4.val + 4) 0
  decide (P.hvVMin.toNat ≤ v.toNat) && decide (v.toNat ≤ P.hvVMax.toNat)

/-- One constraint triple holds of the window (R161). -/
def constraintHolds (c : HvConstraint) (w : List Byte) : Bool :=
  decide (w.getD (c.offLess4.val + 4) 0 &&& c.mask = c.value)

/-- `HeaderValid(w)` (R161). -/
def headerValid (P : Params) (w : List Byte) : Bool :=
  magicOk w && versionOk P w && P.hvConstraints.all (fun c => constraintHolds c w)

/-- `ParseHeader(w)`, with the parse status set (R165, R166; the layout is
spec/30_encoding.md R101). -/
def parseHeader (w : List Byte) : Hdr :=
  { magic := BitVec.ofNat 32 (leField w 0 4)
    ckSize := BitVec.ofNat 32 (leField w 4 4)
    version := BitVec.ofNat 16 (leField w 8 2)
    track := w.getD 10 0
    index := w.getD 11 0
    total := BitVec.ofNat 32 (leField w 12 4)
    blockIndex := BitVec.ofNat 32 (leField w 16 4)
    blockSamples := BitVec.ofNat 32 (leField w 20 4)
    flags := BitVec.ofNat 32 (leField w 24 4)
    crc := BitVec.ofNat 32 (leField w 28 4)
    valid := true }

/-- A failed locate clears HDR.valid and nothing else of HDR (R167). -/
def invalidateHdr (s : State) : State := s.setHdr { s.hdr with valid := false }

/-- What a locate answers: the cause, the bytes skipped, and the state (R160). -/
structure Located where
  cause : Cause
  skipped : Nat
  state : State

/-- Refill the window to exactly 32 bytes, or as far as the source goes (R162). -/
def fillWindow (s : State) : State :=
  let n := hdrBytes - s.win.length
  let r := srcTake n n s
  r.2.setWin (s.win ++ r.1)

/-- A match: the header is parsed and the window emptied (R165). -/
def acceptHeader (s : State) : State := (s.setHdr (parseHeader s.win)).setWin []

/-- Drop the window's first byte (R162). -/
def dropByte (s : State) : State := s.setWin s.win.tail

/-- The loop of `Locate` (R162) with S bytes skipped so far; `left` is how many more bytes may be
skipped and still be followed by a test, RESYNC_BUDGET − S. -/
def locateLoop (P : Params) : Nat → Nat → State → Located
  | left, S, s =>
    let s1 := fillWindow s
    if s1.win.length < hdrBytes then
      { cause := if S = 0 ∧ s1.win = [] then .eos else .exhausted
        skipped := S
        state := invalidateHdr s1 }
    else if headerValid P s1.win then
      { cause := .none, skipped := S, state := acceptHeader s1 }
    else
      match left with
      | 0 => { cause := .format, skipped := S + 1, state := invalidateHdr (dropByte s1) }
      | left + 1 => locateLoop P left (S + 1) (dropByte s1)

/-- `Locate()` (R162, R164). -/
def locate (P : Params) (s : State) : Located := locateLoop P resyncBudget 0 s

/-- LOC_READ_HEADER (R168). -/
def execLocReadHeader (s : State) : Out :=
  onlyInNoctx s
    (let r := locate s.params s
    let s1 := r.state.setSeq { r.state.seq with cause := r.cause }
    .next (s1.respond (if r.cause = .none then .ok else .fail) (BitVec.ofNat 32 r.skipped)))

end Sys2Proof.Machine
end

