-- ==== Sys2Proof/Machine/Context.lean ====
section
/-! DEFINITION. The decoder context: the total latch, the derived configuration, OPEN and CLOSE
(spec/42_context.md). -/

namespace Sys2Proof.Machine

/-- `LatchTotal()` (R212). -/
def latchTotal (s : State) : State :=
  if s.ctx.total = totalUnknown ∧ s.hdr.total ≠ totalUnknown then
    s.setCtx { s.ctx with total := s.hdr.total }
  else s

/-- `Derive()`: the configuration of the accepted header's flags (R205 to R210). -/
def Ctx.derive (P : Params) (flags : Word) (c : Ctx) : Ctx :=
  let ff := P.flagField flags
  let bytes := if ff.float then floatBytes else ff.stored.setWidth 32 + 1
  let nch : Word := if ff.mono then 1 else 2
  { c with
    bytes := bytes
    bits := if ff.float then floatBits else 8 * bytes - ff.shift.setWidth 32
    rate := P.rateOf ff.srate
    nch := nch
    mask := P.defaultMask nch
    reduced := if ff.initial && ff.final then 0 else nch
    frameWidth := nch }

/-- `Derive()` on the header last parsed (R205). -/
def deriveCtx (P : Params) (s : State) : State := s.setCtx (s.ctx.derive P s.hdr.flags)

/-- OPEN's first audio block: derive, begin the block, start the cursor (R203). -/
def openAccept (P : Params) (s : State) : State :=
  let r := beginBlock P (deriveCtx P s)
  if r.1 = .none then
    let s1 := r.2.setCtx { r.2.ctx with cursor := r.2.blk.blockIndex.setWidth 64 }
    (s1.setSeq { s1.seq with phase := .ready }).respond .ok 0
  else openFail P r.1 r.2

/-- OPEN's header loop (R202). Each round that goes on has taken the 32 bytes of a header, so a bound
above the stream's length is never reached (log entry 16). -/
def openLoop (P : Params) : Nat → State → Out
  | 0, _ => .fault .loopBound
  | fuel + 1, s =>
    let r := locate P s
    if r.cause ≠ .none then .next (openFail P r.cause r.state)
    else
      let s1 := latchTotal r.state
      if s1.hdr.ckSize.toNat < 24 then .next (openFail P .format s1)
      else if s1.hdr.blockSamples = 0 then
        let d := drain (s1.hdr.ckSize.toNat - 24) s1
        if d.1 then openLoop P fuel d.2 else .next (openFail P .exhausted d.2)
      else .next (openAccept P s1)

/-- How OPEN starts: the old context is discarded and the window emptied; nothing is drained or
rewound (R200, R202). -/
def openStart (P : Params) (s : State) : State :=
  let s1 := (contextClear P s).setWin []
  s1.setSeq { s1.seq with cause := .none }

/-- OPEN (R200). -/
def execOpenCtx (s : State) : Out :=
  openLoop s.params (s.src.stream.length + 1) (openStart s.params s)

/-- CLOSE (R213). -/
def execCloseCtx (s : State) : Out :=
  let s1 := contextClear s.params s
  .next ((s1.setSeq { s1.seq with phase := .noctx, cause := .none }).respond .ok 0)

end Sys2Proof.Machine
end

