-- ==== Sys2Proof/Machine/Decorrelation.lean ====
section
/-! DEFINITION. One frame's residuals, pass chain, checksum and output values
(spec/43_decorrelation.md R252 to R268). -/

namespace Sys2Proof.Machine

/-- The value vector of a frame: one value for each coded channel (R245). -/
inductive Frame where
  | mono (a : S32)
  | stereo (a b : S32)
  deriving DecidableEq, Repr

/-- The value of output slot c: a mono frame's one value goes to every slot (R245, R263). -/
def Frame.slot (v : Frame) (c : Nat) : S32 :=
  match v with
  | .mono a => a
  | .stereo a b => if c = 0 then a else b

/-- What one channel's step gives: the output, the new weight and the new history. -/
structure ChanOut where
  y : S32
  w : Int
  h : Hist

/-- `ChanStep` for a SHORT or LONG pass (R257): the weight moves by s and x from before the step. -/
def chanStep (P : Params) (t : BitVec 8) (delta : Nat) (w : Int) (h : Hist) (x : S32) : ChanOut :=
  let s := P.predInput t h
  let y := x + P.applyWeight w s
  { y := y, w := P.updWeight t delta w s x, h := P.histPush h y }

/-- A SHORT or LONG pass on each channel of the frame, channel 0 first (R253, R255). -/
def lagStep (P : Params) (p : Pass) (v : Frame) : Frame × Pass :=
  match v with
  | .mono a =>
    let oA := chanStep P p.term p.delta p.wA p.hA a
    (.mono oA.y, { p with wA := oA.w, hA := oA.h })
  | .stereo a b =>
    let oA := chanStep P p.term p.delta p.wA p.hA a
    let oB := chanStep P p.term p.delta p.wB p.hB b
    (.stereo oA.y oB.y, { p with wA := oA.w, hA := oA.h, wB := oB.w, hB := oB.h })

/-- A JOINT pass (R255, R262). A mono frame never meets one (R249) and would pass unchanged
(log entry 18). -/
def crossStep (P : Params) (p : Pass) (v : Frame) : Frame × Pass :=
  match v with
  | .mono a => (.mono a, p)
  | .stereo a b =>
    let r := P.jointStep p a b
    (.stereo r.1.1 r.1.2, r.2)

/-- `PassStep` (R255). An Invalid term never stands in PASS (R248) and would pass a frame unchanged
(log entry 18). -/
def passStep (P : Params) (p : Pass) (v : Frame) : Frame × Pass :=
  match P.termKind p.term with
  | .short => lagStep P p v
  | .long => lagStep P p v
  | .joint => crossStep P p v
  | .invalid => (v, p)

/-- The pass chain, applied in reverse registration order: the last pass first (R245, R254). -/
def passChain (P : Params) : List Pass → Frame → Frame × List Pass
  | [], v => (v, [])
  | p :: ps, v =>
    let r := passChain P ps v
    let r' := passStep P p r.1
    (r'.1, r'.2 :: r.2)

/-- `PostChain` (R264). -/
def postChain (P : Params) (flags : Word) (v : Frame) : Frame :=
  match v with
  | .mono a => .mono (P.postMono flags a)
  | .stereo a b => .stereo (P.postStereo flags a b).1 (P.postStereo flags a b).2

/-- The frame folded into the checksum, channel 0 then 1, each coded channel once (R245, R267). -/
def foldCrc (P : Params) (crc : Word) (v : Frame) : Word :=
  match v with
  | .mono a => P.crcStep crc a
  | .stereo a b => P.crcStep (P.crcStep crc a) b

/-- One channel's residual: `(x[c], ES) <- EntropyDecode(ES, c)` (R245, R252). -/
def residual (P : Params) (c : Chan) (s : State) : S32 × State :=
  let r := runBits P (P.entropyDecode s.es c) s
  (r.1.1, r.2.setEs r.1.2)

/-- The residuals of a frame, channel 0 before channel 1 (R253). BLK.bc is 1 or 2 while a block is
active (log entry 18). -/
def residuals (P : Params) (s : State) : Frame × State :=
  let rA := residual P .a s
  if s.blk.bc = 1 then (.mono rA.1, rA.2)
  else
    let rB := residual P .b rA.2
    (.stereo rA.1 rB.1, rB.2)

/-- The output values of a frame, `width` slots from slot c: `OutWrite(base + c, Fixup(...))` (R245,
R265, R268). -/
def writeSlots (P : Params) (base : Nat) (v : Frame) : Nat → Nat → State → State
  | 0, _, s => s
  | width + 1, c, s =>
    writeSlots P base v width (c + 1)
      (writeSample (base + c) (P.fixup s.blk.flags s.fexp (v.slot c)) s)

end Sys2Proof.Machine
end

