-- ==== Sys2Proof/Machine/Unpack.lean ====
section
/-! DEFINITION. UNPACK: the unpack sequencer (spec/43_decorrelation.md R240 to R251, R263 to R270). -/

namespace Sys2Proof.Machine

/-- BLK.end, computed without wrap (spec/10_state.md R31). -/
def Blk.fin (b : Blk) : Nat := b.blockIndex.toNat + b.blockSamples.toNat

/-- A total is known and the cursor has reached it (R241, R269). -/
def totalReached (s : State) : Bool :=
  decide (s.ctx.total ≠ totalUnknown) && decide (s.ctx.total.toNat ≤ s.ctx.cursor.toNat)

/-- `lim`: the frames still asked for, bounded by a known total (R241). -/
def frameLimit (remaining : Nat) (s : State) : Nat :=
  if s.ctx.total = totalUnknown then remaining
  else min remaining (s.ctx.total.toNat - s.ctx.cursor.toNat)

/-- `VerifyBlock()`: a mismatch is counted, up to 0xFFFFFFFF (R251). -/
def verifyBlock (s : State) : State :=
  if s.blk.crc = s.blk.crcStored ∨ s.ctx.crcErrors = 0xFFFFFFFF then s
  else s.setCtx { s.ctx with crcErrors := s.ctx.crcErrors + 1 }

/-- The header just located is not one to decode: it has no samples, or it lies wholly behind the
cursor (R242). -/
def skipsHeader (s : State) : Bool :=
  decide (s.hdr.blockSamples = 0)
    || decide (s.hdr.blockIndex.toNat + s.hdr.blockSamples.toNat ≤ s.ctx.cursor.toNat)

/-- The second half of `FetchStep`, from the header just located (R242). -/
def takeHeader (P : Params) (s : State) : State :=
  if s.hdr.ckSize.toNat < 24 then endStream .format s
  else if skipsHeader s then s.setBlk { s.blk with bytesLeft := s.hdr.ckSize - 24 }
  else if s.hdr.blockIndex.toNat < s.ctx.cursor.toNat then endStream .format s
  else
    let r := beginBlock P s
    if r.1 = .none then r.2 else endStream r.1 r.2

/-- The block is left: nothing of its payload remains to be taken (R242). -/
def leaveBlock (s : State) : State := s.setBlk { s.blk with bytesLeft := 0, active := false }

/-- `FetchStep` (R242). -/
def fetchStep (P : Params) (s : State) : State :=
  let d := drain s.blk.bytesLeft.toNat s
  if d.1 = false then endStream .exhausted d.2
  else
    let r := locate P (leaveBlock d.2)
    if r.cause ≠ .none then endStream r.cause r.state
    else takeHeader P (latchTotal r.state)

/-- `n` silent samples from index i on (R243). -/
def writeSilence : Nat → Nat → State → State
  | 0, _, s => s
  | n + 1, i, s => writeSilence n (i + 1) (writeSample i 0 s)

/-- The cursor after n more frames. -/
def advance (n : Nat) (s : State) : State :=
  s.setCtx { s.ctx with cursor := s.ctx.cursor + BitVec.ofNat 64 n }

/-- The frames of a `GapStep` (R243). -/
def gapFrames (lim : Nat) (s : State) : Nat :=
  min (s.blk.blockIndex.toNat - s.ctx.cursor.toNat) lim

/-- `GapStep(lim)` after `produced` frames (R243). -/
def gapStep (lim produced : Nat) (s : State) : State :=
  let n := gapFrames lim s
  let W := s.ctx.frameWidth.toNat
  advance n (writeSilence (n * W) (produced * W) s)

/-- The part of `DecodeFrame` after the residuals of a frame that used no padding (R245). -/
def finishFrame (P : Params) (produced : Nat) (x : Frame) (s : State) : State :=
  let r := passChain P s.pass x
  let v := postChain P s.blk.flags r.1
  let s1 := (s.setPass r.2).setBlk { s.blk with crc := foldCrc P s.blk.crc v }
  let W := s1.ctx.frameWidth.toNat
  advance 1 (writeSlots P (produced * W) v W 0 s1)

/-- `DecodeFrame()`: false is EOD, and then the frame is discarded (R245, R250). -/
def decodeFrame (P : Params) (produced : Nat) (s : State) : Bool × State :=
  let r := residuals P s
  if r.2.br.eod then (false, r.2) else (true, finishFrame P produced r.1 r.2)

/-- Up to n frames; the number produced so far, and whether the bitstream ended (R244). -/
def decodeFrames (P : Params) : Nat → Nat → State → Nat × State
  | 0, produced, s => (produced, s)
  | n + 1, produced, s =>
    let r := decodeFrame P produced s
    if r.1 then decodeFrames P n (produced + 1) r.2 else (produced, endStream .exhausted r.2)

/-- `DecodeStep(lim)` after `produced` frames (R244). -/
def decodeStep (P : Params) (lim produced : Nat) (s : State) : Nat × State :=
  let r := decodeFrames P (min (s.blk.fin - s.ctx.cursor.toNat) lim) produced s
  if r.2.seq.phase ≠ .ended ∧ r.2.ctx.cursor.toNat = r.2.blk.fin then (r.1, verifyBlock r.2) else r

/-- The response of UNPACK (R241, R270). -/
def unpackDone (produced : Nat) (s : State) : State :=
  s.respond (if s.seq.phase = .ended then .endOfStream else .ok) (BitVec.ofNat 32 produced)

/-- One round of the loop that neither stops nor ends: a fetch, a gap or a decode step (R241). -/
def unpackRound (P : Params) (remaining produced : Nat) (s : State) : Nat × State :=
  if s.blk.active = false ∨ s.blk.fin ≤ s.ctx.cursor.toNat then (produced, fetchStep P s)
  else
    let lim := frameLimit remaining s
    if s.ctx.cursor.toNat < s.blk.blockIndex.toNat then
      (produced + gapFrames lim s, gapStep lim produced s)
    else decodeStep P lim produced s

/-- The loop of UNPACK after `produced` frames (R241). A round produces a frame, takes the bytes of a
header or ends the stream, so the bound is never reached (log entry 16). -/
def unpackLoop (P : Params) (max : Nat) : Nat → Nat → State → Out
  | 0, _, _ => .fault .loopBound
  | fuel + 1, produced, s =>
    if produced = max ∨ totalReached s = true then .next (unpackDone produced s)
    else
      let r := unpackRound P (max - produced) produced s
      if r.2.seq.phase = .ended then .next (unpackDone r.1 r.2) else unpackLoop P max fuel r.1 r.2

/-- A bound on the rounds of UNPACK: one for each frame and one for each byte that may still be taken. -/
def unpackBound (max : Nat) (s : State) : Nat :=
  max + s.src.stream.length + s.win.length + 1

/-- UNPACK , max (R240, R241). -/
def execUnpack (max : Word) (s : State) : Out :=
  onlyWithContext s
    (if s.seq.phase = .ended then .next (unpackDone 0 s)
    else
      unpackLoop s.params (framesOperand max) (unpackBound (framesOperand max) s) 0 s)

end Sys2Proof.Machine
end

