-- ==== Sys2Proof/Machine/Dispatch.lean ====
section
/-! DEFINITION. Which meaning each command has: one arm per constructor of Instr
(spec/30_encoding.md R95, R98 step 7). -/

namespace Sys2Proof.Machine

def exec (i : Instr) (s : State) : Host.Outcome State Fault Refusal :=
  match i with
  | .openCtx => Sys2Proof.Machine.execOpenCtx s
  | .unpack max => Sys2Proof.Machine.execUnpack max s
  | .closeCtx => Sys2Proof.Machine.execCloseCtx s
  | .getSampleRate => Sys2Proof.Machine.execGetSampleRate s
  | .getNumChannels => Sys2Proof.Machine.execGetNumChannels s
  | .getBitsPerSample => Sys2Proof.Machine.execGetBitsPerSample s
  | .getBytesPerSample => Sys2Proof.Machine.execGetBytesPerSample s
  | .getNumSamples => Sys2Proof.Machine.execGetNumSamples s
  | .getCrcErrors => Sys2Proof.Machine.execGetCrcErrors s
  | .getReducedChannels => Sys2Proof.Machine.execGetReducedChannels s
  | .getChannelMask => Sys2Proof.Machine.execGetChannelMask s
  | .getFloatExp => Sys2Proof.Machine.execGetFloatExp s
  | .getCursor k => Sys2Proof.Machine.execGetCursor k s
  | .getStatus => Sys2Proof.Machine.execGetStatus s
  | .getHdr k => Sys2Proof.Machine.execGetHdr k s
  | .brAttach budget => Sys2Proof.Machine.execBrAttach budget s
  | .brReadBits n => Sys2Proof.Machine.execBrReadBits n s
  | .brReadBit => Sys2Proof.Machine.execBrReadBit s
  | .locReadHeader => Sys2Proof.Machine.execLocReadHeader s

end Sys2Proof.Machine
end

