-- ==== Sys2Proof/Machine/Port.lean ====
section
/-! DEFINITION. The command port and the reset input (spec/30_encoding.md R90, R98;
spec/70_reset_and_hazards.md R340 to R347, R350): what each input of the environment does. -/

namespace Sys2Proof.Machine

/-- An input is taken from the environment: the rest waits, and a new record of transactions starts. -/
def State.accept (rest : List HostInput) (s : State) : State := (s.setHost rest).setLog []

/-- A command from its two words: decode steps 1 to 3 answer ILLEGAL_CMD, and otherwise the command's
meaning runs (R98). -/
def runCommand (cmd arg : Word) (s : State) : Out :=
  match decode cmd arg with
  | .error _ => .next (illegalCmd s)
  | .ok i => exec i s

/-- Reset: every register at its reset value; the ports' environment keeps what it has
(spec/70_reset_and_hazards.md R340, spec/10_state.md R36). -/
def resetRegs (s : State) : State :=
  (((((State.resetOf s.build).setSrc s.src).setOut s.out).setHost s.host).setLog s.log)

/-- The effect of a port transaction on the environment alone. -/
def applyEvent (s : State) (e : PortEvent) : State :=
  match e with
  | .srcRead _ count => (s.setSrc (s.src.drop (countBytes count))).emit e
  | .outWrite i v => outWrite i v s
  | .outWriteFar n v => outWriteFar n v s

/-- A command during which reset is asserted after n of its port transactions (R342): those remain
done, no response is given, and the registers are reset (log entry 14). -/
def runInterrupted (n : Nat) (cmd arg : Word) (s : State) : Out :=
  match runCommand cmd arg s with
  | .next t => .next (resetRegs ((t.log.reverse.take n).foldl applyEvent s))
  | .fault r => .fault r
  | .refused r => .refused r

/-- What an input of the environment does. -/
def runInput (i : HostInput) (s : State) : Out :=
  match i with
  | .command cmd arg => runCommand cmd arg s
  -- a command presented while one is running has no effect and no response (R345, K19)
  | .overlapped cmd arg _ _ => runCommand cmd arg s
  | .reset => .next (resetRegs s)
  | .resetDuring n cmd arg => runInterrupted n cmd arg s
  | .connect stream splits =>
    .next (s.setSrc { stream := stream, splits := splits, taken := 0 })
  | .taken n => .next (s.setSrc { s.src with stream := s.src.stream.drop n })
  | .provideBuffer => .next (s.setOut [])

end Sys2Proof.Machine
end

