-- ==== Sys2Proof/Machine/Step.lean ====
section
/-! DEFINITION. One step of WVCORE: the next input of the environment, carried out to completion
(spec/30_encoding.md R90, spec/20_memory.md R72). -/

namespace Sys2Proof.Machine

/-- One step. With no input waiting WVCORE is idle and keeps all its state
(spec/60_exceptions.md R319). -/
def step (s : State) : Host.Outcome State Fault Refusal :=
  match s.host with
  | [] => .next s
  | i :: rest => runInput i (s.accept rest)

/-- The command whose table bits are `w`, presented as the next input: the very next step runs it
(log entry 12). -/
def State.withFetchWord (s : State) (nbits w : Nat) : State :=
  s.setHost (.command (tableWords nbits w).1 (tableWords nbits w).2 :: s.host)

end Sys2Proof.Machine
end

