-- ==== Sys2Proof/Safety.lean ====
section
/-! DEFINITION. What counts as a safe run, in the terms the statements use: a step that does not stop,
the invariants of the spec, and the bits the reader will deliver. -/

namespace Sys2Proof.Machine

/-- A run does not stop here: the step answers a next state. -/
def State.goesOn (s : State) : Prop := ∃ t, step s = .next t

/-! ### The invariants -/

/-- No context exists: NOCTX or FAILED (spec/10_state.md R34). -/
def State.noContext (s : State) : Prop := s.seq.phase = .noctx ∨ s.seq.phase = .failed

/-- The registers of BR stand in the ranges of spec/10_state.md R25: at most 39 pending bits, the bits
above them 0, and the valid bytes inside the buffer. -/
def ReaderOk (s : State) : Prop :=
  s.br.cnt ≤ 39 ∧ s.br.acc.toNat < 2 ^ s.br.cnt ∧ s.br.idx ≤ s.br.fin ∧
    s.br.fin ≤ s.br.buf.length ∧ s.br.fin ≤ s.params.bufBytes

/-- Once the bit reader has met the end of data no byte of its buffer is unread: the flag is set only
when the buffer is used up (spec/40_bit_reader.md R132). -/
def DrainedOk (s : State) : Prop := s.br.eod = true → s.br.idx = s.br.fin

/-- Where no context exists, the context registers hold the fallbacks of R34 and the block, pass and
entropy registers their reset values (spec/42_context.md R201, R214). -/
def ClearedWithoutContext (s : State) : Prop :=
  s.noContext → s.ctx = Ctx.reset s.params ∧ s.fexp = 0 ∧ s.blk = Blk.reset s.params ∧
    s.pass = [] ∧ s.es = s.params.esReset

/-- The pass register file holds at most MAX_PASSES entries; every entry has a valid term, both weights
within the bound of the term, a delta of DELTA_BITS bits and two histories of MAX_HIST values
(spec/10_state.md R22, R24). -/
def PassesOk (s : State) : Prop :=
  s.pass.length ≤ s.params.maxPasses ∧ ∀ p ∈ s.pass, Params.passValid s.params p = true ∧
    p.hA.length = s.params.maxHist ∧ p.hB.length = s.params.maxHist

/-- The frame width is the channel count, 1 or 2 (spec/10_state.md R28). -/
def WidthOk (s : State) : Prop :=
  s.ctx.frameWidth = s.ctx.nch ∧ (s.ctx.nch = 1 ∨ s.ctx.nch = 2)

/-- A block is active only in READY; it codes 1 or 2 channels, its pass chain fits them
(spec/43_decorrelation.md R249), the bit reader has not met its end of data (R250), and it may take no
more bytes than are left of the payload (R247). -/
def BlockOk (s : State) : Prop :=
  s.blk.active = true → s.seq.phase = .ready ∧ (s.blk.bc = 1 ∨ s.blk.bc = 2) ∧
    chainFits s.params s.pass s.blk.bc s.ctx.frameWidth = true ∧ s.br.eod = false ∧
    s.br.budget.toNat ≤ s.blk.bytesLeft.toNat

/-- The cursor never exceeds 2^32 + 2^32 − 2 (spec/10_state.md R21). -/
def CursorOk (s : State) : Prop := s.ctx.cursor.toNat ≤ 2 ^ 32 + 2 ^ 32 - 2

/-- The locator window holds at most 32 bytes (spec/10_state.md R26). -/
def WindowOk (s : State) : Prop := s.win.length ≤ hdrBytes

/-! ### Illegal command words, by the numbers of their fields (spec/30_encoding.md R93, R96) -/

/-- The reserved opcodes. -/
def reservedOpcode (op : Nat) : Prop :=
  op = 0x00 ∨ (0x04 ≤ op ∧ op ≤ 0x0F) ∨ (0x1C ≤ op ∧ op ≤ 0x1F) ∨ (0x24 ≤ op ∧ op ≤ 0xFF)

/-- The illegal immediates of an assigned opcode. -/
def illegalImmediate (op imm : Nat) : Prop :=
  (op = 0x19 ∧ 1 < imm) ∨ (op = 0x1B ∧ 10 < imm) ∨
    (op ≠ 0x19 ∧ op ≠ 0x1B ∧ op ≠ 0x21 ∧ imm ≠ 0)

/-- A command word WVCORE answers with ILLEGAL_CMD: its reserved bits, its opcode or its immediate. -/
def illegalWord (cmd : Word) : Prop :=
  0x10000 ≤ cmd.toNat ∨ reservedOpcode (cmd.toNat % 0x100) ∨
    illegalImmediate (cmd.toNat % 0x100) (cmd.toNat / 0x100 % 0x100)

/-! ### The record of port transactions -/

/-- The bytes the source requests of a record were answered with. -/
def bytesTaken : List PortEvent → Nat
  | [] => 0
  | .srcRead _ count :: l => countBytes count + bytesTaken l
  | .outWrite _ _ :: l => bytesTaken l
  | .outWriteFar _ _ :: l => bytesTaken l

/-- The indexes of the samples a record has written, oldest first (the record is newest first). -/
def writtenIndexes : List PortEvent → List Nat
  | [] => []
  | .srcRead _ _ :: l => writtenIndexes l
  | .outWrite i _ :: l => writtenIndexes l ++ [i.toNat]
  | .outWriteFar n _ :: l => writtenIndexes l ++ [n]

/-- The sample a record has last written at an index. -/
def lastWritten (l : List PortEvent) (j : Nat) : Option S32 :=
  match l with
  | [] => none
  | .srcRead _ _ :: l => lastWritten l j
  | .outWrite i v :: l => if i.toNat = j then some v else lastWritten l j
  | .outWriteFar n v :: l => if n = j then some v else lastWritten l j

/-- A transaction the ports allow (spec/20_memory.md R61): a source request asks for 1 to 2^32 − 1
bytes and is answered with a signed count that is no more than it asks for. A write that is no `OutWrite` of
R66 has an index that no u32 holds. -/
def portEventOk : PortEvent → Prop
  | .srcRead L count => 1 ≤ L.toNat ∧ count.toInt ≤ L.toNat
  | .outWrite _ _ => True
  | .outWriteFar n _ => 2 ^ 32 ≤ n

/-! ### The bits of the bit reader (spec/40_bit_reader.md R140) -/

/-- The bytes of the buffer not yet fetched into the accumulator. -/
def BitReader.unread (b : BitReader) : List Byte := (b.buf.drop b.idx).take (b.fin - b.idx)

/-- The bytes the reader can still fetch: the unread ones, then what the budget lets it take. -/
def State.fetchable (s : State) : List Byte :=
  s.br.unread ++ (if s.br.eod then [] else s.src.stream.take s.br.budget.toNat)

/-- Bit i of the bits the reader will deliver: the pending bits, then the fetchable bytes in stream
order, each least-significant bit first, then 1s for ever (R140). -/
def State.bitAt (s : State) (i : Nat) : Bool :=
  if i < s.br.cnt then s.br.acc.getLsbD i
  else (s.fetchable.getD ((i - s.br.cnt) / 8) 0xFF).getLsbD ((i - s.br.cnt) % 8)

/-- The state after a sequence of BR_READ_BITS commands, where each answers a state. -/
def State.afterReads : List (BitVec 8) → State → Option State
  | [], s => some s
  | n :: ns, s =>
    match exec (.brReadBits n) s with
    | .next t => State.afterReads ns t
    | .fault _ => none
    | .refused _ => none

/-! ### The bytes of the locator (spec/41_block_locator.md R163) -/

/-- The bytes a locate searches: those in the window, then the stream. -/
def State.ahead (s : State) : List Byte := s.win ++ s.src.stream

/-- A header stands at offset S of a byte string. -/
def headerAt (P : Params) (bytes : List Byte) (S : Nat) : Prop :=
  S + hdrBytes ≤ bytes.length ∧ headerValid P ((bytes.drop S).take hdrBytes) = true

/-- The first header of a byte string, within the skip budget (R164). -/
def firstHeader (P : Params) (bytes : List Byte) (j : Nat) : Prop :=
  j ≤ resyncBudget ∧ headerAt P bytes j ∧ ∀ i, i < j → ¬ headerAt P bytes i

/-- A locate that starts with these bytes ahead fails with cause c (R164, R167). -/
def locateFails (P : Params) (bytes : List Byte) (c : Cause) : Prop :=
  (c = .format ∧ resyncBudget + hdrBytes ≤ bytes.length ∧
    ∀ i, i ≤ resyncBudget → ¬ headerAt P bytes i) ∨
  (bytes.length < resyncBudget + hdrBytes ∧ (∀ i, ¬ headerAt P bytes i) ∧
    c = if bytes = [] then .eos else .exhausted)

/-! ### The start of a block (spec/43_decorrelation.md R247), by the bytes after its header -/

/-- The payload's length, `ckSize − 24` (spec/41_block_locator.md R171). -/
def payloadLength (h : Hdr) : Nat := h.ckSize.toNat - 24

/-- The chain a block decodes with: the fresh configuration's, or the one that stands. -/
def chainFor (cfg : MetaCfg) (pass : List Pass) : List Pass := if cfg.fresh then cfg.passes else pass

/-- The metadata of a block are its first k payload bytes: MetaParse needs more of every shorter
prefix, and the payload and the bytes after the header hold k. -/
def metadataReaches (P : Params) (h : Hdr) (bytes : List Byte) (k : Nat) : Prop :=
  k ≤ payloadLength h ∧ k ≤ bytes.length ∧ ∀ i, i < k → P.parseMeta h (bytes.take i) = .need

/-- Why a block cannot begin, with the passes and the frame width that stand: MetaParse fails, it still
needs more at the end of the payload or of the source, or its answer does not fit. -/
def beginFails (P : Params) (h : Hdr) (pass : List Pass) (W : Word) (bytes : List Byte) (c : Cause) :
    Prop :=
  ∃ k, metadataReaches P h bytes k ∧
    ((P.parseMeta h (bytes.take k) = .fail ∧ c = .format) ∨
      (P.parseMeta h (bytes.take k) = .need ∧ k = payloadLength h ∧ c = .format) ∨
      (P.parseMeta h (bytes.take k) = .need ∧ k < payloadLength h ∧ k = bytes.length ∧
        c = .exhausted) ∨
      ∃ cfg bitlen, P.parseMeta h (bytes.take k) = .done cfg bitlen ∧ c = .format ∧
        (payloadLength h - k < bitlen.toNat ∨
          (cfg.fresh = true ∧ configValid P cfg.passes = false) ∨
          chainFits P (chainFor cfg pass) (codedChannels P h.flags) W = false))

/-- A block begins with a configuration and a bitstream length after k bytes of metadata. -/
def beginsWith (P : Params) (h : Hdr) (pass : List Pass) (W : Word) (bytes : List Byte) (k : Nat)
    (cfg : MetaCfg) (bitlen : Word) : Prop :=
  metadataReaches P h bytes k ∧ P.parseMeta h (bytes.take k) = .done cfg bitlen ∧
    bitlen.toNat ≤ payloadLength h - k ∧
    (cfg.fresh = true → configValid P cfg.passes = true) ∧
    chainFits P (chainFor cfg pass) (codedChannels P h.flags) W = true

/-! ### Metadata-only blocks before the first audio block (spec/42_context.md R202, R212) -/

/-- A stretch of the stream that holds one block: bytes that begin no header, a header, a payload. -/
structure MetaBlock where
  skipped : List Byte
  header : List Byte
  payload : List Byte
  deriving DecidableEq, Repr

/-- The bytes of such stretches. -/
def blockBytes : List MetaBlock → List Byte
  | [] => []
  | b :: bs => b.skipped ++ b.header ++ b.payload ++ blockBytes bs

/-- Every stretch holds a metadata-only block, with its whole payload, and `tail` follows the last. -/
def metadataOnly (P : Params) (tail : List Byte) : List MetaBlock → Prop
  | [] => True
  | b :: bs =>
    firstHeader P (blockBytes (b :: bs) ++ tail) b.skipped.length ∧ b.header.length = hdrBytes ∧
      24 ≤ (parseHeader b.header).ckSize.toNat ∧ (parseHeader b.header).blockSamples = 0 ∧
      b.payload.length = payloadLength (parseHeader b.header) ∧ metadataOnly P tail bs

/-- The total that stands after headers with these totals, from one that stands before: the first known
one. -/
def latchedTotal (total : Word) : List Word → Word
  | [] => total
  | t :: ts => latchedTotal (if total = totalUnknown then t else total) ts

/-- Why OPEN fails on a stream whose first header is not one of a whole metadata-only block. -/
def openFails (P : Params) (bytes : List Byte) (c : Cause) : Prop :=
  locateFails P bytes c ∨
  ∃ j h rest, firstHeader P bytes j ∧ h = parseHeader ((bytes.drop j).take hdrBytes) ∧
    rest = bytes.drop (j + hdrBytes) ∧
    ((h.ckSize.toNat < 24 ∧ c = .format) ∨
      (24 ≤ h.ckSize.toNat ∧ h.blockSamples = 0 ∧ rest.length < payloadLength h ∧ c = .exhausted) ∨
      (24 ≤ h.ckSize.toNat ∧ h.blockSamples ≠ 0 ∧
        beginFails P h [] (BitVec.ofNat 32 (codedChannels P h.flags)) rest c))

/-! ### Runs that differ in how the source splits its responses (spec/20_memory.md R63) -/

/-- Two states that agree on everything but the split: the next responses, the bytes read ahead into
BR.buf, and the record of transactions. While a block is active, and in NOCTX, the unread buffered
bytes and the stream make the same bytes, and the budget and the payload count are equal once they are
added back; in READY without an active block, and in ENDED and FAILED, the streams are equal. -/
structure SameButSplit (s t : State) : Prop where
  seq : s.seq = t.seq
  win : s.win = t.win
  hdr : s.hdr = t.hdr
  ctx : s.ctx = t.ctx
  blk : { s.blk with bytesLeft := 0 } = { t.blk with bytesLeft := 0 }
  pass : s.pass = t.pass
  es : s.es = t.es
  fexp : s.fexp = t.fexp
  out : s.out = t.out
  resp : s.resp = t.resp
  host : s.host = t.host
  build : s.build = t.build
  pending : s.br.acc = t.br.acc ∧ s.br.cnt = t.br.cnt ∧ s.br.eod = t.br.eod
  live : s.blk.active = true ∨ s.seq.phase = .noctx →
    s.br.unread ++ s.src.stream = t.br.unread ++ t.src.stream ∧
    s.br.unread.length + s.br.budget.toNat = t.br.unread.length + t.br.budget.toNat
  payload : s.blk.active = true →
    s.br.unread.length + s.blk.bytesLeft.toNat = t.br.unread.length + t.blk.bytesLeft.toNat
  idle : s.blk.active = false → s.seq.phase ≠ .noctx →
    s.src.stream = t.src.stream ∧ (s.seq.phase = .ready → s.blk.bytesLeft = t.blk.bytesLeft)

end Sys2Proof.Machine
end

