-- ==== Sys2Proof/Certificates/Slice0/Obligations.lean ====
section
/-! DEFINITION. The statements for the provers, from the numbered rules of spec/. Every statement holds of
every build, so of the parameter set of which nothing is known (log entry 1). -/

section

open Sys2Proof Sys2Proof.Machine

/-! ### Encoding -/

/-- Decoding the words of a well-formed command gives the command back, with every operand, and so does
decoding them as one table word. -/
def Obligations.DecodeOfEncode : Prop :=
  ∀ i : Instr, WellFormed i →
    decode (encode i).1 (encode i).2 = .ok i ∧
      decodeTableWord 64 ((encode i).1.toNat + 2 ^ 32 * (encode i).2.toNat) = some i

/-- An accepted command word is the encoding of the command it decodes to, and the argument word is the
operand of UNPACK and of BR_ATTACH. -/
def Obligations.AcceptedWordIsEncoding : Prop :=
  ∀ (cmd arg : Word) (i : Instr), decode cmd arg = .ok i →
    WellFormed i ∧ cmd = (encode i).1 ∧
      ((i.opcode = 0x02 ∨ i.opcode = 0x20) → arg = (encode i).2)

/-- Steps 1 to 3 of the decode order R98, in that order, and nothing else is illegal. -/
def Obligations.DecodeOrder : Prop :=
  ∀ cmd arg : Word,
    (0x10000 ≤ cmd.toNat → decode cmd arg = .error .reservedBits) ∧
    (cmd.toNat < 0x10000 → reservedOpcode (cmd.toNat % 0x100) →
      decode cmd arg = .error .reservedOpcode) ∧
    (cmd.toNat < 0x10000 → ¬ reservedOpcode (cmd.toNat % 0x100) →
      illegalImmediate (cmd.toNat % 0x100) (cmd.toNat / 0x100 % 0x100) →
      decode cmd arg = .error .illegalImm) ∧
    (¬ illegalWord cmd → ∃ i, decode cmd arg = .ok i)

/-- The argument word is never checked, and only UNPACK and BR_ATTACH use it. An UNPACK
with argument 0 is legal and produces no frame. -/
def Obligations.ArgumentNeverChecked : Prop :=
  (∀ cmd a b : Word, (∃ i, decode cmd a = .ok i) → ∃ i, decode cmd b = .ok i) ∧
  (∀ cmd a b : Word, cmd.toNat % 0x100 ≠ 0x02 → cmd.toNat % 0x100 ≠ 0x20 →
    decode cmd a = decode cmd b) ∧
  (∀ s : State, s.seq.phase = .ready →
    exec (.unpack 0) s = .next (s.setResp (some ⟨.ok, 0⟩)))

/-- Words written out from the spec's encodings decode to the commands they stand for. -/
def Obligations.WrittenOutWordsDecode : Prop :=
  decode 0x00000001 0 = .ok .openCtx ∧
  decode 0x00000002 0x1000 = .ok (.unpack 4096) ∧
  decode 0x00000119 0 = .ok (.getCursor 1) ∧
  decode 0x0000071B 0 = .ok (.getHdr 7) ∧
  decode 0x00000020 3 = .ok (.brAttach 3) ∧
  decode 0x00000C21 0 = .ok (.brReadBits 12) ∧
  decode 0x00000023 0 = .ok .locReadHeader

/-! ### The command port, reset and the environment -/

/-- One step with a command waiting is the meaning of the decoded command, after the command is taken
from the list of inputs and the record of transactions is started. A command placed with
`withFetchWord` is the one the next step runs (log entries 12 and 25). -/
def Obligations.StepRunsDecodedCommand : Prop :=
  (∀ (s : State) (cmd arg : Word) (i : Instr) (rest : List HostInput),
    s.host = .command cmd arg :: rest → decode cmd arg = .ok i →
      step s = exec i ((s.setHost rest).setLog [])) ∧
  (∀ (s : State) (nbits w : Nat) (i : Instr), decodeTableWord nbits w = some i →
    step (s.withFetchWord nbits w) = exec i (s.setLog []))

/-- An illegal command word responds ILLEGAL_CMD with data 0 and changes no other state. The record of
transactions stays empty, so no port is used. The data word of an illegal immediate is read from the
test vectors (log entry 24). -/
def Obligations.IllegalCommandResponse : Prop :=
  ∀ (s : State) (cmd arg : Word) (rest : List HostInput),
    s.host = .command cmd arg :: rest → illegalWord cmd →
      step s = .next (((s.setHost rest).setLog []).setResp (some ⟨.illegalCmd, 0⟩))

/-- A command not allowed in the phase responds ILLEGAL_STATE with data 0 and changes no other state:
the component commands outside NOCTX, and UNPACK in NOCTX and FAILED. The data word is read from the
test vectors (log entry 24). -/
def Obligations.IllegalStateResponse : Prop :=
  ∀ s : State,
    (s.seq.phase ≠ .noctx → ∀ i : Instr,
      (∃ b, i = .brAttach b) ∨ (∃ n, i = .brReadBits n) ∨ i = .brReadBit ∨ i = .locReadHeader →
        exec i s = .next (s.setResp (some ⟨.illegalState, 0⟩))) ∧
    (s.seq.phase = .noctx ∨ s.seq.phase = .failed → ∀ max : Word,
      exec (.unpack max) s = .next (s.setResp (some ⟨.illegalState, 0⟩)))

/-- Between commands WVCORE is idle and keeps all its state; a second command presented while one is
running is refused with no effect (log entry 13). -/
def Obligations.IdleAndSecondCommand : Prop :=
  (∀ s : State, s.host = [] → step s = .next s) ∧
  (∀ (s : State) (cmd arg cmd2 arg2 : Word) (rest : List HostInput),
    s.host = .overlapped cmd arg cmd2 arg2 :: rest →
      step s = step (s.setHost (.command cmd arg :: rest)))

/-- The state after reset, for every build, and what every accessor then answers. -/
def Obligations.ResetValues : Prop :=
  ∀ (b : Build) (s : State), s = State.resetOf b →
    s.seq = { phase := .noctx, cause := .none, contract := false } ∧
    (s.br.idx = 0 ∧ s.br.fin = 0 ∧ s.br.acc = 0 ∧ s.br.cnt = 0 ∧ s.br.eod = false ∧
      s.br.budget = 0) ∧
    s.win = [] ∧
    s.hdr = { magic := 0, ckSize := 0, version := 0, track := 0, index := 0, total := 0,
              blockIndex := 0, blockSamples := 0, flags := 0, crc := 0, valid := false } ∧
    s.ctx = { rate := 44100, nch := 2, bits := 16, bytes := 2, mask := b.params.defaultMask 2,
              reduced := 0, total := 0xFFFFFFFF, crcErrors := 0, cursor := 0, frameWidth := 2 } ∧
    s.fexp = 0 ∧
    s.blk = { active := false, bytesLeft := 0, crc := b.params.crcInit, bc := 0, blockIndex := 0,
              blockSamples := 0, flags := 0, crcStored := 0 } ∧
    s.pass = [] ∧ s.es = b.params.esReset ∧
    exec .getSampleRate s = .next (s.setResp (some ⟨.ok, 44100⟩)) ∧
    exec .getNumChannels s = .next (s.setResp (some ⟨.ok, 2⟩)) ∧
    exec .getBitsPerSample s = .next (s.setResp (some ⟨.ok, 16⟩)) ∧
    exec .getBytesPerSample s = .next (s.setResp (some ⟨.ok, 2⟩)) ∧
    exec .getNumSamples s = .next (s.setResp (some ⟨.ok, 0xFFFFFFFF⟩)) ∧
    exec .getCrcErrors s = .next (s.setResp (some ⟨.ok, 0⟩)) ∧
    exec .getReducedChannels s = .next (s.setResp (some ⟨.ok, 0⟩)) ∧
    exec .getChannelMask s = .next (s.setResp (some ⟨.ok, b.params.defaultMask 2⟩)) ∧
    exec .getFloatExp s = .next (s.setResp (some ⟨.ok, 0⟩)) ∧
    (∀ k : BitVec 8, k.toNat ≤ 1 → exec (.getCursor k) s = .next (s.setResp (some ⟨.ok, 0⟩))) ∧
    exec .getStatus s = .next (s.setResp (some ⟨.ok, 0⟩)) ∧
    (∀ k : BitVec 8, k.toNat ≤ 10 → exec (.getHdr k) s = .next (s.setResp (some ⟨.ok, 0⟩)))

/-- Asserting reset between commands puts every register at its reset value and leaves what belongs to
the environment: the source, the output buffer, the inputs to come. That the response register is
emptied is the model's choice (log entry 20). -/
def Obligations.ResetInput : Prop :=
  ∀ (s : State) (rest : List HostInput), s.host = .reset :: rest →
    step s = .next ((((State.resetOf s.build).setSrc s.src).setOut s.out).setHost rest)

/-- Reset during a command: the first n port transactions of the command remain done, the registers are
at their reset values and no response is given (log entry 14). -/
def Obligations.ResetDuringCommand : Prop :=
  ∀ (s : State) (n : Nat) (cmd arg : Word) (rest : List HostInput),
    s.host = .resetDuring n cmd arg :: rest →
      ∃ t u : State, runCommand cmd arg ((s.setHost rest).setLog []) = .next t ∧
        step s = .next u ∧
        u.log.reverse = t.log.reverse.take n ∧
        u.src.stream = s.src.stream.drop (bytesTaken u.log) ∧
        u.src.taken = s.src.taken + bytesTaken u.log ∧
        (∀ j, u.out.read j = (lastWritten u.log j).or (s.out.read j)) ∧
        u = (((((State.resetOf s.build).setSrc u.src).setOut u.out).setHost rest).setLog u.log) ∧
        u.resp = none

/-- Every stream byte goes to one requester once: the stream after a command is the stream before less
exactly the bytes its source requests were answered with, and every request is one the port allows. The
output buffer holds what the command wrote, and only UNPACK writes. -/
def Obligations.PortTransactions : Prop :=
  ∀ (i : Instr) (s t : State), exec i s = .next t →
    ∃ l : List PortEvent, t.log = l ++ s.log ∧ (∀ e ∈ l, portEventOk e) ∧
      t.src.stream = s.src.stream.drop (bytesTaken l) ∧
      t.src.taken = s.src.taken + bytesTaken l ∧
      (∀ j, t.out.read j = (lastWritten l j).or (s.out.read j)) ∧
      ((∀ max, i ≠ .unpack max) → writtenIndexes l = [] ∧ t.out = s.out)

/-- No step stops: every command, and every other input, answers a next state. That a command never runs
for ever rests on a byte source that always answers and is finite (log entries 9 and 28). -/
def Obligations.StepNeverStops : Prop :=
  ∀ s : State, s.goesOn

/-! ### Accessors -/

/-- The nine plain accessors answer their register, in every phase, and change nothing else. -/
def Obligations.AccessorsAnswerRegisters : Prop :=
  ∀ s : State,
    exec .getSampleRate s = .next (s.setResp (some ⟨.ok, s.ctx.rate⟩)) ∧
    exec .getNumChannels s = .next (s.setResp (some ⟨.ok, s.ctx.nch⟩)) ∧
    exec .getBitsPerSample s = .next (s.setResp (some ⟨.ok, s.ctx.bits⟩)) ∧
    exec .getBytesPerSample s = .next (s.setResp (some ⟨.ok, s.ctx.bytes⟩)) ∧
    exec .getNumSamples s = .next (s.setResp (some ⟨.ok, s.ctx.total⟩)) ∧
    exec .getCrcErrors s = .next (s.setResp (some ⟨.ok, s.ctx.crcErrors⟩)) ∧
    exec .getReducedChannels s = .next (s.setResp (some ⟨.ok, s.ctx.reduced⟩)) ∧
    exec .getChannelMask s = .next (s.setResp (some ⟨.ok, s.ctx.mask⟩)) ∧
    exec .getFloatExp s = .next (s.setResp (some ⟨.ok, s.fexp⟩))

/-- Without a context every accessor answers its fallback. The premise is an invariant of every step
(`ContextRegistersKept`). -/
def Obligations.AccessorFallbacks : Prop :=
  ∀ s : State, ClearedWithoutContext s → (s.seq.phase = .noctx ∨ s.seq.phase = .failed) →
    exec .getSampleRate s = .next (s.setResp (some ⟨.ok, 44100⟩)) ∧
    exec .getNumChannels s = .next (s.setResp (some ⟨.ok, 2⟩)) ∧
    exec .getBitsPerSample s = .next (s.setResp (some ⟨.ok, 16⟩)) ∧
    exec .getBytesPerSample s = .next (s.setResp (some ⟨.ok, 2⟩)) ∧
    exec .getNumSamples s = .next (s.setResp (some ⟨.ok, 0xFFFFFFFF⟩)) ∧
    exec .getCrcErrors s = .next (s.setResp (some ⟨.ok, 0⟩)) ∧
    exec .getReducedChannels s = .next (s.setResp (some ⟨.ok, 0⟩)) ∧
    exec .getChannelMask s = .next (s.setResp (some ⟨.ok, s.params.defaultMask 2⟩)) ∧
    exec .getFloatExp s = .next (s.setResp (some ⟨.ok, 0⟩)) ∧
    ∀ k : BitVec 8, k.toNat ≤ 1 → exec (.getCursor k) s = .next (s.setResp (some ⟨.ok, 0⟩))

/-- GET_CURSOR answers the low or the high word of the cursor, and 0 for both without a context; another
immediate is illegal, and that its data word is 0 is read from the test vectors (log entry 24). -/
def Obligations.GetCursorWords : Prop :=
  (∀ s : State, ∃ lo hi : Word,
    exec (.getCursor 0) s = .next (s.setResp (some ⟨.ok, lo⟩)) ∧
    exec (.getCursor 1) s = .next (s.setResp (some ⟨.ok, hi⟩)) ∧
    lo.toNat = s.ctx.cursor.toNat % 2 ^ 32 ∧ hi.toNat = s.ctx.cursor.toNat / 2 ^ 32 ∧
    (ClearedWithoutContext s → s.noContext → lo = 0 ∧ hi = 0) ∧
    ∀ arg, runCommand 0x0019 arg s = exec (.getCursor 0) s ∧
      runCommand 0x0119 arg s = exec (.getCursor 1) s) ∧
  (∀ (s : State) (k : Nat) (arg : Word), 1 < k → k < 256 →
    runCommand (BitVec.ofNat 32 (0x19 + 256 * k)) arg s =
      .next (s.setResp (some ⟨.illegalCmd, 0⟩)))

/-- The status word opcode 0x1A answers, field by field; every bit not listed is 0. -/
def Obligations.StatusWordLayout : Prop :=
  ∀ s : State, ∃ w : Word, exec .getStatus s = .next (s.setResp (some ⟨.ok, w⟩)) ∧
    (∀ arg, runCommand 0x1A arg s = exec .getStatus s) ∧
    w.toNat % 4 = (match s.seq.phase with | .noctx => 0 | .ready => 1 | .ended => 2 | .failed => 3) ∧
    w.toNat / 4 % 4 = 0 ∧
    w.toNat / 16 % 16 =
      (match s.seq.cause with | .none => 0 | .eos => 1 | .exhausted => 2 | .format => 3) ∧
    w.toNat / 256 % 2 = s.br.eod.toNat ∧
    w.toNat / 512 % 2 = s.seq.contract.toNat ∧
    w.toNat / 1024 % 2 = s.hdr.valid.toNat ∧
    w.toNat / 2048 = 0

/-- GET_HDR answers one field of the last parsed header, zero-extended; an immediate above 10 is
illegal, and that its data word is 0 is read from the test vectors (log entry 24). -/
def Obligations.GetHdrFields : Prop :=
  (∀ s : State,
    exec (.getHdr 0) s = .next (s.setResp (some ⟨.ok, s.hdr.magic⟩)) ∧
    exec (.getHdr 1) s = .next (s.setResp (some ⟨.ok, s.hdr.ckSize⟩)) ∧
    exec (.getHdr 2) s = .next (s.setResp (some ⟨.ok, 0#16 ++ s.hdr.version⟩)) ∧
    exec (.getHdr 3) s = .next (s.setResp (some ⟨.ok, 0#24 ++ s.hdr.track⟩)) ∧
    exec (.getHdr 4) s = .next (s.setResp (some ⟨.ok, 0#24 ++ s.hdr.index⟩)) ∧
    exec (.getHdr 5) s = .next (s.setResp (some ⟨.ok, s.hdr.total⟩)) ∧
    exec (.getHdr 6) s = .next (s.setResp (some ⟨.ok, s.hdr.blockIndex⟩)) ∧
    exec (.getHdr 7) s = .next (s.setResp (some ⟨.ok, s.hdr.blockSamples⟩)) ∧
    exec (.getHdr 8) s = .next (s.setResp (some ⟨.ok, s.hdr.flags⟩)) ∧
    exec (.getHdr 9) s = .next (s.setResp (some ⟨.ok, s.hdr.crc⟩)) ∧
    exec (.getHdr 10) s = .next (s.setResp (some ⟨.ok, if s.hdr.valid then 1 else 0⟩)) ∧
    ∀ (k : Nat) (arg : Word), k ≤ 10 →
      runCommand (BitVec.ofNat 32 (0x1B + 256 * k)) arg s = exec (.getHdr (BitVec.ofNat 8 k)) s) ∧
  (∀ (s : State) (k : Nat) (arg : Word), 10 < k → k < 256 →
    runCommand (BitVec.ofNat 32 (0x1B + 256 * k)) arg s =
      .next (s.setResp (some ⟨.illegalCmd, 0⟩)))

/-! ### The bit reader -/

/-- BR_ATTACH in NOCTX: the reader is emptied, the budget is set, OK with data 0, no source request and
nothing else. The bits to come are then those of the next `budget` bytes of the stream, each byte
least-significant bit first, and 1s after them. -/
def Obligations.AttachReadiesReader : Prop :=
  ∀ (s : State) (budget : Word), s.seq.phase = .noctx →
    ∃ t, exec (.brAttach budget) s = .next t ∧
      t = (s.setBr { s.br with idx := 0, fin := 0, acc := 0, cnt := 0, eod := false,
                               budget := budget }).setResp (some ⟨.ok, 0⟩) ∧
      ∀ i, t.bitAt i =
        ((s.src.stream.take budget.toNat).getD (i / 8) 0xFF).getLsbD (i % 8)

/-- BR_READ_BITS n delivers the next n bits, the first in bit 0, and drops them. -/
def Obligations.ReadBitsDeliversNextBits : Prop :=
  ∀ (s : State) (n : BitVec 8), ReaderOk s → s.seq.phase = .noctx → n.toNat ≤ 32 →
    ∃ (t : State) (v : Word), exec (.brReadBits n) s = .next t ∧ t.resp = some ⟨.ok, v⟩ ∧
      v.toNat < 2 ^ n.toNat ∧ (∀ i, i < n.toNat → v.getLsbD i = s.bitAt i) ∧
      (∀ i, t.bitAt i = s.bitAt (i + n.toNat))

/-- BR_READ_BIT answers the next bit, and is BR_READ_BITS 1. -/
def Obligations.ReadBitDeliversNextBit : Prop :=
  ∀ s : State, ReaderOk s → s.seq.phase = .noctx →
    (∃ t, exec .brReadBit s = .next t ∧
      t.resp = some ⟨.ok, if s.bitAt 0 then 1 else 0⟩ ∧ ∀ i, t.bitAt i = s.bitAt (i + 1)) ∧
    exec .brReadBit s = exec (.brReadBits 1) s

/-- Two reads of m and n bits make one read of m + n bits, the first read in its low part. -/
def Obligations.TwoReadsMakeOne : Prop :=
  ∀ (s : State) (m n : BitVec 8), ReaderOk s → s.seq.phase = .noctx → m.toNat + n.toNat ≤ 32 →
    ∃ (t u w : State) (a b c : Word), exec (.brReadBits m) s = .next t ∧
      exec (.brReadBits n) t = .next u ∧ exec (.brReadBits (m + n)) s = .next w ∧
      t.resp = some ⟨.ok, a⟩ ∧ u.resp = some ⟨.ok, b⟩ ∧ w.resp = some ⟨.ok, c⟩ ∧
      c.toNat = a.toNat + 2 ^ m.toNat * b.toNat

/-- Any sequence of reads that consumes B bits in total, from an empty accumulator, has fetched exactly
⌈B / 8⌉ bytes, counting padding, and holds the bits above them. -/
def Obligations.ReadsFetchNoAhead : Prop :=
  ∀ (ns : List (BitVec 8)) (s : State), ReaderOk s → s.seq.phase = .noctx → s.br.cnt = 0 →
    (∀ n ∈ ns, n.toNat ≤ 32) →
    ∃ t, s.afterReads ns = some t ∧
      t.br.cnt = 8 * (((ns.map BitVec.toNat).sum + 7) / 8) - (ns.map BitVec.toNat).sum ∧
      t.fetchable = s.fetchable.drop (((ns.map BitVec.toNat).sum + 7) / 8)

/-- The widths at the edge: BR_READ_BITS 0 answers 0 and changes nothing else. A request wider than 32
sets the contract bit and responds CONTRACT with data 0; no other register changes and no source request
is made. -/
def Obligations.ReadBitsEdgeWidths : Prop :=
  (∀ s : State, s.seq.phase = .noctx →
    exec (.brReadBits 0) s = .next (s.setResp (some ⟨.ok, 0⟩))) ∧
  (∀ (s : State) (n : BitVec 8), s.seq.phase = .noctx → 32 < n.toNat →
    exec (.brReadBits n) s =
      .next ((s.setSeq { s.seq with contract := true }).setResp (some ⟨.contract, 0⟩)))

/-- The contract bit is sticky: only reset clears it, and only a bit request wider than 32 sets it. -/
def Obligations.ContractBitSticky : Prop :=
  ∀ s t : State, step s = .next t →
    (s.seq.contract = true → t.seq.contract = false →
      ∃ i rest, s.host = i :: rest ∧ (i = .reset ∨ ∃ n cmd arg, i = .resetDuring n cmd arg)) ∧
    (s.seq.contract = false → t.seq.contract = true →
      t.resp = some ⟨.contract, 0⟩ ∧ ∃ n : BitVec 8, 32 < n.toNat ∧ ∃ cmd arg rest,
        (s.host = .command cmd arg :: rest ∨
          ∃ cmd2 arg2, s.host = .overlapped cmd arg cmd2 arg2 :: rest) ∧
        decode cmd arg = .ok (.brReadBits n))

/-- What the two read commands change in NOCTX: the bit reader, the source, the record of transactions
and the response. The bytes taken are charged to the budget. -/
def Obligations.ReadCommandsFrame : Prop :=
  ∀ (i : Instr) (s t : State), ReaderOk s → s.seq.phase = .noctx →
    (i = .brReadBit ∨ ∃ n : BitVec 8, n.toNat ≤ 32 ∧ i = .brReadBits n) →
    exec i s = .next t →
      t = (((s.setBr t.br).setSrc t.src).setLog t.log).setResp t.resp ∧
      (∃ v, t.resp = some ⟨.ok, v⟩) ∧
      t.br.budget.toNat + t.src.taken = s.br.budget.toNat + s.src.taken ∧
      ∀ j, t.out.read j = s.out.read j

/-- After the end of data the reads go on, make no source request, and the flag stays set. -/
def Obligations.EndOfDataReadsGoOn : Prop :=
  ∀ (i : Instr) (s : State), ReaderOk s → s.seq.phase = .noctx → s.br.eod = true →
    (i = .brReadBit ∨ ∃ n : BitVec 8, n.toNat ≤ 32 ∧ i = .brReadBits n) →
      ∃ t v, exec i s = .next t ∧ t.resp = some ⟨.ok, v⟩ ∧ t.br.eod = true ∧ t.log = s.log ∧
        t.src = s.src

/-! ### The locator -/

/-- The validity test of the source and its parameters, and the test of the test instantiation, whose
constants are the spec's defaults from general knowledge (log entry 22). -/
def Obligations.HeaderValidityTest : Prop :=
  (∀ (P : Params) (w : List Byte), w.length = 32 →
    (headerValid P w = true ↔
      w.take 4 = [0x77, 0x76, 0x70, 0x6B] ∧
      P.hvVMin.toNat ≤ (w.getD (P.hvVersOffLess4.val + 4) 0).toNat ∧
      (w.getD (P.hvVersOffLess4.val + 4) 0).toNat ≤ P.hvVMax.toNat ∧
      ∀ c ∈ P.hvConstraints, w.getD (c.offLess4.val + 4) 0 &&& c.mask = c.value)) ∧
  (∀ w : List Byte, w.length = 32 →
    (headerValid Params.ti w = true ↔
      w.take 4 = [0x77, 0x76, 0x70, 0x6B] ∧
      2 ≤ (w.getD 8 0).toNat ∧ (w.getD 8 0).toNat ≤ 16 ∧
      w.getD 4 0 &&& 0x01 = 0 ∧ w.getD 6 0 &&& 0xF0 = 0 ∧ w.getD 7 0 = 0 ∧ w.getD 9 0 = 4))

/-- Every field of a parsed header is the little-endian value of its bytes. -/
def Obligations.HeaderFieldsLittleEndian : Prop :=
  ∀ w : List Byte, w.length = 32 →
    let b := fun i => w.getD i 0
    (parseHeader w).magic = b 3 ++ b 2 ++ b 1 ++ b 0 ∧
    (parseHeader w).ckSize = b 7 ++ b 6 ++ b 5 ++ b 4 ∧
    (parseHeader w).version = b 9 ++ b 8 ∧
    (parseHeader w).track = b 10 ∧ (parseHeader w).index = b 11 ∧
    (parseHeader w).total = b 15 ++ b 14 ++ b 13 ++ b 12 ∧
    (parseHeader w).blockIndex = b 19 ++ b 18 ++ b 17 ++ b 16 ∧
    (parseHeader w).blockSamples = b 23 ++ b 22 ++ b 21 ++ b 20 ∧
    (parseHeader w).flags = b 27 ++ b 26 ++ b 25 ++ b 24 ∧
    (parseHeader w).crc = b 31 ++ b 30 ++ b 29 ++ b 28 ∧
    (parseHeader w).valid = true

/-- LOC_READ_HEADER finds the first header within the budget: it answers the bytes skipped, parses the
32 bytes, empties the window and leaves the stream at the first payload byte. -/
def Obligations.LocateFindsFirstHeader : Prop :=
  ∀ (s : State) (j : Nat), WindowOk s → s.seq.phase = .noctx → j ≤ 1048576 →
    headerAt s.params s.ahead j → (∀ i, i < j → ¬ headerAt s.params s.ahead i) →
    ∃ t, exec .locReadHeader s = .next t ∧ t.resp = some ⟨.ok, BitVec.ofNat 32 j⟩ ∧
      t.seq = { s.seq with cause := .none } ∧
      t.hdr = parseHeader ((s.ahead.drop j).take 32) ∧ t.hdr.valid = true ∧ t.win = [] ∧
      t.src.stream = s.ahead.drop (j + 32)

/-- The failures of a locate, the window and the stream they leave. With no header at the first 1048577
offsets the skip budget is exceeded: cause FORMAT, S = 1048577, and at most 1048576 + 32 bytes taken.
With no header before the stream runs out the cause is EOS when there was no byte at all, else
EXHAUSTED, and the window keeps the last bytes. -/
def Obligations.LocateFailures : Prop :=
  (∀ s : State, WindowOk s → s.seq.phase = .noctx → 1048576 + 32 ≤ s.ahead.length →
    (∀ i, i ≤ 1048576 → ¬ headerAt s.params s.ahead i) →
    ∃ t, exec .locReadHeader s = .next t ∧ t.resp = some ⟨.fail, 1048577⟩ ∧
      t.seq = { s.seq with cause := .format } ∧ t.hdr = { s.hdr with valid := false } ∧
      t.ahead = s.ahead.drop 1048577 ∧ t.src.stream = s.ahead.drop (1048576 + 32)) ∧
  (∀ s : State, WindowOk s → s.seq.phase = .noctx → s.ahead.length < 1048576 + 32 →
    (∀ i, ¬ headerAt s.params s.ahead i) →
    ∃ t, exec .locReadHeader s = .next t ∧
      t.resp = some ⟨.fail, BitVec.ofNat 32 (s.ahead.length - 31)⟩ ∧
      t.seq = { s.seq with cause := if s.ahead = [] then .eos else .exhausted } ∧
      t.hdr = { s.hdr with valid := false } ∧
      t.win = s.ahead.drop (s.ahead.length - 31) ∧ t.src.stream = [])

/-- What LOC_READ_HEADER changes in NOCTX: the window, HDR, the source, the cause, the record of
transactions and the response; a failure changes only the valid bit of HDR. -/
def Obligations.LocateFrame : Prop :=
  ∀ s t : State, s.seq.phase = .noctx → exec .locReadHeader s = .next t →
    t = (((((s.setWin t.win).setHdr t.hdr).setSrc t.src).setLog t.log).setSeq
      { s.seq with cause := t.seq.cause }).setResp t.resp ∧
    ((∃ S, t.resp = some ⟨.ok, S⟩ ∧ t.seq.cause = .none ∧ t.hdr.valid = true) ∨
      (∃ S, t.resp = some ⟨.fail, S⟩ ∧ t.seq.cause ≠ .none ∧
        t.hdr = { s.hdr with valid := false })) ∧
    ∀ j, t.out.read j = s.out.read j

/-! ### The output buffer -/

/-- A write of the output buffer, read back, and the canonical form. -/
def Obligations.OutputReadAfterWrite : Prop :=
  ∀ (m : Memory) (i : Nat) (v : S32), Memory.wf m →
    Memory.wf (m.write i v) ∧ (m.write i v).read i = some v ∧
      ∀ j, j ≠ i → (m.write i v).read j = m.read j

/-! ### The decoder context -/

/-- OPEN on a stream of whole metadata-only blocks, then an audio block with metadata q and a bitstream
that fits, each after bytes that begin no header: the payloads of the former are drained, the first known
total of all the headers is latched, and the context opens on the audio block, with the configuration of
its flags. -/
def Obligations.OpenAcceptsAudioBlock : Prop :=
  ∀ (s : State) (blocks : List MetaBlock) (skipped w q rest : List Byte) (cfg : MetaCfg)
    (bitlen : Word),
    s.src.stream = blockBytes blocks ++ (skipped ++ w ++ q ++ rest) →
    metadataOnly s.params (skipped ++ w ++ q ++ rest) blocks →
    skipped.length ≤ 1048576 → w.length = 32 → headerValid s.params w = true →
    (∀ i, i < skipped.length → ¬ headerAt s.params (skipped ++ w ++ q ++ rest) i) →
    24 ≤ (parseHeader w).ckSize.toNat → (parseHeader w).blockSamples ≠ 0 →
    (∀ k, k < q.length → s.params.parseMeta (parseHeader w) (q.take k) = .need) →
    s.params.parseMeta (parseHeader w) q = .done cfg bitlen →
    q.length + bitlen.toNat ≤ (parseHeader w).ckSize.toNat - 24 →
    (cfg.fresh = true → configValid s.params cfg.passes = true) →
    chainFits s.params (if cfg.fresh then cfg.passes else [])
      (if (s.params.flagField (parseHeader w).flags).mono then 1 else 2)
      (if (s.params.flagField (parseHeader w).flags).mono then 1 else 2) = true →
    ∃ t, exec .openCtx s = .next t ∧ t.resp = some ⟨.ok, 0⟩ ∧
      t.seq = { s.seq with phase := .ready, cause := .none } ∧
      t.hdr = parseHeader w ∧ t.win = [] ∧ t.src.stream = rest ∧
      t.ctx = { (Ctx.reset s.params).derive s.params t.hdr.flags with
                total := latchedTotal 0xFFFFFFFF
                  (blocks.map (fun b => (parseHeader b.header).total) ++ [t.hdr.total])
                cursor := t.hdr.blockIndex.setWidth 64 } ∧
      t.pass = (if cfg.fresh then cfg.passes else []) ∧
      t.es = cfg.esInit.getD s.params.esReset ∧ t.fexp = cfg.fexp.getD 0 ∧
      t.blk = { active := true, bytesLeft := t.hdr.ckSize - 24 - BitVec.ofNat 32 q.length,
                crc := s.params.crcInit,
                bc := if (s.params.flagField t.hdr.flags).mono then 1 else 2,
                blockIndex := t.hdr.blockIndex, blockSamples := t.hdr.blockSamples,
                flags := t.hdr.flags, crcStored := t.hdr.crc } ∧
      (t.br.idx = 0 ∧ t.br.fin = 0 ∧ t.br.acc = 0 ∧ t.br.cnt = 0 ∧ t.br.eod = false ∧
        t.br.budget = bitlen)

/-- Every way OPEN can end, from any state: the context is READY on an audio block, or FAILED with a cause
and every context register cleared. Which cause goes with which failure, after any number of whole
metadata-only blocks: the locate's own cause; FORMAT for a size below 24, for metadata that MetaParse
fails or that run past the payload, for a bitstream that does and for a configuration or a chain that
does not fit; EXHAUSTED where the source ends inside a drained payload or the metadata. -/
def Obligations.OpenOutcomes : Prop :=
  (∀ s : State, ∃ t, exec .openCtx s = .next t ∧
    t.out = s.out ∧ t.host = s.host ∧ t.build = s.build ∧ t.seq.contract = s.seq.contract ∧
    ((t.resp = some ⟨.ok, 0⟩ ∧ t.seq.phase = .ready ∧ t.seq.cause = .none ∧ t.hdr.valid = true ∧
        24 ≤ t.hdr.ckSize.toNat ∧ t.hdr.blockSamples ≠ 0 ∧ t.blk.active = true ∧
        t.blk.blockIndex = t.hdr.blockIndex ∧ t.blk.blockSamples = t.hdr.blockSamples ∧
        t.blk.flags = t.hdr.flags ∧ t.blk.crcStored = t.hdr.crc ∧
        t.ctx = { (Ctx.reset s.params).derive s.params t.hdr.flags with
                  total := t.ctx.total, cursor := t.hdr.blockIndex.setWidth 64 } ∧
        t.br.cnt = 0 ∧ t.br.eod = false) ∨
      (t.resp = some ⟨.fail, 0⟩ ∧ t.seq.phase = .failed ∧ t.seq.cause ≠ .none ∧
        t.ctx = Ctx.reset s.params ∧ t.fexp = 0 ∧ t.blk = Blk.reset s.params ∧ t.pass = [] ∧
        t.es = s.params.esReset ∧ t.br.idx = 0 ∧ t.br.fin = 0 ∧ t.br.acc = 0 ∧ t.br.cnt = 0 ∧
        t.br.eod = false ∧ t.br.budget = 0))) ∧
  (∀ (s : State) (blocks : List MetaBlock) (bytes : List Byte) (c : Cause),
    s.src.stream = blockBytes blocks ++ bytes → metadataOnly s.params bytes blocks →
    openFails s.params bytes c →
    ∃ t, exec .openCtx s = .next t ∧ t.resp = some ⟨.fail, 0⟩ ∧
      t.seq = { s.seq with phase := .failed, cause := c })

/-- The configuration `Derive` computes from a flags word, and what it leaves of the counters. The two
formulas of bytes and bits are the spec's from general knowledge (log entry 22). -/
def Obligations.DerivedConfiguration : Prop :=
  ∀ (P : Params) (flags : Word) (c d : Ctx) (ff : FlagRec), d = c.derive P flags →
    ff = P.flagField flags →
    (ff.float = true → d.bytes = 3 ∧ d.bits = 24) ∧
    (ff.float = false → d.bytes.toNat = ff.stored.toNat + 1 ∧
      d.bits = BitVec.ofInt 32 (8 * (d.bytes.toNat : Int) - ff.shift.toNat)) ∧
    d.rate = (if ff.srate = P.rateCustom then 44100 else P.rateOther ff.srate) ∧
    d.nch = (if ff.mono then 1 else 2) ∧
    d.mask = P.defaultMask d.nch ∧
    d.reduced = (if ff.initial = true ∧ ff.final = true then 0 else d.nch) ∧
    d.frameWidth = d.nch ∧
    d.total = c.total ∧ d.crcErrors = c.crcErrors ∧ d.cursor = c.cursor

/-- CLOSE, in every phase: the context is cleared, the phase is NOCTX and the cause NONE; the contract
bit, HDR, the window, the source and the output buffer are kept. -/
def Obligations.CloseClearsContext : Prop :=
  ∀ s : State, (∀ arg, runCommand 0x03 arg s = exec .closeCtx s) ∧ exec .closeCtx s = .next
    (((((((s.setSeq { s.seq with phase := .noctx, cause := .none }).setBr
      { s.br with idx := 0, fin := 0, acc := 0, cnt := 0, eod := false, budget := 0 }).setCtx
      { rate := 44100, nch := 2, bits := 16, bytes := 2, mask := s.params.defaultMask 2, reduced := 0,
        total := 0xFFFFFFFF, crcErrors := 0, cursor := 0, frameWidth := 2 }).setFexp 0).setBlk
      { active := false, bytesLeft := 0, crc := s.params.crcInit, bc := 0, blockIndex := 0,
        blockSamples := 0, flags := 0, crcStored := 0 }).setPass []).setEs s.params.esReset
      |>.setResp (some ⟨.ok, 0⟩))

/-- The phases and their causes: OPEN ends in READY or FAILED and CLOSE in NOCTX; every other command
keeps the phase, but for UNPACK, which may take READY to ENDED. A terminal phase has a cause. -/
def Obligations.PhaseTransitions : Prop :=
  ∀ (i : Instr) (s t : State), exec i s = .next t →
    (i = .openCtx → (t.seq.phase = .ready ∧ t.seq.cause = .none) ∨
      (t.seq.phase = .failed ∧ t.seq.cause ≠ .none)) ∧
    (i = .closeCtx → t.seq.phase = .noctx ∧ t.seq.cause = .none) ∧
    (i ≠ .openCtx → i ≠ .closeCtx → t.seq.phase = s.seq.phase ∨
      (s.seq.phase = .ready ∧ t.seq.phase = .ended ∧ t.seq.cause ≠ .none ∧ ∃ max, i = .unpack max)) ∧
    (i ≠ .openCtx → i ≠ .closeCtx → i ≠ .locReadHeader → t.seq.phase = s.seq.phase →
      t.seq.cause = s.seq.cause)

/-- What no command but OPEN and CLOSE changes: the frozen configuration and a known total; the checksum
counter and the cursor only grow. -/
def Obligations.ContextOnlyGrows : Prop :=
  ∀ (i : Instr) (s t : State), i ≠ .openCtx → i ≠ .closeCtx → exec i s = .next t →
    t.ctx.rate = s.ctx.rate ∧ t.ctx.nch = s.ctx.nch ∧ t.ctx.bits = s.ctx.bits ∧
    t.ctx.bytes = s.ctx.bytes ∧ t.ctx.mask = s.ctx.mask ∧ t.ctx.reduced = s.ctx.reduced ∧
    t.ctx.frameWidth = s.ctx.frameWidth ∧
    (s.ctx.total ≠ 0xFFFFFFFF → t.ctx.total = s.ctx.total) ∧
    s.ctx.crcErrors.toNat ≤ t.ctx.crcErrors.toNat ∧ s.ctx.cursor.toNat ≤ t.ctx.cursor.toNat ∧
    ((∀ max, i ≠ .unpack max) → t.ctx = s.ctx)

/-! ### UNPACK -/

/-- UNPACK in READY and ENDED: it produces at most max frames, the cursor moves by the frames produced,
the response is END exactly when the context is in ENDED, and OK with fewer frames means the known total
was reached. -/
def Obligations.UnpackResponse : Prop :=
  ∀ (s : State) (max : Word), s.seq.phase = .ready ∨ s.seq.phase = .ended →
    ∃ (t : State) (n : Nat), exec (.unpack max) s = .next t ∧ n ≤ max.toNat ∧
      t.resp = some ⟨if t.seq.phase = .ended then .endOfStream else .ok, BitVec.ofNat 32 n⟩ ∧
      t.ctx.cursor.toNat = s.ctx.cursor.toNat + n ∧
      (n < max.toNat → t.seq.phase ≠ .ended →
        t.ctx.total ≠ 0xFFFFFFFF ∧ t.ctx.total.toNat ≤ t.ctx.cursor.toNat)

/-- The stops that produce nothing: in ENDED every UNPACK answers (END, 0), in READY an UNPACK 0 answers
(OK, 0), and once the cursor has reached a known total every UNPACK answers (OK, 0); nothing else changes.
No UNPACK takes the cursor past a known total. -/
def Obligations.UnpackStops : Prop :=
  (∀ (s : State) (max : Word), s.seq.phase = .ended →
    exec (.unpack max) s = .next (s.setResp (some ⟨.endOfStream, 0⟩))) ∧
  (∀ s : State, s.seq.phase = .ready →
    exec (.unpack 0) s = .next (s.setResp (some ⟨.ok, 0⟩))) ∧
  (∀ (s : State) (max : Word), s.seq.phase = .ready → s.ctx.total ≠ 0xFFFFFFFF →
    s.ctx.total.toNat ≤ s.ctx.cursor.toNat →
      exec (.unpack max) s = .next (s.setResp (some ⟨.ok, 0⟩))) ∧
  (∀ (s : State) (max : Word), s.seq.phase = .ready → s.ctx.total ≠ 0xFFFFFFFF →
    s.ctx.cursor.toNat ≤ s.ctx.total.toNat →
      ∃ t, exec (.unpack max) s = .next t ∧ t.ctx.cursor.toNat ≤ t.ctx.total.toNat)

/-- Each index 0 to produced · W − 1 is written exactly once, in order, and no other, without wrap: an
index that no u32 holds is R265's, beside the u32 of R66 (log entry 11). -/
def Obligations.OutputIndexesInOrder : Prop :=
  ∀ (s t : State) (max : Word), s.seq.phase = .ready ∨ s.seq.phase = .ended →
    exec (.unpack max) s = .next t →
    ∃ (n : Nat) (l : List PortEvent), n ≤ max.toNat ∧ t.log = l ++ s.log ∧
      (∃ c, t.resp = some ⟨c, BitVec.ofNat 32 n⟩) ∧
      writtenIndexes l = List.range (n * s.ctx.frameWidth.toNat) ∧
      (∀ j, j < n * s.ctx.frameWidth.toNat → (t.out.read j).isSome = true) ∧
      ∀ j, n * s.ctx.frameWidth.toNat ≤ j → t.out.read j = s.out.read j

/-- What UNPACK leaves alone in every phase: the contract bit, the frozen configuration, the inputs to
come, the build. What it may change besides is in its rule's list, and the bytes of the output buffer it
writes are `OutputIndexesInOrder`. -/
def Obligations.UnpackFrame : Prop :=
  ∀ (s t : State) (max : Word), exec (.unpack max) s = .next t →
    t.seq.contract = s.seq.contract ∧ t.host = s.host ∧ t.build = s.build ∧
    t.ctx = { s.ctx with total := t.ctx.total, crcErrors := t.ctx.crcErrors,
                         cursor := t.ctx.cursor } ∧
    (t.seq.phase ≠ .ended → t.seq = s.seq)

/-- UNPACK inside a gap writes silence and nothing else: the frames up to the block's start are zeros, the
cursor moves over them, and no payload is consumed. An index that no u32 holds is R265's (log entry 11).
A gap that ends before max frames is an UNPACK of its frames and one of the others (`UnpackInParts`). -/
def Obligations.UnpackGapIsSilent : Prop :=
  ∀ (s : State) (max : Word), s.seq.phase = .ready → s.blk.active = true → 0 < max.toNat →
    s.ctx.cursor.toNat + max.toNat ≤ s.blk.blockIndex.toNat →
    (s.ctx.total ≠ 0xFFFFFFFF → s.ctx.cursor.toNat + max.toNat ≤ s.ctx.total.toNat) →
    ∃ t, exec (.unpack max) s = .next t ∧ t.resp = some ⟨.ok, max⟩ ∧
      t.ctx = { s.ctx with cursor := t.ctx.cursor } ∧
      t.ctx.cursor.toNat = s.ctx.cursor.toNat + max.toNat ∧
      (∀ j, t.out.read j =
        if j < max.toNat * s.ctx.frameWidth.toNat then some 0 else s.out.read j) ∧
      t.seq = s.seq ∧ t.br = s.br ∧ t.win = s.win ∧ t.hdr = s.hdr ∧ t.blk = s.blk ∧
      t.pass = s.pass ∧ t.es = s.es ∧ t.fexp = s.fexp ∧ t.src = s.src ∧ t.host = s.host ∧
      t.build = s.build

/-- UNPACK 1 at a frame of the active block whose residuals use no padding: the residuals go through the
passes in reverse order and `PostChain`, are folded into the checksum, and are written through `Fixup`,
a mono frame to every slot; at the block's end the checksum is verified. -/
def Obligations.UnpackOneFrame : Prop :=
  ∀ (s : State), s.seq.phase = .ready → s.blk.active = true →
    s.blk.blockIndex.toNat ≤ s.ctx.cursor.toNat →
    s.ctx.cursor.toNat < s.blk.blockIndex.toNat + s.blk.blockSamples.toNat →
    (s.ctx.total ≠ 0xFFFFFFFF → s.ctx.cursor.toNat < s.ctx.total.toNat) →
    (residuals s.params s).2.br.eod = false →
    ∃ t, exec (.unpack 1) s = .next t ∧ t.resp = some ⟨.ok, 1⟩ ∧
      t.ctx.cursor.toNat = s.ctx.cursor.toNat + 1 ∧
      t.pass = (passChain s.params s.pass (residuals s.params s).1).2 ∧
      t.es = (residuals s.params s).2.es ∧ t.br = (residuals s.params s).2.br ∧
      t.src = (residuals s.params s).2.src ∧
      t.blk = { (residuals s.params s).2.blk with
                crc := foldCrc s.params s.blk.crc
                  (postChain s.params s.blk.flags
                    (passChain s.params s.pass (residuals s.params s).1).1) } ∧
      (∀ j, t.out.read j =
        if j < s.ctx.frameWidth.toNat then
          some (s.params.fixup s.blk.flags s.fexp
            ((postChain s.params s.blk.flags
              (passChain s.params s.pass (residuals s.params s).1).1).slot j))
        else s.out.read j) ∧
      t.ctx = { s.ctx with
        cursor := t.ctx.cursor
        crcErrors :=
          if s.ctx.cursor.toNat + 1 = s.blk.blockIndex.toNat + s.blk.blockSamples.toNat ∧
              t.blk.crc ≠ s.blk.crcStored then
            BitVec.ofNat 32 (min (s.ctx.crcErrors.toNat + 1) 0xFFFFFFFF)
          else s.ctx.crcErrors } ∧
      t.seq = s.seq ∧ t.win = s.win ∧ t.hdr = s.hdr ∧ t.fexp = s.fexp ∧ t.host = s.host ∧
      t.build = s.build

/-- UNPACK at a frame whose residuals met the end of data: the frame is discarded, nothing is written or
folded, the cursor and the passes stay, and the context ends with cause EXHAUSTED. Where an UNPACK k
leads to such a frame, an UNPACK of more than k frames keeps the k already produced and counts them. -/
def Obligations.EndOfDataDiscardsFrame : Prop :=
  (∀ (s : State) (max : Word), s.seq.phase = .ready → s.blk.active = true → 0 < max.toNat →
    s.blk.blockIndex.toNat ≤ s.ctx.cursor.toNat →
    s.ctx.cursor.toNat < s.blk.blockIndex.toNat + s.blk.blockSamples.toNat →
    (s.ctx.total ≠ 0xFFFFFFFF → s.ctx.cursor.toNat < s.ctx.total.toNat) →
    (residuals s.params s).2.br.eod = true →
    ∃ t, exec (.unpack max) s = .next t ∧ t.resp = some ⟨.endOfStream, 0⟩ ∧
      t.seq = { s.seq with phase := .ended, cause := .exhausted } ∧ t.blk.active = false ∧
      t.blk.crc = s.blk.crc ∧ t.ctx = s.ctx ∧ t.pass = s.pass ∧ t.out = s.out) ∧
  (∀ (s t : State) (k max : Word), s.seq.phase = .ready → exec (.unpack k) s = .next t →
    t.resp = some ⟨.ok, k⟩ → k.toNat < max.toNat → t.blk.active = true →
    t.blk.blockIndex.toNat ≤ t.ctx.cursor.toNat →
    t.ctx.cursor.toNat < t.blk.blockIndex.toNat + t.blk.blockSamples.toNat →
    (t.ctx.total ≠ 0xFFFFFFFF → t.ctx.cursor.toNat < t.ctx.total.toNat) →
    (residuals t.params t).2.br.eod = true →
    ∃ u, exec (.unpack max) s = .next u ∧ u.resp = some ⟨.endOfStream, k⟩ ∧
      u.seq = { s.seq with phase := .ended, cause := .exhausted } ∧ u.blk.active = false ∧
      u.blk.crc = t.blk.crc ∧ u.ctx = t.ctx ∧ u.pass = t.pass ∧ u.out = t.out)

/-- The search for the next block, which an UNPACK in READY makes when it wants frames and has no active
block left: it goes on from there, or responds END with no frame where the search ended the stream. The
rest of the payload is drained, and a failed locate ends with its own cause. The first header decides: a
size below 24 and an overlap are format errors; a metadata-only block and a passed block are skipped,
their payload left for the next drain; another block begins, or fails to with its cause. A block that
begins keeps the passes, ES and FLT.exp that its metadata do not give anew. -/
def Obligations.FetchStepDecides : Prop :=
  (∀ (s : State) (max : Word), s.seq.phase = .ready → 0 < max.toNat →
    (s.ctx.total ≠ 0xFFFFFFFF → s.ctx.cursor.toNat < s.ctx.total.toNat) →
    (s.blk.active = false ∨
      s.blk.blockIndex.toNat + s.blk.blockSamples.toNat ≤ s.ctx.cursor.toNat) →
    ((fetchStep s.params s).seq.phase = .ended →
      exec (.unpack max) s = .next ((fetchStep s.params s).setResp (some ⟨.endOfStream, 0⟩))) ∧
    ((fetchStep s.params s).seq.phase ≠ .ended →
      exec (.unpack max) s = exec (.unpack max) (fetchStep s.params s))) ∧
  ∀ (s t : State) (bytes : List Byte), WindowOk s → t = fetchStep s.params s →
    bytes = s.win ++ s.src.stream.drop s.blk.bytesLeft.toNat →
    (s.src.stream.length < s.blk.bytesLeft.toNat →
      t.seq = { s.seq with phase := .ended, cause := .exhausted } ∧ t.blk.active = false) ∧
    (s.blk.bytesLeft.toNat ≤ s.src.stream.length → ∀ c, locateFails s.params bytes c →
      t.seq = { s.seq with phase := .ended, cause := c } ∧ t.blk.active = false ∧ t.ctx = s.ctx ∧
        t.pass = s.pass) ∧
    (s.blk.bytesLeft.toNat ≤ s.src.stream.length → ∀ (j : Nat) (h : Hdr),
      firstHeader s.params bytes j → h = parseHeader ((bytes.drop j).take 32) →
        t.hdr = h ∧
        t.ctx = { s.ctx with total := if s.ctx.total = 0xFFFFFFFF then h.total else s.ctx.total } ∧
        (h.ckSize.toNat < 24 →
          t.seq = { s.seq with phase := .ended, cause := .format } ∧ t.blk.active = false) ∧
        (24 ≤ h.ckSize.toNat →
          (h.blockSamples = 0 ∨
            h.blockIndex.toNat + h.blockSamples.toNat ≤ s.ctx.cursor.toNat) →
          t.seq = s.seq ∧ t.blk.active = false ∧
            t.blk.bytesLeft.toNat = h.ckSize.toNat - 24 ∧ t.pass = s.pass) ∧
        (24 ≤ h.ckSize.toNat → h.blockSamples ≠ 0 → h.blockIndex.toNat < s.ctx.cursor.toNat →
          s.ctx.cursor.toNat < h.blockIndex.toNat + h.blockSamples.toNat →
          t.seq = { s.seq with phase := .ended, cause := .format } ∧ t.blk.active = false) ∧
        (24 ≤ h.ckSize.toNat → h.blockSamples ≠ 0 → s.ctx.cursor.toNat ≤ h.blockIndex.toNat →
          (∀ c, beginFails s.params h s.pass s.ctx.frameWidth (bytes.drop (j + 32)) c →
            t.seq = { s.seq with phase := .ended, cause := c } ∧ t.blk.active = false ∧
              t.pass = s.pass ∧ t.es = s.es ∧ t.fexp = s.fexp) ∧
          (∀ k cfg bitlen,
            beginsWith s.params h s.pass s.ctx.frameWidth (bytes.drop (j + 32)) k cfg bitlen →
            t.seq = s.seq ∧ t.pass = (if cfg.fresh then cfg.passes else s.pass) ∧
              t.es = cfg.esInit.getD s.es ∧ t.fexp = cfg.fexp.getD s.fexp ∧
              t.blk = { active := true, bytesLeft := h.ckSize - 24 - BitVec.ofNat 32 k,
                        crc := s.params.crcInit,
                        bc := if (s.params.flagField h.flags).mono then 1 else 2,
                        blockIndex := h.blockIndex, blockSamples := h.blockSamples,
                        flags := h.flags, crcStored := h.crc } ∧
              t.br = { s.br with idx := 0, fin := 0, acc := 0, cnt := 0, eod := false,
                                 budget := bitlen } ∧
              t.src.stream = bytes.drop (j + 32 + k))))

/-! ### The decorrelation passes -/

/-- One channel of a SHORT or LONG pass: the output is the wrapped sum, the weight moves by the step and
is clamped exactly, a zero input or a zero residual leaves a bounded weight unchanged, the weight fits in
WEIGHT_BITS, and the output enters the history, whose oldest value is evicted. Channel 0 uses and updates
the A weight and history, channel 1 the B ones, and a frame of one channel leaves the B ones alone. -/
def Obligations.ChannelStep : Prop :=
  (∀ (P : Params) (t : BitVec 8) (delta : Nat) (w : Int) (x : S32) (h : Hist) (o : ChanOut),
    o = chanStep P t delta w h x →
    o.y = BitVec.ofInt 32 (x.toInt + (P.applyWeight w (P.predInput t h)).toInt) ∧
    o.w = max (-(P.wBound t : Int)) (min (P.wBound t : Int)
      (w + (P.predInput t h).toInt.sign * x.toInt.sign * (delta : Int))) ∧
    o.w.natAbs ≤ P.wBound t ∧
    (-(2 ^ (P.weightBits - 1)) ≤ o.w ∧ o.w < 2 ^ (P.weightBits - 1)) ∧
    (w.natAbs ≤ P.wBound t → P.predInput t h = 0 ∨ x = 0 → o.w = w) ∧
    o.h.getD 0 0 = o.y ∧ (∀ i, i + 1 < P.maxHist → o.h.getD (i + 1) 0 = h.getD i 0) ∧
    (h.length = P.maxHist → o.h.length = P.maxHist)) ∧
  (∀ (P : Params) (p : Pass) (a b : S32) (oA oB : ChanOut),
    P.termKind p.term = .short ∨ P.termKind p.term = .long →
    oA = chanStep P p.term p.delta p.wA p.hA a → oB = chanStep P p.term p.delta p.wB p.hB b →
    passStep P p (.mono a) = (.mono oA.y, { p with wA := oA.w, hA := oA.h }) ∧
    passStep P p (.stereo a b) =
      (.stereo oA.y oB.y, { p with wA := oA.w, hA := oA.h, wB := oB.w, hB := oB.h }))

/-- The predictor input of a SHORT term t is the output t frames back. -/
def Obligations.ShortTermLag : Prop :=
  ∀ (P : Params) (t : BitVec 8) (h : Hist) (ys : List S32), 1 ≤ t.toNat → t.toNat ≤ 8 →
    t.toNat ≤ ys.length →
    P.predInput t (ys.foldl P.histPush h) = ys.getD (ys.length - t.toNat) 0

/-- The passes run in reverse registration order, each on the output of the one after it; an empty chain
passes the residuals straight through. -/
def Obligations.PassesRunInReverse : Prop :=
  (∀ (P : Params) (v : Frame), passChain P [] v = (v, [])) ∧
  (∀ (P : Params) (ps : List Pass) (p : Pass) (v : Frame),
    passChain P (ps ++ [p]) v =
      ((passChain P ps (passStep P p v).1).1,
        (passChain P ps (passStep P p v).1).2 ++ [(passStep P p v).2]))

/-- What every JOINT step is: each output is the wrapped sum of its value and a weighted input, each weight
moves by the update of its term with that input and stays within its bound, the histories keep MAX_HIST
values, and the term and the delta stay. That the output and the update share one input is the model's
reading of R262 (log entry 5). The default steps of the terms −1, −2 and −3: their inputs, outputs,
weights and histories, which are the spec's defaults from general knowledge (log entry 22). -/
def Obligations.JointSteps : Prop :=
  (∀ (P : Params) (p : Pass) (a b : S32), P.termKind p.term = .joint →
    ∃ (sA sB : S32) (hA hB : Hist) (wA wB : Int), passStep P p (.stereo a b) =
      (.stereo (BitVec.ofInt 32 (a.toInt + (P.applyWeight p.wA sA).toInt))
        (BitVec.ofInt 32 (b.toInt + (P.applyWeight p.wB sB).toInt)),
      { p with wA := wA, wB := wB, hA := hA, hB := hB }) ∧
      wA = P.updWeight p.term p.delta p.wA sA a ∧ wB = P.updWeight p.term p.delta p.wB sB b ∧
      wA.natAbs ≤ P.wBound p.term ∧ wB.natAbs ≤ P.wBound p.term ∧
      hA.length = P.maxHist ∧ hB.length = P.maxHist) ∧
  (∀ (p : Pass) (a b yA yB : S32) (q : Pass) (U : Int → S32 → S32 → Int),
    passStep Params.ti p (.stereo a b) = (.stereo yA yB, q) →
    U = Params.ti.updWeight p.term p.delta → p.hA.length = 8 → p.hB.length = 8 →
    (p.term = 0xFF →
      yA = a + tiApplyWeight p.wA (p.hA.getD 0 0) ∧ yB = b + tiApplyWeight p.wB yA ∧
      q.wA = U p.wA (p.hA.getD 0 0) a ∧ q.wB = U p.wB yA b ∧
      q.hA = p.hA.set 0 yB ∧ q.hB = p.hB) ∧
    (p.term = 0xFE →
      yB = b + tiApplyWeight p.wB (p.hB.getD 0 0) ∧ yA = a + tiApplyWeight p.wA yB ∧
      q.wB = U p.wB (p.hB.getD 0 0) b ∧ q.wA = U p.wA yB a ∧
      q.hB = p.hB.set 0 yA ∧ q.hA = p.hA) ∧
    (p.term = 0xFD →
      yA = a + tiApplyWeight p.wA (p.hA.getD 0 0) ∧ yB = b + tiApplyWeight p.wB (p.hB.getD 0 0) ∧
      q.wA = U p.wA (p.hA.getD 0 0) a ∧ q.wB = U p.wB (p.hB.getD 0 0) b ∧
      q.hA = p.hA.set 0 yB ∧ q.hB = p.hB.set 0 yA))

/-! ### The invariants -/

/-- The reset state of every build meets every invariant. -/
def Obligations.ResetMeetsInvariants : Prop :=
  ∀ b : Build, Memory.wf (State.resetOf b).out ∧ ReaderOk (State.resetOf b) ∧
    WindowOk (State.resetOf b) ∧ ClearedWithoutContext (State.resetOf b) ∧
    WidthOk (State.resetOf b) ∧ PassesOk (State.resetOf b) ∧ BlockOk (State.resetOf b) ∧
    CursorOk (State.resetOf b) ∧ DrainedOk (State.resetOf b)

/-- Every step keeps the registers of the bit reader and the window in their ranges, leaves no byte unread
behind the end of data, and keeps the output buffer in its canonical form. -/
def Obligations.RangesKept : Prop :=
  ∀ s t : State, ReaderOk s → WindowOk s → DrainedOk s → Memory.wf s.out → step s = .next t →
    ReaderOk t ∧ WindowOk t ∧ DrainedOk t ∧ Memory.wf t.out

/-- Every step keeps the context registers at their fallbacks where no context exists, the frame width the
channel count, 1 or 2, and the cursor within 2^32 + 2^32 − 2, so that it never wraps. -/
def Obligations.ContextRegistersKept : Prop :=
  ∀ s t : State, ClearedWithoutContext s → WidthOk s → CursorOk s → step s = .next t →
    ClearedWithoutContext t ∧ WidthOk t ∧ CursorOk t

/-- Every step keeps at most MAX_PASSES passes, none of them Invalid, both weights of each within the
bound of its term, its delta in DELTA_BITS and its histories at MAX_HIST values. -/
def Obligations.WeightsStayBounded : Prop :=
  ∀ s t : State, PassesOk s → step s = .next t → PassesOk t

/-- Every step keeps the active block decodable: in READY, 1 or 2 channels, a pass chain that fits, no end
of data met, and a bit budget within the payload left. -/
def Obligations.ActiveBlockKept : Prop :=
  ∀ s t : State, BlockOk s → step s = .next t → BlockOk t

/-! ### Independence of the source's responses -/

/-- Two runs that differ only in how the byte source splits its responses give the same responses, output,
configuration, header, passes and status, command by command; they differ in BR.buf and in how much of
the stream is buffered there. OPEN, CLOSE, BR_ATTACH and LOC_READ_HEADER abandon the unread bytes of the
buffer or read past them, so they are compared where the streams are equal: where no byte is unread, or
where no block is active and a context exists or has failed (`SameButSplit.idle`). -/
def Obligations.SplitIndependence : Prop :=
  (∀ (i : Instr) (s t s' t' : State), SameButSplit s t → ReaderOk s → ReaderOk t → DrainedOk s →
    DrainedOk t → BlockOk s → BlockOk t →
    (i = .openCtx ∨ i = .closeCtx ∨ (∃ b, i = .brAttach b) ∨ i = .locReadHeader →
      s.src.stream = t.src.stream) →
    exec i s = .next s' → exec i t = .next t' → SameButSplit s' t') ∧
  (∀ s t : State, SameButSplit s t → s.br.unread = [] → t.br.unread = [] →
    s.src.stream = t.src.stream)

/-! ### Frames of one UNPACK and their channels -/

/-- An UNPACK of m + n frames is an UNPACK of m, if that produces them all, and an UNPACK of n: the same
registers, the frames counted together, and the frames of the second behind those of the first. With
`UnpackOneFrame`, `UnpackGapIsSilent` and `FetchStepDecides` it gives the value of every frame. An index
that no u32 holds is R265's (log entry 11). -/
def Obligations.UnpackInParts : Prop :=
  ∀ (s t : State) (m n : Word), s.seq.phase = .ready → m.toNat + n.toNat < 2 ^ 32 →
    exec (.unpack m) s = .next t → t.resp = some ⟨.ok, m⟩ →
    ∃ (u v : State) (k : Nat) (c : RespCode), exec (.unpack n) t = .next u ∧ k ≤ n.toNat ∧
      u.resp = some ⟨c, BitVec.ofNat 32 k⟩ ∧ exec (.unpack (m + n)) s = .next v ∧
      v.resp = some ⟨c, BitVec.ofNat 32 (m.toNat + k)⟩ ∧
      v = ((u.setOut v.out).setLog v.log).setResp v.resp ∧
      ∀ j, v.out.read j =
        if j < m.toNat * s.ctx.frameWidth.toNat then t.out.read j
        else if j < (m.toNat + k) * s.ctx.frameWidth.toNat then
          u.out.read (j - m.toNat * s.ctx.frameWidth.toNat)
        else s.out.read j

/-- The channels of a frame: its residuals are decoded channel 0 first and channel 1 from the bits and the
entropy state channel 0 leaves; each coded channel is folded into the checksum once, channel 0 first; a
frame of one channel fills every output slot, one of two its own. -/
def Obligations.FrameChannelOrder : Prop :=
  (∀ (s : State) (x0 : S32) (es0 : ES) (s0 : State),
    runBits s.params (s.params.entropyDecode s.es .a) s = ((x0, es0), s0) →
    (s.blk.bc = 1 → residuals s.params s = (.mono x0, s0.setEs es0)) ∧
    (s.blk.bc = 2 → ∀ (x1 : S32) (es1 : ES) (s1 : State),
      runBits s.params (s.params.entropyDecode es0 .b) (s0.setEs es0) = ((x1, es1), s1) →
      residuals s.params s = (.stereo x0 x1, s1.setEs es1))) ∧
  (∀ (P : Params) (crc : Word) (a b : S32) (j : Nat),
    foldCrc P crc (.mono a) = P.crcStep crc a ∧
    foldCrc P crc (.stereo a b) = P.crcStep (P.crcStep crc a) b ∧
    Frame.slot (.mono a) j = a ∧ Frame.slot (.stereo a b) 0 = a ∧
    Frame.slot (.stereo a b) (j + 1) = b)

end
end

