-- ==== Sys2Proof/Laws/Memory.lean ====
section
/-! SUPPORT. The output buffer: a read after a write, and the canonical form. -/

namespace Sys2Proof.Machine.Memory

@[simp] theorem read_nil (i : Nat) : Memory.read [] i = none := rfl

theorem read_write (m : Memory) (i j : Nat) (v : S32) :
    (m.write i v).read j = if j = i then some v else m.read j := by
  induction m with
  | nil => simp [Memory.write, Memory.read]
  | cons p rest ih =>
    obtain ⟨k, w⟩ := p
    simp only [Memory.write]
    split_ifs with h1 h2 <;> simp only [Memory.read, ih] <;> split_ifs <;> simp_all

@[simp] theorem read_write_same (m : Memory) (i : Nat) (v : S32) :
    (m.write i v).read i = some v := by simp [read_write]

theorem read_write_other (m : Memory) {i j : Nat} (v : S32) (h : j ≠ i) :
    (m.write i v).read j = m.read j := by simp [read_write, h]

/-- An entry of a written buffer is the new one or an old one. -/
theorem mem_write {m : Memory} {i : Nat} {v : S32} {p : Nat × S32} (h : p ∈ m.write i v) :
    p = (i, v) ∨ p ∈ m := by
  induction m with
  | nil => simpa [Memory.write] using h
  | cons q rest ih =>
    simp only [Memory.write] at h
    split_ifs at h <;> simp only [List.mem_cons] at h ⊢ <;> grind

theorem wf_nil : Memory.wf [] := List.Pairwise.nil

/-- Every write keeps the canonical form. -/
theorem wf_write {m : Memory} (h : m.wf) (i : Nat) (v : S32) : (m.write i v).wf := by
  induction m with
  | nil => simp [Memory.write, Memory.wf]
  | cons q rest ih =>
    obtain ⟨j, w⟩ := q
    rw [Memory.wf, List.pairwise_cons] at h
    simp only [Memory.write]
    split_ifs with h1 h2
    · refine List.pairwise_cons.2 ⟨fun p hp => ?_, List.pairwise_cons.2 h⟩
      rcases List.mem_cons.1 hp with rfl | hp
      · exact h1
      · exact h1.trans (h.1 p hp)
    · subst h2
      exact List.pairwise_cons.2 h
    · refine List.pairwise_cons.2 ⟨fun p hp => ?_, ih h.2⟩
      rcases mem_write hp with rfl | hp
      · dsimp only; omega
      · exact h.1 p hp

end Sys2Proof.Machine.Memory
end

