-- ==== Sys2Proof/Laws/State.lean ====
section
/-! SUPPORT. What each single update of State does to each field: one lemma per field per update, so that
no later proof unfolds a record update. -/

namespace Sys2Proof.Machine.State

/-! ### `setSeq` -/

@[simp] theorem setSeq_seq (s : State) (x : Seq) : (s.setSeq x).seq = x := rfl
@[simp] theorem setSeq_br (s : State) (x : Seq) : (s.setSeq x).br = s.br := rfl
@[simp] theorem setSeq_win (s : State) (x : Seq) : (s.setSeq x).win = s.win := rfl
@[simp] theorem setSeq_hdr (s : State) (x : Seq) : (s.setSeq x).hdr = s.hdr := rfl
@[simp] theorem setSeq_ctx (s : State) (x : Seq) : (s.setSeq x).ctx = s.ctx := rfl
@[simp] theorem setSeq_blk (s : State) (x : Seq) : (s.setSeq x).blk = s.blk := rfl
@[simp] theorem setSeq_pass (s : State) (x : Seq) : (s.setSeq x).pass = s.pass := rfl
@[simp] theorem setSeq_es (s : State) (x : Seq) : (s.setSeq x).es = s.es := rfl
@[simp] theorem setSeq_fexp (s : State) (x : Seq) : (s.setSeq x).fexp = s.fexp := rfl
@[simp] theorem setSeq_src (s : State) (x : Seq) : (s.setSeq x).src = s.src := rfl
@[simp] theorem setSeq_out (s : State) (x : Seq) : (s.setSeq x).out = s.out := rfl
@[simp] theorem setSeq_resp (s : State) (x : Seq) : (s.setSeq x).resp = s.resp := rfl
@[simp] theorem setSeq_host (s : State) (x : Seq) : (s.setSeq x).host = s.host := rfl
@[simp] theorem setSeq_log (s : State) (x : Seq) : (s.setSeq x).log = s.log := rfl
@[simp] theorem setSeq_build (s : State) (x : Seq) : (s.setSeq x).build = s.build := rfl
@[simp] theorem setSeq_params (s : State) (x : Seq) : (s.setSeq x).params = s.params := rfl
@[simp] theorem setSeq_self (s : State) : s.setSeq s.seq = s := rfl
@[simp] theorem setSeq_setSeq (s : State) (x y : Seq) : (s.setSeq x).setSeq y = s.setSeq y := rfl

/-! ### `setBr` -/

@[simp] theorem setBr_seq (s : State) (x : BitReader) : (s.setBr x).seq = s.seq := rfl
@[simp] theorem setBr_br (s : State) (x : BitReader) : (s.setBr x).br = x := rfl
@[simp] theorem setBr_win (s : State) (x : BitReader) : (s.setBr x).win = s.win := rfl
@[simp] theorem setBr_hdr (s : State) (x : BitReader) : (s.setBr x).hdr = s.hdr := rfl
@[simp] theorem setBr_ctx (s : State) (x : BitReader) : (s.setBr x).ctx = s.ctx := rfl
@[simp] theorem setBr_blk (s : State) (x : BitReader) : (s.setBr x).blk = s.blk := rfl
@[simp] theorem setBr_pass (s : State) (x : BitReader) : (s.setBr x).pass = s.pass := rfl
@[simp] theorem setBr_es (s : State) (x : BitReader) : (s.setBr x).es = s.es := rfl
@[simp] theorem setBr_fexp (s : State) (x : BitReader) : (s.setBr x).fexp = s.fexp := rfl
@[simp] theorem setBr_src (s : State) (x : BitReader) : (s.setBr x).src = s.src := rfl
@[simp] theorem setBr_out (s : State) (x : BitReader) : (s.setBr x).out = s.out := rfl
@[simp] theorem setBr_resp (s : State) (x : BitReader) : (s.setBr x).resp = s.resp := rfl
@[simp] theorem setBr_host (s : State) (x : BitReader) : (s.setBr x).host = s.host := rfl
@[simp] theorem setBr_log (s : State) (x : BitReader) : (s.setBr x).log = s.log := rfl
@[simp] theorem setBr_build (s : State) (x : BitReader) : (s.setBr x).build = s.build := rfl
@[simp] theorem setBr_params (s : State) (x : BitReader) : (s.setBr x).params = s.params := rfl
@[simp] theorem setBr_self (s : State) : s.setBr s.br = s := rfl
@[simp] theorem setBr_setBr (s : State) (x y : BitReader) : (s.setBr x).setBr y = s.setBr y := rfl

/-! ### `setWin` -/

@[simp] theorem setWin_seq (s : State) (x : List Byte) : (s.setWin x).seq = s.seq := rfl
@[simp] theorem setWin_br (s : State) (x : List Byte) : (s.setWin x).br = s.br := rfl
@[simp] theorem setWin_win (s : State) (x : List Byte) : (s.setWin x).win = x := rfl
@[simp] theorem setWin_hdr (s : State) (x : List Byte) : (s.setWin x).hdr = s.hdr := rfl
@[simp] theorem setWin_ctx (s : State) (x : List Byte) : (s.setWin x).ctx = s.ctx := rfl
@[simp] theorem setWin_blk (s : State) (x : List Byte) : (s.setWin x).blk = s.blk := rfl
@[simp] theorem setWin_pass (s : State) (x : List Byte) : (s.setWin x).pass = s.pass := rfl
@[simp] theorem setWin_es (s : State) (x : List Byte) : (s.setWin x).es = s.es := rfl
@[simp] theorem setWin_fexp (s : State) (x : List Byte) : (s.setWin x).fexp = s.fexp := rfl
@[simp] theorem setWin_src (s : State) (x : List Byte) : (s.setWin x).src = s.src := rfl
@[simp] theorem setWin_out (s : State) (x : List Byte) : (s.setWin x).out = s.out := rfl
@[simp] theorem setWin_resp (s : State) (x : List Byte) : (s.setWin x).resp = s.resp := rfl
@[simp] theorem setWin_host (s : State) (x : List Byte) : (s.setWin x).host = s.host := rfl
@[simp] theorem setWin_log (s : State) (x : List Byte) : (s.setWin x).log = s.log := rfl
@[simp] theorem setWin_build (s : State) (x : List Byte) : (s.setWin x).build = s.build := rfl
@[simp] theorem setWin_params (s : State) (x : List Byte) : (s.setWin x).params = s.params := rfl
@[simp] theorem setWin_self (s : State) : s.setWin s.win = s := rfl
@[simp] theorem setWin_setWin (s : State) (x y : List Byte) : (s.setWin x).setWin y = s.setWin y := rfl

/-! ### `setHdr` -/

@[simp] theorem setHdr_seq (s : State) (x : Hdr) : (s.setHdr x).seq = s.seq := rfl
@[simp] theorem setHdr_br (s : State) (x : Hdr) : (s.setHdr x).br = s.br := rfl
@[simp] theorem setHdr_win (s : State) (x : Hdr) : (s.setHdr x).win = s.win := rfl
@[simp] theorem setHdr_hdr (s : State) (x : Hdr) : (s.setHdr x).hdr = x := rfl
@[simp] theorem setHdr_ctx (s : State) (x : Hdr) : (s.setHdr x).ctx = s.ctx := rfl
@[simp] theorem setHdr_blk (s : State) (x : Hdr) : (s.setHdr x).blk = s.blk := rfl
@[simp] theorem setHdr_pass (s : State) (x : Hdr) : (s.setHdr x).pass = s.pass := rfl
@[simp] theorem setHdr_es (s : State) (x : Hdr) : (s.setHdr x).es = s.es := rfl
@[simp] theorem setHdr_fexp (s : State) (x : Hdr) : (s.setHdr x).fexp = s.fexp := rfl
@[simp] theorem setHdr_src (s : State) (x : Hdr) : (s.setHdr x).src = s.src := rfl
@[simp] theorem setHdr_out (s : State) (x : Hdr) : (s.setHdr x).out = s.out := rfl
@[simp] theorem setHdr_resp (s : State) (x : Hdr) : (s.setHdr x).resp = s.resp := rfl
@[simp] theorem setHdr_host (s : State) (x : Hdr) : (s.setHdr x).host = s.host := rfl
@[simp] theorem setHdr_log (s : State) (x : Hdr) : (s.setHdr x).log = s.log := rfl
@[simp] theorem setHdr_build (s : State) (x : Hdr) : (s.setHdr x).build = s.build := rfl
@[simp] theorem setHdr_params (s : State) (x : Hdr) : (s.setHdr x).params = s.params := rfl
@[simp] theorem setHdr_self (s : State) : s.setHdr s.hdr = s := rfl
@[simp] theorem setHdr_setHdr (s : State) (x y : Hdr) : (s.setHdr x).setHdr y = s.setHdr y := rfl

/-! ### `setCtx` -/

@[simp] theorem setCtx_seq (s : State) (x : Ctx) : (s.setCtx x).seq = s.seq := rfl
@[simp] theorem setCtx_br (s : State) (x : Ctx) : (s.setCtx x).br = s.br := rfl
@[simp] theorem setCtx_win (s : State) (x : Ctx) : (s.setCtx x).win = s.win := rfl
@[simp] theorem setCtx_hdr (s : State) (x : Ctx) : (s.setCtx x).hdr = s.hdr := rfl
@[simp] theorem setCtx_ctx (s : State) (x : Ctx) : (s.setCtx x).ctx = x := rfl
@[simp] theorem setCtx_blk (s : State) (x : Ctx) : (s.setCtx x).blk = s.blk := rfl
@[simp] theorem setCtx_pass (s : State) (x : Ctx) : (s.setCtx x).pass = s.pass := rfl
@[simp] theorem setCtx_es (s : State) (x : Ctx) : (s.setCtx x).es = s.es := rfl
@[simp] theorem setCtx_fexp (s : State) (x : Ctx) : (s.setCtx x).fexp = s.fexp := rfl
@[simp] theorem setCtx_src (s : State) (x : Ctx) : (s.setCtx x).src = s.src := rfl
@[simp] theorem setCtx_out (s : State) (x : Ctx) : (s.setCtx x).out = s.out := rfl
@[simp] theorem setCtx_resp (s : State) (x : Ctx) : (s.setCtx x).resp = s.resp := rfl
@[simp] theorem setCtx_host (s : State) (x : Ctx) : (s.setCtx x).host = s.host := rfl
@[simp] theorem setCtx_log (s : State) (x : Ctx) : (s.setCtx x).log = s.log := rfl
@[simp] theorem setCtx_build (s : State) (x : Ctx) : (s.setCtx x).build = s.build := rfl
@[simp] theorem setCtx_params (s : State) (x : Ctx) : (s.setCtx x).params = s.params := rfl
@[simp] theorem setCtx_self (s : State) : s.setCtx s.ctx = s := rfl
@[simp] theorem setCtx_setCtx (s : State) (x y : Ctx) : (s.setCtx x).setCtx y = s.setCtx y := rfl

/-! ### `setBlk` -/

@[simp] theorem setBlk_seq (s : State) (x : Blk) : (s.setBlk x).seq = s.seq := rfl
@[simp] theorem setBlk_br (s : State) (x : Blk) : (s.setBlk x).br = s.br := rfl
@[simp] theorem setBlk_win (s : State) (x : Blk) : (s.setBlk x).win = s.win := rfl
@[simp] theorem setBlk_hdr (s : State) (x : Blk) : (s.setBlk x).hdr = s.hdr := rfl
@[simp] theorem setBlk_ctx (s : State) (x : Blk) : (s.setBlk x).ctx = s.ctx := rfl
@[simp] theorem setBlk_blk (s : State) (x : Blk) : (s.setBlk x).blk = x := rfl
@[simp] theorem setBlk_pass (s : State) (x : Blk) : (s.setBlk x).pass = s.pass := rfl
@[simp] theorem setBlk_es (s : State) (x : Blk) : (s.setBlk x).es = s.es := rfl
@[simp] theorem setBlk_fexp (s : State) (x : Blk) : (s.setBlk x).fexp = s.fexp := rfl
@[simp] theorem setBlk_src (s : State) (x : Blk) : (s.setBlk x).src = s.src := rfl
@[simp] theorem setBlk_out (s : State) (x : Blk) : (s.setBlk x).out = s.out := rfl
@[simp] theorem setBlk_resp (s : State) (x : Blk) : (s.setBlk x).resp = s.resp := rfl
@[simp] theorem setBlk_host (s : State) (x : Blk) : (s.setBlk x).host = s.host := rfl
@[simp] theorem setBlk_log (s : State) (x : Blk) : (s.setBlk x).log = s.log := rfl
@[simp] theorem setBlk_build (s : State) (x : Blk) : (s.setBlk x).build = s.build := rfl
@[simp] theorem setBlk_params (s : State) (x : Blk) : (s.setBlk x).params = s.params := rfl
@[simp] theorem setBlk_self (s : State) : s.setBlk s.blk = s := rfl
@[simp] theorem setBlk_setBlk (s : State) (x y : Blk) : (s.setBlk x).setBlk y = s.setBlk y := rfl

/-! ### `setPass` -/

@[simp] theorem setPass_seq (s : State) (x : List Pass) : (s.setPass x).seq = s.seq := rfl
@[simp] theorem setPass_br (s : State) (x : List Pass) : (s.setPass x).br = s.br := rfl
@[simp] theorem setPass_win (s : State) (x : List Pass) : (s.setPass x).win = s.win := rfl
@[simp] theorem setPass_hdr (s : State) (x : List Pass) : (s.setPass x).hdr = s.hdr := rfl
@[simp] theorem setPass_ctx (s : State) (x : List Pass) : (s.setPass x).ctx = s.ctx := rfl
@[simp] theorem setPass_blk (s : State) (x : List Pass) : (s.setPass x).blk = s.blk := rfl
@[simp] theorem setPass_pass (s : State) (x : List Pass) : (s.setPass x).pass = x := rfl
@[simp] theorem setPass_es (s : State) (x : List Pass) : (s.setPass x).es = s.es := rfl
@[simp] theorem setPass_fexp (s : State) (x : List Pass) : (s.setPass x).fexp = s.fexp := rfl
@[simp] theorem setPass_src (s : State) (x : List Pass) : (s.setPass x).src = s.src := rfl
@[simp] theorem setPass_out (s : State) (x : List Pass) : (s.setPass x).out = s.out := rfl
@[simp] theorem setPass_resp (s : State) (x : List Pass) : (s.setPass x).resp = s.resp := rfl
@[simp] theorem setPass_host (s : State) (x : List Pass) : (s.setPass x).host = s.host := rfl
@[simp] theorem setPass_log (s : State) (x : List Pass) : (s.setPass x).log = s.log := rfl
@[simp] theorem setPass_build (s : State) (x : List Pass) : (s.setPass x).build = s.build := rfl
@[simp] theorem setPass_params (s : State) (x : List Pass) : (s.setPass x).params = s.params := rfl
@[simp] theorem setPass_self (s : State) : s.setPass s.pass = s := rfl
@[simp] theorem setPass_setPass (s : State) (x y : List Pass) : (s.setPass x).setPass y = s.setPass y := rfl

/-! ### `setEs` -/

@[simp] theorem setEs_seq (s : State) (x : ES) : (s.setEs x).seq = s.seq := rfl
@[simp] theorem setEs_br (s : State) (x : ES) : (s.setEs x).br = s.br := rfl
@[simp] theorem setEs_win (s : State) (x : ES) : (s.setEs x).win = s.win := rfl
@[simp] theorem setEs_hdr (s : State) (x : ES) : (s.setEs x).hdr = s.hdr := rfl
@[simp] theorem setEs_ctx (s : State) (x : ES) : (s.setEs x).ctx = s.ctx := rfl
@[simp] theorem setEs_blk (s : State) (x : ES) : (s.setEs x).blk = s.blk := rfl
@[simp] theorem setEs_pass (s : State) (x : ES) : (s.setEs x).pass = s.pass := rfl
@[simp] theorem setEs_es (s : State) (x : ES) : (s.setEs x).es = x := rfl
@[simp] theorem setEs_fexp (s : State) (x : ES) : (s.setEs x).fexp = s.fexp := rfl
@[simp] theorem setEs_src (s : State) (x : ES) : (s.setEs x).src = s.src := rfl
@[simp] theorem setEs_out (s : State) (x : ES) : (s.setEs x).out = s.out := rfl
@[simp] theorem setEs_resp (s : State) (x : ES) : (s.setEs x).resp = s.resp := rfl
@[simp] theorem setEs_host (s : State) (x : ES) : (s.setEs x).host = s.host := rfl
@[simp] theorem setEs_log (s : State) (x : ES) : (s.setEs x).log = s.log := rfl
@[simp] theorem setEs_build (s : State) (x : ES) : (s.setEs x).build = s.build := rfl
@[simp] theorem setEs_params (s : State) (x : ES) : (s.setEs x).params = s.params := rfl
@[simp] theorem setEs_self (s : State) : s.setEs s.es = s := rfl
@[simp] theorem setEs_setEs (s : State) (x y : ES) : (s.setEs x).setEs y = s.setEs y := rfl

/-! ### `setFexp` -/

@[simp] theorem setFexp_seq (s : State) (x : S32) : (s.setFexp x).seq = s.seq := rfl
@[simp] theorem setFexp_br (s : State) (x : S32) : (s.setFexp x).br = s.br := rfl
@[simp] theorem setFexp_win (s : State) (x : S32) : (s.setFexp x).win = s.win := rfl
@[simp] theorem setFexp_hdr (s : State) (x : S32) : (s.setFexp x).hdr = s.hdr := rfl
@[simp] theorem setFexp_ctx (s : State) (x : S32) : (s.setFexp x).ctx = s.ctx := rfl
@[simp] theorem setFexp_blk (s : State) (x : S32) : (s.setFexp x).blk = s.blk := rfl
@[simp] theorem setFexp_pass (s : State) (x : S32) : (s.setFexp x).pass = s.pass := rfl
@[simp] theorem setFexp_es (s : State) (x : S32) : (s.setFexp x).es = s.es := rfl
@[simp] theorem setFexp_fexp (s : State) (x : S32) : (s.setFexp x).fexp = x := rfl
@[simp] theorem setFexp_src (s : State) (x : S32) : (s.setFexp x).src = s.src := rfl
@[simp] theorem setFexp_out (s : State) (x : S32) : (s.setFexp x).out = s.out := rfl
@[simp] theorem setFexp_resp (s : State) (x : S32) : (s.setFexp x).resp = s.resp := rfl
@[simp] theorem setFexp_host (s : State) (x : S32) : (s.setFexp x).host = s.host := rfl
@[simp] theorem setFexp_log (s : State) (x : S32) : (s.setFexp x).log = s.log := rfl
@[simp] theorem setFexp_build (s : State) (x : S32) : (s.setFexp x).build = s.build := rfl
@[simp] theorem setFexp_params (s : State) (x : S32) : (s.setFexp x).params = s.params := rfl
@[simp] theorem setFexp_self (s : State) : s.setFexp s.fexp = s := rfl
@[simp] theorem setFexp_setFexp (s : State) (x y : S32) : (s.setFexp x).setFexp y = s.setFexp y := rfl

/-! ### `setSrc` -/

@[simp] theorem setSrc_seq (s : State) (x : Source) : (s.setSrc x).seq = s.seq := rfl
@[simp] theorem setSrc_br (s : State) (x : Source) : (s.setSrc x).br = s.br := rfl
@[simp] theorem setSrc_win (s : State) (x : Source) : (s.setSrc x).win = s.win := rfl
@[simp] theorem setSrc_hdr (s : State) (x : Source) : (s.setSrc x).hdr = s.hdr := rfl
@[simp] theorem setSrc_ctx (s : State) (x : Source) : (s.setSrc x).ctx = s.ctx := rfl
@[simp] theorem setSrc_blk (s : State) (x : Source) : (s.setSrc x).blk = s.blk := rfl
@[simp] theorem setSrc_pass (s : State) (x : Source) : (s.setSrc x).pass = s.pass := rfl
@[simp] theorem setSrc_es (s : State) (x : Source) : (s.setSrc x).es = s.es := rfl
@[simp] theorem setSrc_fexp (s : State) (x : Source) : (s.setSrc x).fexp = s.fexp := rfl
@[simp] theorem setSrc_src (s : State) (x : Source) : (s.setSrc x).src = x := rfl
@[simp] theorem setSrc_out (s : State) (x : Source) : (s.setSrc x).out = s.out := rfl
@[simp] theorem setSrc_resp (s : State) (x : Source) : (s.setSrc x).resp = s.resp := rfl
@[simp] theorem setSrc_host (s : State) (x : Source) : (s.setSrc x).host = s.host := rfl
@[simp] theorem setSrc_log (s : State) (x : Source) : (s.setSrc x).log = s.log := rfl
@[simp] theorem setSrc_build (s : State) (x : Source) : (s.setSrc x).build = s.build := rfl
@[simp] theorem setSrc_params (s : State) (x : Source) : (s.setSrc x).params = s.params := rfl
@[simp] theorem setSrc_self (s : State) : s.setSrc s.src = s := rfl
@[simp] theorem setSrc_setSrc (s : State) (x y : Source) : (s.setSrc x).setSrc y = s.setSrc y := rfl

/-! ### `setOut` -/

@[simp] theorem setOut_seq (s : State) (x : Memory) : (s.setOut x).seq = s.seq := rfl
@[simp] theorem setOut_br (s : State) (x : Memory) : (s.setOut x).br = s.br := rfl
@[simp] theorem setOut_win (s : State) (x : Memory) : (s.setOut x).win = s.win := rfl
@[simp] theorem setOut_hdr (s : State) (x : Memory) : (s.setOut x).hdr = s.hdr := rfl
@[simp] theorem setOut_ctx (s : State) (x : Memory) : (s.setOut x).ctx = s.ctx := rfl
@[simp] theorem setOut_blk (s : State) (x : Memory) : (s.setOut x).blk = s.blk := rfl
@[simp] theorem setOut_pass (s : State) (x : Memory) : (s.setOut x).pass = s.pass := rfl
@[simp] theorem setOut_es (s : State) (x : Memory) : (s.setOut x).es = s.es := rfl
@[simp] theorem setOut_fexp (s : State) (x : Memory) : (s.setOut x).fexp = s.fexp := rfl
@[simp] theorem setOut_src (s : State) (x : Memory) : (s.setOut x).src = s.src := rfl
@[simp] theorem setOut_out (s : State) (x : Memory) : (s.setOut x).out = x := rfl
@[simp] theorem setOut_resp (s : State) (x : Memory) : (s.setOut x).resp = s.resp := rfl
@[simp] theorem setOut_host (s : State) (x : Memory) : (s.setOut x).host = s.host := rfl
@[simp] theorem setOut_log (s : State) (x : Memory) : (s.setOut x).log = s.log := rfl
@[simp] theorem setOut_build (s : State) (x : Memory) : (s.setOut x).build = s.build := rfl
@[simp] theorem setOut_params (s : State) (x : Memory) : (s.setOut x).params = s.params := rfl
@[simp] theorem setOut_self (s : State) : s.setOut s.out = s := rfl
@[simp] theorem setOut_setOut (s : State) (x y : Memory) : (s.setOut x).setOut y = s.setOut y := rfl

/-! ### `setResp` -/

@[simp] theorem setResp_seq (s : State) (x : Option Response) : (s.setResp x).seq = s.seq := rfl
@[simp] theorem setResp_br (s : State) (x : Option Response) : (s.setResp x).br = s.br := rfl
@[simp] theorem setResp_win (s : State) (x : Option Response) : (s.setResp x).win = s.win := rfl
@[simp] theorem setResp_hdr (s : State) (x : Option Response) : (s.setResp x).hdr = s.hdr := rfl
@[simp] theorem setResp_ctx (s : State) (x : Option Response) : (s.setResp x).ctx = s.ctx := rfl
@[simp] theorem setResp_blk (s : State) (x : Option Response) : (s.setResp x).blk = s.blk := rfl
@[simp] theorem setResp_pass (s : State) (x : Option Response) : (s.setResp x).pass = s.pass := rfl
@[simp] theorem setResp_es (s : State) (x : Option Response) : (s.setResp x).es = s.es := rfl
@[simp] theorem setResp_fexp (s : State) (x : Option Response) : (s.setResp x).fexp = s.fexp := rfl
@[simp] theorem setResp_src (s : State) (x : Option Response) : (s.setResp x).src = s.src := rfl
@[simp] theorem setResp_out (s : State) (x : Option Response) : (s.setResp x).out = s.out := rfl
@[simp] theorem setResp_resp (s : State) (x : Option Response) : (s.setResp x).resp = x := rfl
@[simp] theorem setResp_host (s : State) (x : Option Response) : (s.setResp x).host = s.host := rfl
@[simp] theorem setResp_log (s : State) (x : Option Response) : (s.setResp x).log = s.log := rfl
@[simp] theorem setResp_build (s : State) (x : Option Response) : (s.setResp x).build = s.build := rfl
@[simp] theorem setResp_params (s : State) (x : Option Response) : (s.setResp x).params = s.params := rfl
@[simp] theorem setResp_self (s : State) : s.setResp s.resp = s := rfl
@[simp] theorem setResp_setResp (s : State) (x y : Option Response) : (s.setResp x).setResp y = s.setResp y := rfl

/-! ### `setHost` -/

@[simp] theorem setHost_seq (s : State) (x : List HostInput) : (s.setHost x).seq = s.seq := rfl
@[simp] theorem setHost_br (s : State) (x : List HostInput) : (s.setHost x).br = s.br := rfl
@[simp] theorem setHost_win (s : State) (x : List HostInput) : (s.setHost x).win = s.win := rfl
@[simp] theorem setHost_hdr (s : State) (x : List HostInput) : (s.setHost x).hdr = s.hdr := rfl
@[simp] theorem setHost_ctx (s : State) (x : List HostInput) : (s.setHost x).ctx = s.ctx := rfl
@[simp] theorem setHost_blk (s : State) (x : List HostInput) : (s.setHost x).blk = s.blk := rfl
@[simp] theorem setHost_pass (s : State) (x : List HostInput) : (s.setHost x).pass = s.pass := rfl
@[simp] theorem setHost_es (s : State) (x : List HostInput) : (s.setHost x).es = s.es := rfl
@[simp] theorem setHost_fexp (s : State) (x : List HostInput) : (s.setHost x).fexp = s.fexp := rfl
@[simp] theorem setHost_src (s : State) (x : List HostInput) : (s.setHost x).src = s.src := rfl
@[simp] theorem setHost_out (s : State) (x : List HostInput) : (s.setHost x).out = s.out := rfl
@[simp] theorem setHost_resp (s : State) (x : List HostInput) : (s.setHost x).resp = s.resp := rfl
@[simp] theorem setHost_host (s : State) (x : List HostInput) : (s.setHost x).host = x := rfl
@[simp] theorem setHost_log (s : State) (x : List HostInput) : (s.setHost x).log = s.log := rfl
@[simp] theorem setHost_build (s : State) (x : List HostInput) : (s.setHost x).build = s.build := rfl
@[simp] theorem setHost_params (s : State) (x : List HostInput) : (s.setHost x).params = s.params := rfl
@[simp] theorem setHost_self (s : State) : s.setHost s.host = s := rfl
@[simp] theorem setHost_setHost (s : State) (x y : List HostInput) : (s.setHost x).setHost y = s.setHost y := rfl

/-! ### `setLog` -/

@[simp] theorem setLog_seq (s : State) (x : List PortEvent) : (s.setLog x).seq = s.seq := rfl
@[simp] theorem setLog_br (s : State) (x : List PortEvent) : (s.setLog x).br = s.br := rfl
@[simp] theorem setLog_win (s : State) (x : List PortEvent) : (s.setLog x).win = s.win := rfl
@[simp] theorem setLog_hdr (s : State) (x : List PortEvent) : (s.setLog x).hdr = s.hdr := rfl
@[simp] theorem setLog_ctx (s : State) (x : List PortEvent) : (s.setLog x).ctx = s.ctx := rfl
@[simp] theorem setLog_blk (s : State) (x : List PortEvent) : (s.setLog x).blk = s.blk := rfl
@[simp] theorem setLog_pass (s : State) (x : List PortEvent) : (s.setLog x).pass = s.pass := rfl
@[simp] theorem setLog_es (s : State) (x : List PortEvent) : (s.setLog x).es = s.es := rfl
@[simp] theorem setLog_fexp (s : State) (x : List PortEvent) : (s.setLog x).fexp = s.fexp := rfl
@[simp] theorem setLog_src (s : State) (x : List PortEvent) : (s.setLog x).src = s.src := rfl
@[simp] theorem setLog_out (s : State) (x : List PortEvent) : (s.setLog x).out = s.out := rfl
@[simp] theorem setLog_resp (s : State) (x : List PortEvent) : (s.setLog x).resp = s.resp := rfl
@[simp] theorem setLog_host (s : State) (x : List PortEvent) : (s.setLog x).host = s.host := rfl
@[simp] theorem setLog_log (s : State) (x : List PortEvent) : (s.setLog x).log = x := rfl
@[simp] theorem setLog_build (s : State) (x : List PortEvent) : (s.setLog x).build = s.build := rfl
@[simp] theorem setLog_params (s : State) (x : List PortEvent) : (s.setLog x).params = s.params := rfl
@[simp] theorem setLog_self (s : State) : s.setLog s.log = s := rfl
@[simp] theorem setLog_setLog (s : State) (x y : List PortEvent) : (s.setLog x).setLog y = s.setLog y := rfl

end Sys2Proof.Machine.State
end

