-- ==== Sys2Proof/Laws/Ports.lean ====
section
/-! SUPPORT. The port operations and the shared transitions of Machine/Ops.lean: what each changes,
and what a source request answers. -/

namespace Sys2Proof.Machine

@[simp] theorem emit_eq (e : PortEvent) (s : State) : s.emit e = s.setLog (e :: s.log) := rfl

@[simp] theorem respond_eq (c : RespCode) (d : Word) (s : State) :
    s.respond c d = s.setResp (some ⟨c, d⟩) := rfl

@[simp] theorem Source.drop_stream (r : Source) (n : Nat) : (r.drop n).stream = r.stream.drop n := rfl
@[simp] theorem Source.drop_taken (r : Source) (n : Nat) : (r.drop n).taken = r.taken + n := rfl
@[simp] theorem Source.drop_splits (r : Source) (n : Nat) : (r.drop n).splits = r.splits.tail := rfl

/-! ### The byte source -/

/-- An answer is the next bytes of the stream, as many as it carries. -/
theorem Source.answer_eq_take (r : Source) (L : Nat) :
    r.answer L = r.stream.take (r.answer L).length := by
  unfold Source.answer
  split <;> simp [List.take_eq_take_iff]

theorem Source.answer_length_le (r : Source) (L : Nat) : (r.answer L).length ≤ L := by
  unfold Source.answer
  split <;> simp

/-- The count of an answer is a signed 32-bit number (R61). -/
theorem Source.answer_length_le_countMax (r : Source) (L : Nat) :
    (r.answer L).length ≤ countMax := by
  unfold Source.answer
  split <;> simp

/-- A response whose count is the number of its bytes carries that many. -/
theorem countBytes_ofNat {n : Nat} (h : n ≤ countMax) : countBytes (BitVec.ofNat 32 n) = n := by
  unfold countMax at h
  simp only [countBytes, BitVec.toInt_ofNat']
  rw [Int.bmod_eq_of_le (by norm_num) (by norm_num; omega)]
  rfl

theorem countBytes_answer (r : Source) (L : Nat) :
    countBytes (BitVec.ofNat 32 (r.answer L).length) = (r.answer L).length :=
  countBytes_ofNat (r.answer_length_le_countMax L)

theorem Source.answer_length_le_stream (r : Source) (L : Nat) :
    (r.answer L).length ≤ r.stream.length := by
  unfold Source.answer
  split <;> simp

/-- An answer is empty only when the stream is exhausted (R62, R64). -/
theorem Source.answer_eq_nil_iff (r : Source) {L : Nat} (h : 0 < L) :
    r.answer L = [] ↔ r.stream = [] := by
  unfold Source.answer
  split <;> simp [List.take_eq_nil_iff, countMax]
  all_goals omega

@[simp] theorem srcRead_fst (L : Nat) (s : State) : (srcRead L s).1 = s.src.answer L := rfl

/-- A source request changes the source and the record of transactions, nothing else. -/
theorem srcRead_snd (L : Nat) (s : State) :
    (srcRead L s).2 = (s.setSrc (s.src.drop (s.src.answer L).length)).setLog
      (.srcRead (BitVec.ofNat 32 L) (BitVec.ofNat 32 (s.src.answer L).length) :: s.log) := rfl

/-- The bytes answered and the bytes left are the stream before (R72: each byte goes to one requester
once). -/
theorem srcRead_stream (L : Nat) (s : State) :
    (srcRead L s).1 ++ (srcRead L s).2.src.stream = s.src.stream := by
  rw [srcRead_fst, srcRead_snd]
  conv_lhs => lhs; rw [Source.answer_eq_take]
  simp

/-- A state that differs from `s` in the source and the record of transactions only. -/
def OnlySource (s t : State) : Prop := ∃ r l, t = (s.setSrc r).setLog l

theorem OnlySource.refl (s : State) : OnlySource s s := ⟨s.src, s.log, rfl⟩

theorem OnlySource.trans {s t u : State} (h : OnlySource s t) (h' : OnlySource t u) :
    OnlySource s u := by
  obtain ⟨r, l, rfl⟩ := h
  obtain ⟨r', l', rfl⟩ := h'
  exact ⟨r', l', rfl⟩

theorem srcRead_onlySource (L : Nat) (s : State) : OnlySource s (srcRead L s).2 := ⟨_, _, rfl⟩

theorem srcTake_onlySource (fuel n : Nat) (s : State) : OnlySource s (srcTake fuel n s).2 := by
  induction fuel generalizing n s with
  | zero => exact OnlySource.refl s
  | succ fuel ih =>
    simp only [srcTake]
    split_ifs
    · exact OnlySource.refl s
    · exact srcRead_onlySource n s
    · exact (srcRead_onlySource n s).trans (ih _ _)

/-- Reading until n bytes are held gives the next n bytes of the stream, or all that is left,
whatever the source's responses carry (R63). -/
theorem srcTake_eq (fuel n : Nat) (s : State) (h : n ≤ fuel) :
    (srcTake fuel n s).1 = s.src.stream.take n ∧
      (srcTake fuel n s).2.src.stream = s.src.stream.drop n ∧
      (srcTake fuel n s).2.src.taken = s.src.taken + (s.src.stream.take n).length := by
  induction fuel generalizing n s with
  | zero =>
    obtain rfl : n = 0 := by omega
    simp [srcTake]
  | succ fuel ih =>
    simp only [srcTake]
    split_ifs with h0 h1
    · subst h0; simp
    · rw [srcRead_fst, Source.answer_eq_nil_iff _ (by omega)] at h1
      have ha : s.src.answer n = [] := (Source.answer_eq_nil_iff _ (by omega)).2 h1
      simp [srcRead_snd, ha, h1]
    · have hk : 0 < (s.src.answer n).length := List.length_pos_iff.2 h1
      have hl := Source.answer_length_le s.src n
      have hs := Source.answer_length_le_stream s.src n
      obtain ⟨e1, e2, e3⟩ := ih (n - (srcRead n s).1.length) (srcRead n s).2 (by simp; omega)
      rw [e1, e2, e3, srcRead_fst, srcRead_snd]
      simp only [State.setLog_src, State.setSrc_src, Source.drop_stream, Source.drop_taken]
      have ht := Source.answer_eq_take s.src n
      refine ⟨?_, ?_, ?_⟩
      · conv_lhs => lhs; rw [ht]
        rw [← List.take_add]
        congr 1; omega
      · rw [List.drop_drop]; congr 1; omega
      · simp; omega

theorem drain_onlySource (n : Nat) (s : State) : OnlySource s (drain n s).2 :=
  srcTake_onlySource n n s

/-- A drain succeeds exactly when the stream holds n bytes. -/
theorem drain_fst (n : Nat) (s : State) : (drain n s).1 = decide (n ≤ s.src.stream.length) := by
  simp only [drain, (srcTake_eq n n s le_rfl).1]
  congr 1
  simp

theorem drain_stream (n : Nat) (s : State) : (drain n s).2.src.stream = s.src.stream.drop n :=
  (srcTake_eq n n s le_rfl).2.1

/-! ### The shared transitions -/

theorem endStream_eq (c : Cause) (s : State) :
    endStream c s = (s.setSeq { s.seq with phase := .ended, cause := c }).setBlk
      { s.blk with active := false } := rfl

theorem brAttachOp_eq (budget : Word) (s : State) :
    brAttachOp budget s = s.setBr
      { s.br with idx := 0, fin := 0, acc := 0, cnt := 0, eod := false, budget := budget } := rfl

/-- What `ContextClear` leaves, field by field. -/
theorem contextClear_eq (P : Params) (s : State) :
    contextClear P s = (((((s.setCtx (Ctx.reset P)).setFexp 0).setBlk (Blk.reset P)).setPass
      []).setEs P.esReset).setBr
        { s.br with idx := 0, fin := 0, acc := 0, cnt := 0, eod := false, budget := 0 } := rfl

theorem outWrite_eq (i : Word) (v : S32) (s : State) :
    outWrite i v s = (s.setOut (s.out.write i.toNat v)).setLog (.outWrite i v :: s.log) := rfl

theorem outWriteFar_eq (n : Nat) (v : S32) (s : State) :
    outWriteFar n v s = (s.setOut (s.out.write n v)).setLog (.outWriteFar n v :: s.log) := rfl

/-- The transaction a written sample leaves in the record. -/
def sampleEvent (n : Nat) (v : S32) : PortEvent :=
  if n < 2 ^ 32 then .outWrite (BitVec.ofNat 32 n) v else .outWriteFar n v

/-- A sample is written at its own number, whatever width that has (R265). -/
theorem writeSample_eq (n : Nat) (v : S32) (s : State) :
    writeSample n v s = (s.setOut (s.out.write n v)).setLog (sampleEvent n v :: s.log) := by
  unfold writeSample sampleEvent
  split_ifs with h
  · rw [outWrite_eq, BitVec.toNat_ofNat, Nat.mod_eq_of_lt h]
  · rfl

@[simp] theorem writeSample_out (n : Nat) (v : S32) (s : State) :
    (writeSample n v s).out = s.out.write n v := by
  rw [writeSample_eq, State.setLog_out, State.setOut_out]

end Sys2Proof.Machine
end

