-- ==== Sys2Proof/Laws/BitReader.lean ====
section
/-! SUPPORT. The bit reader's internal operations: what they change, and the bits they deliver. -/

namespace Sys2Proof.Machine

/-! ### What the reader changes -/

/-- A state that differs from `s` in the bit reader, the source, the record of transactions and, in
READY only, the count of payload bytes left. -/
def OnlyReader (s t : State) : Prop :=
  ∃ b r l n, (s.seq.phase ≠ .ready → n = s.blk.bytesLeft) ∧
    t = (((s.setBr b).setSrc r).setLog l).setBlk { s.blk with bytesLeft := n }

theorem OnlyReader.refl (s : State) : OnlyReader s s :=
  ⟨s.br, s.src, s.log, s.blk.bytesLeft, fun _ => rfl, rfl⟩

theorem OnlyReader.trans {s t u : State} (h : OnlyReader s t) (h' : OnlyReader t u) :
    OnlyReader s u := by
  obtain ⟨b, r, l, n, hn, rfl⟩ := h
  obtain ⟨b', r', l', n', hn', rfl⟩ := h'
  exact ⟨b', r', l', n', fun hp => (hn' hp).trans (hn hp), rfl⟩

theorem OnlyReader.setBr (s : State) (b : BitReader) : OnlyReader s (s.setBr b) :=
  ⟨b, s.src, s.log, s.blk.bytesLeft, fun _ => rfl, rfl⟩

theorem OnlySource.onlyReader {s t : State} (h : OnlySource s t) : OnlyReader s t := by
  obtain ⟨r, l, rfl⟩ := h
  exact ⟨s.br, r, l, s.blk.bytesLeft, fun _ => rfl, rfl⟩

theorem deductPayload_onlyReader (n : Nat) (s : State) : OnlyReader s (deductPayload n s) := by
  unfold deductPayload
  split_ifs with h
  · exact ⟨s.br, s.src, s.log, _, fun hp => absurd h hp, rfl⟩
  · exact OnlyReader.refl s

theorem brRefill_onlyReader (P : Params) (s : State) : OnlyReader s (brRefill P s).2 := by
  simp only [brRefill]
  split_ifs
  · exact (srcRead_onlySource _ s).onlyReader
  · exact ((srcRead_onlySource _ s).onlyReader.trans (OnlyReader.setBr _ _)).trans
      (deductPayload_onlyReader _ _)
  · exact OnlyReader.refl s

theorem brFetchByte_onlyReader (P : Params) (s : State) : OnlyReader s (brFetchByte P s).2 := by
  simp only [brFetchByte, brNextByte]
  split_ifs
  · exact (brRefill_onlyReader P s).trans (OnlyReader.setBr _ _)
  · exact (brRefill_onlyReader P s).trans (OnlyReader.setBr _ _)
  · exact OnlyReader.setBr _ _

theorem brFill_onlyReader (P : Params) (fuel n : Nat) (s : State) :
    OnlyReader s (brFill P fuel n s) := by
  induction fuel generalizing s with
  | zero => exact OnlyReader.refl s
  | succ fuel ih =>
    simp only [brFill]
    split_ifs
    · exact ((brFetchByte_onlyReader P s).trans (OnlyReader.setBr _ _)).trans (ih _)
    · exact OnlyReader.refl s

theorem brReadBitsOp_onlyReader (P : Params) (n : Nat) (s : State) :
    OnlyReader s (brReadBitsOp P n s).2 :=
  (brFill_onlyReader P n n s).trans (OnlyReader.setBr _ _)

theorem runBits_onlyReader {α : Type} (P : Params) (p : BitProg α) (s : State) :
    OnlyReader s (runBits P p s).2 := by
  induction p generalizing s with
  | ret a => exact OnlyReader.refl s
  | read n k ih => exact (brReadBitsOp_onlyReader P n.val s).trans (ih _ _)

/-- The fields the reader leaves alone. -/
theorem OnlyReader.frame {s t : State} (h : OnlyReader s t) :
    t.seq = s.seq ∧ t.win = s.win ∧ t.hdr = s.hdr ∧ t.ctx = s.ctx ∧ t.pass = s.pass ∧ t.es = s.es ∧
      t.fexp = s.fexp ∧ t.out = s.out ∧ t.resp = s.resp ∧ t.host = s.host ∧ t.build = s.build := by
  obtain ⟨b, r, l, n, -, rfl⟩ := h
  simp

/-- Outside READY the reader leaves the whole of BLK alone. -/
theorem OnlyReader.blk_eq {s t : State} (h : OnlyReader s t) (hp : s.seq.phase ≠ .ready) :
    t.blk = s.blk := by
  obtain ⟨b, r, l, n, hn, rfl⟩ := h
  simp [hn hp]

/-! ### The bytes the reader fetches (R131, R132) -/

/-- The valid bytes stand inside the buffer. -/
def BufOk (P : Params) (s : State) : Prop :=
  s.br.idx ≤ s.br.fin ∧ s.br.fin ≤ s.br.buf.length ∧ s.br.fin ≤ P.bufBytes

theorem Params.bufBytes_pos (P : Params) : 0 < P.bufBytes := by
  unfold Sys2Proof.Params.bufBytes
  omega

theorem unread_load (b : BitReader) (d : List Byte) : (b.load d).unread = d := by
  simp [BitReader.load, BitReader.unread]

/-- Taking a byte of a non-empty buffer. -/
theorem brNextByte_spec {s : State} {P : Params} (hb : BufOk P s) (h : s.br.idx < s.br.fin) :
    (brNextByte s).1 = s.br.unread.getD 0 0xFF ∧ (brNextByte s).2.br.unread = s.br.unread.tail ∧
      BufOk P (brNextByte s).2 := by
  obtain ⟨h1, h2, h3⟩ := hb
  refine ⟨?_, ?_, ?_⟩
  · simp only [brNextByte, BitReader.unread]
    rw [List.getD_eq_getElem _ _ (by omega), List.getD_eq_getElem _ _ (by simp; omega)]
    simp
  · simp only [brNextByte, BitReader.unread, State.setBr_br]
    rw [← List.drop_one, List.drop_take, List.drop_drop]
    congr 1
  · exact ⟨h, h2, h3⟩

theorem deductPayload_br (n : Nat) (s : State) : (deductPayload n s).br = s.br := by
  unfold deductPayload; split_ifs <;> rfl

theorem deductPayload_src (n : Nat) (s : State) : (deductPayload n s).src = s.src := by
  unfold deductPayload; split_ifs <;> rfl

/-- A fetch takes the first fetchable byte, or 0xFF when there is none, and leaves the pending bits
alone. -/
theorem brFetchByte_spec {P : Params} {s : State} (hb : BufOk P s) :
    (brFetchByte P s).1 = s.fetchable.getD 0 0xFF ∧
      (brFetchByte P s).2.fetchable = s.fetchable.tail ∧ BufOk P (brFetchByte P s).2 ∧
      (brFetchByte P s).2.br.acc = s.br.acc ∧ (brFetchByte P s).2.br.cnt = s.br.cnt := by
  by_cases hidx : s.br.idx = s.br.fin
  · have hun : s.br.unread = [] := by simp [BitReader.unread, hidx]
    by_cases hg : s.br.eod = false ∧ s.br.budget ≠ 0
    · obtain ⟨he, hbud⟩ := hg
      have hbpos : 0 < s.br.budget.toNat := by
        rcases Nat.eq_zero_or_pos s.br.budget.toNat with h | h
        · exact absurd (BitVec.eq_of_toNat_eq (by simpa using h)) hbud
        · exact h
      have hL : 0 < min P.bufBytes s.br.budget.toNat := by
        have := Params.bufBytes_pos P; omega
      by_cases hd : s.src.answer (min P.bufBytes s.br.budget.toNat) = []
      · have hs := (Source.answer_eq_nil_iff _ hL).1 hd
        simp only [brFetchByte, hidx, if_true, brRefill, he, hbud, ne_eq, not_false_eq_true, and_self,
          srcRead_fst, hd, Bool.false_eq_true, if_false, srcRead_snd, State.fetchable, BufOk, hun, hs]
        simp [BitReader.unread, hidx]
        exact ⟨hb.2.1, hb.2.2⟩
      · set L := min P.bufBytes s.br.budget.toNat with hLdef
        set d := s.src.answer L with hddef
        have hdl : d.length ≤ L := Source.answer_length_le _ _
        have hdp : 0 < d.length := List.length_pos_iff.2 hd
        have hdb : d.length ≤ s.br.budget.toNat := by omega
        have hfet : s.fetchable = d ++
            (s.src.stream.drop d.length).take (s.br.budget.toNat - d.length) := by
          simp only [State.fetchable, hun, he, Bool.false_eq_true, if_false, List.nil_append]
          conv_lhs => rw [show s.br.budget.toNat = d.length + (s.br.budget.toNat - d.length) by omega,
            List.take_add]
          congr 1
          exact (Source.answer_eq_take _ _).symm
        -- the state after the refill
        set u : State := deductPayload d.length ((srcRead L s).2.setBr ((srcRead L s).2.br.load d))
          with hu
        have href : brRefill P s = (true, u) := by
          simp only [brRefill, he, hbud, ne_eq, not_false_eq_true, and_self, if_true, srcRead_fst,
            ← hLdef, ← hddef, hd, if_false, hu]
        have hubr : u.br = s.br.load d := by rw [hu, deductPayload_br]; rfl
        have husrc : u.src = s.src.drop d.length := by rw [hu, deductPayload_src]; rfl
        have hbu : BufOk P u := by
          refine ⟨?_, ?_, ?_⟩ <;> rw [hubr] <;> simp [BitReader.load]
          omega
        have hlt : u.br.idx < u.br.fin := by rw [hubr]; exact hdp
        obtain ⟨e1, e2, e3⟩ := brNextByte_spec hbu hlt
        have hun' : u.br.unread = d := by rw [hubr, unread_load]
        have hfb : brFetchByte P s = brNextByte u := by
          simp only [brFetchByte, hidx, if_true, href]
        rw [hfb]
        refine ⟨?_, ?_, e3, ?_, ?_⟩
        · rw [e1, hun', hfet]
          obtain ⟨x, xs, hx⟩ := List.exists_cons_of_ne_nil hd
          simp [hx]
        · have hbt : u.br.budget.toNat = s.br.budget.toNat - d.length := by
            rw [hubr]
            simp only [BitReader.load, BitVec.toNat_sub, BitVec.toNat_ofNat]
            have := s.br.budget.isLt
            omega
          have : (brNextByte u).2.fetchable = (brNextByte u).2.br.unread ++
              (if u.br.eod then [] else u.src.stream.take u.br.budget.toNat) := rfl
          rw [this, e2, hun', hfet, hbt, husrc]
          have heo : u.br.eod = false := by rw [hubr]; exact he
          obtain ⟨x, xs, hx⟩ := List.exists_cons_of_ne_nil hd
          simp [heo, hx]
        · show u.br.acc = s.br.acc
          rw [hubr]; rfl
        · show u.br.cnt = s.br.cnt
          rw [hubr]; rfl
    · have hav : (if s.br.eod = true then ([] : List Byte)
          else s.src.stream.take s.br.budget.toNat) = [] := by
        rcases hh : s.br.eod with _ | _
        · have : s.br.budget = 0 := by
            by_contra hne; exact hg ⟨hh, hne⟩
          simp [this]
        · simp
      have hfb : brFetchByte P s = (0xFF, s.setBr { s.br with eod := true }) := by
        simp only [brFetchByte, hidx, if_true, brRefill, if_neg hg, Bool.false_eq_true, if_false]
      rw [hfb]
      have hf : s.fetchable = [] := by simp only [State.fetchable, hun, hav, List.nil_append]
      refine ⟨by simp [hf], ?_, hb, rfl, rfl⟩
      rw [hf]
      simp [State.fetchable, BitReader.unread, hidx]
  · have hlt : s.br.idx < s.br.fin := lt_of_le_of_ne hb.1 hidx
    obtain ⟨e1, e2, e3⟩ := brNextByte_spec hb hlt
    have hfb : brFetchByte P s = brNextByte s := by simp only [brFetchByte, hidx, if_false]
    have hne : s.br.unread ≠ [] := by
      intro h
      have := congrArg List.length h
      simp [BitReader.unread] at this
      have h2 := hb.2.1
      omega
    obtain ⟨x, xs, hx⟩ := List.exists_cons_of_ne_nil hne
    rw [hfb]
    refine ⟨?_, ?_, e3, rfl, rfl⟩
    · rw [e1, State.fetchable, hx]; simp
    · have : (brNextByte s).2.fetchable = (brNextByte s).2.br.unread ++
          (if s.br.eod then [] else s.src.stream.take s.br.budget.toNat) := rfl
      rw [this, e2, State.fetchable, hx]; simp

/-! ### The bits the reader delivers (R134, R140, R141) -/

/-- The pending bits are in the accumulator and the bits above them are 0. -/
def AccOk (s : State) : Prop := s.br.cnt ≤ 39 ∧ s.br.acc.toNat < 2 ^ s.br.cnt

theorem AccOk.bit_above {s : State} (h : AccOk s) {i : Nat} (hi : s.br.cnt ≤ i) :
    s.br.acc.getLsbD i = false := by
  rw [BitVec.getLsbD, Nat.testBit_lt_two_pow]
  exact h.2.trans_le (Nat.pow_le_pow_right (by omega) hi)

theorem AccOk.of_bits {s : State} (hc : s.br.cnt ≤ 39)
    (h : ∀ i, s.br.cnt ≤ i → s.br.acc.getLsbD i = false) : AccOk s := by
  refine ⟨hc, Nat.lt_pow_two_of_testBit _ fun i hi => ?_⟩
  exact h i hi

/-- One round of the fill: the bits to come stay the same, and there are 8 more pending. -/
theorem shiftIn_spec {P : Params} {s : State} (hb : BufOk P s) (ha : AccOk s) (hc : s.br.cnt ≤ 31) :
    let t := (brFetchByte P s).2.setBr ((brFetchByte P s).2.br.shiftIn (brFetchByte P s).1)
    BufOk P t ∧ AccOk t ∧ t.br.cnt = s.br.cnt + 8 ∧ ∀ i, t.bitAt i = s.bitAt i := by
  obtain ⟨e1, e2, e3, e4, e5⟩ := brFetchByte_spec hb
  intro t
  have hcnt : t.br.cnt = s.br.cnt + 8 := by
    show (brFetchByte P s).2.br.cnt + 8 = _; rw [e5]
  have hacc : ∀ i, t.br.acc.getLsbD i =
      (s.br.acc.getLsbD i || (decide (s.br.cnt ≤ i ∧ i < 39) &&
        (s.fetchable.getD 0 0xFF).getLsbD (i - s.br.cnt))) := by
    intro i
    show ((brFetchByte P s).2.br.acc ||| ((brFetchByte P s).1.setWidth 39
      <<< (brFetchByte P s).2.br.cnt)).getLsbD i = _
    rw [e4, e5, e1, BitVec.getLsbD_or, BitVec.getLsbD_shiftLeft, BitVec.getLsbD_setWidth]
    rcases Nat.lt_or_ge i s.br.cnt with h1 | h1
    · simp [h1, Nat.not_le.2 h1]
    · rcases Nat.lt_or_ge i 39 with h2 | h2
      · simp [h1, h2, Nat.not_lt.2 h1, show i - s.br.cnt < 39 by omega]
      · simp [Nat.not_lt.2 h2]
  have hfet : t.fetchable = s.fetchable.tail := by rw [← e2]; rfl
  refine ⟨e3, ?_, hcnt, ?_⟩
  · refine AccOk.of_bits (by omega) fun i hi => ?_
    rw [hcnt] at hi
    rw [hacc, ha.bit_above (by omega)]
    have : (s.fetchable.getD 0 0xFF).getLsbD (i - s.br.cnt) = false :=
      BitVec.getLsbD_of_ge _ _ (by omega)
    simp only [this, Bool.and_false, Bool.or_false]
  · intro i
    simp only [State.bitAt, hcnt]
    by_cases h1 : i < s.br.cnt
    · rw [if_pos (by omega), if_pos h1, hacc]
      simp; omega
    · by_cases h2 : i < s.br.cnt + 8
      · rw [if_pos h2, if_neg h1, hacc, ha.bit_above (by omega)]
        have h3 : (i - s.br.cnt) / 8 = 0 := by omega
        have h4 : (i - s.br.cnt) % 8 = i - s.br.cnt := by omega
        rw [h3, h4, decide_eq_true (by omega : s.br.cnt ≤ i ∧ i < 39)]
        simp
      · rw [if_neg h2, if_neg h1, hfet]
        have h3 : (i - s.br.cnt) / 8 = (i - (s.br.cnt + 8)) / 8 + 1 := by omega
        have h4 : (i - s.br.cnt) % 8 = (i - (s.br.cnt + 8)) % 8 := by omega
        rw [h3, h4]
        congr 1
        cases s.fetchable <;> simp

/-- The fill leaves the bits to come the same and at least n of them pending. -/
theorem brFill_spec {P : Params} (fuel n : Nat) (s : State) (hn : n ≤ 32) (hb : BufOk P s)
    (ha : AccOk s) (hf : n ≤ s.br.cnt + 8 * fuel) :
    let t := brFill P fuel n s
    BufOk P t ∧ AccOk t ∧ (∀ i, t.bitAt i = s.bitAt i) ∧
      t.br.cnt = if n ≤ s.br.cnt then s.br.cnt else s.br.cnt + 8 * ((n - s.br.cnt + 7) / 8) := by
  induction fuel generalizing s with
  | zero =>
    refine ⟨hb, ha, fun i => rfl, ?_⟩
    rw [if_pos (by omega)]; rfl
  | succ fuel ih =>
    simp only [brFill]
    by_cases h : s.br.cnt < n
    · rw [if_pos h]
      obtain ⟨f1, f2, f3, f4⟩ := shiftIn_spec hb ha (by omega)
      obtain ⟨g1, g2, g3, g4⟩ := ih _ f1 f2 (by rw [f3]; omega)
      refine ⟨g1, g2, fun i => (g3 i).trans (f4 i), ?_⟩
      rw [g4, f3, if_neg (show ¬ n ≤ s.br.cnt by omega)]
      split_ifs <;> omega
    · rw [if_neg h]
      exact ⟨hb, ha, fun i => rfl, by rw [if_pos (by omega)]⟩

/-- `BR_ReadBits(n)` delivers the next n bits, first bit least significant, and drops them; the
pending bits after it are fewer than 8 unless no byte was fetched (R134, R140, R141). -/
theorem brReadBitsOp_spec {P : Params} (n : Nat) (s : State) (hn : n ≤ 32) (hb : BufOk P s)
    (ha : AccOk s) :
    let r := brReadBitsOp P n s
    BufOk P r.2 ∧ AccOk r.2 ∧ r.1.toNat < 2 ^ n ∧ (∀ i, i < n → r.1.getLsbD i = s.bitAt i) ∧
      (∀ i, r.2.bitAt i = s.bitAt (i + n)) ∧
      r.2.br.cnt = if n ≤ s.br.cnt then s.br.cnt - n else (8 - (n - s.br.cnt) % 8) % 8 := by
  obtain ⟨g1, g2, g3, g4⟩ := brFill_spec n n s hn hb ha (by omega)
  set u := brFill P n n s with hu
  have hcn : n ≤ u.br.cnt := by rw [g4]; split_ifs <;> omega
  have hlt : u.br.acc.toNat % 2 ^ n < 2 ^ n := Nat.mod_lt _ (by positivity)
  have hle : (2 : Nat) ^ n ≤ 2 ^ 32 := Nat.pow_le_pow_right (by omega) hn
  have hval : (brReadBitsOp P n s).1.toNat = u.br.acc.toNat % 2 ^ n := by
    show (BitVec.ofNat 32 _).toNat = _
    rw [BitVec.toNat_ofNat, Nat.mod_eq_of_lt (by omega)]
  have hcnt : (brReadBitsOp P n s).2.br.cnt = u.br.cnt - n := rfl
  have hacc : ∀ i, (brReadBitsOp P n s).2.br.acc.getLsbD i = u.br.acc.getLsbD (i + n) := by
    intro i
    show (u.br.acc >>> n).getLsbD i = _
    rw [BitVec.getLsbD_ushiftRight, Nat.add_comm]
  intro r
  refine ⟨g1, ?_, by rw [hval]; exact hlt, ?_, ?_, ?_⟩
  · refine AccOk.of_bits (by rw [hcnt]; have := g2.1; omega) fun i hi => ?_
    rw [hcnt] at hi
    rw [hacc]
    exact g2.bit_above (by omega)
  · intro i hi
    rw [BitVec.getLsbD, hval, Nat.testBit_mod_two_pow, ← g3 i, State.bitAt, if_pos (by omega),
      BitVec.getLsbD]
    simp [hi]
  · intro i
    rw [← g3 (i + n)]
    simp only [State.bitAt]
    rw [hcnt, hacc]
    have : (brReadBitsOp P n s).2.fetchable = u.fetchable := rfl
    rw [this]
    by_cases h : i < u.br.cnt - n
    · rw [if_pos h, if_pos (by omega)]
    · rw [if_neg h, if_neg (by omega)]
      have h3 : i - (u.br.cnt - n) = i + n - u.br.cnt := by omega
      rw [h3]
  · rw [hcnt, g4]
    split_ifs <;> omega

end Sys2Proof.Machine
end

