-- ==== Sys2Proof/Laws/Decorrelation.lean ====
section
/-! SUPPORT. The pass chain: the weight update, what a pass keeps, and the order of the passes. -/

namespace Sys2Proof.Machine

theorem weightMax_pos (P : Params) : 0 < P.weightMax := by
  have h : 2 ^ 1 ≤ 2 ^ (P.weightBits - 1) :=
    Nat.pow_le_pow_right (by omega) (by unfold Sys2Proof.Params.weightBits; omega)
  unfold Sys2Proof.Params.weightMax
  omega

theorem wBound_pos (P : Params) (t : BitVec 8) : 0 < P.wBound t := by
  unfold Sys2Proof.Params.wBound
  omega

/-- A weight bound fits in WEIGHT_BITS (R260). -/
theorem wBound_lt (P : Params) (t : BitVec 8) : P.wBound t < 2 ^ (P.weightBits - 1) := by
  have h := weightMax_pos P
  have h2 : P.weightMax = 2 ^ (P.weightBits - 1) - 1 := rfl
  unfold Sys2Proof.Params.wBound
  omega

theorem clampInt_bounds {v b : Int} (hb : 0 ≤ b) : -b ≤ clampInt v (-b) b ∧ clampInt v (-b) b ≤ b := by
  unfold clampInt
  omega

/-- After an update the weight is within its bound (R24, R260). -/
theorem updWeight_ok (P : Params) (t : BitVec 8) (delta : Nat) (w : Int) (s x : S32) :
    Params.weightOk P t (P.updWeight t delta w s x) = true := by
  have hc := clampInt_bounds (v := w + sgn s.toInt * sgn x.toInt * (delta : Int))
    (b := (P.wBound t : Int)) (by omega)
  rw [Params.weightOk, decide_eq_true_eq, Params.updWeight]
  omega

theorem passValid_iff (P : Params) (p : Pass) : Params.passValid P p = true ↔
    P.termKind p.term ≠ .invalid ∧ p.delta < 2 ^ P.deltaBits ∧
      Params.weightOk P p.term p.wA = true ∧ Params.weightOk P p.term p.wB = true := by
  simp only [Params.passValid, Bool.and_eq_true, decide_eq_true_eq, ne_eq]
  tauto

/-! ### The lengths of the histories -/

@[simp] theorem histFit_length (P : Params) (h : Hist) : (P.histFit h).length = P.maxHist := by
  simp only [Sys2Proof.Params.histFit, List.length_append, List.length_take, List.length_replicate]
  omega

theorem histPush_length {P : Params} {h : Hist} (y : S32) (hl : h.length = P.maxHist) :
    (P.histPush h y).length = P.maxHist := by
  have : 8 ≤ P.maxHist := Nat.le_max_left _ _
  simp only [Sys2Proof.Params.histPush, List.length_cons, List.length_take]
  omega

/-- Both histories of a pass hold MAX_HIST values (R22). -/
def HistsOk (P : Params) (p : Pass) : Prop := p.hA.length = P.maxHist ∧ p.hB.length = P.maxHist

theorem passFit_histsOk (P : Params) (p : Pass) : HistsOk P (P.passFit p) :=
  ⟨histFit_length P _, histFit_length P _⟩

/-- The passes of a configuration a block begins with have histories of MAX_HIST values (R246). -/
theorem parseMeta_histsOk {P : Params} {h : Hdr} {q : List Byte} {cfg : MetaCfg} {bitlen : Word}
    (hm : P.parseMeta h q = .done cfg bitlen) : ∀ p ∈ cfg.passes, HistsOk P p := by
  simp only [Sys2Proof.Params.parseMeta] at hm
  split at hm
  · cases hm
  · cases hm
  · obtain ⟨rfl, -⟩ := MetaResult.done.inj hm
    intro p hp
    obtain ⟨q, -, rfl⟩ := List.mem_map.1 hp
    exact passFit_histsOk P q

/-! ### What a pass keeps -/

/-- A pass step keeps the term and the delta. -/
theorem passStep_term (P : Params) (p : Pass) (v : Frame) :
    (passStep P p v).2.term = p.term ∧ (passStep P p v).2.delta = p.delta := by
  unfold passStep
  split
  · cases v <;> exact ⟨rfl, rfl⟩
  · cases v <;> exact ⟨rfl, rfl⟩
  · cases v <;> exact ⟨rfl, rfl⟩
  · exact ⟨rfl, rfl⟩

/-- A pass step keeps the number of channels. -/
theorem passStep_mono (P : Params) (p : Pass) (a : S32) :
    ∃ a', (passStep P p (.mono a)).1 = .mono a' := by
  unfold passStep
  split <;> exact ⟨_, rfl⟩

theorem passStep_stereo (P : Params) (p : Pass) (a b : S32) :
    ∃ a' b', (passStep P p (.stereo a b)).1 = .stereo a' b' := by
  unfold passStep
  split <;> exact ⟨_, _, rfl⟩

/-- A pass step keeps a pass valid: each weight it writes comes from the clamped update (R24). -/
theorem passStep_valid {P : Params} {p : Pass} (h : Params.passValid P p = true) (v : Frame) :
    Params.passValid P (passStep P p v).2 = true := by
  rw [passValid_iff] at h ⊢
  rw [(passStep_term P p v).1, (passStep_term P p v).2]
  refine ⟨h.1, h.2.1, ?_⟩
  unfold passStep
  split
  · cases v with
    | mono a => exact ⟨updWeight_ok _ _ _ _ _ _, h.2.2.2⟩
    | stereo a b => exact ⟨updWeight_ok _ _ _ _ _ _, updWeight_ok _ _ _ _ _ _⟩
  · cases v with
    | mono a => exact ⟨updWeight_ok _ _ _ _ _ _, h.2.2.2⟩
    | stereo a b => exact ⟨updWeight_ok _ _ _ _ _ _, updWeight_ok _ _ _ _ _ _⟩
  · cases v with
    | mono a => exact h.2.2
    | stereo a b => exact ⟨updWeight_ok _ _ _ _ _ _, updWeight_ok _ _ _ _ _ _⟩
  · exact h.2.2

/-- A pass step keeps the lengths of the histories. -/
theorem passStep_histsOk {P : Params} {p : Pass} (h : HistsOk P p) (v : Frame) :
    HistsOk P (passStep P p v).2 := by
  unfold passStep
  split
  · cases v with
    | mono a => exact ⟨histPush_length _ h.1, h.2⟩
    | stereo a b => exact ⟨histPush_length _ h.1, histPush_length _ h.2⟩
  · cases v with
    | mono a => exact ⟨histPush_length _ h.1, h.2⟩
    | stereo a b => exact ⟨histPush_length _ h.1, histPush_length _ h.2⟩
  · cases v with
    | mono a => exact h
    | stereo a b => exact ⟨histFit_length P _, histFit_length P _⟩
  · exact h

/-- The last pass registered runs first (R254). -/
theorem passChain_append_one (P : Params) (ps : List Pass) (p : Pass) (v : Frame) :
    passChain P (ps ++ [p]) v =
      ((passChain P ps (passStep P p v).1).1,
        (passChain P ps (passStep P p v).1).2 ++ [(passStep P p v).2]) := by
  induction ps with
  | nil => rfl
  | cons q qs ih => simp [passChain, ih]

theorem passChain_terms (P : Params) (ps : List Pass) (v : Frame) :
    (passChain P ps v).2.map Pass.term = ps.map Pass.term := by
  induction ps with
  | nil => rfl
  | cons p ps ih => simp [passChain, ih, (passStep_term P p _).1]

theorem passChain_length (P : Params) (ps : List Pass) (v : Frame) :
    (passChain P ps v).2.length = ps.length := by
  induction ps with
  | nil => rfl
  | cons p ps ih => simp [passChain, ih]

/-- What every pass step keeps of each pass, the whole chain keeps of all. -/
theorem passChain_keeps {P : Params} {Ok : Pass → Prop}
    (step : ∀ p v, Ok p → Ok (passStep P p v).2) {ps : List Pass} (h : ∀ p ∈ ps, Ok p) (v : Frame) :
    ∀ p ∈ (passChain P ps v).2, Ok p := by
  induction ps with
  | nil => simp [passChain]
  | cons p ps ih =>
    have ih := ih fun q hq => h q (List.mem_cons_of_mem _ hq)
    intro q hq
    simp only [passChain, List.mem_cons] at hq
    rcases hq with rfl | hq
    · exact step _ _ (h p List.mem_cons_self)
    · exact ih q hq

theorem passChain_valid {P : Params} {ps : List Pass}
    (h : ∀ p ∈ ps, Params.passValid P p = true ∧ HistsOk P p) (v : Frame) :
    ∀ p ∈ (passChain P ps v).2, Params.passValid P p = true ∧ HistsOk P p :=
  passChain_keeps (Ok := fun p => Params.passValid P p = true ∧ HistsOk P p)
    (fun _ v hp => ⟨passStep_valid hp.1 v, passStep_histsOk hp.2 v⟩) h v

/-- A chain fits a block by its terms alone (R249). -/
theorem chainFits_of_terms (P : Params) {ps qs : List Pass} (h : ps.map Pass.term = qs.map Pass.term)
    (bc : Nat) (w : Word) : chainFits P ps bc w = chainFits P qs bc w := by
  have hany : ∀ l : List Pass, l.any (Params.isJoint P) =
      (l.map Pass.term).any (fun t => decide (P.termKind t = .joint)) := by
    intro l
    rw [List.any_map]
    rfl
  unfold chainFits
  rw [hany, hany, h]

end Sys2Proof.Machine
end

