-- ==== Sys2Proof/Laws/Locator.lean ====
section
/-! SUPPORT. The locate operation: what it changes, what it takes from the source, and where it stops. -/

namespace Sys2Proof.Machine

/-- A state that differs from `s` in the locator window, HDR, the source and the record of
transactions only. -/
def OnlyLocator (s t : State) : Prop :=
  ∃ r l w h, t = (((s.setSrc r).setLog l).setWin w).setHdr h

theorem OnlyLocator.refl (s : State) : OnlyLocator s s := ⟨s.src, s.log, s.win, s.hdr, rfl⟩

theorem OnlyLocator.trans {s t u : State} (h : OnlyLocator s t) (h' : OnlyLocator t u) :
    OnlyLocator s u := by
  obtain ⟨r, l, w, k, rfl⟩ := h
  obtain ⟨r', l', w', k', rfl⟩ := h'
  exact ⟨r', l', w', k', rfl⟩

theorem OnlySource.onlyLocator {s t : State} (h : OnlySource s t) : OnlyLocator s t := by
  obtain ⟨r, l, rfl⟩ := h
  exact ⟨r, l, s.win, s.hdr, rfl⟩

theorem OnlyLocator.setWin (s : State) (w : List Byte) : OnlyLocator s (s.setWin w) :=
  ⟨s.src, s.log, w, s.hdr, rfl⟩

theorem OnlyLocator.setHdr (s : State) (h : Hdr) : OnlyLocator s (s.setHdr h) :=
  ⟨s.src, s.log, s.win, h, rfl⟩

theorem fillWindow_onlyLocator (s : State) : OnlyLocator s (fillWindow s) :=
  (srcTake_onlySource _ _ s).onlyLocator.trans (OnlyLocator.setWin _ _)

theorem dropByte_onlyLocator (s : State) : OnlyLocator s (dropByte s) := OnlyLocator.setWin _ _

theorem invalidateHdr_onlyLocator (s : State) : OnlyLocator s (invalidateHdr s) :=
  OnlyLocator.setHdr _ _

theorem acceptHeader_onlyLocator (s : State) : OnlyLocator s (acceptHeader s) :=
  (OnlyLocator.setHdr _ _).trans (OnlyLocator.setWin _ _)

/-! ### One round of the loop (R162) -/

theorem locateLoop_short {P : Params} {left S : Nat} {s : State}
    (h : (fillWindow s).win.length < hdrBytes) :
    locateLoop P left S s =
      { cause := if S = 0 ∧ (fillWindow s).win = [] then .eos else .exhausted
        skipped := S
        state := invalidateHdr (fillWindow s) } := by
  unfold locateLoop
  simp [h]

theorem locateLoop_match {P : Params} {left S : Nat} {s : State}
    (h : ¬ (fillWindow s).win.length < hdrBytes) (hv : headerValid P (fillWindow s).win = true) :
    locateLoop P left S s =
      { cause := .none, skipped := S, state := acceptHeader (fillWindow s) } := by
  unfold locateLoop
  simp [h, hv]

theorem locateLoop_budget {P : Params} {S : Nat} {s : State}
    (h : ¬ (fillWindow s).win.length < hdrBytes) (hv : headerValid P (fillWindow s).win = false) :
    locateLoop P 0 S s =
      { cause := .format, skipped := S + 1, state := invalidateHdr (dropByte (fillWindow s)) } := by
  unfold locateLoop
  simp [h, hv]

theorem locateLoop_next {P : Params} {left S : Nat} {s : State}
    (h : ¬ (fillWindow s).win.length < hdrBytes) (hv : headerValid P (fillWindow s).win = false) :
    locateLoop P (left + 1) S s = locateLoop P left (S + 1) (dropByte (fillWindow s)) := by
  conv_lhs => unfold locateLoop
  simp [h, hv]

/-- Induction over the rounds of a locate: a property of the state before and the answer holds if it
holds of each way to stop and is carried back over a dropped byte. -/
theorem locateLoop_induct {P : Params} {M : State → Located → Prop}
    (short : ∀ s c S, (fillWindow s).win.length < hdrBytes → c ≠ Cause.none →
      M s { cause := c, skipped := S, state := invalidateHdr (fillWindow s) })
    (found : ∀ s S, ¬ (fillWindow s).win.length < hdrBytes →
      headerValid P (fillWindow s).win = true →
      M s { cause := .none, skipped := S, state := acceptHeader (fillWindow s) })
    (budget : ∀ s S, ¬ (fillWindow s).win.length < hdrBytes →
      M s { cause := .format, skipped := S, state := invalidateHdr (dropByte (fillWindow s)) })
    (next : ∀ s r, ¬ (fillWindow s).win.length < hdrBytes → M (dropByte (fillWindow s)) r → M s r)
    (left S : Nat) (s : State) : M s (locateLoop P left S s) := by
  induction left generalizing S s with
  | zero =>
    by_cases h : (fillWindow s).win.length < hdrBytes
    · rw [locateLoop_short h]
      exact short _ _ _ h (by split_ifs <;> simp)
    · by_cases hv : headerValid P (fillWindow s).win = true
      · rw [locateLoop_match h hv]; exact found _ _ h hv
      · rw [locateLoop_budget h (by simpa using hv)]; exact budget _ _ h
  | succ left ih =>
    by_cases h : (fillWindow s).win.length < hdrBytes
    · rw [locateLoop_short h]
      exact short _ _ _ h (by split_ifs <;> simp)
    · by_cases hv : headerValid P (fillWindow s).win = true
      · rw [locateLoop_match h hv]; exact found _ _ h hv
      · rw [locateLoop_next h (by simpa using hv)]; exact next _ _ h (ih _ _)

/-- A locate changes the window, HDR, the source and the record of transactions only. -/
theorem locateLoop_onlyLocator (P : Params) (left S : Nat) (s : State) :
    OnlyLocator s (locateLoop P left S s).state :=
  locateLoop_induct (M := fun s r => OnlyLocator s r.state)
    (fun s _ _ _ _ => (fillWindow_onlyLocator s).trans (invalidateHdr_onlyLocator _))
    (fun s _ _ _ => (fillWindow_onlyLocator s).trans (acceptHeader_onlyLocator _))
    (fun s _ _ => ((fillWindow_onlyLocator s).trans (dropByte_onlyLocator _)).trans
      (invalidateHdr_onlyLocator _))
    (fun s _ _ h => ((fillWindow_onlyLocator s).trans (dropByte_onlyLocator _)).trans h)
    left S s

theorem locate_onlyLocator (P : Params) (s : State) : OnlyLocator s (locate P s).state :=
  locateLoop_onlyLocator P _ _ s

/-- The fields a locate leaves alone. -/
theorem OnlyLocator.frame {s t : State} (h : OnlyLocator s t) :
    t.seq = s.seq ∧ t.br = s.br ∧ t.ctx = s.ctx ∧ t.blk = s.blk ∧ t.pass = s.pass ∧ t.es = s.es ∧
      t.fexp = s.fexp ∧ t.out = s.out ∧ t.resp = s.resp ∧ t.host = s.host ∧ t.build = s.build := by
  obtain ⟨r, l, w, h, rfl⟩ := h
  simp

/-! ### The bytes a locate takes -/

/-- A refill moves bytes from the stream to the window and leaves the bytes ahead the same. -/
theorem fillWindow_spec (s : State) :
    (fillWindow s).win = s.win ++ s.src.stream.take (hdrBytes - s.win.length) ∧
      (fillWindow s).src.stream = s.src.stream.drop (hdrBytes - s.win.length) ∧
      (fillWindow s).hdr = s.hdr := by
  have h := srcTake_eq (hdrBytes - s.win.length) _ s le_rfl
  obtain ⟨r, l, e⟩ := srcTake_onlySource (hdrBytes - s.win.length) (hdrBytes - s.win.length) s
  refine ⟨?_, ?_, ?_⟩
  · simp only [fillWindow, State.setWin_win, h.1]
  · simp only [fillWindow, State.setWin_src, h.2.1]
  · simp only [fillWindow, State.setWin_hdr, e, State.setLog_hdr, State.setSrc_hdr]

theorem fillWindow_ahead (s : State) : (fillWindow s).ahead = s.ahead := by
  obtain ⟨h1, h2, -⟩ := fillWindow_spec s
  simp [State.ahead, h1, h2]

/-- With at most 32 bytes in the window, a refill makes it the first 32 bytes ahead. -/
theorem fillWindow_win (s : State) (h : s.win.length ≤ hdrBytes) :
    (fillWindow s).win = s.ahead.take hdrBytes := by
  rw [(fillWindow_spec s).1, State.ahead, List.take_append, List.take_of_length_le h]

theorem fillWindow_stream (s : State) (h : s.win.length ≤ hdrBytes) :
    (fillWindow s).src.stream = s.ahead.drop hdrBytes := by
  rw [(fillWindow_spec s).2.1, State.ahead, List.drop_append, List.drop_of_length_le h]
  simp

theorem dropByte_ahead (s : State) : (dropByte (fillWindow s)).ahead.length ≤ s.ahead.length := by
  rw [← fillWindow_ahead s]
  simp [dropByte, State.ahead]

/-- A locate never gives bytes back, and a match has taken at least the 32 bytes of a header. -/
theorem locateLoop_ahead (P : Params) (left S : Nat) (s : State) :
    (locateLoop P left S s).state.ahead.length ≤ s.ahead.length ∧
      ((locateLoop P left S s).cause = .none →
        (locateLoop P left S s).state.win = [] ∧
          (locateLoop P left S s).state.ahead.length + hdrBytes ≤ s.ahead.length) := by
  have hi : ∀ u : State, (invalidateHdr u).ahead = u.ahead := fun u => rfl
  have hacc : ∀ u : State, ¬ (fillWindow u).win.length < hdrBytes →
      (acceptHeader (fillWindow u)).ahead.length + hdrBytes ≤ u.ahead.length := by
    intro u h
    rw [← fillWindow_ahead u]
    simp [acceptHeader, State.ahead]
    omega
  refine locateLoop_induct (M := fun s r => r.state.ahead.length ≤ s.ahead.length ∧
    (r.cause = .none → r.state.win = [] ∧ r.state.ahead.length + hdrBytes ≤ s.ahead.length))
    ?_ ?_ ?_ ?_ left S s
  · intro s c S _ hc
    exact ⟨by rw [hi, fillWindow_ahead], fun h => absurd h hc⟩
  · intro s S h _
    have := hacc s h
    exact ⟨by dsimp only; omega, fun _ => ⟨rfl, this⟩⟩
  · intro s S _
    exact ⟨by rw [hi]; exact dropByte_ahead s, fun h => by cases h⟩
  · rintro s r _ ⟨g1, g2⟩
    have := dropByte_ahead s
    exact ⟨g1.trans this, fun hc => ⟨(g2 hc).1, (g2 hc).2.trans this⟩⟩

theorem locate_ahead (P : Params) (s : State) :
    (locate P s).state.ahead.length ≤ s.ahead.length ∧
      ((locate P s).cause = .none → (locate P s).state.win = [] ∧
        (locate P s).state.ahead.length + hdrBytes ≤ s.ahead.length) :=
  locateLoop_ahead P _ _ s

/-- The window holds at most 32 bytes after a locate if it did before. -/
theorem locate_window (P : Params) (s : State) (h : s.win.length ≤ hdrBytes) :
    (locate P s).state.win.length ≤ hdrBytes := by
  have hf : ∀ u : State, u.win.length ≤ hdrBytes → (fillWindow u).win.length ≤ hdrBytes := by
    intro u hu
    rw [fillWindow_win u hu]
    simp
  have hd : ∀ u : State, u.win.length ≤ hdrBytes →
      (dropByte (fillWindow u)).win.length ≤ hdrBytes := by
    intro u hu
    have := hf u hu
    simp [dropByte]
    omega
  exact locateLoop_induct (M := fun s r => s.win.length ≤ hdrBytes → r.state.win.length ≤ hdrBytes)
    (fun s _ _ _ _ h => hf s h) (fun _ _ _ _ _ => Nat.zero_le _) (fun s _ _ h => hd s h)
    (fun s _ _ ih h => ih (hd s h)) _ _ s h

/-- What a locate reports in HDR.valid: it is set by a match and cleared by a failure, which leaves
the other fields alone (R165, R167). -/
theorem locate_hdr (P : Params) (s : State) :
    ((locate P s).cause = .none → (locate P s).state.hdr.valid = true) ∧
      ((locate P s).cause ≠ .none → (locate P s).state.hdr = { s.hdr with valid := false }) := by
  have hf : ∀ u : State, (fillWindow u).hdr = u.hdr := fun u => (fillWindow_spec u).2.2
  refine locateLoop_induct (M := fun s r => (r.cause = .none → r.state.hdr.valid = true) ∧
    (r.cause ≠ .none → r.state.hdr = { s.hdr with valid := false })) ?_ ?_ ?_ ?_ _ _ s
  · exact fun s c S _ hc => ⟨fun h => absurd h hc, fun _ => by simp [invalidateHdr, hf]⟩
  · exact fun s S _ _ => ⟨fun _ => rfl, fun h => absurd rfl h⟩
  · exact fun s S _ => ⟨fun h => (by cases h), fun _ => by simp [invalidateHdr, dropByte, hf]⟩
  · exact fun s r _ h => ⟨h.1, fun hc => by rw [h.2 hc]; simp [dropByte, hf]⟩

/-! ### Where a locate stops (R162 to R164, R167) -/

/-- A byte dropped after a refill is the first byte ahead. -/
theorem dropByte_ahead_eq {s : State} (h : s.win.length ≤ hdrBytes)
    (hl : ¬ (fillWindow s).win.length < hdrBytes) :
    (dropByte (fillWindow s)).ahead = s.ahead.drop 1 ∧
      (dropByte (fillWindow s)).win.length ≤ hdrBytes := by
  rw [← fillWindow_ahead s]
  have hne : (fillWindow s).win ≠ [] := by
    intro hn
    rw [hn] at hl
    exact hl (by decide)
  obtain ⟨x, xs, hx⟩ := List.exists_cons_of_ne_nil hne
  refine ⟨by simp [dropByte, State.ahead, hx], ?_⟩
  have h1 := fillWindow_win s h
  have h2 : (fillWindow s).win.length ≤ hdrBytes := by rw [h1]; simp
  rw [hx] at h2
  simp [dropByte, hx] at h2 ⊢
  omega

theorem fillWindow_short_iff {s : State} (h : s.win.length ≤ hdrBytes) :
    (fillWindow s).win.length < hdrBytes ↔ s.ahead.length < hdrBytes := by
  rw [fillWindow_win s h]
  simp

/-- The first header within the budget is the match (R163, R165). -/
theorem locateLoop_found {P : Params} (left S j : Nat) (s : State) (hw : s.win.length ≤ hdrBytes)
    (hj : j ≤ left) (hlen : j + hdrBytes ≤ s.ahead.length)
    (hv : headerValid P ((s.ahead.drop j).take hdrBytes) = true)
    (hno : ∀ i < j, headerValid P ((s.ahead.drop i).take hdrBytes) = false) :
    (locateLoop P left S s).cause = .none ∧ (locateLoop P left S s).skipped = S + j ∧
      (locateLoop P left S s).state.hdr = parseHeader ((s.ahead.drop j).take hdrBytes) ∧
      (locateLoop P left S s).state.win = [] ∧
      (locateLoop P left S s).state.src.stream = s.ahead.drop (j + hdrBytes) := by
  induction j generalizing left S s with
  | zero =>
    have h1 : ¬ (fillWindow s).win.length < hdrBytes := by
      rw [fillWindow_short_iff hw]; omega
    have h2 : (s.ahead.drop 0).take hdrBytes = (fillWindow s).win := by
      rw [fillWindow_win s hw]; simp
    rw [h2] at hv ⊢
    rw [locateLoop_match h1 hv]
    exact ⟨rfl, rfl, rfl, rfl, by simp [acceptHeader, fillWindow_stream s hw]⟩
  | succ j ih =>
    obtain ⟨l, rfl⟩ : ∃ l, left = l + 1 := ⟨left - 1, by omega⟩
    have h1 : ¬ (fillWindow s).win.length < hdrBytes := by
      rw [fillWindow_short_iff hw]; omega
    have h2 : headerValid P (fillWindow s).win = false := by
      rw [fillWindow_win s hw]
      simpa using hno 0 (by omega)
    obtain ⟨h3, h4⟩ := dropByte_ahead_eq hw h1
    have hsh : ∀ i, (dropByte (fillWindow s)).ahead.drop i = s.ahead.drop (i + 1) := by
      intro i
      rw [h3, List.drop_drop, Nat.add_comm]
    rw [locateLoop_next h1 h2]
    obtain ⟨g1, g2, g3, g4, g5⟩ := ih l (S + 1) (dropByte (fillWindow s)) h4 (by omega)
      (by rw [h3]; simp; omega) (by rw [hsh]; exact hv)
      (fun i hi => by rw [hsh]; exact hno (i + 1) (by omega))
    refine ⟨g1, by rw [g2]; omega, by rw [g3, hsh], g4, ?_⟩
    rw [g5, hsh]
    congr 1

/-- With no header within the budget and enough bytes to test every offset, the budget is exceeded
(R164). -/
theorem locateLoop_format {P : Params} (left S : Nat) (s : State) (hw : s.win.length ≤ hdrBytes)
    (hlen : left + hdrBytes ≤ s.ahead.length)
    (hno : ∀ i ≤ left, headerValid P ((s.ahead.drop i).take hdrBytes) = false) :
    (locateLoop P left S s).cause = .format ∧ (locateLoop P left S s).skipped = S + left + 1 := by
  induction left generalizing S s with
  | zero =>
    have h1 : ¬ (fillWindow s).win.length < hdrBytes := by
      rw [fillWindow_short_iff hw]; omega
    have h2 : headerValid P (fillWindow s).win = false := by
      rw [fillWindow_win s hw]
      simpa using hno 0 (by omega)
    rw [locateLoop_budget h1 h2]
    exact ⟨rfl, rfl⟩
  | succ l ih =>
    have h1 : ¬ (fillWindow s).win.length < hdrBytes := by
      rw [fillWindow_short_iff hw]; omega
    have h2 : headerValid P (fillWindow s).win = false := by
      rw [fillWindow_win s hw]
      simpa using hno 0 (by omega)
    obtain ⟨h3, h4⟩ := dropByte_ahead_eq hw h1
    rw [locateLoop_next h1 h2]
    obtain ⟨g1, g2⟩ := ih (S + 1) (dropByte (fillWindow s)) h4 (by rw [h3]; simp; omega)
      (fun i hi => by
        rw [h3, List.drop_drop, Nat.add_comm]
        exact hno (i + 1) (by omega))
    exact ⟨g1, by rw [g2]; omega⟩

/-- With no header before the stream runs out, the locate ends at the first offset that has fewer than
32 bytes ahead of it (R167). -/
theorem locateLoop_exhausted {P : Params} (left S : Nat) (s : State)
    (hw : s.win.length ≤ hdrBytes) (hlen : s.ahead.length < left + hdrBytes)
    (hno : ∀ i, i + hdrBytes ≤ s.ahead.length →
      headerValid P ((s.ahead.drop i).take hdrBytes) = false) :
    (locateLoop P left S s).cause =
        (if S = 0 ∧ s.ahead = [] then .eos else .exhausted) ∧
      (locateLoop P left S s).skipped = S + (s.ahead.length - 31) := by
  induction left generalizing S s with
  | zero =>
    have h1 : (fillWindow s).win.length < hdrBytes := by
      rw [fillWindow_short_iff hw]; omega
    have h0 : hdrBytes = 32 := rfl
    rw [locateLoop_short h1]
    refine ⟨?_, by dsimp only; omega⟩
    rw [fillWindow_win s hw]
    simp [List.take_eq_nil_iff, h0]
  | succ l ih =>
    have h0 : hdrBytes = 32 := rfl
    by_cases h1 : (fillWindow s).win.length < hdrBytes
    · rw [locateLoop_short h1]
      rw [fillWindow_short_iff hw] at h1
      refine ⟨?_, by dsimp only; omega⟩
      rw [fillWindow_win s hw]
      simp [List.take_eq_nil_iff, h0]
    · have h1' := h1
      rw [fillWindow_short_iff hw] at h1'
      have h2 : headerValid P (fillWindow s).win = false := by
        rw [fillWindow_win s hw]
        simpa using hno 0 (by omega)
      obtain ⟨h3, h4⟩ := dropByte_ahead_eq hw h1
      have hl : (dropByte (fillWindow s)).ahead.length = s.ahead.length - 1 := by rw [h3]; simp
      rw [locateLoop_next h1 h2]
      obtain ⟨g1, g2⟩ := ih (S + 1) (dropByte (fillWindow s)) h4 (by omega)
        (fun i hi => by
          rw [h3, List.drop_drop, Nat.add_comm]
          exact hno (i + 1) (by omega))
      refine ⟨?_, by rw [g2, hl]; omega⟩
      rw [g1, if_neg (by omega), if_neg]
      rintro ⟨-, hn⟩
      rw [hn] at h1'
      exact h1' (by decide)

end Sys2Proof.Machine
end

