-- ==== Sys2Proof/Laws/Context.lean ====
section
/-! SUPPORT. The start of a block and the header loop of OPEN: every way they can end, said once. -/

namespace Sys2Proof.Machine

/-! ### The metadata loop and `BeginBlock` (spec/43_decorrelation.md R247) -/

/-- A state that differs from `s` in the source, the record of transactions and the count of payload
bytes left only. -/
def OnlyPayload (s t : State) : Prop :=
  ∃ r l n, t = ((s.setSrc r).setLog l).setBlk { s.blk with bytesLeft := n }

theorem OnlyPayload.refl (s : State) : OnlyPayload s s := ⟨s.src, s.log, s.blk.bytesLeft, rfl⟩

theorem OnlyPayload.trans {s t u : State} (h : OnlyPayload s t) (h' : OnlyPayload t u) :
    OnlyPayload s u := by
  obtain ⟨r, l, n, rfl⟩ := h
  obtain ⟨r', l', n', rfl⟩ := h'
  exact ⟨r', l', n', rfl⟩

theorem OnlySource.onlyPayload {s t : State} (h : OnlySource s t) : OnlyPayload s t := by
  obtain ⟨r, l, rfl⟩ := h
  exact ⟨r, l, s.blk.bytesLeft, rfl⟩

theorem metaLoop_onlyPayload (P : Params) (left : Nat) (q : List Byte) (s : State) :
    OnlyPayload s (metaLoop P left q s).2 := by
  induction left generalizing q s with
  | zero =>
    unfold metaLoop
    split <;> exact OnlyPayload.refl s
  | succ left ih =>
    unfold metaLoop
    split
    · exact OnlyPayload.refl s
    · exact OnlyPayload.refl s
    · simp only
      split_ifs
      · exact (srcRead_onlySource 1 s).onlyPayload
      · refine ((srcRead_onlySource 1 s).onlyPayload.trans ?_).trans (ih _ _)
        exact ⟨_, _, _, rfl⟩

/-- The metadata loop never gives bytes back to the stream. -/
theorem metaLoop_stream (P : Params) (left : Nat) (q : List Byte) (s : State) :
    (metaLoop P left q s).2.src.stream.length ≤ s.src.stream.length := by
  induction left generalizing q s with
  | zero =>
    unfold metaLoop
    split <;> exact le_rfl
  | succ left ih =>
    unfold metaLoop
    split
    · exact le_rfl
    · exact le_rfl
    · have hr : (srcRead 1 s).2.src.stream.length ≤ s.src.stream.length := by
        rw [srcRead_snd]; simp
      simp only
      split_ifs
      · exact hr
      · exact (ih _ _).trans hr

/-- A cause the metadata loop reports is not NONE. -/
theorem metaLoop_bad (P : Params) (left : Nat) (q : List Byte) (s : State) (c : Cause)
    (h : (metaLoop P left q s).1 = .bad c) : c = .format ∨ c = .exhausted := by
  induction left generalizing q s with
  | zero =>
    unfold metaLoop at h
    split at h <;> simp_all
  | succ left ih =>
    unfold metaLoop at h
    split at h
    · simp_all
    · simp_all
    · simp only at h
      split_ifs at h
      · simp_all
      · exact ih _ _ h

/-- A configuration the metadata loop ends with is an answer of MetaParse. -/
theorem metaLoop_done (P : Params) (left : Nat) (q : List Byte) (s : State) (cfg : MetaCfg)
    (bitlen : Word) (h : (metaLoop P left q s).1 = .done cfg bitlen) :
    ∃ k l, P.parseMeta k l = .done cfg bitlen := by
  induction left generalizing q s with
  | zero =>
    unfold metaLoop at h
    split at h
    · cases h
    · rename_i hm
      obtain ⟨rfl, rfl⟩ := MetaRead.done.inj h
      exact ⟨_, _, hm⟩
    · cases h
  | succ left ih =>
    unfold metaLoop at h
    split at h
    · cases h
    · rename_i hm
      obtain ⟨rfl, rfl⟩ := MetaRead.done.inj h
      exact ⟨_, _, hm⟩
    · simp only at h
      split_ifs at h
      exact ih _ _ h

/-- Every way `BeginBlock` can end: a cause FORMAT or EXHAUSTED with nothing but BLK's copies and the
source changed, or the block begun from a configuration that passed every check. -/
theorem beginBlock_cases (P : Params) (s : State) :
    ∃ u, OnlyPayload (copyHeader s) u ∧ u.src.stream.length ≤ s.src.stream.length ∧
      ((∃ c, (c = .format ∨ c = .exhausted) ∧ beginBlock P s = (c, u)) ∨
        ∃ cfg bitlen, beginBlock P s = (.none, commitBlock P cfg bitlen u) ∧
          bitlen.toNat ≤ u.blk.bytesLeft.toNat ∧
          (cfg.fresh = true → configValid P cfg.passes = true) ∧
          chainFits P (chainOf cfg u)
            (codedChannels P u.blk.flags) u.ctx.frameWidth = true ∧
          ∃ k q, P.parseMeta k q = .done cfg bitlen) := by
  set m := metaLoop P (copyHeader s).blk.bytesLeft.toNat [] (copyHeader s) with hm
  refine ⟨m.2, metaLoop_onlyPayload P _ _ _, metaLoop_stream P _ _ _, ?_⟩
  have hb : beginBlock P s = match m.1 with
      | .bad c => (c, m.2)
      | .done cfg bitlen =>
        if m.2.blk.bytesLeft.toNat < bitlen.toNat then (.format, m.2)
        else if cfg.fresh = true ∧ configValid P cfg.passes = false then (.format, m.2)
        else if chainFits P (chainOf cfg m.2) (codedChannels P m.2.blk.flags)
            m.2.ctx.frameWidth = false then (.format, m.2)
        else (.none, commitBlock P cfg bitlen m.2) := rfl
  rcases hm1 : m.1 with c | ⟨cfg, bitlen⟩
  · rw [hm1] at hb
    exact .inl ⟨c, metaLoop_bad P _ _ _ c (by rw [← hm]; exact hm1), hb⟩
  · rw [hm1] at hb
    simp only at hb
    split_ifs at hb with h1 h2 h3
    · exact .inl ⟨_, .inl rfl, hb⟩
    · exact .inl ⟨_, .inl rfl, hb⟩
    · exact .inl ⟨_, .inl rfl, hb⟩
    · refine .inr ⟨cfg, bitlen, hb, by omega, fun hf => ?_, by simpa using h3,
        metaLoop_done P _ _ _ _ _ hm1⟩
      by_contra hc
      exact h2 ⟨hf, by simpa using hc⟩

/-- What `commitBlock` leaves, field by field. -/
theorem commitBlock_eq (P : Params) (cfg : MetaCfg) (bitlen : Word) (s : State) :
    commitBlock P cfg bitlen s =
      ((((s.setPass (chainOf cfg s)).setEs (cfg.esInit.getD s.es)).setFexp
        (cfg.fexp.getD s.fexp)).setBr
          { s.br with idx := 0, fin := 0, acc := 0, cnt := 0, eod := false, budget := bitlen }).setBlk
            { s.blk with bc := codedChannels P s.blk.flags, crc := P.crcInit, active := true } := by
  rfl

theorem codedChannels_eq (P : Params) (flags : Word) :
    codedChannels P flags = 1 ∨ codedChannels P flags = 2 := by
  unfold codedChannels
  split_ifs <;> simp

/-! ### The header loop of OPEN (spec/42_context.md R202) -/

theorem latchTotal_cases (s : State) :
    latchTotal s = s ∨ (s.ctx.total = totalUnknown ∧ s.hdr.total ≠ totalUnknown ∧
      latchTotal s = s.setCtx { s.ctx with total := s.hdr.total }) := by
  unfold latchTotal
  split_ifs with h
  · exact .inr ⟨h.1, h.2, rfl⟩
  · exact .inl rfl

/-- A state the header loop can reach from `s`: only the window, HDR, the latched total, the source
and the record of transactions differ. -/
def OnlySearch (s t : State) : Prop :=
  ∃ r l w h total, t = ((((s.setSrc r).setLog l).setWin w).setHdr h).setCtx
    { s.ctx with total := total }

theorem OnlySearch.refl (s : State) : OnlySearch s s :=
  ⟨s.src, s.log, s.win, s.hdr, s.ctx.total, rfl⟩

theorem OnlySearch.trans {s t u : State} (h : OnlySearch s t) (h' : OnlySearch t u) :
    OnlySearch s u := by
  obtain ⟨r, l, w, k, n, rfl⟩ := h
  obtain ⟨r', l', w', k', n', rfl⟩ := h'
  cases s
  exact ⟨r', l', w', k', n', rfl⟩

theorem OnlySource.onlySearch {s t : State} (h : OnlySource s t) : OnlySearch s t := by
  obtain ⟨r, l, rfl⟩ := h
  exact ⟨r, l, s.win, s.hdr, s.ctx.total, rfl⟩

theorem OnlyLocator.onlySearch {s t : State} (h : OnlyLocator s t) : OnlySearch s t := by
  obtain ⟨r, l, w, k, rfl⟩ := h
  exact ⟨r, l, w, k, s.ctx.total, rfl⟩

theorem latchTotal_onlySearch (s : State) : OnlySearch s (latchTotal s) := by
  rcases latchTotal_cases s with h | ⟨-, -, h⟩ <;> rw [h]
  · exact OnlySearch.refl s
  · exact ⟨s.src, s.log, s.win, s.hdr, s.hdr.total, rfl⟩

theorem latchTotal_ahead (s : State) : (latchTotal s).ahead = s.ahead := by
  rcases latchTotal_cases s with h | ⟨-, -, h⟩
  · rw [h]
  · rw [h]; rfl

theorem drain_ahead (n : Nat) (s : State) : (drain n s).2.ahead.length ≤ s.ahead.length := by
  obtain ⟨r, l, e⟩ := drain_onlySource n s
  have h := drain_stream n s
  rw [State.ahead, State.ahead, h, e]
  simp

/-- Every way OPEN's header loop can end, for a bound above the bytes ahead: a failure with a cause
other than NONE, or an audio block with a payload to begin. -/
theorem openLoop_cases (P : Params) (fuel : Nat) (s : State) (hf : s.ahead.length < fuel) :
    ∃ u, OnlySearch s u ∧
      ((∃ c, c ≠ .none ∧ openLoop P fuel s = .next (openFail P c u)) ∨
        (24 ≤ u.hdr.ckSize.toNat ∧ u.hdr.blockSamples ≠ 0 ∧
          openLoop P fuel s = .next (openAccept P u))) := by
  induction fuel generalizing s with
  | zero => omega
  | succ fuel ih =>
    simp only [openLoop]
    have hl := (locate_onlyLocator P s).onlySearch
    have hla := hl.trans (latchTotal_onlySearch (locate P s).state)
    split_ifs with h1 h2 h3 h4
    · exact ⟨_, hl, .inl ⟨_, h1, rfl⟩⟩
    · exact ⟨_, hla, .inl ⟨_, by simp, rfl⟩⟩
    · obtain ⟨-, hm⟩ := locate_ahead P s
      obtain ⟨-, hm⟩ := hm (by simpa using h1)
      have hd := drain_ahead ((latchTotal (locate P s).state).hdr.ckSize.toNat - 24)
        (latchTotal (locate P s).state)
      rw [latchTotal_ahead] at hd
      have h0 : hdrBytes = 32 := rfl
      obtain ⟨u, hu, hcase⟩ := ih (drain ((latchTotal (locate P s).state).hdr.ckSize.toNat - 24)
        (latchTotal (locate P s).state)).2 (by omega)
      exact ⟨u, (hla.trans (drain_onlySource _ _).onlySearch).trans hu, hcase⟩
    · exact ⟨_, hla.trans (drain_onlySource _ _).onlySearch, .inl ⟨_, by simp, rfl⟩⟩
    · exact ⟨_, hla, .inr ⟨by omega, h3, rfl⟩⟩

/-- Every way OPEN can end (R200 to R204). -/
theorem execOpenCtx_cases (s : State) :
    ∃ u, OnlySearch (openStart s.params s) u ∧
      ((∃ c, c ≠ .none ∧ execOpenCtx s = .next (openFail s.params c u)) ∨
        (24 ≤ u.hdr.ckSize.toNat ∧ u.hdr.blockSamples ≠ 0 ∧
          execOpenCtx s = .next (openAccept s.params u))) :=
  openLoop_cases s.params _ _ (by
    show ([] ++ s.src.stream).length < _
    simp)

/-- Every way OPEN's last step can end: the failure of `BeginBlock`, or the context open (R203). -/
theorem openAccept_cases (P : Params) (s : State) :
    (∃ c u, c ≠ .none ∧ OnlyPayload (copyHeader (deriveCtx P s)) u ∧
        openAccept P s = openFail P c u) ∨
      ∃ cfg bitlen u, OnlyPayload (copyHeader (deriveCtx P s)) u ∧
        bitlen.toNat ≤ u.blk.bytesLeft.toNat ∧
        (cfg.fresh = true → configValid P cfg.passes = true) ∧
        chainFits P (chainOf cfg u)
          (codedChannels P u.blk.flags) u.ctx.frameWidth = true ∧
        (∃ k q, P.parseMeta k q = .done cfg bitlen) ∧
        openAccept P s =
          (((commitBlock P cfg bitlen u).setCtx
              { u.ctx with cursor := u.blk.blockIndex.setWidth 64 }).setSeq
            { u.seq with phase := .ready }).setResp (some ⟨.ok, 0⟩) := by
  obtain ⟨u, hu, -, hc | ⟨cfg, bitlen, hb, h1, h2, h3, h4⟩⟩ := beginBlock_cases P (deriveCtx P s)
  · obtain ⟨c, hc, hb⟩ := hc
    have hn : c ≠ .none := by rcases hc with rfl | rfl <;> simp
    refine .inl ⟨c, u, hn, hu, ?_⟩
    simp only [openAccept, hb, if_neg hn]
  · refine .inr ⟨cfg, bitlen, u, hu, h1, h2, h3, h4, ?_⟩
    simp only [openAccept, hb, if_true, commitBlock_eq]
    rfl

end Sys2Proof.Machine
end

