-- ==== Sys2Proof/Laws/Headers.lean ====
section
/-! SUPPORT. What the bytes ahead decide: where a locate ends, how a block begins or fails to, and how
OPEN gets past metadata-only blocks. -/

namespace Sys2Proof.Machine

/-! ### A locate, by the bytes ahead (spec/41_block_locator.md R162 to R167) -/

theorem headerValid_of_not_headerAt {P : Params} {bytes : List Byte} {S : Nat}
    (hl : S + hdrBytes ≤ bytes.length) (h : ¬ headerAt P bytes S) :
    headerValid P ((bytes.drop S).take hdrBytes) = false := by
  by_contra hc
  exact h ⟨hl, by simpa using hc⟩

/-- A locate ends at the first header within the skip budget. -/
theorem locate_first {P : Params} {s : State} {j : Nat} (hw : s.win.length ≤ hdrBytes)
    (h : firstHeader P s.ahead j) :
    (locate P s).cause = .none ∧ (locate P s).skipped = j ∧
      (locate P s).state.hdr = parseHeader ((s.ahead.drop j).take hdrBytes) ∧
      (locate P s).state.win = [] ∧
      (locate P s).state.src.stream = s.ahead.drop (j + hdrBytes) := by
  obtain ⟨h1, h2, h3⟩ := h
  have hl := h2.1
  have := locateLoop_found (P := P) resyncBudget 0 j s hw h1 hl h2.2 fun i hi =>
    headerValid_of_not_headerAt (by omega) (h3 i hi)
  rwa [Nat.zero_add] at this

/-- A locate fails with the cause its bytes give. -/
theorem locate_fails {P : Params} {s : State} {c : Cause} (hw : s.win.length ≤ hdrBytes)
    (h : locateFails P s.ahead c) : (locate P s).cause = c ∧ c ≠ .none := by
  rcases h with ⟨rfl, hl, hn⟩ | ⟨hl, hn, rfl⟩
  · exact ⟨(locateLoop_format resyncBudget 0 s hw hl fun i hi =>
      headerValid_of_not_headerAt (by omega) (hn i hi)).1, by simp⟩
  · refine ⟨?_, by split_ifs <;> simp⟩
    have := (locateLoop_exhausted (P := P) resyncBudget 0 s hw hl fun i hi =>
      headerValid_of_not_headerAt hi (hn i)).1
    rw [locate, this]
    simp

/-! ### The metadata loop, by the stream (spec/43_decorrelation.md R247) -/

theorem answer_one (r : Source) : r.answer 1 = r.stream.take 1 := by
  unfold Source.answer
  split
  · rfl
  · rename_i k _ _
    have : min (min 1 countMax) (max 1 k) = 1 := by unfold countMax; omega
    rw [this]

/-- The loop takes one byte for each prefix that MetaParse needs more of. -/
theorem metaLoop_advance {P : Params} (k : Nat) (left : Nat) (q : List Byte) (s : State)
    (hl : k ≤ left) (hs : k ≤ s.src.stream.length)
    (hn : ∀ i, i < k → P.parseMeta s.hdr (q ++ s.src.stream.take i) = .need) :
    ∃ t, metaLoop P left q s = metaLoop P (left - k) (q ++ s.src.stream.take k) t ∧
      OnlyPayload s t ∧ t.src.stream = s.src.stream.drop k ∧
      t.blk = { s.blk with bytesLeft := s.blk.bytesLeft - BitVec.ofNat 32 k } := by
  induction k generalizing left q s with
  | zero => exact ⟨s, by simp, OnlyPayload.refl s, rfl, by simp⟩
  | succ k ih =>
    obtain ⟨left, rfl⟩ : ∃ l, left = l + 1 := ⟨left - 1, by omega⟩
    obtain ⟨x, xs, hx⟩ : ∃ x xs, s.src.stream = x :: xs :=
      List.exists_cons_of_length_pos (by omega)
    have ha : s.src.answer 1 = [x] := by rw [answer_one, hx]; rfl
    have h0 := hn 0 (by omega)
    rw [List.take_zero, List.append_nil] at h0
    obtain ⟨u, hu⟩ : ∃ u, u = (srcRead 1 s).2.setBlk
        { (srcRead 1 s).2.blk with bytesLeft := (srcRead 1 s).2.blk.bytesLeft - 1 } := ⟨_, rfl⟩
    have hstep : metaLoop P (left + 1) q s = metaLoop P left (q ++ [x]) u := by
      conv_lhs => unfold metaLoop
      rw [h0]
      simp only [srcRead_fst, ha]
      rw [if_neg (by simp), hu]
    have hup : OnlyPayload s u := by
      rw [hu]
      exact (srcRead_onlySource 1 s).onlyPayload.trans ⟨_, _, _, rfl⟩
    have hus : u.src.stream = xs := by
      rw [hu, srcRead_snd, ha]
      simp [hx]
    have huh : u.hdr = s.hdr := by rw [hu]; rfl
    have hub : u.blk = { s.blk with bytesLeft := s.blk.bytesLeft - 1 } := by rw [hu]; rfl
    rw [hx] at hs hn ⊢
    rw [List.length_cons] at hs
    obtain ⟨t, h1, h2, h3, h4⟩ := ih left (q ++ [x]) u (by omega) (by rw [hus]; omega) (by
      intro i hi
      have := hn (i + 1) (by omega)
      rw [hus, huh]
      simpa using this)
    refine ⟨t, ?_, hup.trans h2, ?_, ?_⟩
    · rw [hstep, h1, hus]
      simp
    · rw [h3, hus, List.drop_succ_cons]
    · rw [h4, hub]
      simp only [BitVec.sub_sub, Nat.add_comm k 1, BitVec.ofNat_add]
      rfl

/-- The loop of a block's metadata up to the k-th payload byte. -/
theorem metaLoop_reaches {P : Params} {s : State} {k : Nat} (h24 : 24 ≤ s.hdr.ckSize.toNat)
    (h : metadataReaches P s.hdr s.src.stream k) :
    ∃ t, metaLoop P (copyHeader s).blk.bytesLeft.toNat [] (copyHeader s) =
        metaLoop P (payloadLength s.hdr - k) (s.src.stream.take k) t ∧
      OnlyPayload (copyHeader s) t ∧ t.src.stream = s.src.stream.drop k ∧ t.hdr = s.hdr ∧
      t.blk = { (copyHeader s).blk with bytesLeft := s.hdr.ckSize - 24 - BitVec.ofNat 32 k } ∧
      t.blk.bytesLeft.toNat = payloadLength s.hdr - k := by
  obtain ⟨h1, h2, h3⟩ := h
  have hlen : (copyHeader s).blk.bytesLeft.toNat = payloadLength s.hdr := by
    show (s.hdr.ckSize - 24).toNat = s.hdr.ckSize.toNat - 24
    have := s.hdr.ckSize.isLt
    have e : (24 : Word).toNat = 24 := rfl
    rw [BitVec.toNat_sub, e]
    omega
  have hk : k < 2 ^ 32 := by
    have := (copyHeader s).blk.bytesLeft.isLt
    omega
  have h3' : ∀ i, i < k → P.parseMeta (copyHeader s).hdr
      ([] ++ (copyHeader s).src.stream.take i) = .need := h3
  obtain ⟨t, g1, g2, g3, g4⟩ := metaLoop_advance k (copyHeader s).blk.bytesLeft.toNat []
    (copyHeader s) (by rw [hlen]; exact h1) h2 h3'
  rw [hlen, List.nil_append] at g1
  refine ⟨t, hlen ▸ g1, g2, g3, ?_, g4, ?_⟩
  · obtain ⟨r, l, n, e⟩ := g2
    rw [e]
    rfl
  · rw [g4]
    simp only [BitVec.toNat_sub, hlen, BitVec.toNat_ofNat]
    omega

/-- A block that fails to begin: its cause, and what is left alone. -/
theorem beginBlock_fails {P : Params} {s : State} {c : Cause} (h24 : 24 ≤ s.hdr.ckSize.toNat)
    (h : beginFails P s.hdr s.pass s.ctx.frameWidth s.src.stream c) :
    c ≠ .none ∧ (beginBlock P s).1 = c ∧ OnlyPayload (copyHeader s) (beginBlock P s).2 := by
  obtain ⟨k, hk, h⟩ := h
  obtain ⟨t, g1, g2, g3, g4, g5, g6⟩ := metaLoop_reaches h24 hk
  have hpass : t.pass = s.pass ∧ t.ctx = s.ctx ∧ t.blk.flags = s.hdr.flags := by
    obtain ⟨r, l, n, e⟩ := g2
    rw [e]
    exact ⟨rfl, rfl, rfl⟩
  simp only [beginBlock, g1]
  rcases h with ⟨hm, rfl⟩ | ⟨hm, hp, rfl⟩ | ⟨hm, hp, hs, rfl⟩ | ⟨cfg, bitlen, hm, rfl, h⟩
  · have : metaLoop P (payloadLength s.hdr - k) (s.src.stream.take k) t = (.bad .format, t) := by
      unfold metaLoop
      rw [g4, hm]
    rw [this]
    exact ⟨by simp, rfl, g2⟩
  · have : metaLoop P (payloadLength s.hdr - k) (s.src.stream.take k) t = (.bad .format, t) := by
      rw [hp, Nat.sub_self]
      unfold metaLoop
      rw [← hp, g4, hm]
    rw [this]
    exact ⟨by simp, rfl, g2⟩
  · obtain ⟨n, hn⟩ : ∃ n, payloadLength s.hdr - k = n + 1 := ⟨payloadLength s.hdr - k - 1, by omega⟩
    have ha : t.src.answer 1 = [] := by
      rw [answer_one, g3, List.drop_of_length_le (by omega), List.take_nil]
    have : metaLoop P (payloadLength s.hdr - k) (s.src.stream.take k) t =
        (.bad .exhausted, (srcRead 1 t).2) := by
      rw [hn]
      unfold metaLoop
      rw [g4, hm]
      simp only [srcRead_fst, ha, if_true]
    rw [this]
    exact ⟨by simp, rfl, g2.trans (srcRead_onlySource 1 t).onlyPayload⟩
  · have : metaLoop P (payloadLength s.hdr - k) (s.src.stream.take k) t = (.done cfg bitlen, t) := by
      unfold metaLoop
      rw [g4, hm]
    rw [this]
    simp only [g6, hpass.2.1, hpass.2.2]
    have hc : chainOf cfg t = chainFor cfg s.pass := by rw [chainOf, hpass.1]; rfl
    rw [hc]
    split_ifs with a b d
    · exact ⟨by simp, rfl, g2⟩
    · exact ⟨by simp, rfl, g2⟩
    · exact ⟨by simp, rfl, g2⟩
    · rcases h with h | h | h
      · exact absurd h a
      · exact absurd h b
      · exact absurd h d

/-- A block that begins: the state its configuration is committed to. -/
theorem beginBlock_begins {P : Params} {s : State} {k : Nat} {cfg : MetaCfg} {bitlen : Word}
    (h24 : 24 ≤ s.hdr.ckSize.toNat)
    (h : beginsWith P s.hdr s.pass s.ctx.frameWidth s.src.stream k cfg bitlen) :
    ∃ t, beginBlock P s = (.none, commitBlock P cfg bitlen t) ∧ OnlyPayload (copyHeader s) t ∧
      t.src.stream = s.src.stream.drop k ∧
      t.blk = { (copyHeader s).blk with bytesLeft := s.hdr.ckSize - 24 - BitVec.ofNat 32 k } := by
  obtain ⟨hk, hm, hb, hcfg, hfit⟩ := h
  obtain ⟨t, g1, g2, g3, g4, g5, g6⟩ := metaLoop_reaches h24 hk
  have hpass : t.pass = s.pass ∧ t.ctx = s.ctx ∧ t.blk.flags = s.hdr.flags := by
    obtain ⟨r, l, n, e⟩ := g2
    rw [e]
    exact ⟨rfl, rfl, rfl⟩
  have hd : metaLoop P (payloadLength s.hdr - k) (s.src.stream.take k) t = (.done cfg bitlen, t) := by
    unfold metaLoop
    rw [g4, hm]
  have hc : chainOf cfg t = chainFor cfg s.pass := by rw [chainOf, hpass.1]; rfl
  refine ⟨t, ?_, g2, g3, g5⟩
  simp only [beginBlock, g1, hd, g6, hpass.2.1, hpass.2.2, hc]
  rw [if_neg (by omega), if_neg, if_neg (by rw [hfit]; simp)]
  rintro ⟨hf, hv⟩
  rw [hcfg hf] at hv
  cases hv

/-! ### OPEN over metadata-only blocks (spec/42_context.md R202, R212) -/

theorem latchTotal_total (s : State) :
    (latchTotal s).ctx.total =
      if s.ctx.total = totalUnknown then s.hdr.total else s.ctx.total := by
  unfold latchTotal
  split_ifs with h1 h2 h2
  · rfl
  · exact absurd h1.1 h2
  · by_contra hne
    exact h1 ⟨h2, fun h => hne (by rw [h2, h])⟩
  · rfl

/-- One whole metadata-only block: OPEN drains its payload, latches its total and goes on. -/
theorem openLoop_metadata {P : Params} {fuel : Nat} {s : State} {b : MetaBlock} {rest : List Byte}
    (hw : s.win = []) (hs : s.src.stream = b.skipped ++ b.header ++ b.payload ++ rest)
    (h1 : firstHeader P s.src.stream b.skipped.length) (h2 : b.header.length = hdrBytes)
    (h3 : 24 ≤ (parseHeader b.header).ckSize.toNat) (h4 : (parseHeader b.header).blockSamples = 0)
    (h5 : b.payload.length = payloadLength (parseHeader b.header)) :
    ∃ t, openLoop P (fuel + 1) s = openLoop P fuel t ∧ OnlySearch s t ∧ t.win = [] ∧
      t.src.stream = rest ∧
      t.ctx.total =
        if s.ctx.total = totalUnknown then (parseHeader b.header).total else s.ctx.total := by
  have ha : s.ahead = s.src.stream := by rw [State.ahead, hw, List.nil_append]
  obtain ⟨g1, -, g3, g4, g5⟩ := locate_first (P := P) (s := s) (j := b.skipped.length)
    (by rw [hw]; exact Nat.zero_le _) (by rw [ha]; exact h1)
  have e1 : (s.ahead.drop b.skipped.length).take hdrBytes = b.header := by
    rw [ha, hs, List.append_assoc, List.append_assoc, List.drop_left, ← h2, List.take_left]
  have e2 : s.ahead.drop (b.skipped.length + hdrBytes) = b.payload ++ rest := by
    rw [ha, hs, ← List.drop_drop, List.append_assoc, List.append_assoc, List.drop_left, ← h2,
      List.drop_left]
  rw [e1] at g3
  rw [e2] at g5
  obtain ⟨L, hL⟩ : ∃ L, L = latchTotal (locate P s).state := ⟨_, rfl⟩
  have l1 : OnlySearch s L := by
    rw [hL]
    exact (locate_onlyLocator P s).onlySearch.trans (latchTotal_onlySearch _)
  have l2 : L.hdr = parseHeader b.header ∧ L.win = [] ∧ L.src.stream = b.payload ++ rest := by
    rw [hL]
    rcases latchTotal_cases (locate P s).state with h | ⟨-, -, h⟩ <;> rw [h]
    · exact ⟨g3, g4, g5⟩
    · exact ⟨g3, g4, g5⟩
  have l3 : L.ctx.total =
      if s.ctx.total = totalUnknown then (parseHeader b.header).total else s.ctx.total := by
    rw [hL, latchTotal_total, g3, (locate_onlyLocator P s).frame.2.2.1]
  obtain ⟨l4, l5, l6⟩ := l2
  have hd := drain_fst ((parseHeader b.header).ckSize.toNat - 24) L
  have hd2 := drain_stream ((parseHeader b.header).ckSize.toNat - 24) L
  rw [← show payloadLength (parseHeader b.header) = (parseHeader b.header).ckSize.toNat - 24 from rfl]
    at hd hd2
  rw [l6, ← h5] at hd hd2
  rw [List.drop_left] at hd2
  refine ⟨(drain b.payload.length L).2, ?_, l1.trans (drain_onlySource _ _).onlySearch, ?_, hd2, ?_⟩
  · conv_lhs => unfold openLoop
    simp only [← hL]
    rw [if_neg (by rw [g1]; simp), l4, if_neg (by omega), if_pos h4,
      ← show payloadLength (parseHeader b.header) = (parseHeader b.header).ckSize.toNat - 24 from rfl,
      ← h5, if_pos (by rw [hd]; simp)]
  · obtain ⟨r, l, e⟩ := drain_onlySource b.payload.length L
    rw [e]
    exact l5
  · obtain ⟨r, l, e⟩ := drain_onlySource b.payload.length L
    rw [e]
    exact l3

/-- OPEN gets past any number of whole metadata-only blocks, with the first known total latched. -/
theorem openLoop_metadataOnly {P : Params} {tail : List Byte} (blocks : List MetaBlock) (fuel : Nat)
    (s : State) (hw : s.win = []) (hs : s.src.stream = blockBytes blocks ++ tail)
    (h : metadataOnly P tail blocks) (hf : s.src.stream.length < fuel) :
    ∃ fuel' t, openLoop P fuel s = openLoop P fuel' t ∧ tail.length < fuel' ∧ OnlySearch s t ∧
      t.win = [] ∧ t.src.stream = tail ∧
      t.ctx.total =
        latchedTotal s.ctx.total (blocks.map fun b => (parseHeader b.header).total) := by
  induction blocks generalizing fuel s with
  | nil => exact ⟨fuel, s, rfl, by rw [← List.nil_append tail]; exact hs ▸ hf, OnlySearch.refl s, hw, hs, rfl⟩
  | cons b bs ih =>
    obtain ⟨h1, h2, h3, h4, h5, h6⟩ := h
    obtain ⟨fuel, rfl⟩ : ∃ f, fuel = f + 1 := ⟨fuel - 1, by omega⟩
    have hs' : s.src.stream = b.skipped ++ b.header ++ b.payload ++ (blockBytes bs ++ tail) := by
      rw [hs, blockBytes, List.append_assoc (b.skipped ++ b.header ++ b.payload)]
    obtain ⟨t, g1, g2, g3, g4, g5⟩ := openLoop_metadata (P := P) (fuel := fuel) hw hs'
      (by rw [hs]; exact h1) h2 h3 h4 h5
    have hlen : t.src.stream.length < fuel := by
      have : s.src.stream.length = b.skipped.length + b.header.length + b.payload.length +
          t.src.stream.length := by
        rw [hs', g4]
        simp only [List.length_append]
      have h0 : hdrBytes = 32 := rfl
      omega
    obtain ⟨fuel', u, k1, k2, k3, k4, k5, k6⟩ := ih fuel t g3 g4 h6 hlen
    refine ⟨fuel', u, g1.trans k1, k2, g2.trans k3, k4, k5, ?_⟩
    rw [k6, g5]
    rfl

end Sys2Proof.Machine
end

