-- ==== Sys2Proof/Laws/Unpack.lean ====
section
/-! SUPPORT. UNPACK: what each step of the loop changes, and the induction over its rounds. -/

namespace Sys2Proof.Machine

/-! ### The steps that write samples -/

/-- A state that differs from `s` in the output buffer and the record of transactions only. -/
def OnlyOutput (s t : State) : Prop := ∃ m l, t = (s.setOut m).setLog l

theorem OnlyOutput.refl (s : State) : OnlyOutput s s := ⟨s.out, s.log, rfl⟩

theorem OnlyOutput.trans {s t u : State} (h : OnlyOutput s t) (h' : OnlyOutput t u) :
    OnlyOutput s u := by
  obtain ⟨m, l, rfl⟩ := h
  obtain ⟨m', l', rfl⟩ := h'
  exact ⟨m', l', rfl⟩

theorem writeSample_onlyOutput (n : Nat) (v : S32) (s : State) :
    OnlyOutput s (writeSample n v s) := ⟨_, _, writeSample_eq n v s⟩

theorem writeSilence_onlyOutput (n i : Nat) (s : State) :
    OnlyOutput s (writeSilence n i s) := by
  induction n generalizing i s with
  | zero => exact OnlyOutput.refl s
  | succ n ih => exact (writeSample_onlyOutput _ 0 s).trans (ih _ _)

theorem writeSlots_onlyOutput (P : Params) (base : Nat) (v : Frame) (w c : Nat) (s : State) :
    OnlyOutput s (writeSlots P base v w c s) := by
  induction w generalizing c s with
  | zero => exact OnlyOutput.refl s
  | succ w ih => exact (writeSample_onlyOutput _ _ s).trans (ih _ _)

theorem writeSample_read (n : Nat) (v : S32) (s : State) (j : Nat) :
    (writeSample n v s).out.read j = if j = n then some v else s.out.read j := by
  rw [writeSample_out, Memory.read_write]

/-- What silence writes: 0 at every index of its range, and no other index (R243). -/
theorem writeSilence_read (n i : Nat) (s : State) (j : Nat) :
    (writeSilence n i s).out.read j = if i ≤ j ∧ j < i + n then some 0 else s.out.read j := by
  induction n generalizing i s with
  | zero => rw [if_neg (by omega)]; rfl
  | succ n ih =>
    rw [writeSilence, ih, writeSample_read]
    split_ifs <;> first | rfl | omega

/-- What a frame writes: each of its slots, and no other index (R245, R265). -/
theorem writeSlots_read (P : Params) (base : Nat) (v : Frame) (w c : Nat) (s : State) (j : Nat) :
    (writeSlots P base v w c s).out.read j =
      if base + c ≤ j ∧ j < base + c + w then
        some (P.fixup s.blk.flags s.fexp (v.slot (j - base)))
      else s.out.read j := by
  induction w generalizing c s with
  | zero => rw [if_neg (by omega)]; rfl
  | succ w ih =>
    rw [writeSlots, ih, writeSample_read]
    simp only [writeSample_eq, State.setLog_blk, State.setOut_blk, State.setLog_fexp,
      State.setOut_fexp]
    split_ifs with h1 h2 h3 h4 <;> first | rfl | omega | skip
    subst h3
    simp

/-! ### The frame of UNPACK -/

/-- What no step of UNPACK changes, and what only grows. -/
structure UnpackKeeps (s t : State) : Prop where
  resp : t.resp = s.resp
  host : t.host = s.host
  build : t.build = s.build
  contract : t.seq.contract = s.seq.contract
  frozen : { t.ctx with total := 0, crcErrors := 0, cursor := 0 } =
    { s.ctx with total := 0, crcErrors := 0, cursor := 0 }
  total : s.ctx.total ≠ totalUnknown → t.ctx.total = s.ctx.total
  crcErrors : s.ctx.crcErrors.toNat ≤ t.ctx.crcErrors.toNat
  cursor : s.ctx.cursor.toNat ≤ t.ctx.cursor.toNat

theorem UnpackKeeps.refl (s : State) : UnpackKeeps s s :=
  ⟨rfl, rfl, rfl, rfl, rfl, fun _ => rfl, le_rfl, le_rfl⟩

theorem UnpackKeeps.trans {s t u : State} (h : UnpackKeeps s t) (h' : UnpackKeeps t u) :
    UnpackKeeps s u where
  resp := h'.resp.trans h.resp
  host := h'.host.trans h.host
  build := h'.build.trans h.build
  contract := h'.contract.trans h.contract
  frozen := h'.frozen.trans h.frozen
  total hs := by
    have ht := h.total hs
    rw [← ht]
    exact h'.total (by rw [ht]; exact hs)
  crcErrors := h.crcErrors.trans h'.crcErrors
  cursor := h.cursor.trans h'.cursor

theorem UnpackKeeps.params {s t : State} (h : UnpackKeeps s t) : t.params = s.params := by
  rw [State.params, State.params, h.build]

theorem UnpackKeeps.frameWidth {s t : State} (h : UnpackKeeps s t) :
    t.ctx.frameWidth = s.ctx.frameWidth := by
  have := h.frozen
  simp only [Ctx.mk.injEq] at this
  exact this.2.2.2.2.2.2.2.2.2

theorem OnlySource.keeps {s t : State} (h : OnlySource s t) : UnpackKeeps s t := by
  obtain ⟨r, l, rfl⟩ := h
  exact ⟨rfl, rfl, rfl, rfl, rfl, fun _ => rfl, le_rfl, le_rfl⟩

theorem OnlyOutput.keeps {s t : State} (h : OnlyOutput s t) : UnpackKeeps s t := by
  obtain ⟨m, l, rfl⟩ := h
  exact ⟨rfl, rfl, rfl, rfl, rfl, fun _ => rfl, le_rfl, le_rfl⟩

theorem OnlyLocator.keeps {s t : State} (h : OnlyLocator s t) : UnpackKeeps s t := by
  obtain ⟨r, l, w, k, rfl⟩ := h
  exact ⟨rfl, rfl, rfl, rfl, rfl, fun _ => rfl, le_rfl, le_rfl⟩

theorem OnlyReader.keeps {s t : State} (h : OnlyReader s t) : UnpackKeeps s t := by
  obtain ⟨b, r, l, n, -, rfl⟩ := h
  exact ⟨rfl, rfl, rfl, rfl, rfl, fun _ => rfl, le_rfl, le_rfl⟩

theorem OnlyPayload.keeps {s t : State} (h : OnlyPayload s t) : UnpackKeeps s t := by
  obtain ⟨r, l, n, rfl⟩ := h
  exact ⟨rfl, rfl, rfl, rfl, rfl, fun _ => rfl, le_rfl, le_rfl⟩

theorem setBlk_keeps (s : State) (b : Blk) : UnpackKeeps s (s.setBlk b) :=
  ⟨rfl, rfl, rfl, rfl, rfl, fun _ => rfl, le_rfl, le_rfl⟩

theorem endStream_keeps (c : Cause) (s : State) : UnpackKeeps s (endStream c s) :=
  ⟨rfl, rfl, rfl, rfl, rfl, fun _ => rfl, le_rfl, le_rfl⟩

theorem commitBlock_keeps (P : Params) (cfg : MetaCfg) (bitlen : Word) (s : State) :
    UnpackKeeps s (commitBlock P cfg bitlen s) := by
  rw [commitBlock_eq]
  exact ⟨rfl, rfl, rfl, rfl, rfl, fun _ => rfl, le_rfl, le_rfl⟩

theorem latchTotal_keeps (s : State) : UnpackKeeps s (latchTotal s) := by
  rcases latchTotal_cases s with h | ⟨h0, -, h⟩ <;> rw [h]
  · exact ⟨rfl, rfl, rfl, rfl, rfl, fun _ => rfl, le_rfl, le_rfl⟩
  · exact ⟨rfl, rfl, rfl, rfl, rfl, fun hn => absurd h0 hn, le_rfl, le_rfl⟩

theorem verifyBlock_keeps (s : State) : UnpackKeeps s (verifyBlock s) := by
  unfold verifyBlock
  split_ifs with h
  · exact ⟨rfl, rfl, rfl, rfl, rfl, fun _ => rfl, le_rfl, le_rfl⟩
  · refine ⟨rfl, rfl, rfl, rfl, rfl, fun _ => rfl, ?_, le_rfl⟩
    have hne : s.ctx.crcErrors.toNat ≠ 0xFFFFFFFF := by
      intro hc
      exact h (.inr (BitVec.eq_of_toNat_eq (by simpa using hc)))
    have := s.ctx.crcErrors.isLt
    have h1 : (1 : Word).toNat = 1 := rfl
    simp only [State.setCtx_ctx, BitVec.toNat_add, h1]
    omega

theorem beginBlock_keeps (P : Params) (s : State) : UnpackKeeps s (beginBlock P s).2 := by
  obtain ⟨u, hu, -, ⟨c, -, hb⟩ | ⟨cfg, bitlen, hb, -⟩⟩ := beginBlock_cases P s
  · rw [hb]
    exact (setBlk_keeps s _).trans hu.keeps
  · rw [hb]
    exact ((setBlk_keeps s _).trans hu.keeps).trans (commitBlock_keeps P cfg bitlen u)

theorem takeHeader_keeps (P : Params) (s : State) : UnpackKeeps s (takeHeader P s) := by
  unfold takeHeader
  split_ifs
  · exact endStream_keeps _ s
  · exact setBlk_keeps s _
  · exact endStream_keeps _ s
  · simp only
    split_ifs
    · exact beginBlock_keeps P s
    · exact (beginBlock_keeps P s).trans (endStream_keeps _ _)

theorem leaveBlock_keeps (s : State) : UnpackKeeps s (leaveBlock s) := setBlk_keeps s _

theorem fetchStep_keeps (P : Params) (s : State) : UnpackKeeps s (fetchStep P s) := by
  have hd := (drain_onlySource s.blk.bytesLeft.toNat s).keeps
  simp only [fetchStep]
  split_ifs
  · exact hd.trans (endStream_keeps _ _)
  · exact ((hd.trans (leaveBlock_keeps _)).trans (locate_onlyLocator P _).keeps).trans
      (endStream_keeps _ _)
  · exact (((hd.trans (leaveBlock_keeps _)).trans (locate_onlyLocator P _).keeps).trans
      (latchTotal_keeps _)).trans (takeHeader_keeps P _)

/-- Advancing the cursor, where it does not wrap. -/
theorem advance_cursor (n : Nat) (s : State) (h : s.ctx.cursor.toNat + n < 2 ^ 64) :
    (advance n s).ctx.cursor.toNat = s.ctx.cursor.toNat + n := by
  simp only [advance, State.setCtx_ctx, BitVec.toNat_add, BitVec.toNat_ofNat]
  omega

theorem advance_keeps (n : Nat) (s : State) (h : s.ctx.cursor.toNat + n < 2 ^ 64) :
    UnpackKeeps s (advance n s) :=
  ⟨rfl, rfl, rfl, rfl, rfl, fun _ => rfl, le_rfl, by rw [advance_cursor n s h]; omega⟩

theorem Blk.fin_lt (b : Blk) : b.fin ≤ 2 ^ 32 + 2 ^ 32 - 2 := by
  unfold Blk.fin
  have h1 := b.blockIndex.isLt
  have h2 := b.blockSamples.isLt
  omega

theorem gapFrames_le (lim : Nat) (s : State) : gapFrames lim s ≤ 2 ^ 32 ∧
    s.ctx.cursor.toNat + gapFrames lim s ≤ max s.ctx.cursor.toNat s.blk.blockIndex.toNat := by
  unfold gapFrames
  have := s.blk.blockIndex.isLt
  omega

theorem OnlyOutput.cursor {s t : State} (h : OnlyOutput s t) : t.ctx = s.ctx ∧ t.blk = s.blk := by
  obtain ⟨m, l, rfl⟩ := h
  exact ⟨rfl, rfl⟩

theorem gapStep_cursor (lim produced : Nat) (s : State) :
    (gapStep lim produced s).ctx.cursor.toNat = s.ctx.cursor.toNat + gapFrames lim s := by
  have h := (writeSilence_onlyOutput (gapFrames lim s * s.ctx.frameWidth.toNat)
    (produced * s.ctx.frameWidth.toNat) s).cursor
  have hl := gapFrames_le lim s
  have hc := s.ctx.cursor.isLt
  have hb := s.blk.blockIndex.isLt
  simp only [gapStep]
  rw [advance_cursor, h.1]
  rw [h.1]
  omega

theorem gapStep_keeps (lim produced : Nat) (s : State) :
    UnpackKeeps s (gapStep lim produced s) := by
  have ho := writeSilence_onlyOutput (gapFrames lim s * s.ctx.frameWidth.toNat)
    (produced * s.ctx.frameWidth.toNat) s
  have hl := gapFrames_le lim s
  have hc := s.ctx.cursor.isLt
  have hb := s.blk.blockIndex.isLt
  refine ho.keeps.trans (advance_keeps _ _ ?_)
  rw [ho.cursor.1]
  omega

/-! ### One frame -/

theorem residual_reader (P : Params) (c : Chan) (s : State) :
    ∃ t, OnlyReader s t ∧ (residual P c s).2 = t.setEs (residual P c s).2.es := by
  refine ⟨(runBits P (P.entropyDecode s.es c) s).2, runBits_onlyReader P _ s, rfl⟩

/-- The residuals of a frame change the bit reader, the source, the record of transactions, the
payload count and ES only. -/
theorem residuals_reader (P : Params) (s : State) :
    ∃ t, OnlyReader s t ∧ (residuals P s).2 = t.setEs (residuals P s).2.es := by
  obtain ⟨t, ht, e⟩ := residual_reader P .a s
  simp only [residuals]
  split_ifs
  · exact ⟨t, ht, e⟩
  · obtain ⟨u, hu, e'⟩ := residual_reader P .b (residual P .a s).2
    rw [e] at hu
    obtain ⟨b, r, l, n, hn, rfl⟩ := ht
    obtain ⟨b', r', l', n', hn', rfl⟩ := hu
    exact ⟨_, ⟨b', r', l', n', fun hp => (hn' hp).trans (hn hp), rfl⟩, e'⟩

theorem residuals_keeps (P : Params) (s : State) : UnpackKeeps s (residuals P s).2 := by
  obtain ⟨t, ht, e⟩ := residuals_reader P s
  rw [e]
  exact ht.keeps.trans ⟨rfl, rfl, rfl, rfl, rfl, fun _ => rfl, le_rfl, le_rfl⟩

/-- The fields a frame's residuals leave alone. -/
theorem residuals_frame (P : Params) (s : State) :
    (residuals P s).2.seq = s.seq ∧ (residuals P s).2.win = s.win ∧
      (residuals P s).2.hdr = s.hdr ∧ (residuals P s).2.ctx = s.ctx ∧
      (residuals P s).2.pass = s.pass ∧ (residuals P s).2.fexp = s.fexp ∧
      (residuals P s).2.out = s.out ∧
      { (residuals P s).2.blk with bytesLeft := s.blk.bytesLeft } = s.blk := by
  obtain ⟨t, ht, e⟩ := residuals_reader P s
  rw [e]
  obtain ⟨b, r, l, n, -, rfl⟩ := ht
  exact ⟨rfl, rfl, rfl, rfl, rfl, rfl, rfl, rfl⟩

theorem residuals_fin (P : Params) (s : State) : (residuals P s).2.blk.fin = s.blk.fin := by
  have h := (residuals_frame P s).2.2.2.2.2.2.2
  unfold Blk.fin
  conv_rhs => rw [← h]

/-- What a finished frame leaves: the cursor one further, and the fields it does not touch. -/
theorem finishFrame_frame (P : Params) (produced : Nat) (x : Frame) (s : State) :
    (finishFrame P produced x s).seq = s.seq ∧ (finishFrame P produced x s).br = s.br ∧
      (finishFrame P produced x s).win = s.win ∧ (finishFrame P produced x s).hdr = s.hdr ∧
      (finishFrame P produced x s).es = s.es ∧ (finishFrame P produced x s).fexp = s.fexp ∧
      (finishFrame P produced x s).src = s.src ∧
      (finishFrame P produced x s).ctx =
        { s.ctx with cursor := s.ctx.cursor + BitVec.ofNat 64 1 } ∧
      (finishFrame P produced x s).pass = (passChain P s.pass x).2 ∧
      (finishFrame P produced x s).blk = { s.blk with
        crc := foldCrc P s.blk.crc (postChain P s.blk.flags (passChain P s.pass x).1) } := by
  simp only [finishFrame, advance]
  obtain ⟨m, l, e⟩ := writeSlots_onlyOutput P (produced * s.ctx.frameWidth.toNat)
    (postChain P s.blk.flags (passChain P s.pass x).1) s.ctx.frameWidth.toNat 0
    ((s.setPass (passChain P s.pass x).2).setBlk
      { s.blk with crc := foldCrc P s.blk.crc (postChain P s.blk.flags (passChain P s.pass x).1) })
  simp only [State.setBlk_ctx, State.setPass_ctx]
  rw [e]
  simp

theorem finishFrame_keeps (P : Params) (produced : Nat) (x : Frame) (s : State)
    (h : s.ctx.cursor.toNat + 1 < 2 ^ 64) : UnpackKeeps s (finishFrame P produced x s) := by
  simp only [finishFrame]
  have ho := writeSlots_onlyOutput P (produced * s.ctx.frameWidth.toNat)
    (postChain P s.blk.flags (passChain P s.pass x).1) s.ctx.frameWidth.toNat 0
    ((s.setPass (passChain P s.pass x).2).setBlk
      { s.blk with crc := foldCrc P s.blk.crc (postChain P s.blk.flags (passChain P s.pass x).1) })
  refine UnpackKeeps.trans (UnpackKeeps.trans ?_ ho.keeps) (advance_keeps _ _ ?_)
  · exact ⟨rfl, rfl, rfl, rfl, rfl, fun _ => rfl, le_rfl, le_rfl⟩
  · rw [ho.cursor.1]; exact h

/-- Every way a frame can end (R245, R250). -/
theorem decodeFrame_cases (P : Params) (produced : Nat) (s : State) :
    ((residuals P s).2.br.eod = true ∧ decodeFrame P produced s = (false, (residuals P s).2)) ∨
      ((residuals P s).2.br.eod = false ∧ decodeFrame P produced s =
        (true, finishFrame P produced (residuals P s).1 (residuals P s).2)) := by
  simp only [decodeFrame]
  split_ifs with h
  · exact .inl ⟨h, rfl⟩
  · exact .inr ⟨by simpa using h, rfl⟩

/-- Induction over the frames of a decode step: what holds of the count and the state before holds
after, if a finished frame and the end of the stream keep it. -/
theorem decodeFrames_induct {P : Params} {I : Nat → Nat → State → Prop}
    (frame : ∀ n k s, I (n + 1) k s → (residuals P s).2.br.eod = false →
      I n (k + 1) (finishFrame P k (residuals P s).1 (residuals P s).2))
    (eod : ∀ n k s, I (n + 1) k s → (residuals P s).2.br.eod = true →
      I 0 k (endStream .exhausted (residuals P s).2))
    (n k : Nat) (s : State) (h : I n k s) :
    I 0 (decodeFrames P n k s).1 (decodeFrames P n k s).2 := by
  induction n generalizing k s with
  | zero => exact h
  | succ n ih =>
    simp only [decodeFrames]
    rcases decodeFrame_cases P k s with ⟨he, hd⟩ | ⟨he, hd⟩
    · simp only [hd, Bool.false_eq_true, if_false]
      exact eod n k s h he
    · simp only [hd, if_true]
      exact ih _ _ (frame n k s h he)

/-- The frames of a decode step keep the frame of UNPACK, and the cursor moves with the count. -/
theorem decodeFrames_keeps (P : Params) (n k : Nat) (s : State)
    (h : s.ctx.cursor.toNat + n ≤ s.blk.fin) :
    UnpackKeeps s (decodeFrames P n k s).2 ∧ (decodeFrames P n k s).2.blk.fin = s.blk.fin ∧
      k ≤ (decodeFrames P n k s).1 ∧ (decodeFrames P n k s).1 ≤ k + n ∧
      (decodeFrames P n k s).2.ctx.cursor.toNat + k =
        s.ctx.cursor.toNat + (decodeFrames P n k s).1 ∧
      ((decodeFrames P n k s).2.seq.phase ≠ .ended → (decodeFrames P n k s).1 = k + n) := by
  have hmain := decodeFrames_induct (P := P) (I := fun m j u =>
      UnpackKeeps s u ∧ u.blk.fin = s.blk.fin ∧ k ≤ j ∧ j + m ≤ k + n ∧
        u.ctx.cursor.toNat + k = s.ctx.cursor.toNat + j ∧ (u.seq.phase ≠ .ended → j + m = k + n))
    ?_ ?_ n k s ⟨UnpackKeeps.refl s, rfl, le_rfl, le_rfl, rfl, fun _ => rfl⟩
  · obtain ⟨a, b, c, d, e, f⟩ := hmain
    exact ⟨a, b, c, by omega, e, fun hp => by have := f hp; omega⟩
  · rintro m j u ⟨hk, hfin, h1, h2, h3, h4⟩ -
    have hle := Blk.fin_lt s.blk
    have hctx := (residuals_frame P u).2.2.2.1
    have hseq := (residuals_frame P u).1
    obtain ⟨g1, -, -, -, -, -, -, g2, -, g3⟩ :=
      finishFrame_frame P j (residuals P u).1 (residuals P u).2
    have hcur : (finishFrame P j (residuals P u).1 (residuals P u).2).ctx.cursor.toNat =
        u.ctx.cursor.toNat + 1 := by
      rw [g2, hctx]
      simp only [BitVec.toNat_add, BitVec.toNat_ofNat]
      omega
    refine ⟨(hk.trans (residuals_keeps P u)).trans (finishFrame_keeps P j _ _ ?_), ?_, by omega,
      by omega, by omega, ?_⟩
    · rw [hctx]; omega
    · rw [g3, ← hfin, ← residuals_fin P u]; rfl
    · rw [g1, hseq]
      intro hp
      have := h4 hp
      omega
  · rintro m j u ⟨hk, hfin, h1, h2, h3, h4⟩ -
    refine ⟨(hk.trans (residuals_keeps P u)).trans (endStream_keeps _ _), ?_, by omega, by omega,
      ?_, fun hp => absurd rfl hp⟩
    · rw [← hfin, ← residuals_fin P u]; rfl
    · have hctx := (residuals_frame P u).2.2.2.1
      show (residuals P u).2.ctx.cursor.toNat + k = _
      rw [hctx]
      exact h3

theorem verifyBlock_frame (s : State) : (verifyBlock s).seq = s.seq ∧
    (verifyBlock s).blk = s.blk ∧ (verifyBlock s).ctx.cursor = s.ctx.cursor ∧
    (verifyBlock s).src = s.src ∧ (verifyBlock s).win = s.win := by
  unfold verifyBlock
  split_ifs <;> exact ⟨rfl, rfl, rfl, rfl, rfl⟩

/-- What a decode step does to the count, the cursor and the frame of UNPACK (R244). -/
theorem decodeStep_keeps (P : Params) (lim produced : Nat) (s : State)
    (hc : s.ctx.cursor.toNat ≤ s.blk.fin) :
    UnpackKeeps s (decodeStep P lim produced s).2 ∧
      produced ≤ (decodeStep P lim produced s).1 ∧
      (decodeStep P lim produced s).1 ≤ produced + lim ∧
      (decodeStep P lim produced s).2.ctx.cursor.toNat + produced =
        s.ctx.cursor.toNat + (decodeStep P lim produced s).1 ∧
      ((decodeStep P lim produced s).2.seq.phase ≠ .ended →
        (decodeStep P lim produced s).1 =
          produced + min (s.blk.fin - s.ctx.cursor.toNat) lim) := by
  have hb : s.ctx.cursor.toNat + min (s.blk.fin - s.ctx.cursor.toNat) lim ≤ s.blk.fin := by omega
  obtain ⟨h1, -, h3, h4, h5, h6⟩ := decodeFrames_keeps P _ produced s hb
  simp only [decodeStep]
  split_ifs with hv
  · obtain ⟨v1, -, v3, -, -⟩ := verifyBlock_frame
      (decodeFrames P (min (s.blk.fin - s.ctx.cursor.toNat) lim) produced s).2
    refine ⟨h1.trans (verifyBlock_keeps _), h3, by dsimp only; omega, ?_, fun _ => h6 hv.1⟩
    dsimp only
    rw [v3]
    exact h5
  · exact ⟨h1, h3, by omega, h5, h6⟩

/-! ### The loop -/

theorem frameLimit_le (remaining : Nat) (s : State) : frameLimit remaining s ≤ remaining := by
  unfold frameLimit
  split_ifs <;> omega

theorem frameLimit_pos {remaining : Nat} {s : State} (h : 0 < remaining)
    (ht : totalReached s = false) : 0 < frameLimit remaining s := by
  unfold frameLimit
  split_ifs with hu
  · exact h
  · simp only [totalReached, ne_eq, hu, not_false_eq_true, decide_true, Bool.true_and,
      decide_eq_false_iff_not, not_le] at ht
    omega

/-- One round keeps the frame of UNPACK and the count within the frames asked for. -/
theorem unpackRound_keeps (P : Params) (remaining produced : Nat) (s : State) :
    UnpackKeeps s (unpackRound P remaining produced s).2 ∧
      produced ≤ (unpackRound P remaining produced s).1 ∧
      (unpackRound P remaining produced s).1 ≤ produced + remaining := by
  have hl := frameLimit_le remaining s
  simp only [unpackRound]
  split_ifs with h1 h2
  · exact ⟨fetchStep_keeps P s, le_rfl, by dsimp only; omega⟩
  · refine ⟨gapStep_keeps _ _ s, by dsimp only; omega, ?_⟩
    have : gapFrames (frameLimit remaining s) s ≤ frameLimit remaining s := by
      unfold gapFrames; omega
    dsimp only
    omega
  · obtain ⟨a, b, c, -⟩ := decodeStep_keeps P (frameLimit remaining s) produced s (by omega)
    exact ⟨a, b, by omega⟩

/-- Induction over the rounds of UNPACK: if every round from a state that has not ended keeps `I`, and the
loop answers a state, then that state is the response to a count and a state that meet `I` and stop the
loop. -/
theorem unpackLoop_induct {P : Params} {max : Nat} {I : Nat → State → Prop}
    (round : ∀ k s, I k s → s.seq.phase ≠ .ended → k ≠ max → totalReached s = false →
      I (unpackRound P (max - k) k s).1 (unpackRound P (max - k) k s).2)
    (fuel k : Nat) (s t : State) (h : I k s) (he : s.seq.phase ≠ .ended)
    (hr : unpackLoop P max fuel k s = .next t) :
    ∃ k' u, I k' u ∧ t = unpackDone k' u ∧
      (k' = max ∨ totalReached u = true ∨ u.seq.phase = .ended) := by
  induction fuel generalizing k s with
  | zero => simp [unpackLoop] at hr
  | succ fuel ih =>
    simp only [unpackLoop] at hr
    have ht : ¬ (k = max ∨ totalReached s = true) → k ≠ max ∧ totalReached s = false :=
      fun h1 => ⟨fun hk => h1 (.inl hk), by
        by_contra hc
        exact h1 (.inr (by simpa using hc))⟩
    split_ifs at hr with h1 h2
    · obtain rfl := Host.Outcome.next.inj hr
      exact ⟨k, s, h, rfl, h1.elim .inl fun h => .inr (.inl h)⟩
    · obtain rfl := Host.Outcome.next.inj hr
      exact ⟨_, _, round k s h he (ht h1).1 (ht h1).2, rfl, .inr (.inr h2)⟩
    · exact ih _ _ (round k s h he (ht h1).1 (ht h1).2) h2 hr

theorem ahead_setBlk (s : State) (b : Blk) : (s.setBlk b).ahead = s.ahead := rfl

theorem commitBlock_ahead (P : Params) (cfg : MetaCfg) (bitlen : Word) (s : State) :
    (commitBlock P cfg bitlen s).ahead = s.ahead := rfl

theorem beginBlock_ahead (P : Params) (s : State) :
    (beginBlock P s).2.ahead.length ≤ s.ahead.length := by
  obtain ⟨u, hu, hs, hc⟩ := beginBlock_cases P s
  have hw : u.win = s.win := by
    obtain ⟨r, l, n, e⟩ := hu
    rw [e]
    rfl
  have hua : u.ahead.length ≤ s.ahead.length := by
    rw [State.ahead, State.ahead, hw, List.length_append, List.length_append]
    exact Nat.add_le_add_left hs _
  obtain ⟨c, -, hb⟩ | ⟨cfg, bitlen, hb, -⟩ := hc
  · rw [hb]; exact hua
  · rw [hb]; exact hua

theorem takeHeader_ahead (P : Params) (s : State) :
    (takeHeader P s).ahead.length ≤ s.ahead.length := by
  unfold takeHeader
  split_ifs
  · exact le_rfl
  · exact le_rfl
  · exact le_rfl
  · simp only
    split_ifs
    · exact beginBlock_ahead P s
    · exact beginBlock_ahead P s

theorem drain_ahead' (n : Nat) (s : State) : (drain n s).2.ahead.length ≤ s.ahead.length :=
  drain_ahead n s

/-- A fetch that does not end the stream has taken the 32 bytes of a header (R352). -/
theorem fetchStep_ahead (P : Params) (s : State) (h : (fetchStep P s).seq.phase ≠ .ended) :
    (fetchStep P s).ahead.length + hdrBytes ≤ s.ahead.length := by
  revert h
  have hd := drain_ahead s.blk.bytesLeft.toNat s
  simp only [fetchStep]
  split_ifs with h1 h2
  · exact fun h => absurd rfl h
  · exact fun h => absurd rfl h
  · intro _
    have hl := ((locate_ahead P (leaveBlock (drain s.blk.bytesLeft.toNat s).2)).2
      (by simpa using h2)).2
    have ht := takeHeader_ahead P
      (latchTotal (locate P (leaveBlock (drain s.blk.bytesLeft.toNat s).2)).state)
    rw [latchTotal_ahead] at ht
    exact (Nat.add_le_add_right ht _).trans (hl.trans hd)

theorem OnlyOutput.ahead {s t : State} (h : OnlyOutput s t) : t.ahead = s.ahead := by
  obtain ⟨m, l, rfl⟩ := h
  rfl

/-! ### The bytes ahead never grow -/

theorem brRefill_stream (P : Params) (s : State) :
    (brRefill P s).2.src.stream.length ≤ s.src.stream.length := by
  have hr : ∀ L, (srcRead L s).2.src.stream.length ≤ s.src.stream.length := by
    intro L
    rw [srcRead_snd]
    simp
  simp only [brRefill]
  split_ifs
  · exact hr _
  · rw [deductPayload_src]; exact hr _
  · exact le_rfl

theorem brFetchByte_stream (P : Params) (s : State) :
    (brFetchByte P s).2.src.stream.length ≤ s.src.stream.length := by
  simp only [brFetchByte, brNextByte]
  split_ifs
  · exact brRefill_stream P s
  · exact brRefill_stream P s
  · exact le_rfl

theorem brFill_stream (P : Params) (fuel n : Nat) (s : State) :
    (brFill P fuel n s).src.stream.length ≤ s.src.stream.length := by
  induction fuel generalizing s with
  | zero => exact le_rfl
  | succ fuel ih =>
    simp only [brFill]
    split_ifs
    · exact (ih _).trans (brFetchByte_stream P s)
    · exact le_rfl

theorem runBits_stream {α : Type} (P : Params) (p : BitProg α) (s : State) :
    (runBits P p s).2.src.stream.length ≤ s.src.stream.length := by
  induction p generalizing s with
  | ret a => exact le_rfl
  | read n k ih => exact (ih _ _).trans (brFill_stream P n.val n.val s)

theorem residuals_stream (P : Params) (s : State) :
    (residuals P s).2.src.stream.length ≤ s.src.stream.length := by
  simp only [residuals]
  split_ifs
  · exact runBits_stream P _ s
  · exact (runBits_stream P _ _).trans (runBits_stream P _ s)

theorem residuals_ahead (P : Params) (s : State) :
    (residuals P s).2.ahead.length ≤ s.ahead.length := by
  rw [State.ahead, State.ahead, (residuals_frame P s).2.1, List.length_append, List.length_append]
  exact Nat.add_le_add_left (residuals_stream P s) _

theorem decodeFrames_ahead (P : Params) (n k : Nat) (s : State) :
    (decodeFrames P n k s).2.ahead.length ≤ s.ahead.length := by
  refine decodeFrames_induct (P := P) (I := fun _ _ u => u.ahead.length ≤ s.ahead.length)
    ?_ ?_ n k s le_rfl
  · intro m j u h _
    obtain ⟨-, -, g1, -, -, -, g2, -⟩ := finishFrame_frame P j (residuals P u).1 (residuals P u).2
    rw [State.ahead, g1, g2]
    exact (residuals_ahead P u).trans h
  · intro m j u h _
    exact (residuals_ahead P u).trans h

theorem decodeStep_ahead (P : Params) (lim produced : Nat) (s : State) :
    (decodeStep P lim produced s).2.ahead.length ≤ s.ahead.length := by
  simp only [decodeStep]
  split_ifs
  · obtain ⟨-, -, -, v4, v5⟩ := verifyBlock_frame
      (decodeFrames P (min (s.blk.fin - s.ctx.cursor.toNat) lim) produced s).2
    dsimp only
    rw [State.ahead, v4, v5]
    exact decodeFrames_ahead P _ _ s
  · exact decodeFrames_ahead P _ _ s

theorem gapStep_ahead (lim produced : Nat) (s : State) : (gapStep lim produced s).ahead = s.ahead :=
  (writeSilence_onlyOutput (gapFrames lim s * s.ctx.frameWidth.toNat)
    (produced * s.ctx.frameWidth.toNat) s).ahead

/-! ### The loop ends (R352) -/

/-- A round that does not end the stream produces a frame or takes the bytes of a header. -/
theorem unpackRound_progress (P : Params) (remaining produced : Nat) (s : State) (hr : 0 < remaining)
    (ht : totalReached s = false)
    (he : (unpackRound P remaining produced s).2.seq.phase ≠ .ended) :
    (unpackRound P remaining produced s).2.ahead.length ≤ s.ahead.length ∧
      (produced < (unpackRound P remaining produced s).1 ∨
        (unpackRound P remaining produced s).2.ahead.length < s.ahead.length) := by
  have hpos := frameLimit_pos hr ht
  revert he
  simp only [unpackRound]
  split_ifs with h1 h2 <;> intro he
  · have := fetchStep_ahead P s he
    have h0 : hdrBytes = 32 := rfl
    dsimp only
    exact ⟨by omega, .inr (by omega)⟩
  · dsimp only
    rw [gapStep_ahead]
    refine ⟨le_rfl, .inl ?_⟩
    unfold gapFrames
    omega
  · have hc : s.ctx.cursor.toNat ≤ s.blk.fin := by omega
    obtain ⟨-, -, -, -, h5⟩ := decodeStep_keeps P (frameLimit remaining s) produced s hc
    refine ⟨decodeStep_ahead P _ _ s, .inl ?_⟩
    rw [h5 he]
    omega

/-- With the bound of `execUnpack` the loop always answers a state (R352). -/
theorem unpackLoop_next (P : Params) (max fuel k : Nat) (s : State) (hk : k ≤ max)
    (hf : (max - k) + s.ahead.length < fuel) : ∃ t, unpackLoop P max fuel k s = .next t := by
  induction fuel generalizing k s with
  | zero => omega
  | succ fuel ih =>
    simp only [unpackLoop]
    split_ifs with h1 h2
    · exact ⟨_, rfl⟩
    · exact ⟨_, rfl⟩
    · have hne : k ≠ max := fun h => h1 (.inl h)
      have htr : totalReached s = false := by
        by_contra hc
        exact h1 (.inr (by simpa using hc))
      obtain ⟨hp1, hp2⟩ := unpackRound_progress P (max - k) k s (by omega) htr h2
      obtain ⟨-, hk1, hk2⟩ := unpackRound_keeps P (max - k) k s
      exact ih _ _ (by omega) (by omega)

end Sys2Proof.Machine
end

