-- ==== Sys2Proof/Laws/Sequencer.lean ====
section
/-! SUPPORT. The sequencer of UNPACK: its phase, its cursor, and the induction that carries a property of
states through a whole command. -/

namespace Sys2Proof.Machine

/-- The one change a step of UNPACK may make to SEQ: the terminal transition, with a cause (R303). -/
def SeqEnds (s t : State) : Prop :=
  t.seq = s.seq ∨ ∃ c, c ≠ Cause.none ∧ t.seq = { s.seq with phase := .ended, cause := c }

theorem SeqEnds.of_not_ended {s t : State} (h : SeqEnds s t) (hp : t.seq.phase ≠ .ended) :
    t.seq = s.seq := by
  rcases h with h | ⟨c, -, h⟩
  · exact h
  · rw [h] at hp; exact absurd rfl hp

theorem beginBlock_seq (P : Params) (s : State) :
    (beginBlock P s).2.seq = s.seq ∧ (beginBlock P s).2.ctx = s.ctx ∧
      (beginBlock P s).2.hdr = s.hdr := by
  obtain ⟨u, hu, -, hc⟩ := beginBlock_cases P s
  have hw : u.seq = s.seq ∧ u.ctx = s.ctx ∧ u.hdr = s.hdr := by
    obtain ⟨r, l, n, e⟩ := hu
    rw [e]; exact ⟨rfl, rfl, rfl⟩
  obtain ⟨c, -, hb⟩ | ⟨cfg, bitlen, hb, -⟩ := hc <;> rw [hb] <;> exact hw

theorem takeHeader_seq (P : Params) (s : State) :
    SeqEnds s (takeHeader P s) ∧ (takeHeader P s).ctx = s.ctx := by
  unfold takeHeader
  split_ifs
  · exact ⟨.inr ⟨.format, by simp, rfl⟩, rfl⟩
  · exact ⟨.inl rfl, rfl⟩
  · exact ⟨.inr ⟨.format, by simp, rfl⟩, rfl⟩
  · simp only
    have h := beginBlock_seq P s
    split_ifs with hc
    · exact ⟨.inl h.1, h.2.1⟩
    · refine ⟨.inr ⟨_, hc, ?_⟩, h.2.1⟩
      rw [endStream_eq]; simp [h.1]

theorem latchTotal_seq (s : State) :
    (latchTotal s).seq = s.seq ∧ (latchTotal s).ctx.cursor = s.ctx.cursor := by
  rcases latchTotal_cases s with h | ⟨-, -, h⟩ <;> rw [h] <;> exact ⟨rfl, rfl⟩

/-- A fetch ends the stream or keeps SEQ, and never moves the cursor (R242). -/
theorem fetchStep_seq (P : Params) (s : State) :
    SeqEnds s (fetchStep P s) ∧ (fetchStep P s).ctx.cursor = s.ctx.cursor := by
  simp only [fetchStep]
  set d := drain s.blk.bytesLeft.toNat s with hd
  have h1 : d.2.seq = s.seq ∧ d.2.ctx = s.ctx := by
    obtain ⟨r, l, e⟩ := drain_onlySource s.blk.bytesLeft.toNat s
    rw [hd, e]; exact ⟨rfl, rfl⟩
  have h2 := (locate_onlyLocator P (leaveBlock d.2)).frame
  split_ifs with c1 c2
  · refine ⟨.inr ⟨.exhausted, by simp, ?_⟩, ?_⟩
    · rw [endStream_eq]; simp [h1.1]
    · rw [endStream_eq]; simp [h1.2]
  · refine ⟨.inr ⟨_, c2, ?_⟩, ?_⟩
    · have e := h2.1.trans h1.1
      rw [endStream_eq, State.setBlk_seq, State.setSeq_seq, e]
    · have e := h2.2.2.1.trans h1.2
      rw [endStream_eq, State.setBlk_ctx, State.setSeq_ctx, e]
  · have h3 := latchTotal_seq (locate P (leaveBlock d.2)).state
    have h4 := takeHeader_seq P (latchTotal (locate P (leaveBlock d.2)).state)
    have e1 : (latchTotal (locate P (leaveBlock d.2)).state).seq = s.seq := by
      rw [h3.1, h2.1]; exact h1.1
    have e2 : (latchTotal (locate P (leaveBlock d.2)).state).ctx.cursor = s.ctx.cursor := by
      rw [h3.2, h2.2.2.1]; exact congrArg _ h1.2
    refine ⟨?_, ?_⟩
    · unfold SeqEnds at h4 ⊢
      rw [← e1]; exact h4.1
    · rw [h4.2]; exact e2

theorem decodeFrames_seq (P : Params) (n k : Nat) (s : State) :
    SeqEnds s (decodeFrames P n k s).2 := by
  refine decodeFrames_induct (P := P) (I := fun _ _ u => SeqEnds s u) ?_ ?_ n k s (.inl rfl)
  · intro m j u h _
    have g1 := (finishFrame_frame P j (residuals P u).1 (residuals P u).2).1
    have g2 := (residuals_frame P u).1
    unfold SeqEnds at *; rw [g1, g2]; exact h
  · intro m j u h _
    have g2 := (residuals_frame P u).1
    refine .inr ⟨.exhausted, by simp, ?_⟩
    rw [endStream_eq]
    simp only [State.setBlk_seq, State.setSeq_seq, g2]
    rcases h with h | ⟨c, hc, h⟩ <;> rw [h]

/-- One round of UNPACK ends the stream or keeps SEQ (R241). -/
theorem unpackRound_seq (P : Params) (remaining k : Nat) (s : State) :
    SeqEnds s (unpackRound P remaining k s).2 := by
  simp only [unpackRound]
  split_ifs
  · exact (fetchStep_seq P s).1
  · obtain ⟨m, l, e⟩ := writeSilence_onlyOutput
      (gapFrames (frameLimit remaining s) s * s.ctx.frameWidth.toNat) (k * s.ctx.frameWidth.toNat) s
    left
    simp only [gapStep, advance, State.setCtx_seq, e]; rfl
  · simp only [decodeStep]
    split_ifs
    · have hv := (verifyBlock_frame (decodeFrames P
        (min (s.blk.fin - s.ctx.cursor.toNat) (frameLimit remaining s)) k s).2).1
      have h := decodeFrames_seq P
        (min (s.blk.fin - s.ctx.cursor.toNat) (frameLimit remaining s)) k s
      unfold SeqEnds at *; rw [hv]; exact h
    · exact decodeFrames_seq P _ k s

/-- The cursor moves by the frames a round produces (R241). -/
theorem unpackRound_cursor (P : Params) (remaining k : Nat) (s : State) :
    (unpackRound P remaining k s).2.ctx.cursor.toNat + k =
      s.ctx.cursor.toNat + (unpackRound P remaining k s).1 := by
  simp only [unpackRound]
  split_ifs with h1 h2
  · dsimp only; rw [(fetchStep_seq P s).2]
  · dsimp only; rw [gapStep_cursor]; omega
  · exact (decodeStep_keeps P _ k s (by omega)).2.2.2.1

/-! ### The whole command -/

theorem execUnpack_ready {s : State} (max : Word) (hp : s.seq.phase = .ready) :
    execUnpack max s =
      unpackLoop s.params max.toNat (unpackBound max.toNat s) 0 s := by
  simp only [execUnpack, onlyWithContext, hp]
  simp [framesOperand]

/-- Outside READY an UNPACK only responds (R98 step 5, R241). -/
theorem execUnpack_not_ready {s : State} (max : Word) (hp : s.seq.phase ≠ .ready) :
    execUnpack max s = .next (s.setResp (some
      ⟨if s.seq.phase = .ended then .endOfStream else .illegalState, 0⟩)) := by
  unfold execUnpack onlyWithContext
  rcases h : s.seq.phase with _ | _ | _ | _
  · simp [illegalState]
  · exact absurd h hp
  · simp [unpackDone, h]
  · simp [illegalState]

/-- A property of states that every round keeps from the READY states of the command, and that a response
does not touch, holds after an UNPACK. -/
theorem execUnpack_induct {J : State → Prop} (hresp : ∀ s r, J s → J (State.setResp s r))
    (round : ∀ P remaining k s, P = s.params → J s → s.seq.phase = .ready →
      J (unpackRound P remaining k s).2)
    (max : Word) (s t : State) (hj : J s) (h : execUnpack max s = .next t) : J t := by
  by_cases hr : s.seq.phase = .ready
  · rw [execUnpack_ready max hr] at h
    obtain ⟨k, u, ⟨h1, -⟩, h2, -⟩ := unpackLoop_induct (P := s.params) (max := max.toNat)
      (I := fun k u => J u ∧ SeqEnds s u ∧ u.params = s.params) (by
        rintro k u ⟨a, b, c⟩ he - -
        have hb := b.of_not_ended he
        have hk := unpackRound_keeps s.params (max.toNat - k) k u
        have hs := unpackRound_seq s.params (max.toNat - k) k u
        refine ⟨round _ _ _ _ c.symm a (by rw [hb]; exact hr), ?_, hk.1.params.trans c⟩
        unfold SeqEnds at *
        rw [hb] at hs
        exact hs) _ 0 s t ⟨hj, .inl rfl, rfl⟩ (by rw [hr]; simp) h
    rw [h2]
    exact hresp _ _ h1
  · rw [execUnpack_not_ready max hr] at h
    obtain rfl := Host.Outcome.next.inj h
    exact hresp _ _ hj

/-- An UNPACK whose first round produces every frame asked for and does not end the stream. -/
theorem execUnpack_one_round {s : State} {max : Word} (hp : s.seq.phase = .ready)
    (h0 : 0 < max.toNat) (ht : totalReached s = false)
    (hr : (unpackRound s.params max.toNat 0 s).1 = max.toNat)
    (hs : (unpackRound s.params max.toNat 0 s).2.seq.phase ≠ .ended) :
    execUnpack max s =
      .next (unpackDone max.toNat (unpackRound s.params max.toNat 0 s).2) := by
  rw [execUnpack_ready max hp]
  obtain ⟨f, hf⟩ : ∃ f, unpackBound max.toNat s = f + 2 :=
    ⟨unpackBound max.toNat s - 2, by unfold unpackBound; omega⟩
  rw [hf]
  simp only [unpackLoop]
  rw [if_neg (by rw [ht]; simp; omega)]
  simp only [Nat.sub_zero]
  rw [if_neg hs, if_pos (.inl hr), hr]

end Sys2Proof.Machine
end

