-- ==== Sys2Proof/Laws/Transactions.lean ====
section
/-! SUPPORT. The port transactions of every operation: what the record gains, what the stream loses, and
what the output buffer then holds. -/

namespace Sys2Proof.Machine

theorem bytesTaken_append (l m : List PortEvent) :
    bytesTaken (l ++ m) = bytesTaken l + bytesTaken m := by
  induction l with
  | nil => simp [bytesTaken]
  | cons e l ih => cases e <;> simp [bytesTaken, ih, Nat.add_assoc]

theorem writtenIndexes_append (l m : List PortEvent) :
    writtenIndexes (l ++ m) = writtenIndexes m ++ writtenIndexes l := by
  induction l with
  | nil => simp [writtenIndexes]
  | cons e l ih => cases e <;> simp [writtenIndexes, ih]

theorem lastWritten_append (l m : List PortEvent) (j : Nat) :
    lastWritten (l ++ m) j = (lastWritten l j).or (lastWritten m j) := by
  induction l with
  | nil => simp [lastWritten]
  | cons e l ih =>
    cases e with
    | srcRead => simp [lastWritten, ih]
    | outWrite | outWriteFar =>
      simp only [List.cons_append, lastWritten]
      split_ifs <;> simp [ih]

/-- An index of a record holds a sample exactly when the record wrote it. -/
theorem lastWritten_isSome (l : List PortEvent) (j : Nat) :
    (lastWritten l j).isSome = true ↔ j ∈ writtenIndexes l := by
  induction l with
  | nil => simp [lastWritten, writtenIndexes]
  | cons e l ih =>
    cases e with
    | srcRead => simpa [lastWritten, writtenIndexes] using ih
    | outWrite | outWriteFar =>
      simp only [lastWritten, writtenIndexes, List.mem_append, List.mem_singleton]
      split_ifs with h
      · simp [h]
      · rw [ih]
        exact ⟨.inl, fun h' => h'.resolve_right fun e => h e.symm⟩

/-- The transactions between two states, which write the output indexes `ws` in that order. -/
def Transacts (ws : List Nat) (s t : State) : Prop :=
  ∃ l, t.log = l ++ s.log ∧ (∀ e ∈ l, portEventOk e) ∧
    t.src.stream = s.src.stream.drop (bytesTaken l) ∧ t.src.taken = s.src.taken + bytesTaken l ∧
    (∀ j, t.out.read j = (lastWritten l j).or (s.out.read j)) ∧ writtenIndexes l = ws ∧
    (ws = [] → t.out = s.out)

/-- States that agree on the record, the source and the output buffer have no transaction between. -/
theorem Transacts.same {s t : State} (h1 : t.log = s.log) (h2 : t.src = s.src) (h3 : t.out = s.out) :
    Transacts [] s t :=
  ⟨[], by simp [h1], by simp, by simp [h2, bytesTaken], by simp [h2, bytesTaken],
    fun j => by simp [h3, lastWritten], rfl, fun _ => h3⟩

theorem Transacts.refl (s : State) : Transacts [] s s := .same rfl rfl rfl

theorem Transacts.trans {ws vs : List Nat} {s t u : State} (h : Transacts ws s t)
    (h' : Transacts vs t u) : Transacts (ws ++ vs) s u := by
  obtain ⟨l, a1, a2, a3, a4, a5, a6, a7⟩ := h
  obtain ⟨m, b1, b2, b3, b4, b5, b6, b7⟩ := h'
  refine ⟨m ++ l, by rw [b1, a1, List.append_assoc], ?_, ?_, ?_, ?_, ?_, ?_⟩
  · intro e he
    rcases List.mem_append.1 he with h | h
    · exact b2 e h
    · exact a2 e h
  · rw [b3, a3, List.drop_drop, bytesTaken_append, Nat.add_comm]
  · rw [b4, a4, bytesTaken_append]; omega
  · intro j
    rw [b5, a5, lastWritten_append, Option.or_assoc]
  · rw [writtenIndexes_append, a6, b6]
  · intro hn
    obtain ⟨h1, h2⟩ := List.append_eq_nil_iff.1 hn
    exact (b7 h2).trans (a7 h1)

theorem leaveBlock_transacts (s : State) : Transacts [] s (leaveBlock s) := .same rfl rfl rfl

theorem endStream_transacts (c : Cause) (s : State) : Transacts [] s (endStream c s) :=
  .same rfl rfl rfl

/-- Two stretches that write nothing. -/
theorem Transacts.trans' {s t u : State} (h : Transacts [] s t) (h' : Transacts [] t u) :
    Transacts [] s u := h.trans h'

/-- A stretch that writes nothing before one that may. -/
theorem Transacts.after {vs : List Nat} {s t u : State} (h : Transacts [] s t)
    (h' : Transacts vs t u) : Transacts vs s u := h.trans h'

/-- A stretch that writes nothing after one that may. -/
theorem Transacts.before {ws : List Nat} {s t u : State} (h : Transacts ws s t)
    (h' : Transacts [] t u) : Transacts ws s u := by
  have := h.trans h'
  rwa [List.append_nil] at this

theorem srcRead_transacts (L : Nat) (s : State) (h1 : 1 ≤ L) (h2 : L ≤ 2 ^ 32 - 1) :
    Transacts [] s (srcRead L s).2 := by
  rw [srcRead_snd]
  refine ⟨[.srcRead (BitVec.ofNat 32 L) (BitVec.ofNat 32 (s.src.answer L).length)], rfl, ?_, ?_, ?_,
    fun j => rfl, rfl, fun _ => rfl⟩
  · intro e he
    rw [List.mem_singleton] at he
    subst he
    have hc := countBytes_answer s.src L
    have hl := Source.answer_length_le s.src L
    have hL : (BitVec.ofNat 32 L).toNat = L := by rw [BitVec.toNat_ofNat]; omega
    unfold countBytes at hc
    rw [portEventOk, hL]
    exact ⟨h1, by omega⟩
  · simp [bytesTaken, countBytes_answer]
  · simp [bytesTaken, countBytes_answer]

/-- The transaction of a written sample is one the port allows, takes no byte and writes that sample at
its own number. -/
theorem sampleEvent_says (n : Nat) (v : S32) :
    portEventOk (sampleEvent n v) ∧ bytesTaken [sampleEvent n v] = 0 ∧
      writtenIndexes [sampleEvent n v] = [n] ∧
      ∀ j, lastWritten [sampleEvent n v] j = if j = n then some v else none := by
  unfold sampleEvent
  split_ifs with h
  · simp only [portEventOk, bytesTaken, writtenIndexes, lastWritten, BitVec.toNat_ofNat,
      Nat.mod_eq_of_lt h, List.nil_append, true_and, eq_comm, implies_true]
  · simp only [portEventOk, bytesTaken, writtenIndexes, lastWritten, List.nil_append, true_and,
      eq_comm, implies_true, and_true]
    omega

theorem writeSample_transacts (n : Nat) (v : S32) (s : State) :
    Transacts [n] s (writeSample n v s) := by
  obtain ⟨h1, h2, h3, h4⟩ := sampleEvent_says n v
  refine ⟨[sampleEvent n v], by rw [writeSample_eq]; rfl, by simpa using h1, ?_, ?_, fun j => ?_, h3,
    by simp⟩
  · rw [h2, writeSample_eq]; rfl
  · rw [h2, writeSample_eq]; rfl
  · rw [writeSample_read, h4]
    split_ifs <;> simp

theorem srcTake_transacts (fuel n : Nat) (s : State) (h : n ≤ 2 ^ 32 - 1) :
    Transacts [] s (srcTake fuel n s).2 := by
  induction fuel generalizing n s with
  | zero => exact .refl s
  | succ fuel ih =>
    simp only [srcTake]
    split_ifs
    · exact .refl s
    · exact srcRead_transacts n s (by omega) h
    · exact (srcRead_transacts n s (by omega) h).trans' (ih _ _ (by omega))

theorem drain_transacts (n : Nat) (s : State) (h : n ≤ 2 ^ 32 - 1) :
    Transacts [] s (drain n s).2 := srcTake_transacts n n s h

theorem fillWindow_transacts (s : State) : Transacts [] s (fillWindow s) :=
  (srcTake_transacts _ _ s (by have : hdrBytes = 32 := rfl; omega)).trans' (.same rfl rfl rfl)

theorem locate_transacts (P : Params) (s : State) : Transacts [] s (locate P s).state :=
  locateLoop_induct (M := fun s r => Transacts [] s r.state)
    (fun s _ _ _ _ => (fillWindow_transacts s).trans' (.same rfl rfl rfl))
    (fun s _ _ _ => (fillWindow_transacts s).trans' (.same rfl rfl rfl))
    (fun s _ _ => (fillWindow_transacts s).trans' (.same rfl rfl rfl))
    (fun s _ _ h => ((fillWindow_transacts s).trans' (.same rfl rfl rfl)).trans' h)
    _ _ s

theorem latchTotal_transacts (s : State) : Transacts [] s (latchTotal s) := by
  rcases latchTotal_cases s with h | ⟨-, -, h⟩ <;> rw [h]
  · exact .refl s
  · exact .same rfl rfl rfl

theorem metaLoop_transacts (P : Params) (left : Nat) (q : List Byte) (s : State) :
    Transacts [] s (metaLoop P left q s).2 := by
  induction left generalizing q s with
  | zero =>
    unfold metaLoop
    split <;> exact .refl s
  | succ left ih =>
    unfold metaLoop
    split
    · exact .refl s
    · exact .refl s
    · simp only
      have h1 := srcRead_transacts 1 s (by omega) (by omega)
      split_ifs
      · exact h1
      · exact (h1.trans' (.same rfl rfl rfl)).trans' (ih _ _)

theorem commitBlock_transacts (P : Params) (cfg : MetaCfg) (bitlen : Word) (s : State) :
    Transacts [] s (commitBlock P cfg bitlen s) := by
  rw [commitBlock_eq]
  exact .same rfl rfl rfl

theorem beginBlock_transacts (P : Params) (s : State) : Transacts [] s (beginBlock P s).2 := by
  have h0 : Transacts [] s (copyHeader s) := .same rfl rfl rfl
  have h1 := h0.trans' (metaLoop_transacts P (copyHeader s).blk.bytesLeft.toNat [] (copyHeader s))
  simp only [beginBlock]
  split
  · exact h1
  · split_ifs
    · exact h1
    · exact h1
    · exact h1
    · exact h1.trans' (commitBlock_transacts P _ _ _)

/-! ### The bit reader -/

theorem deductPayload_transacts (n : Nat) (s : State) : Transacts [] s (deductPayload n s) := by
  unfold deductPayload
  split_ifs
  · exact .same rfl rfl rfl
  · exact .refl s

theorem brRefill_transacts (P : Params) (s : State) : Transacts [] s (brRefill P s).2 := by
  simp only [brRefill]
  split_ifs with h1 h2
  · obtain ⟨-, hb⟩ := h1
    have hp := Params.bufBytes_pos P
    have hl := s.br.budget.isLt
    have hn : s.br.budget.toNat ≠ 0 := fun h => hb (BitVec.eq_of_toNat_eq (by simpa using h))
    exact srcRead_transacts _ s (by omega) (by omega)
  · obtain ⟨-, hb⟩ := h1
    have hp := Params.bufBytes_pos P
    have hl := s.br.budget.isLt
    have hn : s.br.budget.toNat ≠ 0 := fun h => hb (BitVec.eq_of_toNat_eq (by simpa using h))
    exact ((srcRead_transacts _ s (by omega) (by omega)).trans' (.same rfl rfl rfl)).trans'
      (deductPayload_transacts _ _)
  · exact .refl s

theorem brFetchByte_transacts (P : Params) (s : State) : Transacts [] s (brFetchByte P s).2 := by
  simp only [brFetchByte, brNextByte]
  split_ifs
  · exact (brRefill_transacts P s).trans' (.same rfl rfl rfl)
  · exact (brRefill_transacts P s).trans' (.same rfl rfl rfl)
  · exact .same rfl rfl rfl

theorem brFill_transacts (P : Params) (fuel n : Nat) (s : State) :
    Transacts [] s (brFill P fuel n s) := by
  induction fuel generalizing s with
  | zero => exact .refl s
  | succ fuel ih =>
    simp only [brFill]
    split_ifs
    · exact ((brFetchByte_transacts P s).trans' (.same rfl rfl rfl)).trans' (ih _)
    · exact .refl s

theorem brReadBitsOp_transacts (P : Params) (n : Nat) (s : State) :
    Transacts [] s (brReadBitsOp P n s).2 :=
  (brFill_transacts P n n s).trans' (.same rfl rfl rfl)

theorem runBits_transacts {α : Type} (P : Params) (p : BitProg α) (s : State) :
    Transacts [] s (runBits P p s).2 := by
  induction p generalizing s with
  | ret a => exact .refl s
  | read n k ih => exact (brReadBitsOp_transacts P n.val s).trans' (ih _ _)

theorem residual_transacts (P : Params) (c : Chan) (s : State) :
    Transacts [] s (residual P c s).2 := (runBits_transacts P _ s).trans' (.same rfl rfl rfl)

theorem residuals_transacts (P : Params) (s : State) : Transacts [] s (residuals P s).2 := by
  simp only [residuals]
  split_ifs
  · exact residual_transacts P .a s
  · exact (residual_transacts P .a s).trans' (residual_transacts P .b _)

/-! ### UNPACK -/

theorem writeSilence_transacts (n i : Nat) (s : State) :
    Transacts (List.range' i n) s (writeSilence n i s) := by
  induction n generalizing i s with
  | zero => exact .refl s
  | succ n ih => exact (writeSample_transacts _ 0 s).trans (ih (i + 1) _)

theorem writeSlots_transacts (P : Params) (base : Nat) (v : Frame) (w c : Nat) (s : State) :
    Transacts (List.range' (base + c) w) s (writeSlots P base v w c s) := by
  induction w generalizing c s with
  | zero => exact .refl s
  | succ w ih => exact (writeSample_transacts _ _ s).trans (ih (c + 1) _)

theorem gapStep_transacts (lim produced : Nat) (s : State) :
    Transacts (List.range' (produced * s.ctx.frameWidth.toNat)
      (gapFrames lim s * s.ctx.frameWidth.toNat)) s (gapStep lim produced s) :=
  (writeSilence_transacts _ _ s).before (.same rfl rfl rfl)

theorem finishFrame_transacts (P : Params) (produced : Nat) (x : Frame) (s : State) :
    Transacts (List.range' (produced * s.ctx.frameWidth.toNat) s.ctx.frameWidth.toNat) s
      (finishFrame P produced x s) := by
  simp only [finishFrame]
  refine .before (.after (t := (s.setPass (passChain P s.pass x).2).setBlk
    { s.blk with crc := foldCrc P s.blk.crc (postChain P s.blk.flags (passChain P s.pass x).1) })
    (.same rfl rfl rfl) (writeSlots_transacts P _ _ _ 0 _)) (.same rfl rfl rfl)

theorem takeHeader_transacts (P : Params) (s : State) : Transacts [] s (takeHeader P s) := by
  unfold takeHeader
  split_ifs
  · exact .same rfl rfl rfl
  · exact .same rfl rfl rfl
  · exact .same rfl rfl rfl
  · simp only
    split_ifs
    · exact beginBlock_transacts P s
    · exact (beginBlock_transacts P s).trans' (.same rfl rfl rfl)

theorem fetchStep_transacts (P : Params) (s : State) : Transacts [] s (fetchStep P s) := by
  have hb := s.blk.bytesLeft.isLt
  have hd := drain_transacts s.blk.bytesLeft.toNat s (by omega)
  simp only [fetchStep]
  split_ifs
  · exact hd.trans' (endStream_transacts _ _)
  · exact ((hd.trans' (leaveBlock_transacts _)).trans' (locate_transacts P _)).trans'
      (endStream_transacts _ _)
  · exact (((hd.trans' (leaveBlock_transacts _)).trans' (locate_transacts P _)).trans'
      (latchTotal_transacts _)).trans' (takeHeader_transacts P _)

theorem range_mul_append (k n w : Nat) :
    List.range (k * w) ++ List.range' (k * w) (n * w) = List.range ((k + n) * w) := by
  rw [List.range_eq_range', List.range_eq_range', Nat.add_mul]
  simpa using List.range'_append (s := 0) (m := k * w) (n := n * w) (step := 1)

/-- After `k` frames the samples written are the first `k · W`, in order (R265). -/
def Wrote (s : State) (k : Nat) (t : State) : Prop :=
  t.ctx.frameWidth = s.ctx.frameWidth ∧
    Transacts (List.range (k * s.ctx.frameWidth.toNat)) s t

theorem Wrote.step {s t u : State} {k n : Nat} (h : Wrote s k t)
    (hw : u.ctx.frameWidth = t.ctx.frameWidth)
    (h' : Transacts (List.range' (k * t.ctx.frameWidth.toNat)
      (n * t.ctx.frameWidth.toNat)) t u) :
    Wrote s (k + n) u := by
  refine ⟨hw.trans h.1, ?_⟩
  have := h.2.trans h'
  rwa [h.1, range_mul_append] at this

theorem decodeFrames_wrote (r : State) (n k : Nat) (s : State) (h : Wrote r k s) :
    Wrote r (decodeFrames r.params n k s).1 (decodeFrames r.params n k s).2 := by
  refine decodeFrames_induct (P := r.params) (I := fun _ j u => Wrote r j u) ?_ ?_ n k s h
  · intro m j u hu _
    have hctx := (residuals_frame r.params u).2.2.2.1
    have h2 := (finishFrame_frame r.params j (residuals r.params u).1
      (residuals r.params u).2).2.2.2.2.2.2.2.1
    refine hu.step (n := 1) (by rw [h2, hctx]) ?_
    have := (residuals_transacts r.params u).after
      (finishFrame_transacts r.params j (residuals r.params u).1 _)
    rw [hctx] at this
    simpa using this
  · intro m j u hu _
    have hctx := (residuals_frame r.params u).2.2.2.1
    exact ⟨(congrArg Ctx.frameWidth hctx).trans hu.1,
      hu.2.before ((residuals_transacts r.params u).trans' (.same rfl rfl rfl))⟩

theorem verifyBlock_transacts (s : State) : Transacts [] s (verifyBlock s) := by
  unfold verifyBlock
  split_ifs
  · exact .refl s
  · exact .same rfl rfl rfl

theorem unpackRound_wrote (r : State) (remaining k : Nat) (s : State) (h : Wrote r k s) :
    Wrote r (unpackRound r.params remaining k s).1 (unpackRound r.params remaining k s).2 := by
  have hw := (unpackRound_keeps r.params remaining k s).1.frameWidth
  revert hw
  simp only [unpackRound]
  split_ifs with h1 h2
  · exact fun hw => ⟨hw.trans h.1, h.2.before (fetchStep_transacts r.params s)⟩
  · exact fun hw => h.step hw (gapStep_transacts _ k s)
  · intro hw
    have hd := decodeFrames_wrote r
      (min (s.blk.fin - s.ctx.cursor.toNat) (frameLimit remaining s)) k s h
    refine ⟨hw.trans h.1, ?_⟩
    simp only [decodeStep]
    split_ifs
    · exact hd.2.before (verifyBlock_transacts _)
    · exact hd.2

end Sys2Proof.Machine
end

