-- ==== Sys2Proof/Laws/Parts.lean ====
section
/-! SUPPORT. UNPACK frame by frame: a command runs as rounds of one frame each, which do not depend on
how many frames were asked for, and the output index shifts with the count. -/

namespace Sys2Proof.Machine

/-! ### States that differ in what UNPACK only writes -/

/-- A state that differs from `s` in the output buffer, the record of transactions and the response
only. -/
def SameButOutput (s t : State) : Prop := ∃ m l r, t = ((s.setOut m).setLog l).setResp r

theorem SameButOutput.refl (s : State) : SameButOutput s s := ⟨s.out, s.log, s.resp, rfl⟩

theorem SameButOutput.symm {s t : State} (h : SameButOutput s t) : SameButOutput t s := by
  obtain ⟨m, l, r, rfl⟩ := h
  cases s
  exact ⟨_, _, _, rfl⟩

theorem SameButOutput.trans {s t u : State} (h : SameButOutput s t) (h' : SameButOutput t u) :
    SameButOutput s u := by
  obtain ⟨m, l, r, rfl⟩ := h
  obtain ⟨m', l', r', rfl⟩ := h'
  exact ⟨m', l', r', rfl⟩

theorem SameButOutput.ite {p q : Prop} [Decidable p] [Decidable q] {a b c d : State} (hpq : p ↔ q)
    (h1 : SameButOutput a c) (h2 : SameButOutput b d) :
    SameButOutput (if p then a else b) (if q then c else d) := by
  by_cases h : p
  · rw [if_pos h, if_pos (hpq.1 h)]
    exact h1
  · rw [if_neg h, if_neg fun hq => h (hpq.2 hq)]
    exact h2

theorem OnlyOutput.same {s t : State} (h : OnlyOutput s t) : SameButOutput s t := by
  obtain ⟨m, l, rfl⟩ := h
  exact ⟨m, l, s.resp, rfl⟩

theorem SameButOutput.frame {s t : State} (h : SameButOutput s t) :
    t.seq = s.seq ∧ t.br = s.br ∧ t.win = s.win ∧ t.hdr = s.hdr ∧ t.ctx = s.ctx ∧ t.blk = s.blk ∧
      t.pass = s.pass ∧ t.es = s.es ∧ t.fexp = s.fexp ∧ t.src = s.src ∧ t.build = s.build := by
  obtain ⟨m, l, r, rfl⟩ := h
  exact ⟨rfl, rfl, rfl, rfl, rfl, rfl, rfl, rfl, rfl, rfl, rfl⟩

/-- An operation answers the same on states that differ in the output only, and leaves such states. -/
def BlindToOutput {α : Type} (f : State → α × State) : Prop :=
  ∀ s t, SameButOutput s t → (f t).1 = (f s).1 ∧ SameButOutput (f s).2 (f t).2

theorem srcRead_blind (L : Nat) : BlindToOutput (srcRead L) := by
  rintro s _ ⟨m, l, r, rfl⟩
  exact ⟨rfl, m, _, r, rfl⟩

theorem srcTake_blind (fuel n : Nat) : BlindToOutput (srcTake fuel n) := by
  induction fuel generalizing n with
  | zero => exact fun s t h => ⟨rfl, h⟩
  | succ fuel ih =>
    intro s t h
    obtain ⟨h1, h2⟩ := srcRead_blind n s t h
    simp only [srcTake, h1]
    split_ifs
    · exact ⟨rfl, h⟩
    · exact ⟨rfl, h2⟩
    · obtain ⟨h3, h4⟩ := ih (n - (srcRead n s).1.length) _ _ h2
      exact ⟨by rw [h3], h4⟩

theorem drain_blind (n : Nat) : BlindToOutput (drain n) := by
  intro s t h
  obtain ⟨h1, h2⟩ := srcTake_blind n n s t h
  exact ⟨by simp only [drain, h1], h2⟩

theorem fillWindow_blind {s t : State} (h : SameButOutput s t) :
    SameButOutput (fillWindow s) (fillWindow t) := by
  have hw := h.frame.2.2.1
  simp only [fillWindow, hw]
  obtain ⟨h1, h2⟩ := srcTake_blind (hdrBytes - s.win.length) (hdrBytes - s.win.length) s t h
  rw [h1]
  obtain ⟨m, l, r, e⟩ := h2
  rw [e]
  exact ⟨m, l, r, rfl⟩

theorem locateLoop_blind (P : Params) (left S : Nat) {s t : State} (h : SameButOutput s t) :
    (locateLoop P left S t).cause = (locateLoop P left S s).cause ∧
      SameButOutput (locateLoop P left S s).state (locateLoop P left S t).state := by
  have hset : ∀ {u v : State}, SameButOutput u v →
      SameButOutput (invalidateHdr u) (invalidateHdr v) ∧
      SameButOutput (acceptHeader u) (acceptHeader v) ∧
      SameButOutput (dropByte u) (dropByte v) := by
    rintro u _ ⟨m, l, r, rfl⟩
    exact ⟨⟨m, l, r, rfl⟩, ⟨m, l, r, rfl⟩, ⟨m, l, r, rfl⟩⟩
  induction left generalizing S s t with
  | zero =>
    have hf := fillWindow_blind h
    unfold locateLoop
    simp only [hf.frame.2.2.1]
    split_ifs
    · exact ⟨rfl, (hset hf).1⟩
    · exact ⟨rfl, (hset hf).1⟩
    · exact ⟨rfl, (hset hf).2.1⟩
    · exact ⟨rfl, (hset (hset hf).2.2).1⟩
  | succ left ih =>
    have hf := fillWindow_blind h
    unfold locateLoop
    simp only [hf.frame.2.2.1]
    split_ifs
    · exact ⟨rfl, (hset hf).1⟩
    · exact ⟨rfl, (hset hf).1⟩
    · exact ⟨rfl, (hset hf).2.1⟩
    · exact ih (S + 1) (hset hf).2.2

theorem metaLoop_blind (P : Params) (left : Nat) (q : List Byte) :
    BlindToOutput (metaLoop P left q) := by
  induction left generalizing q with
  | zero =>
    intro s t h
    unfold metaLoop
    rw [h.frame.2.2.2.1]
    split <;> exact ⟨rfl, h⟩
  | succ left ih =>
    intro s t h
    unfold metaLoop
    rw [h.frame.2.2.2.1]
    split
    · exact ⟨rfl, h⟩
    · exact ⟨rfl, h⟩
    · obtain ⟨h1, h2⟩ := srcRead_blind 1 s t h
      simp only [h1]
      split_ifs
      · exact ⟨rfl, h2⟩
      · refine ih (q ++ (srcRead 1 s).1) _ _ ?_
        obtain ⟨m, l, r, e⟩ := h2
        rw [e]
        exact ⟨m, l, r, rfl⟩

theorem copyHeader_blind {s t : State} (h : SameButOutput s t) :
    SameButOutput (copyHeader s) (copyHeader t) := by
  obtain ⟨m, l, r, rfl⟩ := h
  exact ⟨m, l, r, rfl⟩

theorem commitBlock_blind (P : Params) (cfg : MetaCfg) (bitlen : Word) {s t : State}
    (h : SameButOutput s t) :
    SameButOutput (commitBlock P cfg bitlen s) (commitBlock P cfg bitlen t) := by
  obtain ⟨m, l, r, rfl⟩ := h
  exact ⟨m, l, r, rfl⟩

theorem endStream_blind (c : Cause) {s t : State} (h : SameButOutput s t) :
    SameButOutput (endStream c s) (endStream c t) := by
  obtain ⟨m, l, r, rfl⟩ := h
  exact ⟨m, l, r, rfl⟩

theorem beginBlock_blind (P : Params) : BlindToOutput (beginBlock P) := by
  intro s t h
  have h0 := copyHeader_blind h
  simp only [beginBlock, h0.frame.2.2.2.2.2.1]
  obtain ⟨h1, h2⟩ := metaLoop_blind P (copyHeader s).blk.bytesLeft.toNat [] _ _ h0
  rw [h1]
  obtain ⟨-, -, -, -, f5, f6, f7, -⟩ := h2.frame
  have hc : ∀ cfg, chainOf cfg (metaLoop P (copyHeader s).blk.bytesLeft.toNat [] (copyHeader t)).2 =
      chainOf cfg (metaLoop P (copyHeader s).blk.bytesLeft.toNat [] (copyHeader s)).2 := fun cfg => by
    rw [chainOf, f7]; rfl
  split
  · exact ⟨rfl, h2⟩
  · simp only [f5, f6, hc]
    split_ifs
    · exact ⟨rfl, h2⟩
    · exact ⟨rfl, h2⟩
    · exact ⟨rfl, h2⟩
    · exact ⟨rfl, commitBlock_blind P _ _ h2⟩

theorem latchTotal_blind {s t : State} (h : SameButOutput s t) :
    SameButOutput (latchTotal s) (latchTotal t) := by
  obtain ⟨m, l, r, rfl⟩ := h
  exact .ite Iff.rfl ⟨m, l, r, rfl⟩ ⟨m, l, r, rfl⟩

theorem takeHeader_blind (P : Params) {s t : State} (h : SameButOutput s t) :
    SameButOutput (takeHeader P s) (takeHeader P t) := by
  obtain ⟨b1, b2⟩ := beginBlock_blind P s t h
  obtain ⟨-, -, -, f4, f5, -⟩ := h.frame
  simp only [takeHeader, skipsHeader, f4, f5, b1]
  split_ifs
  · exact endStream_blind _ h
  · obtain ⟨m, l, r, rfl⟩ := h
    exact ⟨m, l, r, rfl⟩
  · exact endStream_blind _ h
  · exact b2
  · exact endStream_blind _ b2

theorem fetchStep_blind (P : Params) {s t : State} (h : SameButOutput s t) :
    SameButOutput (fetchStep P s) (fetchStep P t) := by
  obtain ⟨d1, d2⟩ := drain_blind s.blk.bytesLeft.toNat s t h
  have hb : t.blk = s.blk := h.frame.2.2.2.2.2.1
  have hl : SameButOutput (leaveBlock (drain s.blk.bytesLeft.toNat s).2)
      (leaveBlock (drain s.blk.bytesLeft.toNat t).2) := by
    obtain ⟨m, l, r, e⟩ := d2
    rw [e]
    exact ⟨m, l, r, rfl⟩
  obtain ⟨l1, l2⟩ := locateLoop_blind P resyncBudget 0 hl
  simp only [fetchStep, locate, hb, d1, l1]
  exact .ite Iff.rfl (endStream_blind _ d2) (.ite Iff.rfl (endStream_blind _ l2)
    (takeHeader_blind P (latchTotal_blind l2)))

/-! The bit reader. -/

theorem brRefill_blind (P : Params) : BlindToOutput (brRefill P) := by
  intro s t h
  obtain ⟨-, f2, -⟩ := h.frame
  obtain ⟨r1, r2⟩ := srcRead_blind (min P.bufBytes s.br.budget.toNat) s t h
  simp only [brRefill, f2, r1]
  split_ifs
  · exact ⟨rfl, r2⟩
  · refine ⟨rfl, ?_⟩
    obtain ⟨m, l, r, e⟩ := r2
    rw [e]
    exact .ite Iff.rfl ⟨m, l, r, rfl⟩ ⟨m, l, r, rfl⟩
  · exact ⟨rfl, h⟩

theorem brNextByte_blind : BlindToOutput brNextByte := by
  rintro s _ ⟨m, l, r, rfl⟩
  exact ⟨rfl, m, l, r, rfl⟩

theorem brFetchByte_blind (P : Params) : BlindToOutput (brFetchByte P) := by
  intro s t h
  obtain ⟨-, f2, -⟩ := h.frame
  obtain ⟨r1, r2⟩ := brRefill_blind P s t h
  simp only [brFetchByte, f2, r1]
  split_ifs
  · exact brNextByte_blind _ _ r2
  · refine ⟨rfl, ?_⟩
    obtain ⟨m, l, r, e⟩ := r2
    rw [e]
    exact ⟨m, l, r, rfl⟩
  · exact brNextByte_blind _ _ h

theorem brFill_blind (P : Params) (fuel n : Nat) {s t : State} (h : SameButOutput s t) :
    SameButOutput (brFill P fuel n s) (brFill P fuel n t) := by
  induction fuel generalizing s t with
  | zero => exact h
  | succ fuel ih =>
    obtain ⟨f1, f2⟩ := brFetchByte_blind P s t h
    simp only [brFill, h.frame.2.1, f1]
    split_ifs
    · refine ih ?_
      obtain ⟨m, l, r, e⟩ := f2
      rw [e]
      exact ⟨m, l, r, rfl⟩
    · exact h

theorem brReadBitsOp_blind (P : Params) (n : Nat) : BlindToOutput (brReadBitsOp P n) := by
  intro s t h
  obtain ⟨m, l, r, e⟩ := brFill_blind P n n h
  simp only [brReadBitsOp]
  rw [e]
  exact ⟨rfl, m, l, r, rfl⟩

theorem runBits_blind {α : Type} (P : Params) (p : BitProg α) : BlindToOutput (runBits P p) := by
  induction p with
  | ret a => exact fun s t h => ⟨rfl, h⟩
  | read n k ih =>
    intro s t h
    obtain ⟨r1, r2⟩ := brReadBitsOp_blind P n.val s t h
    simp only [runBits, r1]
    exact ih _ _ _ r2

theorem residual_blind (P : Params) (c : Chan) : BlindToOutput (residual P c) := by
  intro s t h
  have he : t.es = s.es := h.frame.2.2.2.2.2.2.2.1
  obtain ⟨r1, r2⟩ := runBits_blind P (P.entropyDecode s.es c) s t h
  simp only [residual, he, r1]
  obtain ⟨m, l, r, e⟩ := r2
  rw [e]
  exact ⟨trivial, m, l, r, rfl⟩

theorem residuals_blind (P : Params) : BlindToOutput (residuals P) := by
  intro s t h
  obtain ⟨a1, a2⟩ := residual_blind P .a s t h
  obtain ⟨b1, b2⟩ := residual_blind P .b _ _ a2
  simp only [residuals, h.frame.2.2.2.2.2.1, a1, b1]
  split_ifs
  · exact ⟨rfl, a2⟩
  · exact ⟨rfl, b2⟩

/-! ### Rounds of one frame -/

/-- From `s` after k frames, rounds of one frame lead to `t` after k' frames, none of them made after
the frames asked for, a known total or the end of the stream are reached. -/
inductive UnitRun (P : Params) (max : Nat) : Nat → State → Nat → State → Prop
  | stay (k : Nat) (s : State) : UnitRun P max k s k s
  | round {k : Nat} {s : State} {k' : Nat} {t : State} (hk : k ≠ max) (ht : totalReached s = false)
      (he : s.seq.phase ≠ .ended)
      (next : UnitRun P max (unpackRound P 1 k s).1 (unpackRound P 1 k s).2 k' t) :
      UnitRun P max k s k' t

/-- UNPACK stops here. -/
def UnpackStopsAt (max k : Nat) (s : State) : Prop :=
  k = max ∨ totalReached s = true ∨ s.seq.phase = .ended

theorem UnitRun.trans {P : Params} {max k k' k'' : Nat} {s t u : State}
    (h : UnitRun P max k s k' t) (h' : UnitRun P max k' t k'' u) : UnitRun P max k s k'' u := by
  induction h with
  | stay => exact h'
  | round hk ht he _ ih => exact .round hk ht he (ih h')

theorem UnitRun.one {P : Params} {max k : Nat} {s : State} (hk : k ≠ max)
    (ht : totalReached s = false) (he : s.seq.phase ≠ .ended) :
    UnitRun P max k s (unpackRound P 1 k s).1 (unpackRound P 1 k s).2 :=
  .round hk ht he (.stay _ _)

/-- Two runs that stop are the same run. -/
theorem UnitRun.unique {P : Params} {max k k1 k2 : Nat} {s t1 t2 : State}
    (h1 : UnitRun P max k s k1 t1) (s1 : UnpackStopsAt max k1 t1) (h2 : UnitRun P max k s k2 t2)
    (s2 : UnpackStopsAt max k2 t2) : k1 = k2 ∧ t1 = t2 := by
  have hno : ∀ {k s}, k ≠ max → totalReached s = false → s.seq.phase ≠ .ended →
      ¬ UnpackStopsAt max k s := by
    rintro k s hk ht he (h | h | h)
    · exact hk h
    · rw [ht] at h; cases h
    · exact he h
  induction h1 with
  | stay k s =>
    cases h2 with
    | stay => exact ⟨rfl, rfl⟩
    | round hk ht he => exact absurd s1 (hno hk ht he)
  | round hk ht he _ ih =>
    cases h2 with
    | stay => exact absurd s2 (hno hk ht he)
    | round _ _ _ h2 => exact ih s1 h2

/-- A run for fewer frames is the start of a run for more. -/
theorem UnitRun.mono {P : Params} {max max' k k' : Nat} {s t : State} (hm : max ≤ max') (hk : k ≤ max)
    (h : UnitRun P max k s k' t) : UnitRun P max' k s k' t := by
  induction h with
  | stay => exact .stay _ _
  | round hn ht he _ ih =>
    rename_i k s _ _ _
    have hr := (unpackRound_keeps P 1 k s).2.2
    exact .round (by omega) ht he (ih (by omega))

theorem UnitRun.keeps {P : Params} {max k k' : Nat} {s t : State} (h : UnitRun P max k s k' t) :
    UnpackKeeps s t := by
  induction h with
  | stay => exact UnpackKeeps.refl _
  | round _ _ _ _ ih => exact (unpackRound_keeps P 1 _ _).1.trans ih

/-! ### One round as rounds of one frame -/

theorem totalReached_iff (s : State) : totalReached s = true ↔
    s.ctx.total ≠ totalUnknown ∧ s.ctx.total.toNat ≤ s.ctx.cursor.toNat := by
  simp [totalReached]

theorem frameLimit_one {s : State} (h : totalReached s = false) : frameLimit 1 s = 1 := by
  have := frameLimit_pos Nat.one_pos h
  have := frameLimit_le 1 s
  omega

/-- With more frames than one allowed in a state, the total is still ahead of the next one. -/
theorem totalReached_next {s t : State} {n r : Nat} (hn : 1 < n) (hl : n ≤ frameLimit r s)
    (hc : t.ctx.cursor.toNat = s.ctx.cursor.toNat + 1) (ht : t.ctx.total = s.ctx.total) :
    totalReached t = false ∧ n - 1 ≤ frameLimit (r - 1) t := by
  unfold frameLimit at hl ⊢
  rw [ht, hc]
  constructor
  · by_contra h
    obtain ⟨h1, h2⟩ := (totalReached_iff t).1 (by simpa using h)
    rw [ht] at h1
    rw [if_neg h1] at hl
    rw [ht, hc] at h2
    omega
  · split_ifs at hl ⊢ <;> omega

theorem writeSilence_add (a b i : Nat) (s : State) :
    writeSilence (a + b) i s = writeSilence b (i + a) (writeSilence a i s) := by
  induction a generalizing i s with
  | zero => simp [writeSilence]
  | succ a ih =>
    rw [Nat.succ_add, writeSilence, writeSilence, ih]
    congr 1
    omega

theorem writeSilence_advance (n i k : Nat) (s : State) :
    writeSilence n i (advance k s) = advance k (writeSilence n i s) := by
  induction n generalizing i s with
  | zero => rfl
  | succ n ih => rw [writeSilence, writeSilence, ← ih, writeSample_eq, writeSample_eq]; rfl

/-- The silence of n frames after k. -/
def silentFrames (n k : Nat) (s : State) : State :=
  advance n (writeSilence (n * s.ctx.frameWidth.toNat) (k * s.ctx.frameWidth.toNat) s)

theorem silentFrames_frame (n k : Nat) (s : State) :
    ∃ m l, silentFrames n k s = ((s.setOut m).setLog l).setCtx
      { s.ctx with cursor := s.ctx.cursor + BitVec.ofNat 64 n } := by
  obtain ⟨m, l, e⟩ := writeSilence_onlyOutput (n * s.ctx.frameWidth.toNat)
    (k * s.ctx.frameWidth.toNat) s
  exact ⟨m, l, by rw [silentFrames, e]; rfl⟩

theorem silentFrames_succ (n k : Nat) (s : State) :
    silentFrames (n + 1) k s = silentFrames n (k + 1) (silentFrames 1 k s) := by
  obtain ⟨m, l, e⟩ := silentFrames_frame 1 k s
  have hw : (silentFrames 1 k s).ctx.frameWidth = s.ctx.frameWidth := by rw [e]; rfl
  have hadd : ∀ (c : State) (a b : Nat), advance a (advance b c) = advance (b + a) c := by
    intro c a b
    simp only [advance, State.setCtx_ctx, BitVec.add_assoc, ← BitVec.ofNat_add]
    rfl
  rw [silentFrames, silentFrames, hw]
  conv_rhs => rw [silentFrames, writeSilence_advance, hadd, Nat.one_mul]
  rw [Nat.add_comm n 1, Nat.add_mul, Nat.one_mul, writeSilence_add, Nat.add_mul, Nat.one_mul]

theorem gapStep_eq (lim k : Nat) (s : State) :
    gapStep lim k s = silentFrames (gapFrames lim s) k s := rfl

theorem silentFrames_unitRun {P : Params} {max : Nat} (n k : Nat) (s : State) (hn : 0 < n)
    (hk : k + n ≤ max) (ha : s.blk.active = true) (hfin : s.ctx.cursor.toNat < s.blk.fin)
    (hgap : s.ctx.cursor.toNat + n ≤ s.blk.blockIndex.toNat) (hl : n ≤ frameLimit (max - k) s)
    (ht : totalReached s = false) (he : s.seq.phase ≠ .ended) :
    UnitRun P max k s (k + n) (silentFrames n k s) := by
  induction n generalizing k s with
  | zero => omega
  | succ n ih =>
    have h1 : unpackRound P 1 k s = (k + 1, silentFrames 1 k s) := by
      simp only [unpackRound, frameLimit_one ht]
      have hg : gapFrames 1 s = 1 := by unfold gapFrames; omega
      rw [if_neg (by rw [ha]; simp; omega), if_pos (by omega), gapStep_eq, hg]
    have hone := UnitRun.one (P := P) (max := max) (by omega : k ≠ max) ht he
    rw [h1] at hone
    rcases Nat.eq_zero_or_pos n with rfl | hn'
    · exact hone
    · obtain ⟨m, l, e⟩ := silentFrames_frame 1 k s
      have hfl := Blk.fin_lt s.blk
      have hc : (silentFrames 1 k s).ctx.cursor.toNat = s.ctx.cursor.toNat + 1 := by
        rw [e]
        simp only [State.setCtx_ctx, BitVec.toNat_add, BitVec.toNat_ofNat]
        omega
      have hb : (silentFrames 1 k s).blk = s.blk := by rw [e]; rfl
      have hs : (silentFrames 1 k s).seq = s.seq := by rw [e]; rfl
      have htot : (silentFrames 1 k s).ctx.total = s.ctx.total := by rw [e]; rfl
      obtain ⟨t1, t2⟩ := totalReached_next (by omega) hl hc htot
      have hbi : s.blk.blockIndex.toNat ≤ s.blk.fin := by unfold Blk.fin; omega
      have := ih (k + 1) (silentFrames 1 k s) hn' (by omega) (by rw [hb]; exact ha)
        (by rw [hb, hc]; omega) (by rw [hb, hc]; omega)
        (by rw [Nat.sub_sub] at t2; exact t2) t1 (by rw [hs]; exact he)
      rw [silentFrames_succ, Nat.add_comm n 1, ← Nat.add_assoc]
      exact hone.trans this

/-- The state of a decode step after its frames: the checksum is verified at the block's end. -/
def verifyAtEnd (r : Nat × State) : Nat × State :=
  if r.2.seq.phase ≠ .ended ∧ r.2.ctx.cursor.toNat = r.2.blk.fin then (r.1, verifyBlock r.2) else r

theorem decodeStep_eq (P : Params) (lim k : Nat) (s : State) :
    decodeStep P lim k s =
      verifyAtEnd (decodeFrames P (min (s.blk.fin - s.ctx.cursor.toNat) lim) k s) := rfl

theorem decodeFrames_unitRun {P : Params} {max : Nat} (n k : Nat) (s : State) (hn : 0 < n)
    (hk : k + n ≤ max) (ha : s.blk.active = true)
    (hb : s.blk.blockIndex.toNat ≤ s.ctx.cursor.toNat)
    (hf : s.ctx.cursor.toNat + n ≤ s.blk.fin) (hl : n ≤ frameLimit (max - k) s)
    (ht : totalReached s = false) (he : s.seq.phase ≠ .ended) :
    UnitRun P max k s (verifyAtEnd (decodeFrames P n k s)).1
      (verifyAtEnd (decodeFrames P n k s)).2 := by
  induction n generalizing k s with
  | zero => omega
  | succ n ih =>
    have h1 : unpackRound P 1 k s = verifyAtEnd (decodeFrames P 1 k s) := by
      have hmin : min (s.blk.fin - s.ctx.cursor.toNat) 1 = 1 := by omega
      simp only [unpackRound, frameLimit_one ht]
      rw [if_neg (by rw [ha]; simp; omega), if_neg (by omega), decodeStep_eq, hmin]
    have hone := UnitRun.one (P := P) (max := max) (by omega : k ≠ max) ht he
    rw [h1] at hone
    rcases Nat.eq_zero_or_pos n with rfl | hn'
    · exact hone
    · rcases decodeFrame_cases P k s with ⟨hd, hd2⟩ | ⟨hd, hd2⟩
      · have e : ∀ n, decodeFrames P (n + 1) k s = (k, endStream .exhausted (residuals P s).2) := by
          intro n
          simp only [decodeFrames, hd2, Bool.false_eq_true, if_false]
        rw [e 0] at hone
        rw [e n]
        exact hone
      · obtain ⟨F, hF⟩ : ∃ F, F = finishFrame P k (residuals P s).1 (residuals P s).2 := ⟨_, rfl⟩
        rw [← hF] at hd2
        have e : ∀ n, decodeFrames P (n + 1) k s = decodeFrames P n (k + 1) F := by
          intro n
          simp only [decodeFrames, hd2, if_true]
        obtain ⟨f1, -, -, -, -, -, -, f8, -, f10⟩ :=
          finishFrame_frame P k (residuals P s).1 (residuals P s).2
        rw [← hF] at f1 f8 f10
        obtain ⟨r1, -, -, r4, -, -, -, r8⟩ := residuals_frame P s
        have hfl := Blk.fin_lt s.blk
        have hc : F.ctx.cursor.toNat = s.ctx.cursor.toNat + 1 := by
          rw [f8, r4]
          simp only [BitVec.toNat_add, BitVec.toNat_ofNat]
          omega
        have hact : F.blk.active = true := by
          rw [f10, ← ha]
          conv_rhs => rw [← r8]
        have hbi : F.blk.blockIndex = s.blk.blockIndex := by
          rw [f10]
          conv_rhs => rw [← r8]
        have hfin : F.blk.fin = s.blk.fin := by
          rw [← residuals_fin P s, f10]
          rfl
        have hs : F.seq = s.seq := f1.trans r1
        have htot : F.ctx.total = s.ctx.total := by rw [f8, r4]
        obtain ⟨t1, t2⟩ := totalReached_next (by omega) hl hc htot
        have h0 : verifyAtEnd (decodeFrames P 1 k s) = (k + 1, F) := by
          rw [e 0, decodeFrames, verifyAtEnd, if_neg]
          rintro ⟨-, h⟩
          rw [hc, hfin] at h
          omega
        rw [h0] at hone
        rw [e n]
        exact hone.trans (ih (k + 1) F hn' (by omega) hact (by rw [hbi, hc]; omega)
          (by rw [hfin, hc]; omega) (by rw [Nat.sub_sub] at t2; exact t2) t1 (by rw [hs]; exact he))

/-- A round of UNPACK is rounds of one frame. -/
theorem unpackRound_unitRun (P : Params) {max k : Nat} {s : State} (hk : k < max)
    (ht : totalReached s = false) (he : s.seq.phase ≠ .ended) :
    UnitRun P max k s (unpackRound P (max - k) k s).1 (unpackRound P (max - k) k s).2 := by
  have hl := frameLimit_pos (by omega : 0 < max - k) ht
  have hle := frameLimit_le (max - k) s
  by_cases h1 : s.blk.active = false ∨ s.blk.fin ≤ s.ctx.cursor.toNat
  · have e : unpackRound P (max - k) k s = unpackRound P 1 k s := by
      simp only [unpackRound, if_pos h1]
    rw [e]
    exact UnitRun.one (by omega) ht he
  · have ha : s.blk.active = true := by
      by_contra h
      exact h1 (.inl (by simpa using h))
    have hf : s.ctx.cursor.toNat < s.blk.fin := by
      by_contra h
      exact h1 (.inr (by omega))
    by_cases h2 : s.ctx.cursor.toNat < s.blk.blockIndex.toNat
    · have e : unpackRound P (max - k) k s =
          (k + gapFrames (frameLimit (max - k) s) s,
            silentFrames (gapFrames (frameLimit (max - k) s) s) k s) := by
        simp only [unpackRound, if_neg h1, if_pos h2, gapStep_eq]
      rw [e]
      refine silentFrames_unitRun _ k s ?_ ?_ ha hf ?_ ?_ ht he <;> unfold gapFrames <;> omega
    · have e : unpackRound P (max - k) k s = verifyAtEnd (decodeFrames P
          (min (s.blk.fin - s.ctx.cursor.toNat) (frameLimit (max - k) s)) k s) := by
        simp only [unpackRound, if_neg h1, if_neg h2, decodeStep_eq]
      rw [e]
      exact decodeFrames_unitRun _ k s (by omega) (by omega) ha (by omega) (by omega) (by omega) ht he

/-- The loop of UNPACK is rounds of one frame up to where it stops. -/
theorem unpackLoop_unitRun {P : Params} {max : Nat} (fuel k : Nat) (s t : State) (hk : k ≤ max)
    (he : s.seq.phase ≠ .ended) (h : unpackLoop P max fuel k s = .next t) :
    ∃ k' u, UnitRun P max k s k' u ∧ UnpackStopsAt max k' u ∧ k' ≤ max ∧ t = unpackDone k' u := by
  induction fuel generalizing k s with
  | zero => simp [unpackLoop] at h
  | succ fuel ih =>
    simp only [unpackLoop] at h
    split_ifs at h with h1 h2
    · obtain rfl := Host.Outcome.next.inj h
      exact ⟨k, s, .stay k s, h1.elim .inl fun h => .inr (.inl h), hk, rfl⟩
    · obtain rfl := Host.Outcome.next.inj h
      have hne : k ≠ max := fun h => h1 (.inl h)
      have ht : totalReached s = false := by
        by_contra hc
        exact h1 (.inr (by simpa using hc))
      have hr := (unpackRound_keeps P (max - k) k s).2.2
      exact ⟨_, _, unpackRound_unitRun P (by omega) ht he, .inr (.inr h2), by omega, rfl⟩
    · have hne : k ≠ max := fun h => h1 (.inl h)
      have ht : totalReached s = false := by
        by_contra hc
        exact h1 (.inr (by simpa using hc))
      have hr := (unpackRound_keeps P (max - k) k s).2.2
      obtain ⟨k', u, g1, g2, g3, g4⟩ := ih _ _ (by omega) h2 h
      exact ⟨k', u, (unpackRound_unitRun P (by omega) ht he).trans g1, g2, g3, g4⟩

/-- UNPACK in READY is rounds of one frame up to where it stops. -/
theorem execUnpack_unitRun {s : State} (max : Word) (hp : s.seq.phase = .ready) :
    ∃ k u, UnitRun s.params max.toNat 0 s k u ∧ UnpackStopsAt max.toNat k u ∧ k ≤ max.toNat ∧
      execUnpack max s = .next (unpackDone k u) := by
  obtain ⟨t, ht⟩ := unpackLoop_next s.params max.toNat (unpackBound max.toNat s) 0 s (Nat.zero_le _)
    (by unfold unpackBound; simp only [State.ahead, List.length_append]; omega)
  obtain ⟨k, u, h1, h2, h3, h4⟩ := unpackLoop_unitRun _ 0 s t (Nat.zero_le _) (by rw [hp]; simp) ht
  exact ⟨k, u, h1, h2, h3, by rw [execUnpack_ready max hp, ht, h4]⟩

/-! ### A run after other frames -/

theorem writeSilence_blind (n i j : Nat) {s t : State} (h : SameButOutput s t) :
    SameButOutput (writeSilence n i s) (writeSilence n j t) :=
  (writeSilence_onlyOutput n i s).same.symm.trans (h.trans (writeSilence_onlyOutput n j t).same)

theorem advance_blind (n : Nat) {s t : State} (h : SameButOutput s t) :
    SameButOutput (advance n s) (advance n t) := by
  obtain ⟨m, l, r, rfl⟩ := h
  exact ⟨m, l, r, rfl⟩

theorem finishFrame_blind (P : Params) (k k' : Nat) (x : Frame) {s t : State}
    (h : SameButOutput s t) : SameButOutput (finishFrame P k x s) (finishFrame P k' x t) := by
  obtain ⟨m, l, r, rfl⟩ := h
  simp only [finishFrame, State.setResp_pass, State.setLog_pass, State.setOut_pass, State.setResp_blk,
    State.setLog_blk, State.setOut_blk]
  refine advance_blind 1 ((writeSlots_onlyOutput P _ _ _ 0 _).same.symm.trans
    (SameButOutput.trans ?_ (writeSlots_onlyOutput P _ _ _ 0 _).same))
  exact ⟨m, l, r, rfl⟩

theorem verifyBlock_blind {s t : State} (h : SameButOutput s t) :
    SameButOutput (verifyBlock s) (verifyBlock t) := by
  obtain ⟨m, l, r, rfl⟩ := h
  exact .ite Iff.rfl ⟨m, l, r, rfl⟩ ⟨m, l, r, rfl⟩

/-- A fetch writes no sample. -/
theorem fetchStep_out (P : Params) (s : State) : (fetchStep P s).out = s.out :=
  (fetchStep_transacts P s).choose_spec.2.2.2.2.2.2 rfl

/-- The samples of a round of one frame, from the frame it makes. -/
theorem finishFrame_read (P : Params) (k : Nat) (x : Frame) (s : State) (j : Nat) :
    (finishFrame P k x s).out.read j =
      if k * s.ctx.frameWidth.toNat ≤ j ∧ j < (k + 1) * s.ctx.frameWidth.toNat then
        some (P.fixup s.blk.flags s.fexp
          ((postChain P s.blk.flags (passChain P s.pass x).1).slot (j - k * s.ctx.frameWidth.toNat)))
      else s.out.read j := by
  rw [Nat.add_mul, Nat.one_mul]
  exact writeSlots_read P (k * s.ctx.frameWidth.toNat) _ s.ctx.frameWidth.toNat 0 _ j

/-- A round of one frame from two states that differ in the output only, after k frames and after m more:
it does the same, the counts stay m apart, and the samples it writes are the same, m frames apart. -/
theorem unpackRound_shift (P : Params) (k m : Nat) {s t : State} (h : SameButOutput s t)
    (ht : totalReached s = false) :
    ∃ (n : Nat) (f : Nat → Option S32), (unpackRound P 1 k s).1 = k + n ∧
      (unpackRound P 1 (m + k) t).1 = m + k + n ∧
      SameButOutput (unpackRound P 1 k s).2 (unpackRound P 1 (m + k) t).2 ∧
      (∀ j, (unpackRound P 1 k s).2.out.read j =
        if k * s.ctx.frameWidth.toNat ≤ j ∧ j < (k + n) * s.ctx.frameWidth.toNat then
          f (j - k * s.ctx.frameWidth.toNat) else s.out.read j) ∧
      (∀ j, (unpackRound P 1 (m + k) t).2.out.read j =
        if (m + k) * s.ctx.frameWidth.toNat ≤ j ∧ j < (m + k + n) * s.ctx.frameWidth.toNat then
          f (j - (m + k) * s.ctx.frameWidth.toNat) else t.out.read j) := by
  obtain ⟨-, -, -, -, h5, h6, -⟩ := h.frame
  have hl : frameLimit 1 t = 1 := by
    refine frameLimit_one ?_
    rw [totalReached, h5]
    exact ht
  have hstay : ∀ {a b : Nat} {x y : Option S32}, (if a ≤ b ∧ b < a then x else y) = y := by
    intro a b x y
    rw [if_neg (by omega)]
  simp only [unpackRound, h5, h6, frameLimit_one ht, hl]
  split_ifs with c1 c2
  · have o1 := fetchStep_out P s
    have o2 := fetchStep_out P t
    refine ⟨0, fun _ => none, rfl, rfl, fetchStep_blind P h, fun j => ?_, fun j => ?_⟩
    · rw [o1, Nat.add_zero, hstay]
    · rw [o2, Nat.add_zero, hstay]
  · have hg : gapFrames 1 s = 1 := by unfold gapFrames; omega
    have hg' : gapFrames 1 t = 1 := by unfold gapFrames; rw [h5, h6]; omega
    simp only [hg, hg', gapStep_eq]
    have hread : ∀ (k : Nat) (u : State) (j : Nat),
        (silentFrames 1 k u).out.read j =
          if k * u.ctx.frameWidth.toNat ≤ j ∧ j < (k + 1) * u.ctx.frameWidth.toNat then some 0
          else u.out.read j := by
      intro k u j
      rw [Nat.add_mul, Nat.one_mul]
      rw [silentFrames, Nat.one_mul]
      exact writeSilence_read _ _ u j
    refine ⟨1, fun _ => some 0, rfl, rfl, ?_, hread k s, ?_⟩
    · rw [silentFrames, silentFrames, h5]
      exact advance_blind 1 (writeSilence_blind _ _ _ h)
    · have := hread (m + k) t
      rw [h5] at this
      exact this
  · have hmin : min (s.blk.fin - s.ctx.cursor.toNat) 1 = 1 := by omega
    simp only [decodeStep_eq, h5, h6, hmin]
    obtain ⟨r1, r2⟩ := residuals_blind P s t h
    obtain ⟨-, q2, -, -, q5, q6, q7, -, q9, -⟩ := r2.frame
    have hv : ∀ a b, SameButOutput a.2 b.2 → (verifyAtEnd a).1 = a.1 ∧ (verifyAtEnd b).1 = b.1 ∧
        SameButOutput (verifyAtEnd a).2 (verifyAtEnd b).2 ∧ (verifyAtEnd a).2.out = a.2.out ∧
        (verifyAtEnd b).2.out = b.2.out := by
      intro a b hab
      obtain ⟨e1, -, -, -, e5, e6, -⟩ := hab.frame
      have hvo : ∀ u, (verifyBlock u).out = u.out := by
        intro u
        unfold verifyBlock
        split_ifs <;> rfl
      simp only [verifyAtEnd, e1, e5, e6]
      split_ifs
      · exact ⟨rfl, rfl, verifyBlock_blind hab, hvo _, hvo _⟩
      · exact ⟨rfl, rfl, hab, rfl, rfl⟩
    have hs := (residuals_frame P s).2.2.2
    have hs' := (residuals_frame P t).2.2.2.2.2.2.1
    rcases decodeFrame_cases P k s with ⟨he, hd⟩ | ⟨he, hd⟩
    · have hd' : decodeFrame P (m + k) t = (false, (residuals P t).2) := by
        rcases decodeFrame_cases P (m + k) t with ⟨-, hd'⟩ | ⟨he', -⟩
        · exact hd'
        · rw [q2, he] at he'; cases he'
      simp only [decodeFrames, hd, hd', Bool.false_eq_true, if_false]
      obtain ⟨v1, v2, v3, v4, v5⟩ := hv (k, endStream .exhausted (residuals P s).2)
        (m + k, endStream .exhausted (residuals P t).2) (endStream_blind _ r2)
      have w4 : (endStream .exhausted (residuals P s).2).out = s.out := hs.2.2.2.1
      have w5 : (endStream .exhausted (residuals P t).2).out = t.out := hs'
      refine ⟨0, fun _ => none, v1, v2, v3, fun j => ?_, fun j => ?_⟩
      · rw [v4, w4, Nat.add_zero, hstay]
      · rw [v5, w5, Nat.add_zero, hstay]
    · have hd' : decodeFrame P (m + k) t =
          (true, finishFrame P (m + k) (residuals P t).1 (residuals P t).2) := by
        rcases decodeFrame_cases P (m + k) t with ⟨he', -⟩ | ⟨-, hd'⟩
        · rw [q2, he] at he'; cases he'
        · exact hd'
      simp only [decodeFrames, hd, hd', if_true]
      obtain ⟨v1, v2, v3, v4, v5⟩ := hv (k + 1, finishFrame P k (residuals P s).1 (residuals P s).2)
        (m + k + 1, finishFrame P (m + k) (residuals P t).1 (residuals P t).2)
        (by rw [r1]; exact finishFrame_blind P _ _ _ r2)
      obtain ⟨u, hu⟩ : ∃ u, u = (residuals P s).2 := ⟨_, rfl⟩
      rw [← hu] at v1 v3 v4 r2 q5 q6 q7 q9 hs ⊢
      refine ⟨1, fun j => some (P.fixup u.blk.flags u.fexp
        ((postChain P u.blk.flags (passChain P u.pass (residuals P s).1).1).slot j)), v1, v2, v3,
        fun j => ?_, fun j => ?_⟩
      · rw [v4, finishFrame_read P k _ u j, hs.1, hs.2.2.2.1]
      · rw [v5, finishFrame_read P (m + k) _ _ j, q5, q6, q7, q9, hs.1,
          hs', r1]

/-- What the output holds where a run of k frames follows m others: below, what it held; then the
samples of the run by itself; above, what it held. -/
def OutputShifted (m W : Nat) (low high : Nat → Option S32) (k : Nat) (u v : State) : Prop :=
  ∀ j, v.out.read j =
    if j < m * W then low j else if j < (m + k) * W then u.out.read (j - m * W) else high j

/-- A run of n frames after m others is the run by itself, m frames later. -/
theorem UnitRun.shift {P : Params} {n m k k' : Nat} {low high : Nat → Option S32} {s u t : State}
    (hr : UnitRun P n k s k' u) (h : SameButOutput s t)
    (ho : OutputShifted m s.ctx.frameWidth.toNat low high k s t) :
    ∃ v, UnitRun P (m + n) (m + k) t (m + k') v ∧ SameButOutput u v ∧
      OutputShifted m s.ctx.frameWidth.toNat low high k' u v := by
  induction hr generalizing t with
  | stay => exact ⟨t, .stay _ _, h, ho⟩
  | round hk ht he next ih =>
    rename_i k s k' u
    obtain ⟨c, f, e1, e2, e3, e4, e5⟩ := unpackRound_shift P k m h ht
    obtain ⟨h1, -, -, -, h5, -⟩ := h.frame
    have hw := (unpackRound_keeps P 1 k s).1.frameWidth
    have hs : OutputShifted m (unpackRound P 1 k s).2.ctx.frameWidth.toNat low high
        (unpackRound P 1 k s).1 (unpackRound P 1 k s).2 (unpackRound P 1 (m + k) t).2 := by
      rw [hw, e1]
      generalize s.ctx.frameWidth.toNat = W at *
      intro j
      rw [← Nat.add_assoc]
      have a1 : (m + k + c) * W = m * W + k * W + c * W := by rw [Nat.add_mul, Nat.add_mul]
      have a2 : (k + c) * W = k * W + c * W := Nat.add_mul _ _ _
      have a3 : (m + k) * W = m * W + k * W := Nat.add_mul _ _ _
      rw [e5, ho, e4, a1, a2, a3]
      by_cases q1 : j < m * W
      · rw [if_neg (by omega), if_pos q1, if_pos q1]
      · rw [if_neg q1, if_neg q1]
        by_cases q2 : m * W + k * W ≤ j ∧ j < m * W + k * W + c * W
        · rw [if_pos q2, if_pos q2.2, if_pos (by omega)]
          congr 1
          omega
        · rw [if_neg q2]
          by_cases q3 : j < m * W + k * W
          · rw [if_pos q3, if_pos (by omega), if_neg (by omega)]
          · rw [if_neg q3, if_neg (by omega)]
    obtain ⟨v, g1, g2, g3⟩ := ih e3 hs
    refine ⟨v, .round (by omega) ?_ (by rw [h1]; exact he) ?_, g2, by rw [← hw]; exact g3⟩
    · rw [totalReached, h5]
      exact ht
    · rw [e2]
      rw [e1, ← Nat.add_assoc] at g1
      exact g1

end Sys2Proof.Machine
end

