-- ==== Sys2Proof/Laws/PerInstr.lean ====
section
/-! SUPPORT. The family `EncodedForm`, one lemma per command: the fields of a command's encoding are its
opcode, its immediate and zeros (spec/30_encoding.md R91, R93, R99). -/

namespace Sys2Proof.Laws

/-- The bits of a command word, lowest field first. -/
theorem getLsbD_cmdWord (op imm : BitVec 8) (i : Nat) :
    (cmdWord op imm).getLsbD i =
      if i < 8 then op.getLsbD i else if i < 16 then imm.getLsbD (i - 8) else false := by
  have h1 := BitVec.getLsbD_append (x := 0#16 ++ imm) (y := op) (i := i)
  have h2 := BitVec.getLsbD_append (x := 0#16) (y := imm) (i := i - 8)
  have h3 : (cmdWord op imm).getLsbD i = (0#16 ++ imm ++ op).getLsbD i := rfl
  rw [h3, h1, h2]
  by_cases h8 : i < 8 <;> by_cases h16 : i < 16 <;> simp [h8, h16]
  · omega
  · exact fun h => absurd h (by omega)

theorem cmdOp_cmdWord (op imm : BitVec 8) : cmdOp (cmdWord op imm) = op := by
  unfold cmdOp
  ext i hi
  rw [BitVec.getElem_extractLsb', getLsbD_cmdWord, if_pos (by omega)]
  simp [hi]

theorem cmdImm_cmdWord (op imm : BitVec 8) : cmdImm (cmdWord op imm) = imm := by
  unfold cmdImm
  ext i hi
  rw [BitVec.getElem_extractLsb', getLsbD_cmdWord, if_neg (by omega), if_pos (by omega)]
  simp [hi]

theorem cmdRsv_cmdWord (op imm : BitVec 8) : cmdRsv (cmdWord op imm) = 0 := by
  unfold cmdRsv
  ext i hi
  rw [BitVec.getElem_extractLsb', getLsbD_cmdWord, if_neg (by omega), if_neg (by omega)]
  simp

namespace EncodedForm

/-- The reserved bits of the encoding are 0, the opcode field is the command's and the immediate field
is its immediate. -/
def Statement (i : Instr) : Prop :=
  cmdRsv (encode i).1 = 0 ∧ cmdOp (encode i).1 = i.opcode ∧ cmdImm (encode i).1 = i.immField

theorem all (i : Instr) : Statement i :=
  ⟨cmdRsv_cmdWord _ _, cmdOp_cmdWord _ _, cmdImm_cmdWord _ _⟩

theorem openCtx : Statement .openCtx := all _
theorem unpack (max : Word) : Statement (.unpack max) := all _
theorem closeCtx : Statement .closeCtx := all _
theorem getSampleRate : Statement .getSampleRate := all _
theorem getNumChannels : Statement .getNumChannels := all _
theorem getBitsPerSample : Statement .getBitsPerSample := all _
theorem getBytesPerSample : Statement .getBytesPerSample := all _
theorem getNumSamples : Statement .getNumSamples := all _
theorem getCrcErrors : Statement .getCrcErrors := all _
theorem getReducedChannels : Statement .getReducedChannels := all _
theorem getChannelMask : Statement .getChannelMask := all _
theorem getFloatExp : Statement .getFloatExp := all _
theorem getCursor (k : BitVec 8) : Statement (.getCursor k) := all _
theorem getStatus : Statement .getStatus := all _
theorem getHdr (k : BitVec 8) : Statement (.getHdr k) := all _
theorem brAttach (budget : Word) : Statement (.brAttach budget) := all _
theorem brReadBits (n : BitVec 8) : Statement (.brReadBits n) := all _
theorem brReadBit : Statement .brReadBit := all _
theorem locReadHeader : Statement .locReadHeader := all _

end EncodedForm

end Sys2Proof.Laws
end

