-- ==== Sys2Proof/Laws/ReaderView.lean ====
section
/-! SUPPORT. What of the bit reader does not depend on how the source splits its responses
(spec/20_memory.md R63): the bytes ahead, the budget and the payload count with the unread bytes added
back, and the pending bits. A fetch is a function of these. -/

namespace Sys2Proof.Machine

/-- The part of the reader, the source and the payload count that no split of the responses changes. -/
structure ReaderView where
  bytes : List Byte
  budget : Nat
  left : Nat
  acc : BitVec 39
  cnt : Nat
  eod : Bool

def readerView (s : State) : ReaderView :=
  { bytes := s.br.unread ++ s.src.stream
    budget := s.br.unread.length + s.br.budget.toNat
    left := s.br.unread.length + s.blk.bytesLeft.toNat
    acc := s.br.acc
    cnt := s.br.cnt
    eod := s.br.eod }

/-- A fetch, in terms of the view: the next byte, or 0xFF and the end of data. -/
def ReaderView.fetch (v : ReaderView) : Byte × ReaderView :=
  if v.eod = true ∨ v.bytes = [] ∨ v.budget = 0 then (0xFF, { v with eod := true })
  else (v.bytes.headD 0,
    { v with bytes := v.bytes.tail, budget := v.budget - 1, left := v.left - 1 })

/-- The reader of an active block: in READY, its budget within the payload left, and no unread byte once
it has met the end of data. -/
structure ReaderLive (P : Params) (s : State) : Prop where
  buf : BufOk P s
  ready : s.seq.phase = .ready
  le : s.br.budget.toNat ≤ s.blk.bytesLeft.toNat
  eod : s.br.eod = true → s.br.unread = []

theorem unread_ne_nil {P : Params} {s : State} (h : BufOk P s) (hlt : s.br.idx < s.br.fin) :
    s.br.unread ≠ [] := by
  intro hh
  have := congrArg List.length hh
  simp [BitReader.unread] at this
  have h2 := h.2.1
  omega

theorem brNextByte_view {P : Params} {s : State} (h : ReaderLive P s) (hlt : s.br.idx < s.br.fin)
    (he : s.br.eod = false) :
    ((brNextByte s).1, readerView (brNextByte s).2) = (readerView s).fetch ∧
      ReaderLive P (brNextByte s).2 := by
  obtain ⟨e1, e2, e3⟩ := brNextByte_spec h.buf hlt
  obtain ⟨x, xs, hx⟩ := List.exists_cons_of_ne_nil (unread_ne_nil h.buf hlt)
  refine ⟨?_, ⟨e3, h.ready, h.le, fun hh => ?_⟩⟩
  · unfold ReaderView.fetch readerView
    rw [if_neg (by simp [he, hx]), e1, e2, hx]
    have b1 : (brNextByte s).2.src = s.src := rfl
    have b2 : (brNextByte s).2.br.budget = s.br.budget := rfl
    have b3 : (brNextByte s).2.br.acc = s.br.acc := rfl
    have b4 : (brNextByte s).2.br.cnt = s.br.cnt := rfl
    have b5 : (brNextByte s).2.br.eod = s.br.eod := rfl
    have b6 : (brNextByte s).2.blk = s.blk := rfl
    rw [b1, b2, b3, b4, b5, b6]
    simp
  · exact absurd (show s.br.eod = true from hh) (by rw [he]; simp)

/-- The refill of an active block, when the source answers: its bytes become the unread ones, and they are
charged to the budget and to the payload (R131). -/
theorem brRefill_live {P : Params} {s : State} (h : ReaderLive P s) (hidx : s.br.idx = s.br.fin)
    (he : s.br.eod = false) (hbud : s.br.budget ≠ 0)
    (hd : s.src.answer (min P.bufBytes s.br.budget.toNat) ≠ []) :
    (brRefill P s).1 = true ∧ ReaderLive P (brRefill P s).2 ∧
      (brRefill P s).2.br.idx < (brRefill P s).2.br.fin ∧ (brRefill P s).2.br.eod = false ∧
      readerView (brRefill P s).2 = readerView s := by
  have hun : s.br.unread = [] := by simp [BitReader.unread, hidx]
  set L := min P.bufBytes s.br.budget.toNat with hLdef
  set d := s.src.answer L with hddef
  have hdl : d.length ≤ L := Source.answer_length_le _ _
  have hdp : 0 < d.length := List.length_pos_iff.2 hd
  have hdb : d.length ≤ s.br.budget.toNat := by omega
  have hle := h.le
  have hds : d ++ s.src.stream.drop d.length = s.src.stream := by
    have : d = s.src.stream.take d.length := Source.answer_eq_take _ _
    conv_lhs => lhs; rw [this]
    simp
  set u : State := deductPayload d.length ((srcRead L s).2.setBr ((srcRead L s).2.br.load d)) with hu
  have href : brRefill P s = (true, u) := by
    simp only [brRefill, he, hbud, ne_eq, not_false_eq_true, and_self, if_true, srcRead_fst,
      ← hLdef, ← hddef, hd, if_false, hu]
  have hubr : u.br = s.br.load d := by rw [hu, deductPayload_br]; rfl
  have husrc : u.src = s.src.drop d.length := by rw [hu, deductPayload_src]; rfl
  have huseq : u.seq = s.seq := by rw [hu]; unfold deductPayload; split_ifs <;> rfl
  have hublk : u.blk.bytesLeft.toNat = s.blk.bytesLeft.toNat - d.length := by
    rw [hu]
    unfold deductPayload
    rw [if_pos (by exact h.ready)]
    show (s.blk.bytesLeft - BitVec.ofNat 32 d.length).toNat = _
    have := s.blk.bytesLeft.isLt
    rw [BitVec.toNat_sub, BitVec.toNat_ofNat]
    omega
  have hubud : u.br.budget.toNat = s.br.budget.toNat - d.length := by
    rw [hubr]
    show (s.br.budget - BitVec.ofNat 32 d.length).toNat = _
    have := s.br.budget.isLt
    rw [BitVec.toNat_sub, BitVec.toNat_ofNat]
    omega
  have hbu : BufOk P u := by
    refine ⟨?_, ?_, ?_⟩ <;> rw [hubr] <;> simp [BitReader.load]
    omega
  have hun' : u.br.unread = d := by rw [hubr, unread_load]
  have hueod : u.br.eod = false := by rw [hubr]; exact he
  rw [href]
  refine ⟨rfl, ⟨hbu, by rw [huseq]; exact h.ready, by rw [hublk, hubud]; omega,
    fun hh => by rw [hueod] at hh; cases hh⟩, by rw [hubr]; exact hdp, hueod, ?_⟩
  unfold readerView
  rw [hun', husrc, hublk, hubud, hun, hubr]
  show ReaderView.mk (d ++ s.src.stream.drop d.length) _ _ s.br.acc s.br.cnt s.br.eod = _
  rw [hds]
  simp
  constructor <;> omega

/-- A fetch of an active block is the view's fetch, however the source splits its responses. -/
theorem brFetchByte_view {P : Params} {s : State} (h : ReaderLive P s) :
    ((brFetchByte P s).1, readerView (brFetchByte P s).2) = (readerView s).fetch ∧
      ReaderLive P (brFetchByte P s).2 := by
  by_cases hidx : s.br.idx = s.br.fin
  · have hun : s.br.unread = [] := by simp [BitReader.unread, hidx]
    by_cases hg : s.br.eod = false ∧ s.br.budget ≠ 0
    · obtain ⟨he, hbud⟩ := hg
      have hbpos : 0 < s.br.budget.toNat := by
        rcases Nat.eq_zero_or_pos s.br.budget.toNat with h | h
        · exact absurd (BitVec.eq_of_toNat_eq (by simpa using h)) hbud
        · exact h
      have hL : 0 < min P.bufBytes s.br.budget.toNat := by
        have := Params.bufBytes_pos P; omega
      by_cases hd : s.src.answer (min P.bufBytes s.br.budget.toNat) = []
      · have hs := (Source.answer_eq_nil_iff _ hL).1 hd
        have hrf : brRefill P s =
            (false, (srcRead (min P.bufBytes s.br.budget.toNat) s).2) := by
          simp only [brRefill]
          rw [if_pos ⟨he, hbud⟩, if_pos (by exact hd)]
        have hfb : brFetchByte P s =
            (0xFF, (srcRead (min P.bufBytes s.br.budget.toNat) s).2.setBr
              { s.br with eod := true }) := by
          simp only [brFetchByte]
          rw [if_pos hidx, hrf]
          rfl
        rw [hfb]
        refine ⟨?_, ⟨h.buf, h.ready, h.le, fun _ => hun⟩⟩
        unfold ReaderView.fetch
        rw [if_pos (.inr (.inl (by simp [readerView, hun, hs])))]
        have b1 : ((srcRead (min P.bufBytes s.br.budget.toNat) s).2.setBr
            { s.br with eod := true }).src.stream = [] := by
          rw [State.setBr_src, srcRead_snd, hd]; simp [hs]
        have b2 : ({ s.br with eod := true } : BitReader).unread = [] := hun
        unfold readerView
        rw [b1, State.setBr_br, b2, hun, hs]
        rfl
      · obtain ⟨r1, r2, r3, r4, r5⟩ := brRefill_live h hidx he hbud hd
        have hfb : brFetchByte P s = brNextByte (brRefill P s).2 := by
          simp only [brFetchByte]
          rw [if_pos hidx, if_pos r1]
        rw [hfb, ← r5]
        exact brNextByte_view r2 r3 r4
    · have hfb : brFetchByte P s = (0xFF, s.setBr { s.br with eod := true }) := by
        simp only [brFetchByte, hidx, if_true, brRefill, if_neg hg, Bool.false_eq_true, if_false]
      rw [hfb]
      refine ⟨?_, ⟨h.buf, h.ready, h.le, fun _ => hun⟩⟩
      unfold ReaderView.fetch
      rw [if_pos]
      · rfl
      · rcases hh : s.br.eod with _ | _
        · have : s.br.budget = 0 := by
            by_contra hne; exact hg ⟨hh, hne⟩
          exact .inr (.inr (by simp [readerView, hun, this]))
        · exact .inl hh
  · have hlt : s.br.idx < s.br.fin := lt_of_le_of_ne h.buf.1 hidx
    have hfb : brFetchByte P s = brNextByte s := by simp only [brFetchByte, hidx, if_false]
    rw [hfb]
    refine brNextByte_view h hlt ?_
    rcases hh : s.br.eod with _ | _
    · rfl
    · exact absurd (h.eod hh) (unread_ne_nil h.buf hlt)

/-- Reading n bits gives the same bits and the same view from equal views (R63, R141). -/
theorem brFill_view {P : Params} (fuel n : Nat) {s t : State} (hv : readerView s = readerView t)
    (hs : ReaderLive P s) (ht : ReaderLive P t) :
    readerView (brFill P fuel n s) = readerView (brFill P fuel n t) ∧
      ReaderLive P (brFill P fuel n s) ∧ ReaderLive P (brFill P fuel n t) := by
  induction fuel generalizing s t with
  | zero => exact ⟨hv, hs, ht⟩
  | succ fuel ih =>
    have hc : s.br.cnt = t.br.cnt := congrArg ReaderView.cnt hv
    simp only [brFill, hc]
    split_ifs
    · obtain ⟨a1, a2⟩ := brFetchByte_view hs
      obtain ⟨b1, b2⟩ := brFetchByte_view ht
      rw [hv, ← b1, Prod.mk.injEq] at a1
      have c1 : (brFetchByte P s).2.br.acc = (brFetchByte P t).2.br.acc :=
        congrArg ReaderView.acc a1.2
      have c2 : (brFetchByte P s).2.br.cnt = (brFetchByte P t).2.br.cnt :=
        congrArg ReaderView.cnt a1.2
      have e : ∀ (u : State) (x : Byte), readerView (u.setBr (u.br.shiftIn x)) =
          { readerView u with
            acc := u.br.acc ||| (x.setWidth 39 <<< u.br.cnt), cnt := u.br.cnt + 8 } :=
        fun _ _ => rfl
      have l : ∀ (u : State) (x : Byte), ReaderLive P u → ReaderLive P (u.setBr (u.br.shiftIn x)) :=
        fun u x h => ⟨h.buf, h.ready, h.le, h.eod⟩
      exact ih (by rw [e, e, a1.1, a1.2, c1, c2]) (l _ _ a2) (l _ _ b2)
    · exact ⟨hv, hs, ht⟩

end Sys2Proof.Machine
end

