-- ==== Sys2Proof/Laws/Steps.lean ====
section
/-! SUPPORT. Whole commands and whole steps: what the commands other than OPEN, CLOSE and UNPACK leave
alone, the two ways OPEN ends, and the induction that carries a property through every step. -/

namespace Sys2Proof.Machine

/-! ### The commands that leave the context alone -/

/-- What a command that is not OPEN, CLOSE or UNPACK keeps. -/
structure KeepsContext (i : Instr) (s t : State) : Prop where
  ctx : t.ctx = s.ctx
  blk : t.blk = s.blk
  pass : t.pass = s.pass
  es : t.es = s.es
  fexp : t.fexp = s.fexp
  out : t.out = s.out
  host : t.host = s.host
  build : t.build = s.build
  phase : t.seq.phase = s.seq.phase
  cause : i ≠ .locReadHeader → t.seq.cause = s.seq.cause
  contract : t.seq.contract = s.seq.contract ∨ ∃ n : BitVec 8, 32 < n.toNat ∧ i = .brReadBits n ∧
    t.resp = some ⟨.contract, 0⟩ ∧ t.seq.contract = true
  reader : BufOk s.params s → AccOk s → BufOk t.params t ∧ AccOk t
  window : s.win.length ≤ hdrBytes → t.win.length ≤ hdrBytes
  outsideNoctx : s.seq.phase ≠ .noctx → t = s.setResp t.resp

theorem KeepsContext.setResp (i : Instr) (s : State) (r : Option Response) :
    KeepsContext i s (s.setResp r) :=
  ⟨rfl, rfl, rfl, rfl, rfl, rfl, rfl, rfl, rfl, fun _ => rfl, .inl rfl, fun h h' => ⟨h, h'⟩, id,
    fun _ => rfl⟩

theorem KeepsContext.readBits (i : Instr) (s : State) {n : Nat} (hn : n ≤ 32)
    (hp : s.seq.phase = .noctx) (r : Option Response) :
    KeepsContext i s ((brReadBitsOp s.params n s).2.setResp r) := by
  have h := brReadBitsOp_onlyReader s.params n s
  have hb := h.blk_eq (by rw [hp]; simp)
  obtain ⟨f1, f2, -, f4, f5, f6, f7, f8, -, f10, f11⟩ := h.frame
  refine ⟨f4, hb, f5, f6, f7, f8, f10, f11, congrArg Seq.phase f1, fun _ => congrArg Seq.cause f1,
    .inl (congrArg Seq.contract f1), fun h1 h2 => ?_, fun hw => ?_, fun h => absurd hp h⟩
  · have hs := brReadBitsOp_spec n s hn h1 h2
    have hq : (brReadBitsOp s.params n s).2.params = s.params := congrArg Build.params f11
    exact ⟨by rw [State.setResp_params, hq]; exact hs.1, hs.2.1⟩
  · rw [State.setResp_win, f2]
    exact hw

/-- The frame of every command but OPEN, CLOSE and UNPACK. -/
theorem exec_keepsContext {i : Instr} {s t : State} (h : exec i s = .next t) (h1 : i ≠ .openCtx)
    (h2 : i ≠ .closeCtx) (h3 : ∀ m, i ≠ .unpack m) : KeepsContext i s t := by
  cases i with
  | openCtx => exact absurd rfl h1
  | closeCtx => exact absurd rfl h2
  | unpack m => exact absurd rfl (h3 m)
  | getCursor k =>
    simp only [exec, execGetCursor] at h
    split at h <;> (obtain rfl := Host.Outcome.next.inj h; exact .setResp _ _ _)
  | getHdr k =>
    simp only [exec, execGetHdr] at h
    split at h <;> (obtain rfl := Host.Outcome.next.inj h; exact .setResp _ _ _)
  | brAttach b =>
    simp only [exec, execBrAttach, onlyInNoctx] at h
    split at h
    · rename_i hp
      obtain rfl := Host.Outcome.next.inj h
      refine ⟨rfl, rfl, rfl, rfl, rfl, rfl, rfl, rfl, rfl, fun _ => rfl, .inl rfl, fun _ _ => ?_, id,
        fun hn => absurd hp hn⟩
      refine ⟨⟨le_rfl, Nat.zero_le _, Nat.zero_le _⟩, Nat.zero_le _, ?_⟩
      show (0 : BitVec 39).toNat < _
      simp [brAttachOp]
    · obtain rfl := Host.Outcome.next.inj h
      exact .setResp _ _ _
  | brReadBits n =>
    simp only [exec, execBrReadBits, onlyInNoctx] at h
    split at h
    · rename_i hp
      split at h
      · rename_i hn
        obtain rfl := Host.Outcome.next.inj h
        exact ⟨rfl, rfl, rfl, rfl, rfl, rfl, rfl, rfl, rfl, fun _ => rfl, .inr ⟨n, hn, rfl, rfl, rfl⟩,
          fun h h' => ⟨h, h'⟩, id, fun hn => absurd hp hn⟩
      · rename_i hn
        obtain rfl := Host.Outcome.next.inj h
        exact .readBits _ _ (Nat.le_of_not_lt hn) hp _
    · obtain rfl := Host.Outcome.next.inj h
      exact .setResp _ _ _
  | brReadBit =>
    simp only [exec, execBrReadBit, onlyInNoctx] at h
    split at h
    · rename_i hp
      obtain rfl := Host.Outcome.next.inj h
      exact .readBits _ _ (by norm_num) hp _
    · obtain rfl := Host.Outcome.next.inj h
      exact .setResp _ _ _
  | locReadHeader =>
    simp only [exec, execLocReadHeader, onlyInNoctx] at h
    split at h
    · rename_i hp
      obtain rfl := Host.Outcome.next.inj h
      have hl := locate_onlyLocator s.params s
      have fp : (locate s.params s).state.seq.phase = s.seq.phase := congrArg Seq.phase hl.frame.1
      have fc : (locate s.params s).state.seq.contract = s.seq.contract :=
        congrArg Seq.contract hl.frame.1
      obtain ⟨-, f2, f3, f4, f5, f6, f7, f8, -, f10, f11⟩ := hl.frame
      refine ⟨f3, f4, f5, f6, f7, f8, f10, f11, fp, fun hn => absurd rfl hn, .inl fc, ?_,
        fun hw => locate_window s.params s hw, fun hn => absurd hp hn⟩
      have e : (locate s.params s).state.params = s.params := congrArg Build.params f11
      unfold BufOk AccOk
      simp only [respond_eq, State.setResp_br, State.setSeq_br, State.setResp_params,
        State.setSeq_params, f2, e]
      exact fun h h' => ⟨h, h'⟩
    · obtain rfl := Host.Outcome.next.inj h
      exact .setResp _ _ _
  | _ =>
    obtain rfl := Host.Outcome.next.inj h
    exact .setResp _ _ _

/-! ### OPEN -/

/-- The header loop of OPEN ends, with what it leaves of the window and of HDR (R202). -/
theorem openLoop_ends (P : Params) (fuel : Nat) (s : State) (hf : s.ahead.length < fuel) :
    ∃ u, OnlySearch s u ∧ (s.win.length ≤ hdrBytes → u.win.length ≤ hdrBytes) ∧
      ((∃ c, c ≠ .none ∧ openLoop P fuel s = .next (openFail P c u)) ∨
        (24 ≤ u.hdr.ckSize.toNat ∧ u.hdr.blockSamples ≠ 0 ∧ u.hdr.valid = true ∧
          openLoop P fuel s = .next (openAccept P u))) := by
  induction fuel generalizing s with
  | zero => omega
  | succ fuel ih =>
    simp only [openLoop]
    have hl := (locate_onlyLocator P s).onlySearch
    have hla := hl.trans (latchTotal_onlySearch (locate P s).state)
    have hw := locate_window P s
    have hwin : ∀ x : State, (latchTotal x).win = x.win ∧ (latchTotal x).hdr = x.hdr := by
      intro x
      rcases latchTotal_cases x with h | ⟨-, -, h⟩ <;> rw [h] <;> exact ⟨rfl, rfl⟩
    have hwa : s.win.length ≤ hdrBytes →
        (latchTotal (locate P s).state).win.length ≤ hdrBytes := by
      rw [(hwin _).1]; exact hw
    have hdw : ∀ (n : Nat) (x : State), x.win.length ≤ hdrBytes →
        (drain n x).2.win.length ≤ hdrBytes := by
      intro n x hx
      obtain ⟨r, l, e⟩ := drain_onlySource n x
      rw [e]; exact hx
    split_ifs with h1 h2 h3 h4
    · exact ⟨_, hl, hw, .inl ⟨_, h1, rfl⟩⟩
    · exact ⟨_, hla, hwa, .inl ⟨_, by simp, rfl⟩⟩
    · obtain ⟨-, hm⟩ := (locate_ahead P s).2 (by simpa using h1)
      have hd := drain_ahead ((latchTotal (locate P s).state).hdr.ckSize.toNat - 24)
        (latchTotal (locate P s).state)
      rw [latchTotal_ahead] at hd
      have h0 : hdrBytes = 32 := rfl
      obtain ⟨u, hu, hu2, hcase⟩ := ih (drain ((latchTotal (locate P s).state).hdr.ckSize.toNat - 24)
        (latchTotal (locate P s).state)).2 (by omega)
      exact ⟨u, (hla.trans (drain_onlySource _ _).onlySearch).trans hu,
        fun h => hu2 (hdw _ _ (hwa h)), hcase⟩
    · exact ⟨_, hla.trans (drain_onlySource _ _).onlySearch, fun h => hdw _ _ (hwa h),
        .inl ⟨_, by simp, rfl⟩⟩
    · refine ⟨_, hla, hwa, .inr ⟨by omega, h3, ?_, rfl⟩⟩
      rw [(hwin _).2]
      exact (locate_hdr P s).1 (by simpa using h1)

/-- A property that holds of both ways OPEN can end, the failure of R204 and the acceptance of R203. -/
theorem execOpenCtx_induct {J : State → Prop} {s t : State} (h : execOpenCtx s = .next t)
    (fail : ∀ c u, u.build = s.build → u.win.length ≤ hdrBytes → u.out = s.out →
      J (openFail s.params c u))
    (accept : ∀ (cfg : MetaCfg) (bitlen : Word) (v : State), v.build = s.build →
      v.win.length ≤ hdrBytes → v.out = s.out → v.pass = [] →
      bitlen.toNat ≤ v.blk.bytesLeft.toNat →
      (cfg.fresh = true → configValid s.params cfg.passes = true) →
      chainFits s.params (chainOf cfg v) (codedChannels s.params v.blk.flags)
        v.ctx.frameWidth = true →
      (∃ k q, s.params.parseMeta k q = .done cfg bitlen) →
      (∃ flags total, v.ctx =
        { Ctx.derive s.params flags (Ctx.reset s.params) with total := total }) →
      J ((((commitBlock s.params cfg bitlen v).setCtx
          { v.ctx with cursor := v.blk.blockIndex.setWidth 64 }).setSeq
            { v.seq with phase := .ready }).setResp (some ⟨.ok, 0⟩))) : J t := by
  obtain ⟨u, ⟨r, l, w, k, n, hu⟩, hw, hcase⟩ := openLoop_ends s.params (s.src.stream.length + 1)
    (openStart s.params s) (by show ([] ++ s.src.stream).length < _; simp)
  have hw := hw (Nat.zero_le _)
  have hu : u.out = s.out ∧ u.build = s.build ∧ u.pass = [] ∧
      u.ctx = { Ctx.reset s.params with total := n } := by
    rw [hu]; exact ⟨rfl, rfl, rfl, rfl⟩
  obtain ⟨a1, a2, a3, a4⟩ := hu
  have hex : execOpenCtx s =
    openLoop s.params (s.src.stream.length + 1) (openStart s.params s) := rfl
  rw [hex] at h
  rcases hcase with ⟨c, hc, he⟩ | ⟨-, -, -, he⟩
  · rw [he] at h
    obtain rfl := Host.Outcome.next.inj h
    exact fail _ _ a2 hw a1
  · rcases openAccept_cases s.params u with
      ⟨c, v, hc, ⟨r', l', n', hv⟩, ho⟩ | ⟨cfg, bitlen, v, ⟨r', l', n', hv⟩, hbl, hcv, hcf, hm, ho⟩
    · have e2 : v.out = u.out ∧ v.win = u.win ∧ v.build = u.build := by
        rw [hv]; simp [copyHeader, deriveCtx]
      rw [he, ho] at h
      obtain rfl := Host.Outcome.next.inj h
      exact fail _ _ (e2.2.2.trans a2) (by rw [e2.2.1]; exact hw) (e2.1.trans a1)
    · have e2 : v.out = u.out ∧ v.win = u.win ∧ v.build = u.build ∧ v.pass = u.pass ∧
          v.ctx = u.ctx.derive s.params u.hdr.flags := by
        rw [hv]; simp [copyHeader, deriveCtx]
      obtain ⟨b1, b2, b3, b4, b5⟩ := e2
      rw [he, ho] at h
      rw [← Host.Outcome.next.inj h]
      refine accept cfg bitlen v (b3.trans a2) (by rw [b2]; exact hw) (b1.trans a1) (b4.trans a3)
        hbl hcv hcf hm ⟨u.hdr.flags, n, ?_⟩
      rw [b5, a4]; rfl

/-! ### Every step -/

/-- A property of states that every command keeps, that reset establishes, and that holds whatever the
inputs to come, the record of transactions, the response, the source and the output buffer, is kept by
every step. -/
theorem step_induct {J : State → Prop} (hhost : ∀ s x, J s → J (State.setHost s x))
    (hlog : ∀ s x, J s → J (State.setLog s x)) (hsrc : ∀ s x, J s → J (State.setSrc s x))
    (hbuf : ∀ s, J s → J (State.setOut s []))
    (hwrite : ∀ s (i : Nat) v, J s → J (State.setOut s (s.out.write i v)))
    (hreset : ∀ s, J s → J (resetRegs s)) (hresp : ∀ s r, J s → J (State.setResp s r))
    (hexec : ∀ i s t, J s → exec i s = .next t → J t) (s t : State) (hj : J s)
    (h : step s = .next t) : J t := by
  have hrun : ∀ cmd arg s t, J s → runCommand cmd arg s = .next t → J t := by
    intro cmd arg s t hj h
    unfold runCommand at h
    split at h
    · obtain rfl := Host.Outcome.next.inj h
      exact hresp _ _ hj
    · exact hexec _ _ _ hj h
  have hfold : ∀ (l : List PortEvent) s, J s → J (l.foldl applyEvent s) := by
    intro l
    induction l with
    | nil => exact fun s h => h
    | cons e l ih =>
      intro s h
      refine ih _ ?_
      cases e with
      | srcRead a b => exact hlog _ _ (hsrc _ _ h)
      | outWrite i v => exact hlog _ _ (hwrite _ _ _ h)
      | outWriteFar n v => exact hlog _ _ (hwrite _ _ _ h)
  unfold step at h
  split at h
  · obtain rfl := Host.Outcome.next.inj h; exact hj
  · rename_i i rest _
    have ha : J (s.accept rest) := hlog _ _ (hhost _ _ hj)
    revert h ha
    generalize s.accept rest = a
    intro h ha
    cases i with
    | command cmd arg => exact hrun _ _ _ _ ha h
    | overlapped cmd arg _ _ => exact hrun _ _ _ _ ha h
    | reset => obtain rfl := Host.Outcome.next.inj h; exact hreset _ ha
    | resetDuring n cmd arg =>
      simp only [runInput, runInterrupted] at h
      split at h
      · obtain rfl := Host.Outcome.next.inj h
        exact hreset _ (hfold _ _ ha)
      · cases h
      · cases h
    | connect st sp => obtain rfl := Host.Outcome.next.inj h; exact hsrc _ _ ha
    | taken n => obtain rfl := Host.Outcome.next.inj h; exact hsrc _ _ ha
    | provideBuffer => obtain rfl := Host.Outcome.next.inj h; exact hbuf _ ha

end Sys2Proof.Machine
end

