-- ==== Sys2Proof/Machine/Assembler.lean ====
section
/-! DEFINITION. The command-script syntax and the pseudo-instructions (spec/30_encoding.md R99, R100):
`MNEMONIC [imm] [, arg]`, numbers decimal or 0x hexadecimal, an omitted number 0. What the rule leaves
open of the spelling (blanks, letter case of hexadecimal digits) is log entry 21. -/

namespace Sys2Proof.Asm

/-- A mnemonic with the immediate it fixes, if it fixes one: the opcode map's names (R95) and the
pseudo-instructions (R100). `SKIP_BITS n` and `NOP` are other names of BR_READ_BITS and GET_STATUS. -/
def mnemonics : List (String × BitVec 8 × Option (BitVec 8)) :=
  [("OPEN", 0x01, none), ("UNPACK", 0x02, none), ("CLOSE", 0x03, none),
   ("GET_SAMPLE_RATE", 0x10, none), ("GET_NUM_CHANNELS", 0x11, none),
   ("GET_BITS_PER_SAMPLE", 0x12, none), ("GET_BYTES_PER_SAMPLE", 0x13, none),
   ("GET_NUM_SAMPLES", 0x14, none), ("GET_CRC_ERRORS", 0x15, none),
   ("GET_REDUCED_CHANNELS", 0x16, none), ("GET_CHANNEL_MASK", 0x17, none),
   ("GET_FLOAT_EXP", 0x18, none), ("GET_CURSOR", 0x19, none), ("GET_STATUS", 0x1A, none),
   ("GET_HDR", 0x1B, none)] ++
  [("BR_ATTACH", 0x20, none), ("BR_READ_BITS", 0x21, none), ("BR_READ_BIT", 0x22, none),
   ("LOC_READ_HEADER", 0x23, none)] ++
  [("GET_CURSOR.LO", 0x19, some 0), ("GET_CURSOR.HI", 0x19, some 1),
   ("GET_HDR.MAGIC", 0x1B, some 0), ("GET_HDR.CKSIZE", 0x1B, some 1),
   ("GET_HDR.VERSION", 0x1B, some 2), ("GET_HDR.TRACK", 0x1B, some 3),
   ("GET_HDR.INDEX", 0x1B, some 4), ("GET_HDR.TOTAL", 0x1B, some 5),
   ("GET_HDR.BLOCK_INDEX", 0x1B, some 6), ("GET_HDR.BLOCK_SAMPLES", 0x1B, some 7),
   ("GET_HDR.FLAGS", 0x1B, some 8), ("GET_HDR.CRC", 0x1B, some 9), ("GET_HDR.VALID", 0x1B, some 10)] ++
  [("NOP", 0x1A, none), ("SKIP_BITS", 0x21, none)]

/-- The value of a hexadecimal digit. -/
def digit (c : Char) : Option Nat :=
  if '0' ≤ c ∧ c ≤ '9' then some (c.toNat - '0'.toNat)
  else if 'a' ≤ c ∧ c ≤ 'f' then some (c.toNat - 'a'.toNat + 10)
  else if 'A' ≤ c ∧ c ≤ 'F' then some (c.toNat - 'A'.toNat + 10)
  else none

/-- The digits of a number in a base, most significant first. -/
def digits (base : Nat) : List Char → Nat → Option Nat
  | [], acc => some acc
  | c :: cs, acc =>
    match digit c with
    | some d => if d < base then digits base cs (acc * base + d) else none
    | none => none

/-- A number, decimal or 0x hexadecimal; nothing at all is 0. -/
def number (cs : List Char) : Option Nat :=
  match cs with
  | [] => some 0
  | '0' :: 'x' :: c :: rest => digits 16 (c :: rest) 0
  | c :: rest => digits 10 (c :: rest) 0

/-- The characters before the first that satisfies p, and those from it on. -/
def cut (p : Char → Bool) : List Char → List Char × List Char
  | [] => ([], [])
  | c :: cs => if p c then ([], c :: cs) else ((c :: (cut p cs).1), (cut p cs).2)

/-- A text without its leading and trailing blanks. -/
def trim (cs : List Char) : List Char :=
  ((cs.dropWhile (· == ' ')).reverse.dropWhile (· == ' ')).reverse

/-- The command and argument words of one line of a command script: `cmd = op | imm << 8`, with
`arg` as written (R99). R100 gives SKIP_BITS n for n at most 32 only, so a wider one is refused (log
entry 21). -/
def assemble (line : List Char) : Option (Word × Word) :=
  let atComma := cut (· == ',') (trim line)
  let atBlank := cut (· == ' ') (trim atComma.1)
  match mnemonics.find? (fun m => m.1.toList == atBlank.1), number (trim atBlank.2),
      number (trim (atComma.2.drop 1)) with
  | some m, some imm, some arg =>
    if imm < 256 ∧ arg < 2 ^ 32 ∧ (m.2.2 = none ∨ trim atBlank.2 = []) ∧
        (atBlank.1 = "SKIP_BITS".toList → imm ≤ nbitsMax) then
      some (cmdWord m.2.1 (m.2.2.getD (BitVec.ofNat 8 imm)), BitVec.ofNat 32 arg)
    else none
  | _, _, _ => none

end Sys2Proof.Asm
end

