-- ==== Sys2Proof/Tests/Slice0.lean ====
section
/-! SUPPORT. The author's tests. Expected results are the vectors of spec/95_test_vectors.md and the
encodings of spec/30_encoding.md; each `test_witness_` theorem shows a state and operands that meet all
the hypotheses of the statement it names. -/

namespace Sys2Proof.Tests

open Sys2Proof Sys2Proof.Machine

/-! ### Helpers -/

/-- The state after reset with a byte source connected that answers every request in full. -/
def connected (stream : List Byte) : State :=
  State.reset.setSrc { stream := stream, splits := [], taken := 0 }

/-- The state a step answers; the state before where it stops. -/
def after (o : Out) (s : State) : State :=
  match o with
  | .next t => t
  | .fault _ => s
  | .refused _ => s

/-- The response of a step, as the code and data of the vectors. -/
def answerOf (o : Out) : Option (Nat × Nat) :=
  match o with
  | .next t => t.resp.map (fun r => (r.code.code, r.data.toNat))
  | .fault _ => none
  | .refused _ => none

/-- A command presented at the port in a state: one step. -/
def port (cmd arg : Word) (s : State) : Out := step (s.setHost [.command cmd arg])

/-- The four bytes of a u32, little-endian. -/
def le32 (n : Nat) : List Byte :=
  [BitVec.ofNat 8 n, BitVec.ofNat 8 (n / 256), BitVec.ofNat 8 (n / 65536),
    BitVec.ofNat 8 (n / 16777216)]

/-- A header of version 0x0407. -/
def header (ckSize total index samples flags crc : Nat) : List Byte :=
  [0x77, 0x76, 0x70, 0x6B] ++ le32 ckSize ++ [0x07, 0x04, 0x00, 0x00] ++ le32 total ++ le32 index
    ++ le32 samples ++ le32 flags ++ le32 crc

/-- Header H of spec/95_test_vectors.md §2.2. -/
def headerH : List Byte := header 24 0xFFFFFFFF 0 0 0x04800004 0

/-- The metadata and the bitstream of P1's block. -/
def metaP1 : List Byte := [0x01, 0x01, 0x01, 0x02, 0x00, 0x02, 0x00, 0x00, 0x04, 0x00, 0x00, 0x00]
def bitsP1 : List Byte := [0x0A, 0x14, 0xFB, 0x00]

/-- The stream of program P1. -/
def streamP1 : List Byte := header 0x28 4 0 4 0x04801805 0x1BA ++ metaP1 ++ bitsP1

/-- A pass with empty histories. -/
def newPass (term : BitVec 8) (delta : Nat) (wA wB : Int) : Pass :=
  { term := term, delta := delta, wA := wA, wB := wB, hA := histZero 8, hB := histZero 8 }

/-- A context in READY whose active block starts at an index, with its bits not yet read. -/
def playing (flags index samples crc total : Word) (passes : List Pass) (bits : List Byte) : State :=
  { connected bits with
    seq := { phase := .ready, cause := .none, contract := false }
    ctx := { (Ctx.reset Params.ti).derive Params.ti flags with total := total }
    pass := passes
    br := { BitReader.reset with budget := BitVec.ofNat 32 bits.length }
    blk := { active := true, bytesLeft := BitVec.ofNat 32 bits.length, crc := 0xFFFFFFFF
             bc := codedChannels Params.ti flags, blockIndex := index, blockSamples := samples
             flags := flags, crcStored := crc } }

/-- P1 after its OPEN. -/
def openedP1 : State := playing 0x04801805 0 4 0x1BA 4 [newPass 1 2 512 0] bitsP1

/-- A state in a phase. -/
def inPhase (p : Phase) (c : Cause) : State :=
  State.reset.setSeq { phase := p, cause := c, contract := false }

/-! ### Well-formedness -/

theorem test_cursor_2_refused : ¬ WellFormed (.getCursor 2) := by decide
theorem test_hdr_11_refused : ¬ WellFormed (.getHdr 11) := by decide
theorem test_wellformed_edges :
    WellFormed (.getCursor 1) ∧ WellFormed (.getHdr 10) ∧ WellFormed (.brReadBits 255) := by decide

/-! ### Decoding: words written out from the opcode map R95 (op 7:0, imm 15:8) -/

theorem test_decode_open : decode 0b00000001 0 = .ok .openCtx := by decide
theorem test_decode_unpack : decode 0b00000010 0x12345678 = .ok (.unpack 0x12345678) := by decide
theorem test_decode_close : decode 0b00000011 0 = .ok .closeCtx := by decide
theorem test_decode_getSampleRate : decode 0b00010000 0 = .ok .getSampleRate := by decide
theorem test_decode_getNumChannels : decode 0b00010001 0 = .ok .getNumChannels := by decide
theorem test_decode_getBitsPerSample : decode 0b00010010 0 = .ok .getBitsPerSample := by decide
theorem test_decode_getBytesPerSample : decode 0b00010011 0 = .ok .getBytesPerSample := by decide
theorem test_decode_getNumSamples : decode 0b00010100 0 = .ok .getNumSamples := by decide
theorem test_decode_getCrcErrors : decode 0b00010101 0 = .ok .getCrcErrors := by decide
theorem test_decode_getReducedChannels : decode 0b00010110 0 = .ok .getReducedChannels := by decide
theorem test_decode_getChannelMask : decode 0b00010111 0 = .ok .getChannelMask := by decide
theorem test_decode_getFloatExp : decode 0b00011000 0 = .ok .getFloatExp := by decide
theorem test_decode_getCursor : decode 0b00000001_00011001 0 = .ok (.getCursor 1) := by decide
theorem test_decode_getStatus : decode 0b00011010 0 = .ok .getStatus := by decide
theorem test_decode_getHdr : decode 0b00001010_00011011 0 = .ok (.getHdr 10) := by decide
theorem test_decode_brAttach : decode 0b00100000 3 = .ok (.brAttach 3) := by decide
theorem test_decode_brReadBits : decode 0b00100001_00100001 0 = .ok (.brReadBits 33) := by decide
theorem test_decode_brReadBit : decode 0b00100010 0 = .ok .brReadBit := by decide
theorem test_decode_locReadHeader : decode 0b00100011 0 = .ok .locReadHeader := by decide

/-- The refusals of §2.5, each by its step. -/
theorem test_decode_refusals :
    decode 0x00010011 0 = .error .reservedBits ∧ decode 0x01002121 0 = .error .reservedBits ∧
    decode 0x00 0 = .error .reservedOpcode ∧ decode 0x04 0 = .error .reservedOpcode ∧
    decode 0x1C 0 = .error .reservedOpcode ∧ decode 0x24 0 = .error .reservedOpcode ∧
    decode 0xFF 0 = .error .reservedOpcode ∧ decode 0x0111 0 = .error .illegalImm ∧
    decode 0x0219 0 = .error .illegalImm ∧ decode 0x0B1B 0 = .error .illegalImm ∧
    decode 0x0102 0 = .error .illegalImm := by decide

/-- The table words: the argument word is bits 63:32. -/
theorem test_table_words :
    decodeTableWord 32 0x02 = some (.unpack 0) ∧
    decodeTableWord 64 0x0000000700000002 = some (.unpack 7) ∧
    decodeTableWord 32 0x0000000700000002 = some (.unpack 0) := by decide

/-- Every row of the opcode table runs as the first command after reset: the accessors and the bit
reader answer OK, OPEN and LOC_READ_HEADER fail on the empty source, UNPACK is not allowed. -/
theorem test_every_row_runs :
    let answer := fun w => ((answerOf (step (State.reset.withFetchWord 32 w))).map Prod.fst).getD 99
    (∀ w, w ∈ (List.range 12).map (0x10 + ·) → answer w = 0) ∧
    [0x01, 0x02, 0x03, 0x20, 0x21, 0x22, 0x23].map answer = [2, 4, 0, 0, 0, 0, 2] := by decide

/-- The assembler: an immediate, an argument, a pseudo-instruction (R99, R100). -/
theorem test_assemble :
    Asm.assemble "BR_READ_BITS 12".toList = some (0x0C21, 0) ∧
    Asm.assemble "UNPACK , 0x10".toList = some (0x02, 16) ∧
    Asm.assemble "GET_HDR.CRC".toList = some (0x091B, 0) ∧
    Asm.assemble "SKIP_BITS 32".toList = some (0x2021, 0) ∧
    Asm.assemble "SKIP_BITS 33".toList = none := by decide

/-! ### The accessors: §2.3, the fallbacks after reset and P1 after OPEN -/

theorem test_getSampleRate : answerOf (port 0x10 0 State.reset) = some (0, 44100) := by decide
theorem test_getNumChannels : answerOf (port 0x11 0 openedP1) = some (0, 1) := by decide
theorem test_getBitsPerSample : answerOf (port 0x12 0 openedP1) = some (0, 16) := by decide
theorem test_getBytesPerSample : answerOf (port 0x13 0 openedP1) = some (0, 2) := by decide
theorem test_getNumSamples : answerOf (port 0x14 0 openedP1) = some (0, 4) := by decide
theorem test_getCrcErrors : answerOf (port 0x15 0 openedP1) = some (0, 0) := by decide
theorem test_getReducedChannels : answerOf (port 0x16 0 openedP1) = some (0, 0) := by decide
theorem test_getChannelMask : answerOf (port 0x17 0 openedP1) = some (0, 4) := by decide
theorem test_getFloatExp : answerOf (port 0x18 0 openedP1) = some (0, 0) := by decide

/-- The cursor's two words, low and high. -/
theorem test_getCursor :
    let s := openedP1.setCtx { openedP1.ctx with cursor := 0x100000002 }
    answerOf (port 0x0019 0 s) = some (0, 2) ∧ answerOf (port 0x0119 0 s) = some (0, 1) := by decide

theorem test_getStatus : answerOf (port 0x1A 0 (inPhase .failed .format)) = some (0, 0x33) := by decide

theorem test_getHdr :
    let s := State.reset.setHdr (parseHeader headerH)
    answerOf (port 0x001B 0 s) = some (0, 0x6B707677) ∧ answerOf (port 0x021B 0 s) = some (0, 0x0407) ∧
    answerOf (port 0x081B 0 s) = some (0, 0x04800004) ∧ answerOf (port 0x0A1B 0 s) = some (0, 1) := by
  decide

/-! ### The bit reader: §2.1 -/

theorem test_brAttach_state : answerOf (port 0x20 0 openedP1) = some (4, 0) := by decide

theorem test_brAttach :
    let t := after (port 0x20 3 State.reset) State.reset
    t.resp = some ⟨.ok, 0⟩ ∧ t.br.budget = 3 := by decide

/-- The third row: a 32-bit read that starts with 7 bits pending. -/
def pending7 : State :=
  { connected [0x80, 0xFF, 0x00, 0x5A] with
    br := { BitReader.reset with cnt := 7, budget := 4 } }

theorem test_brReadBits :
    let t := after (port 0x2021 0 pending7) State.reset
    t.resp = some ⟨.ok, 0x007FC000⟩ ∧ t.br.acc = 0x2D ∧ t.br.cnt = 7 ∧ t.src.taken = 4 := by decide

/-- The last row: the budget stops the reader inside a longer source. -/
theorem test_brReadBits_budget :
    let t := after (port 0x1021 0
      { connected [0x12, 0x34, 0x56] with br := { BitReader.reset with budget := 1 } }) State.reset
    t.resp = some ⟨.ok, 0xFF12⟩ ∧ t.br.eod = true ∧ t.src.taken = 1 := by decide

theorem test_brReadBit :
    let t := after (port 0x22 0 State.reset) State.reset
    t.resp = some ⟨.ok, 1⟩ ∧ t.br.acc = 0x7F ∧ t.br.cnt = 7 ∧ t.br.eod = true ∧ t.log = [] := by decide

/-! ### The locator: §2.2 -/

theorem test_locReadHeader_resync :
    let t := after (port 0x23 0 (connected ([0x00, 0x77, 0x76] ++ headerH))) State.reset
    t.resp = some ⟨.ok, 3⟩ ∧ t.seq.cause = .none ∧ t.hdr.valid = true ∧ t.src.taken = 35 := by decide

theorem test_locReadHeader_fails :
    let t := after (port 0x23 0 (connected (headerH.set 9 0x05))) State.reset
    t.resp = some ⟨.fail, 1⟩ ∧ t.seq.cause = .exhausted ∧ t.hdr.valid = false ∧ t.src.taken = 32 := by
  decide

/-! ### OPEN and CLOSE: P1 and §2.3 -/

theorem test_openCtx :
    let t := after (port 0x01 0 (connected streamP1)) State.reset
    t.resp = some ⟨.ok, 0⟩ ∧ t.seq.phase = .ready ∧ t.pass = [newPass 1 2 512 0] ∧
    t.src.taken = 44 ∧ t.ctx = openedP1.ctx ∧ t.blk = openedP1.blk ∧ t.br.budget = 4 := by decide

/-- A metadata-only block with a payload of two bytes, behind one byte that begins no header. -/
def metaBlock : MetaBlock :=
  { skipped := [0x00], header := header 26 9 0 0 0x04801805 0, payload := [0x98, 0x99] }

/-- A metadata-only block first: its payload is drained and its total latched (R202, R212). -/
theorem test_openCtx_after_metadata :
    let t := after (port 0x01 0 (connected (blockBytes [metaBlock] ++ streamP1))) State.reset
    t.resp = some ⟨.ok, 0⟩ ∧ t.seq.phase = .ready ∧ t.ctx.total = 9 ∧ t.src.taken = 79 := by decide

/-- JOINT term −1 on a mono block. -/
theorem test_openCtx_joint_on_mono :
    let t := after (port 0x01 0 (connected (header 0x28 4 0 4 0x04801805 0 ++
      [0x01, 0x01, 0xFF, 0x01, 0x00, 0x00, 0x00, 0x00, 0x04, 0x00, 0x00, 0x00] ++
      [0x01, 0x02, 0x03, 0x04]))) State.reset
    t.resp = some ⟨.fail, 0⟩ ∧ (statusWord t).toNat = 0x433 ∧ t.src.taken = 44 := by decide

theorem test_closeCtx :
    let s := openedP1.setHdr (parseHeader headerH)
    let t := after (port 0x03 0 s) s
    t.resp = some ⟨.ok, 0⟩ ∧ (statusWord t).toNat = 0x400 ∧ t.ctx.nch = 2 ∧ t.pass = [] := by decide

/-! ### UNPACK: P1 and P5 -/

theorem test_unpack :
    let t := after (port 0x02 4 openedP1) State.reset
    t.resp = some ⟨.ok, 4⟩ ∧ t.out = [(0, 10), (1, 25), (2, 8), (3, 4)] ∧ t.blk.crc = 0x1BA ∧
    t.ctx.crcErrors = 0 ∧ t.ctx.cursor = 4 ∧
    t.pass.map (fun p => (p.wA, histAt p.hA 0, histAt p.hA 3)) = [(512, 4, 10)] := by decide

/-- The bitstream ends inside the block: the fourth frame is discarded. -/
theorem test_unpack_end_of_data :
    let t := after (port 0x02 4 (playing 0x04801805 0 4 0 0xFFFFFFFF [] [0x05, 0x06, 0x07]))
      State.reset
    t.resp = some ⟨.endOfStream, 3⟩ ∧ t.out = [(0, 5), (1, 6), (2, 7)] ∧
    (statusWord t).toNat = 0x122 := by decide

/-! ### The passes: §2.4 -/

/-- Term 18 and a wrapped sum. -/
theorem test_chanStep :
    let a := chanStep Params.ti 18 2 512 [10, 4, 0, 0, 0, 0, 0, 0] (-1)
    let b := chanStep Params.ti 1 1 1024 ((histZero 8).set 0 0x7FFFFFFF) 0x7FFFFFFF
    a.y = 6 ∧ a.w = 510 ∧ histAt a.h 1 = 10 ∧ b.y = -2 ∧ b.w = 1024 := by decide

/-- The JOINT vectors of the terms −1, −2 and −3. -/
theorem test_joint :
    let run := fun (term : BitVec 8) (a b : S32) =>
      let r := passStep Params.ti { newPass term 2 256 512 with
        hA := (histZero 8).set 0 a, hB := (histZero 8).set 0 b } (.stereo 10 20)
      (r.1, r.2.wA, r.2.wB, histAt r.2.hA 0, histAt r.2.hB 0)
    run 0xFF 40 0 = (.stereo 20 30, 258, 514, 30, 0) ∧
    run 0xFE 0 40 = (.stereo 20 40, 258, 514, 0, 20) ∧
    run 0xFD 40 (-8) = (.stereo 20 16, 258, 510, 16, 20) := by decide

theorem test_applyWeight :
    [tiApplyWeight 512 3, tiApplyWeight 512 (-3), tiApplyWeight 1024 (-1), tiApplyWeight 1 511,
      tiApplyWeight 1 512, tiApplyWeight (-1) 512, tiApplyWeight (-1) 513] =
    [2, -1, -1, 0, 1, 0, -1] := by decide

theorem test_crcStep :
    tiCrcStep 0xFFFFFFFF 1 = 0xFFFFFFFE ∧ tiCrcStep 0xFFFFFFFE (-1) = 0xFFFFFFF9 ∧
    tiCrcStep 0x55555555 1 = 0 := by decide

/-! ### The port -/

/-- Reset during an UNPACK, after the source request and two samples: they remain done. -/
theorem test_reset_during :
    let t := after (step (openedP1.setHost [.resetDuring 3 0x02 4])) State.reset
    t.resp = none ∧ t.out = [(0, 10), (1, 25)] ∧ t.src.taken = 4 ∧ t.seq.phase = .noctx := by decide


/-! ### Witnesses: states and operands that meet the hypotheses of the statements -/

/-- A state with a command waiting. -/
def waiting (cmd arg : Word) : State := State.reset.setHost [.command cmd arg]

theorem test_witness_DecodeOfEncode : WellFormed (.getHdr 10) := by decide

theorem test_witness_AcceptedWordIsEncoding :
    decode 0x02 5 = .ok (.unpack 5) ∧ (Instr.unpack 5).opcode = 0x02 ∧
    decode 0x20 5 = .ok (.brAttach 5) ∧ (Instr.brAttach 5).opcode = 0x20 := by decide

/-- One word for each clause of the decode order, at the edges of the ranges. -/
theorem test_witness_DecodeOrder :
    0x10000 ≤ (0x00010000 : Word).toNat ∧
    (∀ n ∈ [0x00, 0x04, 0x0F, 0x1C, 0x1F, 0x24, 0xFF],
      (BitVec.ofNat 32 n).toNat < 0x10000 ∧ reservedOpcode ((BitVec.ofNat 32 n).toNat % 0x100)) ∧
    (∀ n ∈ [0x0219, 0x0B1B, 0x0101], (BitVec.ofNat 32 n).toNat < 0x10000 ∧
      ¬ reservedOpcode ((BitVec.ofNat 32 n).toNat % 0x100) ∧
      illegalImmediate ((BitVec.ofNat 32 n).toNat % 0x100)
        ((BitVec.ofNat 32 n).toNat / 0x100 % 0x100)) ∧
    ¬ illegalWord 0x0119 ∧ ¬ illegalWord 0x0A1B ∧ ¬ illegalWord 0xFF21 := by
  unfold illegalWord reservedOpcode illegalImmediate
  exact ⟨by decide, by decide, by decide, by decide, by decide, by decide⟩

theorem test_witness_ArgumentNeverChecked :
    (∃ i, decode 0x02 5 = .ok i) ∧ (0x11 : Word).toNat % 0x100 ≠ 0x02 ∧
    (0x11 : Word).toNat % 0x100 ≠ 0x20 ∧ openedP1.seq.phase = .ready :=
  ⟨⟨.unpack 5, by decide⟩, by decide⟩

theorem test_witness_StepRunsDecodedCommand :
    (waiting 0x02 5).host = .command 0x02 5 :: [] ∧ decode 0x02 5 = .ok (.unpack 5) ∧
    decodeTableWord 64 0x0000000500000002 = some (.unpack 5) := by decide

theorem test_witness_IllegalCommandResponse :
    (waiting 0x24 5).host = .command 0x24 5 :: [] ∧ illegalWord 0x24 := by
  unfold illegalWord reservedOpcode illegalImmediate
  decide

theorem test_witness_IllegalStateResponse :
    openedP1.seq.phase ≠ .noctx ∧ (∃ n, Instr.brReadBits 33 = .brReadBits n) ∧
    (State.reset.seq.phase = .noctx ∨ State.reset.seq.phase = .failed) ∧
    ((inPhase .failed .eos).seq.phase = .noctx ∨ (inPhase .failed .eos).seq.phase = .failed) :=
  ⟨by decide, ⟨33, rfl⟩, by decide⟩

theorem test_witness_IdleAndSecondCommand :
    State.reset.host = [] ∧
    (State.reset.setHost [.overlapped 0x22 0 0x03 0]).host = .overlapped 0x22 0 0x03 0 :: [] := by
  decide

theorem test_witness_ResetValues :
    State.resetOf .ti = State.resetOf .ti ∧ (1 : BitVec 8).toNat ≤ 1 ∧ (10 : BitVec 8).toNat ≤ 10 := by
  decide

theorem test_witness_ResetInput : (openedP1.setHost [.reset]).host = .reset :: [] := by decide

theorem test_witness_ResetDuringCommand :
    (openedP1.setHost [.resetDuring 3 0x02 4]).host = .resetDuring 3 0x02 4 :: [] := by decide

theorem test_witness_PortTransactions :
    (∃ t, exec (.unpack 4) openedP1 = .next t) ∧ (∃ t, exec .brReadBit State.reset = .next t) ∧
    ∀ max, Instr.brReadBit ≠ .unpack max :=
  ⟨⟨_, rfl⟩, ⟨_, rfl⟩, fun _ h => by cases h⟩

theorem test_witness_AccessorFallbacks :
    ClearedWithoutContext State.reset ∧
    (State.reset.seq.phase = .noctx ∨ State.reset.seq.phase = .failed) ∧
    ClearedWithoutContext (inPhase .failed .eos) ∧
    ((inPhase .failed .eos).seq.phase = .noctx ∨ (inPhase .failed .eos).seq.phase = .failed) ∧
    (1 : BitVec 8).toNat ≤ 1 :=
  ⟨fun _ => by decide, by decide, fun _ => by decide, by decide⟩

theorem test_witness_GetCursorWords :
    ClearedWithoutContext State.reset ∧ State.reset.noContext ∧ 1 < 2 ∧ 2 < 256 ∧ 1 < 255 ∧ 255 < 256 :=
  ⟨fun _ => by decide, .inl rfl, by decide⟩

theorem test_witness_GetHdrFields : 10 ≤ 10 ∧ 10 < 11 ∧ 11 < 256 ∧ 10 < 255 ∧ 255 < 256 := by decide

/-- The bit reader in range: after reset, with bits pending, and after the end of data. -/
theorem test_witness_reader :
    ReaderOk State.reset ∧ State.reset.seq.phase = .noctx ∧ State.reset.br.cnt = 0 ∧
    ReaderOk pending7 ∧ pending7.seq.phase = .noctx ∧
    ReaderOk (State.reset.setBr { BitReader.reset with eod := true }) := by
  unfold ReaderOk
  decide

theorem test_witness_AttachReadiesReader : pending7.seq.phase = .noctx := by decide

theorem test_witness_ReadBitsDeliversNextBits :
    ReaderOk pending7 ∧ pending7.seq.phase = .noctx ∧ (32 : BitVec 8).toNat ≤ 32 :=
  ⟨test_witness_reader.2.2.2.1, by decide⟩

theorem test_witness_ReadBitDeliversNextBit : ReaderOk pending7 ∧ pending7.seq.phase = .noctx :=
  ⟨test_witness_reader.2.2.2.1, by decide⟩

theorem test_witness_TwoReadsMakeOne :
    ReaderOk pending7 ∧ pending7.seq.phase = .noctx ∧
    (20 : BitVec 8).toNat + (12 : BitVec 8).toNat ≤ 32 :=
  ⟨test_witness_reader.2.2.2.1, by decide⟩

theorem test_witness_ReadsFetchNoAhead :
    ReaderOk State.reset ∧ State.reset.seq.phase = .noctx ∧ State.reset.br.cnt = 0 ∧
    ∀ n : BitVec 8, n ∈ [0, 1, 32] → n.toNat ≤ 32 :=
  ⟨test_witness_reader.1, by decide⟩

theorem test_witness_ReadBitsEdgeWidths :
    State.reset.seq.phase = .noctx ∧ 32 < (33 : BitVec 8).toNat ∧ 32 < (255 : BitVec 8).toNat := by
  decide

/-- The contract bit cleared by reset, and set by a request for 33 bits. -/
theorem test_witness_ContractBitSticky :
    (∃ s t : State, step s = .next t ∧ s.seq.contract = true ∧ t.seq.contract = false) ∧
    (∃ s t : State, step s = .next t ∧ s.seq.contract = false ∧ t.seq.contract = true) :=
  ⟨⟨(State.reset.setSeq { phase := .noctx, cause := .none, contract := true }).setHost [.reset],
      _, rfl, rfl, rfl⟩,
    ⟨waiting 0x2121 0, _, rfl, rfl, rfl⟩⟩

theorem test_witness_ReadCommandsFrame :
    ReaderOk pending7 ∧ pending7.seq.phase = .noctx ∧ (32 : BitVec 8).toNat ≤ 32 ∧
    (∃ t, exec (.brReadBits 32) pending7 = .next t) ∧ ∃ t, exec .brReadBit pending7 = .next t :=
  ⟨test_witness_reader.2.2.2.1, by decide, by decide, ⟨_, rfl⟩, ⟨_, rfl⟩⟩

theorem test_witness_EndOfDataReadsGoOn :
    let s := State.reset.setBr { BitReader.reset with eod := true }
    ReaderOk s ∧ s.seq.phase = .noctx ∧ s.br.eod = true :=
  ⟨test_witness_reader.2.2.2.2.2, rfl, rfl⟩

theorem test_witness_HeaderFieldsLittleEndian : headerH.length = 32 := by decide

theorem test_witness_HeaderValidityTest :
    headerH.length = 32 ∧ headerValid Params.ti headerH = true ∧
    headerValid Params.ti (headerH.set 9 0x05) = false := by decide

/-- A header right away, and one after three bytes. -/
theorem test_witness_LocateFindsFirstHeader :
    let s := connected ([0x00, 0x77, 0x76] ++ headerH)
    WindowOk s ∧ s.seq.phase = .noctx ∧ 3 ≤ 1048576 ∧ headerAt s.params s.ahead 3 ∧
    ∀ i, i < 3 → ¬ headerAt s.params s.ahead i := by
  unfold WindowOk headerAt
  decide

/-- No header begins with a zero byte. -/
theorem no_header_at_zero (P : Params) (bytes : List Byte) (i : Nat) (h : bytes[i]? = some 0) :
    ¬ headerAt P bytes i := by
  rintro ⟨-, hv⟩
  have h0 : ((bytes.drop i).take hdrBytes).getD 0 0 = 0 := by simp [List.getD, hdrBytes, h]
  simp only [headerValid, magicOk, Bool.and_eq_true, decide_eq_true_eq, h0] at hv
  exact absurd hv.1.1.1.1.1 (by decide)

/-- Zero bytes and then a header: it is the first one. -/
theorem header_after_zeros (n : Nat) :
    headerAt Params.ti (List.replicate n 0 ++ headerH) n ∧
    ∀ i, i < n → ¬ headerAt Params.ti (List.replicate n 0 ++ headerH) i := by
  have hl : headerH.length = 32 := by decide
  have hv : headerValid Params.ti headerH = true := by decide
  refine ⟨⟨by simp [hl, hdrBytes], ?_⟩, fun i hi => no_header_at_zero _ _ _ ?_⟩
  · rw [List.drop_append_of_le_length (by simp), List.drop_of_length_le (by simp), List.nil_append,
      List.take_of_length_le (by simp [hl, hdrBytes]), hv]
  · rw [List.getElem?_append_left (by simpa using hi), List.getElem?_replicate, if_pos hi]

/-- Zero bytes hold no header. -/
theorem no_header_in_zeros (n i : Nat) (h : i < n) : ¬ headerAt Params.ti (List.replicate n 0) i :=
  no_header_at_zero _ _ _ (by rw [List.getElem?_replicate, if_pos h])

/-- The last offset that is tested. -/
theorem test_witness_LocateFindsFirstHeader_edge :
    let s := connected (List.replicate 1048576 0 ++ headerH)
    WindowOk s ∧ s.seq.phase = .noctx ∧ 1048576 ≤ 1048576 ∧ headerAt s.params s.ahead 1048576 ∧
    ∀ i, i < 1048576 → ¬ headerAt s.params s.ahead i :=
  ⟨Nat.zero_le _, rfl, Nat.le_refl _, header_after_zeros 1048576⟩

/-- Where no header stands at any offset, and the bytes a locate searches after reset. -/
theorem ahead_connected (bytes : List Byte) : (connected bytes).ahead = bytes := rfl

/-- 1048608 bytes: the skip budget is exceeded. -/
theorem test_witness_LocateFailures_budget :
    let s := connected (List.replicate 1048608 0)
    WindowOk s ∧ s.seq.phase = .noctx ∧ 1048576 + 32 ≤ s.ahead.length ∧
    ∀ i, i ≤ 1048576 → ¬ headerAt s.params s.ahead i :=
  ⟨Nat.zero_le _, rfl, Nat.le_of_eq (List.length_replicate (n := 1048608)).symm,
    fun i hi => no_header_in_zeros 1048608 i (Nat.lt_of_le_of_lt hi (by decide))⟩

/-- Zero bytes hold no header, at any offset. -/
theorem no_header_in_zeros_at_all (n i : Nat) : ¬ headerAt Params.ti (List.replicate n 0) i := by
  intro h
  have hl := h.1
  rw [List.length_replicate] at hl
  exact no_header_in_zeros n i (Nat.lt_of_lt_of_le (Nat.lt_add_of_pos_right (by decide)) hl) h

/-- The edges of the other clause: 1048607 bytes, and 32 bytes that are no header. -/
theorem test_witness_LocateFailures_edges :
    ∀ n, n = 1048607 ∨ n = 32 →
      let s := connected (List.replicate n 0)
      WindowOk s ∧ s.seq.phase = .noctx ∧ s.ahead.length < 1048576 + 32 ∧
      ∀ i, ¬ headerAt s.params s.ahead i := by
  intro n hn
  refine ⟨Nat.zero_le _, rfl, ?_, no_header_in_zeros_at_all n⟩
  rw [ahead_connected, List.length_replicate]
  omega

/-- A string shorter than a header holds none: no byte, 20 bytes, and 31. -/
theorem test_witness_LocateFailures_short :
    (∀ bytes : List Byte, bytes ∈ [[], headerH.take 20, headerH.take 31] →
      let s := connected bytes
      WindowOk s ∧ s.seq.phase = .noctx ∧ s.ahead.length < 1048576 + 32 ∧
      ∀ i, ¬ headerAt s.params s.ahead i) := by
  intro bytes hb
  have hl : bytes.length < 32 := by
    revert bytes
    decide
  refine ⟨Nat.zero_le _, rfl, ?_, fun i hi => ?_⟩
  · show bytes.length < 1048576 + 32
    omega
  · have h := hi.1
    simp only [State.ahead, connected, State.reset, State.resetOf, State.setSrc, List.nil_append,
      hdrBytes] at h
    omega

theorem test_witness_LocateFrame :
    State.reset.seq.phase = .noctx ∧ ∃ t, exec .locReadHeader State.reset = .next t :=
  ⟨rfl, _, rfl⟩

theorem test_witness_OutputReadAfterWrite :
    Memory.wf [] ∧ Memory.wf [(0, 5), (3, 7)] ∧ 2 ≠ 3 := by decide

/-- P1's stream behind one byte that begins no header, and behind a metadata-only block. -/
theorem test_witness_OpenAcceptsAudioBlock :
    let w := header 0x28 4 0 4 0x04801805 0x1BA
    let tail := [0x11] ++ w ++ metaP1 ++ bitsP1
    let s := connected (blockBytes [metaBlock] ++ tail)
    let cfg : MetaCfg := { fresh := true, passes := [newPass 1 2 512 0], esInit := none, fexp := none }
    s.src.stream = blockBytes [metaBlock] ++ tail ∧ metadataOnly s.params tail [metaBlock] ∧
    [(0x11 : Byte)].length ≤ 1048576 ∧ w.length = 32 ∧ headerValid s.params w = true ∧
    (∀ i, i < [(0x11 : Byte)].length → ¬ headerAt s.params tail i) ∧
    24 ≤ (parseHeader w).ckSize.toNat ∧ (parseHeader w).blockSamples ≠ 0 ∧
    (∀ k, k < metaP1.length → s.params.parseMeta (parseHeader w) (metaP1.take k) = .need) ∧
    s.params.parseMeta (parseHeader w) metaP1 = .done cfg 4 ∧
    metaP1.length + (4 : Word).toNat ≤ (parseHeader w).ckSize.toNat - 24 ∧
    (cfg.fresh = true → configValid s.params cfg.passes = true) ∧
    chainFits s.params (if cfg.fresh then cfg.passes else [])
      (if (s.params.flagField (parseHeader w).flags).mono then 1 else 2)
      (if (s.params.flagField (parseHeader w).flags).mono then 1 else 2) = true := by
  simp only [metadataOnly, firstHeader, headerAt]
  decide

/-- The header of a mono block of four samples, with a payload of a size. -/
def monoHeader (payload : Nat) : Hdr :=
  parseHeader (header (24 + payload) 0xFFFFFFFF 0 4 0x04801805 0)

/-- Each failure of a locate, at its edges. -/
theorem test_witness_locateFails :
    locateFails Params.ti (List.replicate 1048608 0) .format ∧
    locateFails Params.ti (List.replicate 1048607 0) .exhausted ∧
    locateFails Params.ti (List.replicate 32 0) .exhausted ∧
    locateFails Params.ti (List.replicate 0 0) .eos := by
  have hl : ∀ n, (List.replicate n (0 : Byte)).length = n := fun n => List.length_replicate
  refine ⟨.inl ⟨rfl, ?_, fun i _ => no_header_in_zeros_at_all _ i⟩,
    .inr ⟨?_, no_header_in_zeros_at_all _, ?_⟩, .inr ⟨?_, no_header_in_zeros_at_all _, ?_⟩,
    .inr ⟨?_, no_header_in_zeros_at_all _, rfl⟩⟩
  · rw [hl]; decide
  · rw [hl]; decide
  · rw [if_neg]
    intro h
    have := congrArg List.length h
    rw [hl] at this
    cases this
  · rw [hl]; decide
  · rw [if_neg]
    intro h
    have := congrArg List.length h
    rw [hl] at this
    cases this
  · rw [hl]; decide

/-- Metadata that reach k bytes of a payload, for the witnesses of `beginFails`. -/
theorem metadataReaches_ti {payload k : Nat} {bytes : List Byte}
    (h : k ≤ payloadLength (monoHeader payload) ∧ k ≤ bytes.length ∧
      ∀ i, i < k → Params.ti.parseMeta (monoHeader payload) (bytes.take i) = .need) :
    metadataReaches Params.ti (monoHeader payload) bytes k := h

/-- Why a block cannot begin: MetaParse fails, the metadata run past the payload or past the source, the
bitstream runs past the payload, and a JOINT chain on a mono block. -/
theorem test_witness_beginFails :
    beginFails Params.ti (monoHeader 8) [] 1 [0x02, 0x00, 0x00] .format ∧
    beginFails Params.ti (monoHeader 3) [] 1 [0x01, 0x00, 0x00, 0x00] .format ∧
    beginFails Params.ti (monoHeader 8) [] 1 [0x01, 0x00, 0x00] .exhausted ∧
    beginFails Params.ti (monoHeader 8) [] 1 [0x01, 0x00, 0x03, 0x00, 0x00, 0x00] .format ∧
    beginFails Params.ti (monoHeader 8) [newPass 0xFF 2 0 0] 1 [0x00, 0x00, 0x02, 0x00, 0x00, 0x00]
      .format :=
  ⟨⟨2, metadataReaches_ti (by decide), .inl (by decide)⟩,
    ⟨3, metadataReaches_ti (by decide), .inr (.inl (by decide))⟩,
    ⟨3, metadataReaches_ti (by decide), .inr (.inr (.inl (by decide)))⟩,
    ⟨6, metadataReaches_ti (by decide), .inr (.inr (.inr
      ⟨{ fresh := true, passes := [], esInit := none, fexp := none }, 3, by decide, rfl,
        .inl (by decide)⟩))⟩,
    ⟨6, metadataReaches_ti (by decide), .inr (.inr (.inr
      ⟨{ fresh := false, passes := [], esInit := none, fexp := none }, 2, by decide, rfl,
        .inr (.inr (by decide))⟩))⟩⟩

/-- A fresh configuration that is not valid: TI-META gives none, so the parameters are others. -/
theorem test_witness_beginFails_config :
    let cfg : MetaCfg := { fresh := true, passes := [newPass 1 2 2000 0], esInit := none, fexp := none }
    beginFails { Params.ti with metaParse := fun _ _ => .done cfg 0 } (monoHeader 8) [] 1 [] .format :=
  ⟨0, ⟨by decide, by decide, fun i hi => absurd hi (Nat.not_lt_zero i)⟩, .inr (.inr (.inr
    ⟨_, 0, rfl, rfl, .inr (.inl (by decide))⟩))⟩

/-- Each way OPEN fails on the first header that is not one of a whole metadata-only block. -/
theorem test_witness_OpenOutcomes :
    (connected (blockBytes [metaBlock] ++ header 22 0 0 4 0x04801805 0)).src.stream =
      blockBytes [metaBlock] ++ header 22 0 0 4 0x04801805 0 ∧
    metadataOnly Params.ti (header 22 0 0 4 0x04801805 0) [metaBlock] ∧
    openFails Params.ti (List.replicate 0 0) .eos ∧
    openFails Params.ti (header 22 0 0 4 0x04801805 0) .format ∧
    openFails Params.ti (header 26 0 0 0 0x04801805 0 ++ [0x98]) .exhausted ∧
    openFails Params.ti (header 32 0xFFFFFFFF 0 4 0x04801805 0 ++ [0x01, 0x00, 0x00]) .exhausted := by
  have h0 : ∀ bytes, headerAt Params.ti bytes 0 → firstHeader Params.ti bytes 0 := fun _ h =>
    ⟨Nat.zero_le _, h, fun i hi => absurd hi (Nat.not_lt_zero i)⟩
  refine ⟨rfl, ?_, .inl test_witness_locateFails.2.2.2, .inr ⟨0, _, _, h0 _ ?_, rfl, rfl, .inl ?_⟩,
    .inr ⟨0, _, _, h0 _ ?_, rfl, rfl, .inr (.inl ?_)⟩,
    .inr ⟨0, _, _, h0 _ ?_, rfl, rfl, .inr (.inr ⟨by decide, by decide,
      test_witness_beginFails.2.2.1⟩)⟩⟩
  all_goals simp only [metadataOnly, firstHeader, headerAt]
  all_goals decide

/-- Integer and floating-point flags (the rows of the table of §2.3). -/
theorem test_witness_DerivedConfiguration :
    (Params.ti.flagField 0x04801805).float = false ∧ (Params.ti.flagField 0x07801883).float = true ∧
    (Params.ti.flagField 0x07801883).srate = Params.ti.rateCustom ∧
    (Params.ti.flagField 0x06811803).srate ≠ Params.ti.rateCustom ∧
    (Params.ti.flagField 0x05000801).final = false := by decide

theorem test_witness_PhaseTransitions :
    (∃ t, exec .openCtx State.reset = .next t) ∧ (∃ t, exec .closeCtx openedP1 = .next t) ∧
    (∃ t, exec (.unpack 4) openedP1 = .next t) ∧ ∃ t, exec .getStatus openedP1 = .next t :=
  ⟨⟨_, rfl⟩, ⟨_, rfl⟩, ⟨_, rfl⟩, ⟨_, rfl⟩⟩

theorem test_witness_ContextOnlyGrows :
    Instr.unpack 4 ≠ .openCtx ∧ Instr.unpack 4 ≠ .closeCtx ∧
    (∃ t, exec (.unpack 4) openedP1 = .next t) ∧ openedP1.ctx.total ≠ 0xFFFFFFFF :=
  ⟨by decide, by decide, ⟨_, rfl⟩, by decide⟩

theorem test_witness_UnpackResponse :
    (openedP1.seq.phase = .ready ∨ openedP1.seq.phase = .ended) ∧
    ((inPhase .ended .eos).seq.phase = .ready ∨ (inPhase .ended .eos).seq.phase = .ended) ∧
    (∃ t, exec (.unpack 4) openedP1 = .next t) := ⟨.inl rfl, .inr rfl, _, rfl⟩

theorem test_witness_OutputIndexesInOrder :
    (openedP1.seq.phase = .ready ∨ openedP1.seq.phase = .ended) ∧
    ∃ t, exec (.unpack 4) openedP1 = .next t := ⟨.inl rfl, _, rfl⟩

theorem test_witness_UnpackFrame :
    (∃ t, exec (.unpack 4) openedP1 = .next t) ∧ ∃ t, exec (.unpack 4) State.reset = .next t :=
  ⟨⟨_, rfl⟩, ⟨_, rfl⟩⟩

/-- The cursor at the known total, below it, and the end of the stream. -/
theorem test_witness_UnpackStops :
    (inPhase .ended .eos).seq.phase = .ended ∧ openedP1.seq.phase = .ready ∧
    openedP1.ctx.total ≠ 0xFFFFFFFF ∧ openedP1.ctx.cursor.toNat ≤ openedP1.ctx.total.toNat ∧
    let s := openedP1.setCtx { openedP1.ctx with cursor := 4 }
    s.seq.phase = .ready ∧ s.ctx.total ≠ 0xFFFFFFFF ∧ s.ctx.total.toNat ≤ s.ctx.cursor.toNat ∧
      s.ctx.cursor.toNat ≤ s.ctx.total.toNat := by decide

/-- A gap of five frames, of which three, then all five, are asked for. -/
theorem test_witness_UnpackGapIsSilent :
    let s := playing 0x04801801 5 2 0 7 [] [0xFE, 0x05, 0x00, 0x80]
    s.seq.phase = .ready ∧ s.blk.active = true ∧
    ∀ n ∈ [3, 5], let max := BitVec.ofNat 32 n
      0 < max.toNat ∧
      s.ctx.cursor.toNat + max.toNat ≤ s.blk.blockIndex.toNat ∧
      (s.ctx.total ≠ 0xFFFFFFFF → s.ctx.cursor.toNat + max.toNat ≤ s.ctx.total.toNat) := by decide

/-- The longest gap of two channels, whose last index is 2^33 − 3. -/
theorem test_witness_UnpackGapIsSilent_longest :
    let s := playing 0x04801801 0xFFFFFFFF 2 0 0xFFFFFFFF [] [0xFE, 0x05, 0x00, 0x80]
    s.seq.phase = .ready ∧ s.blk.active = true ∧
    let max : Word := 0xFFFFFFFF
    0 < max.toNat ∧ s.ctx.cursor.toNat + max.toNat ≤ s.blk.blockIndex.toNat ∧
    ¬ s.ctx.total ≠ 0xFFFFFFFF ∧ 2 ^ 32 < max.toNat * s.ctx.frameWidth.toNat := by decide

/-- The last index a u32 holds, and the one after it: both are written, each at its own number (R265). -/
theorem test_sample_past_u32 :
    (writeSample 4294967296 7 (writeSample 4294967295 5 State.reset)).out =
      [(4294967295, 5), (4294967296, 7)] ∧
    (writeSample 4294967296 7 (writeSample 4294967295 5 State.reset)).log =
      [.outWriteFar 4294967296 7, .outWrite 0xFFFFFFFF 5] := by decide

/-- P1's first frame, and its last, at the block's end. -/
theorem test_witness_UnpackOneFrame :
    ∀ n ∈ [0, 3],
      let s := openedP1.setCtx { openedP1.ctx with cursor := BitVec.ofNat 64 n }
      s.seq.phase = .ready ∧ s.blk.active = true ∧ s.blk.blockIndex.toNat ≤ s.ctx.cursor.toNat ∧
      s.ctx.cursor.toNat < s.blk.blockIndex.toNat + s.blk.blockSamples.toNat ∧
      (s.ctx.total ≠ 0xFFFFFFFF → s.ctx.cursor.toNat < s.ctx.total.toNat) ∧
      (residuals s.params s).2.br.eod = false := by decide

/-- A bitstream of no byte. -/
theorem test_witness_EndOfDataDiscardsFrame :
    let s := playing 0x04801805 0 4 0 0xFFFFFFFF [] []
    s.seq.phase = .ready ∧ s.blk.active = true ∧ 0 < (1 : Word).toNat ∧
    s.blk.blockIndex.toNat ≤ s.ctx.cursor.toNat ∧
    s.ctx.cursor.toNat < s.blk.blockIndex.toNat + s.blk.blockSamples.toNat ∧
    (s.ctx.total ≠ 0xFFFFFFFF → s.ctx.cursor.toNat < s.ctx.total.toNat) ∧
    (residuals s.params s).2.br.eod = true := by decide

/-- Three frames, and a fourth that meets the end of data. -/
theorem test_witness_EndOfDataDiscardsFrame_later :
    let s := playing 0x04801805 0 4 0 0xFFFFFFFF [] [0x05, 0x06, 0x07]
    let t := after (exec (.unpack 3) s) s
    s.seq.phase = .ready ∧ exec (.unpack 3) s = .next t ∧ t.resp = some ⟨.ok, 3⟩ ∧
    (3 : Word).toNat < (4 : Word).toNat ∧ t.blk.active = true ∧
    t.blk.blockIndex.toNat ≤ t.ctx.cursor.toNat ∧
    t.ctx.cursor.toNat < t.blk.blockIndex.toNat + t.blk.blockSamples.toNat ∧
    (t.ctx.total ≠ 0xFFFFFFFF → t.ctx.cursor.toNat < t.ctx.total.toNat) ∧
    (residuals t.params t).2.br.eod = true :=
  ⟨rfl, rfl, by decide⟩

/-- One frame of P1, then the other three. -/
theorem test_witness_UnpackInParts :
    let t := after (exec (.unpack 1) openedP1) openedP1
    openedP1.seq.phase = .ready ∧ (1 : Word).toNat + (3 : Word).toNat < 2 ^ 32 ∧
    exec (.unpack 1) openedP1 = .next t ∧ t.resp = some ⟨.ok, 1⟩ :=
  ⟨rfl, by decide, rfl, by decide⟩

/-- A frame of one channel and a frame of two. -/
theorem test_witness_FrameChannelOrder :
    let s := openedP1
    let t := playing 0x04801801 0 2 0 7 [] [0xFE, 0x05, 0x00, 0x80]
    s.blk.bc = 1 ∧ t.blk.bc = 2 ∧
    (∃ x0 es0 s0, runBits s.params (s.params.entropyDecode s.es .a) s = ((x0, es0), s0)) ∧
    ∃ x0 es0 s0 x1 es1 s1, runBits t.params (t.params.entropyDecode t.es .a) t = ((x0, es0), s0) ∧
      runBits t.params (t.params.entropyDecode es0 .b) (s0.setEs es0) = ((x1, es1), s1) :=
  ⟨rfl, rfl, ⟨_, _, _, rfl⟩, _, _, _, _, _, _, rfl, rfl⟩

/-- A context between blocks: the cursor is 4, two payload bytes are left, and a header follows. -/
def betweenBlocks (ckSize index samples : Nat) : State :=
  let s := (inPhase .ready .none).setSrc
    { stream := [0x98, 0x99] ++ header ckSize 0xFFFFFFFF index samples 0x04801805 0
      splits := [], taken := 0 }
  (s.setBlk { s.blk with bytesLeft := 2 }).setCtx { s.ctx with cursor := 4 }

/-- The stream that ends before the payload does. -/
theorem test_witness_FetchStepDecides_drained :
    let s := (inPhase .ready .none).setBlk { (inPhase .ready .none).blk with bytesLeft := 1 }
    WindowOk s ∧ s.src.stream.length < s.blk.bytesLeft.toNat := by
  unfold WindowOk
  decide

/-- The search that an UNPACK makes: one that ends the stream and one that goes on. -/
theorem test_witness_FetchStepDecides_unpack :
    ∀ n, n = 22 ∨ n = 24 →
      let s := betweenBlocks n 4 0
      s.seq.phase = .ready ∧ 0 < (1 : Word).toNat ∧
      (s.ctx.total ≠ 0xFFFFFFFF → s.ctx.cursor.toNat < s.ctx.total.toNat) ∧
      s.blk.active = false ∧ ((fetchStep s.params s).seq.phase = .ended ↔ n = 22) := by
  rintro n (rfl | rfl) <;> decide

/-- The header clauses: a size of 22, no samples, a passed block that ends at the cursor, an overlap. -/
theorem test_witness_FetchStepDecides_header :
    ∀ p : Nat × Nat × Nat, p ∈ [(22, 4, 4), (24, 4, 0), (24, 0, 4), (24, 3, 2), (32, 4, 2)] →
      let s := betweenBlocks p.1 p.2.1 p.2.2
      WindowOk s ∧ s.blk.bytesLeft.toNat ≤ s.src.stream.length ∧
      firstHeader s.params (s.win ++ s.src.stream.drop s.blk.bytesLeft.toNat) 0 := by
  simp only [WindowOk, firstHeader, headerAt]
  decide

/-- Which clause each of those headers is under. -/
theorem test_witness_FetchStepDecides_clauses :
    let h := fun s : State => parseHeader ((s.src.stream.drop 2).take 32)
    (h (betweenBlocks 22 4 4)).ckSize.toNat < 24 ∧ 24 ≤ (h (betweenBlocks 24 4 0)).ckSize.toNat ∧
    (h (betweenBlocks 24 4 0)).blockSamples = 0 ∧
    (h (betweenBlocks 24 0 4)).blockIndex.toNat + (h (betweenBlocks 24 0 4)).blockSamples.toNat ≤ 4 ∧
    (h (betweenBlocks 24 3 2)).blockSamples ≠ 0 ∧ (h (betweenBlocks 24 3 2)).blockIndex.toNat < 4 ∧
    4 < (h (betweenBlocks 24 3 2)).blockIndex.toNat + (h (betweenBlocks 24 3 2)).blockSamples.toNat := by
  decide

/-- A locate that fails where two payload bytes are drained first. -/
theorem test_witness_FetchStepDecides_locate :
    let s := ((inPhase .ready .none).setSrc { stream := [0x98, 0x99], splits := [], taken := 0 }).setBlk
      { (inPhase .ready .none).blk with bytesLeft := 2 }
    WindowOk s ∧ s.blk.bytesLeft.toNat ≤ s.src.stream.length ∧
    locateFails s.params (s.win ++ s.src.stream.drop s.blk.bytesLeft.toNat) .eos :=
  ⟨Nat.zero_le _, Nat.le_refl _, test_witness_locateFails.2.2.2⟩

/-- A block that begins at the cursor with the passes that stand; with those of
`test_witness_beginFails`, the last two clauses. -/
theorem test_witness_FetchStepDecides_begin :
    let h := parseHeader (header 32 0xFFFFFFFF 4 2 0x04801805 0)
    24 ≤ h.ckSize.toNat ∧ h.blockSamples ≠ 0 ∧ 4 ≤ h.blockIndex.toNat ∧
    beginsWith Params.ti h [newPass 1 2 512 0] 1 [0x00, 0x00, 0x02, 0x00, 0x00, 0x00, 0x05, 0x06] 6
      { fresh := false, passes := [], esInit := none, fexp := none } 2 :=
  ⟨by decide, by decide, by decide, ⟨by decide, by decide, by decide⟩, by decide, by decide,
    by decide, by decide⟩

/-- A bounded weight with a zero input and with a zero residual, and the two kinds of lag pass. -/
theorem test_witness_ChannelStep :
    (512 : Int).natAbs ≤ Params.ti.wBound 1 ∧ Params.ti.predInput 1 (histZero 8) = 0 ∧
    (histZero 8).length = Params.ti.maxHist ∧
    Params.ti.termKind (newPass 1 2 512 0).term = .short ∧
    Params.ti.termKind (newPass 17 2 512 0).term = .long := by decide

theorem test_witness_ShortTermLag :
    1 ≤ (1 : BitVec 8).toNat ∧ (1 : BitVec 8).toNat ≤ 8 ∧ (1 : BitVec 8).toNat ≤ [(5 : S32)].length ∧
    1 ≤ (8 : BitVec 8).toNat ∧ (8 : BitVec 8).toNat ≤ 8 ∧
    (8 : BitVec 8).toNat ≤ [(1 : S32), 2, 3, 4, 5, 6, 7, 8].length := by decide

theorem test_witness_JointSteps :
    (∀ n, n ∈ [0xFF, 0xFE, 0xFD] → Params.ti.termKind (BitVec.ofNat 8 n) = .joint) ∧
    (newPass 0xFF 2 256 512).hA.length = 8 ∧ (newPass 0xFF 2 256 512).hB.length = 8 ∧
    ∃ yA yB q, passStep Params.ti (newPass 0xFF 2 256 512) (.stereo 10 20) = (.stereo yA yB, q) :=
  ⟨by decide, rfl, rfl, _, _, _, rfl⟩

/-- An active block of which every invariant holds, about to be decoded. -/
def decodingP1 : State := openedP1.setHost [.command 0x02 4]

theorem decodingP1_step : ∃ t, step decodingP1 = .next t := ⟨_, rfl⟩

theorem test_witness_RangesKept :
    ReaderOk decodingP1 ∧ WindowOk decodingP1 ∧ DrainedOk decodingP1 ∧ Memory.wf decodingP1.out ∧
    ∃ t, step decodingP1 = .next t := by
  refine ⟨?_, ?_, ?_, by decide, decodingP1_step⟩ <;> simp only [ReaderOk, WindowOk, DrainedOk] <;>
    decide

theorem test_witness_ContextRegistersKept :
    ClearedWithoutContext decodingP1 ∧ ClearedWithoutContext State.reset ∧ WidthOk decodingP1 ∧
    CursorOk decodingP1 ∧ ∃ t, step decodingP1 = .next t := by
  refine ⟨fun h => ?_, fun _ => by decide, ?_, ?_, decodingP1_step⟩
  · exact absurd h (by unfold State.noContext; decide)
  all_goals simp only [WidthOk, CursorOk]; decide

theorem test_witness_WeightsStayBounded :
    PassesOk decodingP1 ∧ ∃ t, step decodingP1 = .next t := by
  refine ⟨?_, decodingP1_step⟩
  unfold PassesOk
  decide

theorem test_witness_ActiveBlockKept :
    decodingP1.blk.active = true ∧ BlockOk decodingP1 ∧ ∃ t, step decodingP1 = .next t := by
  refine ⟨by decide, ?_, decodingP1_step⟩
  unfold BlockOk
  decide

/-- P1 with its bits still in the stream, and with all of them read ahead into the buffer. -/
def readAhead : State :=
  { openedP1 with
    src := { stream := [], splits := [1], taken := 4 }
    br := { BitReader.reset with buf := bitsP1, fin := 4 }
    blk := { openedP1.blk with bytesLeft := 0 } }

theorem test_witness_SplitIndependence :
    SameButSplit openedP1 readAhead ∧ ReaderOk openedP1 ∧ ReaderOk readAhead ∧ DrainedOk openedP1 ∧
    DrainedOk readAhead ∧ BlockOk openedP1 ∧ BlockOk readAhead ∧
    (∃ s', exec (.unpack 4) openedP1 = .next s') ∧ ∃ t', exec (.unpack 4) readAhead = .next t' := by
  refine ⟨?_, ?_, ?_, ?_, ?_, ?_, ?_, ⟨_, rfl⟩, ⟨_, rfl⟩⟩
  · constructor <;> decide
  all_goals simp only [ReaderOk, DrainedOk, BlockOk]; decide

/-- A bit reader attached to three bytes, none of them read ahead, and with two of them in its buffer. -/
def attached (ahead : Bool) : State :=
  if ahead then
    { connected [0x0C] with br := { BitReader.reset with buf := [0x0A, 0x0B], fin := 2, budget := 1 } }
  else { connected [0x0A, 0x0B, 0x0C] with br := { BitReader.reset with budget := 3 } }

/-- A read of bits in NOCTX. -/
theorem test_witness_SplitIndependence_read :
    SameButSplit (attached false) (attached true) ∧ ReaderOk (attached false) ∧
    ReaderOk (attached true) ∧ DrainedOk (attached false) ∧ DrainedOk (attached true) ∧
    (∃ s', exec (.brReadBits 12) (attached false) = .next s') ∧
    ∃ t', exec (.brReadBits 12) (attached true) = .next t' := by
  refine ⟨?_, ?_, ?_, ?_, ?_, ⟨_, rfl⟩, ⟨_, rfl⟩⟩
  · constructor <;> decide
  all_goals simp only [ReaderOk, DrainedOk]; decide

/-- OPEN on one stream under two splits: no byte is unread, so the streams are equal. -/
theorem test_witness_SplitIndependence_open :
    let s := connected streamP1
    let t := State.reset.setSrc { stream := streamP1, splits := [1, 5], taken := 0 }
    SameButSplit s t ∧ s.src.stream = t.src.stream ∧ s.br.unread = [] ∧ t.br.unread = [] ∧
    ReaderOk s ∧ ReaderOk t ∧ DrainedOk s ∧ DrainedOk t ∧
    (∃ s', exec .openCtx s = .next s') ∧ ∃ t', exec .openCtx t = .next t' := by
  refine ⟨?_, rfl, rfl, rfl, ?_, ?_, ?_, ?_, ⟨_, rfl⟩, ⟨_, rfl⟩⟩
  · constructor <;> decide
  all_goals simp only [ReaderOk, DrainedOk]; decide

end Sys2Proof.Tests
end

section
/-! SUPPORT. The context registers through a whole step: the few ways a step can leave them, said once as
an induction, and from it the invariants of spec/10_state.md R21 to R24, R28 and R34. -/

namespace Sys2Proof.Machine

/-! ### What a step can do to the context registers -/

/-- Two states agree on the build, SEQ.state and every register a context holds. -/
structure SameContext (s t : State) : Prop where
  build : t.build = s.build
  phase : t.seq.phase = s.seq.phase
  ctx : t.ctx = s.ctx
  blk : t.blk = s.blk
  pass : t.pass = s.pass
  es : t.es = s.es
  fexp : t.fexp = s.fexp

theorem SameContext.params {s t : State} (h : SameContext s t) : t.params = s.params :=
  congrArg Build.params h.build

theorem KeepsContext.sameContext {i : Instr} {s t : State} (h : KeepsContext i s t) :
    SameContext s t :=
  ⟨h.build, h.phase, h.ctx, h.blk, h.pass, h.es, h.fexp⟩

/-- Every register a context holds stands at its fallback or reset value (spec/42_context.md R201). -/
def ContextCleared (s : State) : Prop :=
  s.ctx = Ctx.reset s.params ∧ s.fexp = 0 ∧ s.blk = Blk.reset s.params ∧ s.pass = [] ∧
    s.es = s.params.esReset

theorem clearedWithoutContext_iff (s : State) :
    ClearedWithoutContext s ↔ (s.noContext → ContextCleared s) := Iff.rfl

theorem SameContext.cleared {s t : State} (h : SameContext s t) (hs : ContextCleared s) :
    ContextCleared t := by
  rw [ContextCleared, h.params, h.ctx, h.fexp, h.blk, h.pass, h.es]
  exact hs

theorem resetOf_cleared (b : Build) : ContextCleared (State.resetOf b) := ⟨rfl, rfl, rfl, rfl, rfl⟩

theorem contextClear_cleared (s : State) : ContextCleared (contextClear s.params s) :=
  ⟨rfl, rfl, rfl, rfl, rfl⟩

theorem resetRegs_cleared (s : State) : ContextCleared (resetRegs s) := resetOf_cleared s.build

theorem openFail_cleared {P : Params} (c : Cause) {s : State} (hP : P = s.params) :
    ContextCleared (openFail P c s) := by
  subst hP
  exact contextClear_cleared s

theorem execCloseCtx_cleared {s t : State} (h : execCloseCtx s = .next t) : ContextCleared t := by
  obtain rfl := Host.Outcome.next.inj h
  exact contextClear_cleared s

/-- A pass file within MAX_PASSES, each pass valid and with histories of MAX_HIST values (R22, R24). -/
def PassesValid (P : Params) (ps : List Pass) : Prop :=
  ps.length ≤ P.maxPasses ∧ ∀ p ∈ ps, Params.passValid P p = true ∧ HistsOk P p

theorem passesOk_iff (s : State) : PassesOk s ↔ PassesValid s.params s.pass := Iff.rfl

theorem PassesValid.nil (P : Params) : PassesValid P [] := ⟨Nat.zero_le _, by simp⟩

/-- The chain a block begins with is valid: it is the one that stands, or a configuration that `ConfigValid`
accepts, with the histories of MetaParse (R246 to R248). -/
theorem chainOf_valid {P : Params} {cfg : MetaCfg} {bitlen : Word} {s : State}
    (hs : PassesValid P s.pass) (hc : cfg.fresh = true → configValid P cfg.passes = true)
    (hm : ∃ k q, P.parseMeta k q = .done cfg bitlen) : PassesValid P (chainOf cfg s) := by
  unfold chainOf
  split_ifs with hf
  · obtain ⟨k, q, hm⟩ := hm
    have hv := hc hf
    simp only [configValid, Bool.and_eq_true, decide_eq_true_eq, List.all_eq_true] at hv
    exact ⟨hv.1, fun p hp => ⟨hv.2 p hp, parseMeta_histsOk hm p hp⟩⟩
  · exact hs

/-- A context that OPEN has just opened: READY, the configuration derived from a flags word, the cursor at
a block's first index, and valid passes (spec/42_context.md R203). -/
structure ContextOpened (s : State) : Prop where
  phase : s.seq.phase = .ready
  config : ∃ (flags total index : Word), s.ctx =
    { Ctx.derive s.params flags (Ctx.reset s.params) with
      total := total, cursor := index.setWidth 64 }
  passes : PassesValid s.params s.pass

/-- OPEN clears the context or opens one. -/
theorem execOpenCtx_clears_or_opens {s t : State} (h : execOpenCtx s = .next t) :
    ContextCleared t ∨ ContextOpened t := by
  refine execOpenCtx_induct h (J := fun t => ContextCleared t ∨ ContextOpened t) ?_ ?_
  · intro c u hb _ _
    exact .inl (openFail_cleared c (congrArg Build.params hb).symm)
  · rintro cfg bitlen v hb _ _ hpass _ hcv _ hm ⟨flags, total, hctx⟩
    have hP : v.params = s.params := congrArg Build.params hb
    have hvalid : PassesValid s.params v.pass := by rw [hpass]; exact PassesValid.nil _
    rw [commitBlock_eq]
    refine .inr ⟨rfl, ⟨flags, total, v.blk.blockIndex, ?_⟩, ?_⟩
    · simp [hctx, hP]
    · simpa [hP] using chainOf_valid hvalid hcv hm

section
variable {J : State → Prop} (same : ∀ s t, SameContext s t → J s → J t)
  (cleared : ∀ t, ContextCleared t → J t) (opened : ∀ t, ContextOpened t → J t)
  (round : ∀ remaining k s, J s → s.seq.phase = .ready →
    J (unpackRound s.params remaining k s).2)
include same cleared opened round

/-- A property of the context registers that holds of a cleared and of a just opened context, and that
every round of UNPACK in READY keeps, is kept by every command. -/
theorem exec_context_induct {i : Instr} {s t : State} (hj : J s) (h : exec i s = .next t) : J t := by
  cases i with
  | openCtx => exact (execOpenCtx_clears_or_opens h).elim (cleared t) (opened t)
  | closeCtx => exact cleared t (execCloseCtx_cleared h)
  | unpack max =>
    refine execUnpack_induct (fun s r => same s _ ⟨rfl, rfl, rfl, rfl, rfl, rfl, rfl⟩) ?_ max s t hj h
    rintro _ remaining k u rfl hu hp
    exact round remaining k u hu hp
  | _ => exact same s t (exec_keepsContext h (by simp) (by simp) (by simp)).sameContext hj

/-- The same for every step. -/
theorem step_context_induct {s t : State} (hj : J s) (h : step s = .next t) : J t :=
  step_induct (J := J)
    (hhost := fun s _ => same s _ ⟨rfl, rfl, rfl, rfl, rfl, rfl, rfl⟩)
    (hlog := fun s _ => same s _ ⟨rfl, rfl, rfl, rfl, rfl, rfl, rfl⟩)
    (hsrc := fun s _ => same s _ ⟨rfl, rfl, rfl, rfl, rfl, rfl, rfl⟩)
    (hbuf := fun s => same s _ ⟨rfl, rfl, rfl, rfl, rfl, rfl, rfl⟩)
    (hwrite := fun s _ _ => same s _ ⟨rfl, rfl, rfl, rfl, rfl, rfl, rfl⟩)
    (hreset := fun s _ => cleared _ (resetRegs_cleared s))
    (hresp := fun s _ => same s _ ⟨rfl, rfl, rfl, rfl, rfl, rfl, rfl⟩)
    (hexec := fun _ _ _ => exec_context_induct same cleared opened round) s t hj h

end

/-! ### Fallbacks, frame width and cursor (R21, R28, R34) -/

/-- A round of UNPACK in READY leaves a context, live or ended. -/
theorem unpackRound_hasContext (P : Params) (remaining k : Nat) {s : State}
    (hp : s.seq.phase = .ready) : ¬ (unpackRound P remaining k s).2.noContext := by
  rcases unpackRound_seq P remaining k s with h | ⟨c, -, h⟩ <;> simp [State.noContext, h, hp]

theorem step_clearedWithoutContext {s t : State} (hs : ClearedWithoutContext s)
    (h : step s = .next t) : ClearedWithoutContext t := by
  refine step_context_induct (J := ClearedWithoutContext) ?_ ?_ ?_ ?_ hs h
  · intro s t hst hs
    rw [clearedWithoutContext_iff, State.noContext, hst.phase]
    exact fun hn => hst.cleared (hs hn)
  · exact fun t ht _ => ht
  · intro t ht hn
    rw [State.noContext, ht.phase] at hn
    simp at hn
  · exact fun remaining k s _ hp hn => absurd hn (unpackRound_hasContext _ remaining k hp)

/-- The derived frame width is the channel count, 1 or 2 (spec/42_context.md R210). -/
theorem derive_width (P : Params) (flags : Word) (c : Ctx) :
    (c.derive P flags).frameWidth = (c.derive P flags).nch ∧
      ((c.derive P flags).nch = 1 ∨ (c.derive P flags).nch = 2) := by
  simp only [Ctx.derive]
  split_ifs <;> simp

/-- The frozen configuration, register by register (spec/42_context.md R211). -/
theorem UnpackKeeps.config {s t : State} (h : UnpackKeeps s t) :
    t.ctx.rate = s.ctx.rate ∧ t.ctx.nch = s.ctx.nch ∧ t.ctx.bits = s.ctx.bits ∧
      t.ctx.bytes = s.ctx.bytes ∧ t.ctx.mask = s.ctx.mask ∧ t.ctx.reduced = s.ctx.reduced ∧
      t.ctx.frameWidth = s.ctx.frameWidth := by
  simpa using h.frozen

theorem step_widthOk {s t : State} (hs : WidthOk s) (h : step s = .next t) : WidthOk t := by
  refine step_context_induct (J := WidthOk) ?_ ?_ ?_ ?_ hs h
  · intro s t hst hs
    rwa [WidthOk, hst.ctx]
  · rintro t ⟨hctx, -⟩
    rw [WidthOk, hctx]
    exact ⟨rfl, .inr rfl⟩
  · intro t ht
    obtain ⟨flags, total, index, hctx⟩ := ht.config
    rw [WidthOk, hctx]
    exact derive_width t.params flags (Ctx.reset t.params)
  · intro remaining k s hs _
    obtain ⟨-, hnch, -, -, -, -, hwidth⟩ := (unpackRound_keeps s.params remaining k s).1.config
    rwa [WidthOk, hwidth, hnch]

/-- A decode step stays within its block (R244). -/
theorem decodeStep_cursor_le (P : Params) (lim k : Nat) (s : State)
    (hc : s.ctx.cursor.toNat ≤ s.blk.fin) :
    (decodeStep P lim k s).2.ctx.cursor.toNat ≤ s.blk.fin := by
  obtain ⟨-, -, -, hcount, hcur, -⟩ :=
    decodeFrames_keeps P (min (s.blk.fin - s.ctx.cursor.toNat) lim) k s (by omega)
  rw [decodeStep_eq, verifyAtEnd]
  split_ifs
  · dsimp only
    rw [(verifyBlock_frame _).2.2.1]
    omega
  · omega

/-- No round of UNPACK takes the cursor past the end of a block it has not already passed. -/
theorem unpackRound_cursor_le (P : Params) (remaining k : Nat) (s : State) :
    (unpackRound P remaining k s).2.ctx.cursor.toNat ≤ max s.ctx.cursor.toNat s.blk.fin := by
  simp only [unpackRound]
  split_ifs with hfetch hgap
  · rw [(fetchStep_seq P s).2]
    exact le_max_left _ _
  · have hle := (gapFrames_le (frameLimit remaining s) s).2
    have hfin : s.blk.blockIndex.toNat ≤ s.blk.fin := Nat.le_add_right _ _
    rw [gapStep_cursor]
    omega
  · exact (decodeStep_cursor_le P _ k s (by omega)).trans (le_max_right _ _)

theorem step_cursorOk {s t : State} (hs : CursorOk s) (h : step s = .next t) : CursorOk t := by
  refine step_context_induct (J := CursorOk) ?_ ?_ ?_ ?_ hs h
  · intro s t hst hs
    rwa [CursorOk, hst.ctx]
  · rintro t ⟨hctx, -⟩
    rw [CursorOk, hctx]
    exact Nat.zero_le _
  · intro t ht
    obtain ⟨flags, total, index, hctx⟩ := ht.config
    have hi := index.isLt
    rw [CursorOk, hctx]
    simp only [BitVec.toNat_setWidth]
    omega
  · intro remaining k s hs _
    have hle := unpackRound_cursor_le s.params remaining k s
    have hfin := Blk.fin_lt s.blk
    unfold CursorOk at hs ⊢
    omega

/-- Settles O55, one invariant at a time: each holds of a cleared and of a just opened context and is kept
by every round of UNPACK. -/
theorem contextRegistersKept : Obligations.ContextRegistersKept := by
  unfold Obligations.ContextRegistersKept
  intro s t hclear hwidth hcursor h
  exact ⟨step_clearedWithoutContext hclear h, step_widthOk hwidth h, step_cursorOk hcursor h⟩

/-! ### The pass file (R22, R24) -/

/-- The pass chain, run on a frame, stays valid: every weight it writes is clamped (R260). -/
theorem passChain_passesValid {P : Params} {ps : List Pass} (h : PassesValid P ps) (v : Frame) :
    PassesValid P (passChain P ps v).2 :=
  ⟨(passChain_length P ps v).le.trans h.1, passChain_valid h.2 v⟩

theorem OnlyPayload.pass {s t : State} (h : OnlyPayload s t) : t.pass = s.pass := by
  obtain ⟨r, l, n, rfl⟩ := h
  rfl

theorem beginBlock_passesValid {P : Params} {s : State} (h : PassesValid P s.pass) :
    PassesValid P (beginBlock P s).2.pass := by
  obtain ⟨u, hu, -, hcase⟩ := beginBlock_cases P s
  have hpass : PassesValid P u.pass := by rw [hu.pass]; exact h
  rcases hcase with ⟨c, -, hb⟩ | ⟨cfg, bitlen, hb, -, hc, -, hm⟩ <;> rw [hb]
  · exact hpass
  · rw [commitBlock_eq]
    exact chainOf_valid hpass hc hm

theorem takeHeader_passesValid {P : Params} {s : State} (h : PassesValid P s.pass) :
    PassesValid P (takeHeader P s).pass := by
  simp only [takeHeader]
  split_ifs
  · exact h
  · exact h
  · exact h
  · exact beginBlock_passesValid h
  · exact beginBlock_passesValid h

theorem drain_pass (n : Nat) (s : State) : (drain n s).2.pass = s.pass :=
  (drain_onlySource n s).onlyPayload.pass

theorem locate_pass (P : Params) (s : State) : (locate P s).state.pass = s.pass :=
  (locate_onlyLocator P s).frame.2.2.2.2.1

theorem latchTotal_pass (s : State) : (latchTotal s).pass = s.pass := by
  rcases latchTotal_cases s with h | ⟨-, -, h⟩ <;> rw [h]
  rfl

theorem verifyBlock_pass (s : State) : (verifyBlock s).pass = s.pass := by
  unfold verifyBlock
  split_ifs <;> rfl

theorem gapStep_pass (lim k : Nat) (s : State) : (gapStep lim k s).pass = s.pass := by
  obtain ⟨m, l, e⟩ := silentFrames_frame (gapFrames lim s) k s
  rw [gapStep_eq, e]
  rfl

theorem fetchStep_passesValid {P : Params} {s : State} (h : PassesValid P s.pass) :
    PassesValid P (fetchStep P s).pass := by
  have hd : (drain s.blk.bytesLeft.toNat s).2.pass = s.pass := drain_pass _ s
  have hl : (locate P (leaveBlock (drain s.blk.bytesLeft.toNat s).2)).state.pass = s.pass :=
    (locate_pass P _).trans hd
  simp only [fetchStep]
  split_ifs
  · exact hd ▸ h
  · exact hl ▸ h
  · exact takeHeader_passesValid (by rw [latchTotal_pass, hl]; exact h)

theorem decodeFrames_passesValid {P : Params} (n k : Nat) {s : State} (h : PassesValid P s.pass) :
    PassesValid P (decodeFrames P n k s).2.pass := by
  refine decodeFrames_induct (P := P) (I := fun _ _ u => PassesValid P u.pass) ?_ ?_ n k s h
  · intro n k u hu _
    have hframe := (finishFrame_frame P k (residuals P u).1 (residuals P u).2).2.2.2.2.2.2.2.2.1
    rw [hframe, (residuals_frame P u).2.2.2.2.1]
    exact passChain_passesValid hu _
  · intro n k u hu _
    exact (residuals_frame P u).2.2.2.2.1 ▸ hu

theorem decodeStep_passesValid {P : Params} (lim k : Nat) {s : State} (h : PassesValid P s.pass) :
    PassesValid P (decodeStep P lim k s).2.pass := by
  rw [decodeStep_eq, verifyAtEnd]
  split_ifs
  · dsimp only
    rw [verifyBlock_pass]
    exact decodeFrames_passesValid _ k h
  · exact decodeFrames_passesValid _ k h

theorem unpackRound_passesValid {P : Params} (remaining k : Nat) {s : State}
    (h : PassesValid P s.pass) : PassesValid P (unpackRound P remaining k s).2.pass := by
  simp only [unpackRound]
  split_ifs
  · exact fetchStep_passesValid h
  · rw [gapStep_pass]
    exact h
  · exact decodeStep_passesValid _ k h

/-- Settles O56: a fresh pass file has passed `ConfigValid`, and after that only the clamped update writes a
weight. -/
theorem weightsStayBounded : Obligations.WeightsStayBounded := by
  unfold Obligations.WeightsStayBounded
  intro s t hs h
  refine step_context_induct (J := PassesOk) ?_ ?_ ?_ ?_ hs h
  · intro s t hst hs
    rwa [passesOk_iff, hst.params, hst.pass]
  · rintro t ⟨-, -, -, hpass, -⟩
    rw [passesOk_iff, hpass]
    exact PassesValid.nil _
  · exact fun t ht => ht.passes
  · intro remaining k s hs _
    rw [passesOk_iff, (unpackRound_keeps s.params remaining k s).1.params]
    exact unpackRound_passesValid remaining k hs

/-! ### SEQ and CTX through one command (R21) -/

/-- An UNPACK keeps SEQ, or takes it from READY to ENDED with a cause (spec/60_exceptions.md R303). -/
theorem execUnpack_seq {max : Word} {s t : State} (h : execUnpack max s = .next t) :
    t.seq = s.seq ∨ (s.seq.phase = .ready ∧ ∃ c, c ≠ Cause.none ∧
      t.seq = { s.seq with phase := .ended, cause := c }) := by
  by_cases hp : s.seq.phase = .ready
  · have hends : SeqEnds s t := by
      refine execUnpack_induct (J := SeqEnds s) (fun _ _ => id) ?_ max s t (.inl rfl) h
      intro P remaining k u _ hu hready
      have hseq := hu.of_not_ended (by rw [hready]; simp)
      rw [SeqEnds, ← hseq]
      exact unpackRound_seq P remaining k u
    exact hends.imp id fun hc => ⟨hp, hc⟩
  · rw [execUnpack_not_ready max hp] at h
    obtain rfl := Host.Outcome.next.inj h
    exact .inl rfl

/-- OPEN ends in READY with cause NONE, or in FAILED with a cause (spec/42_context.md R203, R204). -/
theorem execOpenCtx_seq {s t : State} (h : execOpenCtx s = .next t) :
    (t.seq.phase = .ready ∧ t.seq.cause = .none) ∨
      (t.seq.phase = .failed ∧ t.seq.cause ≠ .none) := by
  obtain ⟨u, ⟨r, l, w, k, n, hu⟩, ⟨c, hc, ho⟩ | ⟨-, -, ho⟩⟩ := execOpenCtx_cases s
  · obtain rfl := Host.Outcome.next.inj (ho.symm.trans h)
    exact .inr ⟨rfl, hc⟩
  · obtain rfl := Host.Outcome.next.inj (ho.symm.trans h)
    rcases openAccept_cases s.params u with
      ⟨c, v, hc, -, ha⟩ | ⟨cfg, bitlen, v, ⟨r', l', n', hv⟩, -, -, -, -, ha⟩ <;> rw [ha]
    · exact .inr ⟨rfl, hc⟩
    · have hcause : v.seq.cause = .none := by rw [hv, hu]; rfl
      exact .inl ⟨rfl, hcause⟩

/-- Settles O39: OPEN and CLOSE by how they end, UNPACK by its one terminal transition, the others by their
frame. -/
theorem phaseTransitions : Obligations.PhaseTransitions := by
  unfold Obligations.PhaseTransitions
  intro i s t h
  cases i with
  | openCtx => exact ⟨fun _ => execOpenCtx_seq h, by simp, by simp, by simp⟩
  | closeCtx =>
    obtain rfl := Host.Outcome.next.inj h
    exact ⟨by simp, fun _ => ⟨rfl, rfl⟩, by simp, by simp⟩
  | unpack max =>
    refine ⟨by simp, by simp, fun _ _ => ?_, fun _ _ _ hphase => ?_⟩
    · rcases execUnpack_seq h with hseq | ⟨hready, c, hc, hseq⟩ <;> rw [hseq]
      · exact .inl rfl
      · exact .inr ⟨hready, rfl, hc, max, rfl⟩
    · rcases execUnpack_seq h with hseq | ⟨hready, c, -, hseq⟩
      · rw [hseq]
      · simp [hseq, hready] at hphase
  | _ =>
    have hk := exec_keepsContext h (by simp) (by simp) (by simp)
    exact ⟨by simp, by simp, fun _ _ => .inl hk.phase, fun _ _ hloc _ => hk.cause hloc⟩

/-- The frame of UNPACK holds under any one response. -/
theorem UnpackKeeps.setResp {s t : State} (h : UnpackKeeps s t) (r : Option Response) :
    UnpackKeeps (s.setResp r) (t.setResp r) :=
  { h with resp := rfl }

/-- What a whole UNPACK keeps: all that its rounds keep, but the response. -/
theorem execUnpack_keeps {max : Word} {s t : State} (h : execUnpack max s = .next t) :
    UnpackKeeps s (t.setResp s.resp) := by
  refine execUnpack_induct (J := fun u => UnpackKeeps s (u.setResp s.resp)) (fun _ _ => id) ?_ max s t
    (UnpackKeeps.refl s) h
  intro P remaining k u _ hu _
  exact hu.trans ((unpackRound_keeps P remaining k u).1.setResp s.resp)

/-- Settles O40: UNPACK by what its rounds keep, the other commands by keeping the whole of CTX. -/
theorem contextOnlyGrows : Obligations.ContextOnlyGrows := by
  unfold Obligations.ContextOnlyGrows
  intro i s t hopen hclose h
  by_cases hunpack : ∃ max, i = .unpack max
  · obtain ⟨max, rfl⟩ := hunpack
    have hk := execUnpack_keeps h
    obtain ⟨hrate, hnch, hbits, hbytes, hmask, hreduced, hwidth⟩ := hk.config
    exact ⟨hrate, hnch, hbits, hbytes, hmask, hreduced, hwidth, hk.total, hk.crcErrors, hk.cursor,
      fun hn => absurd rfl (hn max)⟩
  · have hctx := (exec_keepsContext h hopen hclose fun m hm => hunpack ⟨m, hm⟩).ctx
    rw [hctx]
    exact ⟨rfl, rfl, rfl, rfl, rfl, rfl, rfl, fun _ => rfl, le_rfl, le_rfl, fun _ => rfl⟩

end Sys2Proof.Machine
end

section
/-! SUPPORT. The reset state and the accessors (spec/10_state.md R34 to R36). -/

namespace Sys2Proof.Machine

/-! ### The accessors -/

/-- A zero cursor answers 0 to both of its word selects (R223). -/
theorem execGetCursor_zero {k : BitVec 8} {s : State} (hk : k.toNat ≤ 1) (hc : s.ctx.cursor = 0) :
    exec (.getCursor k) s = .next (s.setResp (some ⟨.ok, 0⟩)) := by
  have hword : cursorWord (immOperand k) s.ctx.cursor = some 0 := by
    rw [hc, immOperand]
    interval_cases k.toNat <;> rfl
  show execGetCursor k s = _
  rw [execGetCursor, hword]
  rfl

/-- Every field of the reset header is 0 (R225). -/
theorem hdrField_reset {k : Nat} (hk : k ≤ 10) : hdrField k Hdr.reset = some 0 := by
  interval_cases k <;> rfl

theorem execGetHdr_reset {k : BitVec 8} {s : State} (hk : k.toNat ≤ 10) (hh : s.hdr = Hdr.reset) :
    exec (.getHdr k) s = .next (s.setResp (some ⟨.ok, 0⟩)) := by
  show execGetHdr k s = _
  rw [execGetHdr, hh, immOperand, hdrField_reset hk]
  rfl

/-- Settles O15: an accessor answers its register and nothing else. -/
theorem accessorsAnswerRegisters : Obligations.AccessorsAnswerRegisters := by
  unfold Obligations.AccessorsAnswerRegisters
  exact fun s => ⟨rfl, rfl, rfl, rfl, rfl, rfl, rfl, rfl, rfl⟩

/-- What the plain accessors and GET_CURSOR answer where the context registers are cleared. -/
theorem accessors_of_cleared {s : State} (h : ContextCleared s) :
    exec .getSampleRate s = .next (s.setResp (some ⟨.ok, 44100⟩)) ∧
    exec .getNumChannels s = .next (s.setResp (some ⟨.ok, 2⟩)) ∧
    exec .getBitsPerSample s = .next (s.setResp (some ⟨.ok, 16⟩)) ∧
    exec .getBytesPerSample s = .next (s.setResp (some ⟨.ok, 2⟩)) ∧
    exec .getNumSamples s = .next (s.setResp (some ⟨.ok, 0xFFFFFFFF⟩)) ∧
    exec .getCrcErrors s = .next (s.setResp (some ⟨.ok, 0⟩)) ∧
    exec .getReducedChannels s = .next (s.setResp (some ⟨.ok, 0⟩)) ∧
    exec .getChannelMask s = .next (s.setResp (some ⟨.ok, s.params.defaultMask 2⟩)) ∧
    exec .getFloatExp s = .next (s.setResp (some ⟨.ok, 0⟩)) ∧
    ∀ k : BitVec 8, k.toNat ≤ 1 → exec (.getCursor k) s = .next (s.setResp (some ⟨.ok, 0⟩)) := by
  obtain ⟨hctx, hfexp, -⟩ := h
  obtain ⟨h1, h2, h3, h4, h5, h6, h7, h8, h9⟩ := accessorsAnswerRegisters s
  rw [h1, h2, h3, h4, h5, h6, h7, h8, h9, hfexp, hctx]
  exact ⟨rfl, rfl, rfl, rfl, rfl, rfl, rfl, rfl, rfl,
    fun k hk => execGetCursor_zero hk (by rw [hctx]; rfl)⟩

/-- Settles O16: without a context the registers stand at the fallbacks. -/
theorem accessorFallbacks : Obligations.AccessorFallbacks := by
  unfold Obligations.AccessorFallbacks
  exact fun s hs hn => accessors_of_cleared (hs hn)

/-! ### The status word (R35) -/

theorem Phase.code_lt (p : Phase) : p.code < 4 := by cases p <;> decide

theorem Cause.code_lt (c : Cause) : c.code < 4 := by cases c <;> decide

/-- The status word by its value: no field overflows the word. -/
theorem statusWord_toNat (s : State) : (statusWord s).toNat =
    s.seq.phase.code + s.seq.cause.code * 16 + s.br.eod.toNat * 256 + s.seq.contract.toNat * 512 +
      s.hdr.valid.toNat * 1024 := by
  have hp := s.seq.phase.code_lt
  have hc := s.seq.cause.code_lt
  have he := s.br.eod.toNat_le
  have hk := s.seq.contract.toNat_le
  have hv := s.hdr.valid.toNat_le
  rw [statusWord, BitVec.toNat_ofNat, Nat.mod_eq_of_lt (by omega)]

/-- The fields of the status word, read back. -/
theorem statusWord_fields (s : State) :
    (statusWord s).toNat % 4 = s.seq.phase.code ∧ (statusWord s).toNat / 4 % 4 = 0 ∧
      (statusWord s).toNat / 16 % 16 = s.seq.cause.code ∧
      (statusWord s).toNat / 256 % 2 = s.br.eod.toNat ∧
      (statusWord s).toNat / 512 % 2 = s.seq.contract.toNat ∧
      (statusWord s).toNat / 1024 % 2 = s.hdr.valid.toNat ∧
      (statusWord s).toNat / 2048 = 0 := by
  have hp := s.seq.phase.code_lt
  have hc := s.seq.cause.code_lt
  have he := s.br.eod.toNat_le
  have hk := s.seq.contract.toNat_le
  have hv := s.hdr.valid.toNat_le
  rw [statusWord_toNat]
  omega

theorem runCommand_getStatus (arg : Word) (s : State) :
    runCommand 0x1A arg s = exec .getStatus s := by
  have hdecode : decode 0x1A arg = .ok .getStatus := rfl
  rw [runCommand, hdecode]

/-- Settles O18: the fields of the sum that the status word is. -/
theorem statusWordLayout : Obligations.StatusWordLayout := by
  unfold Obligations.StatusWordLayout
  intro s
  obtain ⟨hphase, hlow, hcause, heod, hcontract, hvalid, hhigh⟩ := statusWord_fields s
  refine ⟨statusWord s, rfl, fun arg => runCommand_getStatus arg s, hphase.trans ?_, hlow,
    hcause.trans ?_, heod, hcontract, hvalid, hhigh⟩
  · cases s.seq.phase <;> rfl
  · cases s.seq.cause <;> rfl

/-! ### Reset (R36) -/

theorem statusWord_resetOf (b : Build) : statusWord (State.resetOf b) = 0 := by
  simp [statusWord, State.resetOf, BitReader.reset, Hdr.reset, Phase.code, Cause.code]

theorem execGetStatus_resetOf (b : Build) :
    exec .getStatus (State.resetOf b) = .next ((State.resetOf b).setResp (some ⟨.ok, 0⟩)) := by
  rw [← statusWord_resetOf b]
  rfl

/-- Settles O10: the registers by their definition, the accessors by those of a cleared context. -/
theorem resetValues : Obligations.ResetValues := by
  unfold Obligations.ResetValues
  rintro b s rfl
  obtain ⟨h1, h2, h3, h4, h5, h6, h7, h8, h9, hcursor⟩ := accessors_of_cleared (resetOf_cleared b)
  exact ⟨rfl, ⟨rfl, rfl, rfl, rfl, rfl, rfl⟩, rfl, rfl, rfl, rfl, rfl, rfl, rfl,
    h1, h2, h3, h4, h5, h6, h7, h8, h9, hcursor, execGetStatus_resetOf b,
    fun k hk => execGetHdr_reset hk rfl⟩

/-- The empty bit reader is in range, and has no byte unread (R25). -/
theorem resetOf_reader (b : Build) : ReaderOk (State.resetOf b) ∧ DrainedOk (State.resetOf b) :=
  ⟨⟨Nat.zero_le _, Nat.one_pos, le_rfl, le_rfl, Nat.zero_le _⟩, fun _ => rfl⟩

/-- No block is active after reset. -/
theorem resetOf_blockOk (b : Build) : BlockOk (State.resetOf b) := by
  intro hactive
  cases hactive

/-- Settles O53: an empty reader, window, pass file and output buffer, and a cleared context. -/
theorem resetMeetsInvariants : Obligations.ResetMeetsInvariants := by
  unfold Obligations.ResetMeetsInvariants
  intro b
  obtain ⟨hreader, hdrained⟩ := resetOf_reader b
  exact ⟨Memory.wf_nil, hreader, Nat.zero_le _, fun _ => resetOf_cleared b, ⟨rfl, .inr rfl⟩,
    PassesValid.nil _, resetOf_blockOk b, Nat.zero_le _, hdrained⟩

end Sys2Proof.Machine
end

section
/-! SUPPORT. Two runs that differ in how the source splits its responses (spec/20_memory.md R63): the states
that differ in the split only, and what each operation makes of two such states. -/

namespace Sys2Proof.Machine

/-! ### States that differ in the reader, the source and the payload count -/

/-- A state that differs from `s` in the bit reader, the source, the record of transactions and the count of
payload bytes left only. -/
def SameButReader (s t : State) : Prop :=
  ∃ b r l n, t = (((s.setBr b).setSrc r).setLog l).setBlk { s.blk with bytesLeft := n }

theorem SameButReader.symm {s t : State} (h : SameButReader s t) : SameButReader t s := by
  obtain ⟨b, r, l, n, rfl⟩ := h
  exact ⟨s.br, s.src, s.log, s.blk.bytesLeft, rfl⟩

theorem SameButReader.trans {s t u : State} (h : SameButReader s t) (h' : SameButReader t u) :
    SameButReader s u := by
  obtain ⟨b, r, l, n, rfl⟩ := h
  obtain ⟨b', r', l', n', rfl⟩ := h'
  exact ⟨b', r', l', n', rfl⟩

theorem OnlyReader.sameButReader {s t : State} (h : OnlyReader s t) : SameButReader s t := by
  obtain ⟨b, r, l, n, -, e⟩ := h
  exact ⟨b, r, l, n, e⟩

theorem OnlySource.sameButReader {s t : State} (h : OnlySource s t) : SameButReader s t :=
  h.onlyReader.sameButReader

/-- The parts the operations look at, but for the reader and the source. -/
structure SameRegisters (s t : State) : Prop where
  seq : t.seq = s.seq
  win : t.win = s.win
  hdr : t.hdr = s.hdr
  ctx : t.ctx = s.ctx
  pass : t.pass = s.pass
  es : t.es = s.es
  fexp : t.fexp = s.fexp
  params : t.params = s.params
  active : t.blk.active = s.blk.active
  bc : t.blk.bc = s.blk.bc
  flags : t.blk.flags = s.blk.flags
  blockIndex : t.blk.blockIndex = s.blk.blockIndex
  fin : t.blk.fin = s.blk.fin

theorem SameButReader.registers {s t : State} (h : SameButReader s t) : SameRegisters s t := by
  obtain ⟨b, r, l, n, rfl⟩ := h
  exact ⟨rfl, rfl, rfl, rfl, rfl, rfl, rfl, rfl, rfl, rfl, rfl, rfl, rfl⟩

theorem SameRegisters.chainOf {s t : State} (h : SameRegisters s t) (cfg : MetaCfg) :
    chainOf cfg t = chainOf cfg s := by
  rw [Machine.chainOf, Machine.chainOf, h.pass]

theorem SameButSplit.sameButReader {s t : State} (h : SameButSplit s t) : SameButReader s t := by
  refine ⟨t.br, t.src, t.log, t.blk.bytesLeft, ?_⟩
  have hblk : t.blk = { s.blk with bytesLeft := t.blk.bytesLeft } := by
    have := congrArg (fun b : Blk => { b with bytesLeft := t.blk.bytesLeft }) h.blk
    exact this.symm
  exact State.ext h.seq.symm rfl h.win.symm h.hdr.symm h.ctx.symm hblk h.pass.symm h.es.symm
    h.fexp.symm rfl h.out.symm h.resp.symm h.host.symm rfl h.build.symm

/-- `SameButSplit` from the part that says what may differ and the parts that bound the difference. -/
theorem SameButReader.sameButSplit {s t : State} (h : SameButReader s t)
    (pending : s.br.acc = t.br.acc ∧ s.br.cnt = t.br.cnt ∧ s.br.eod = t.br.eod)
    (live : s.blk.active = true ∨ s.seq.phase = .noctx →
      s.br.unread ++ s.src.stream = t.br.unread ++ t.src.stream ∧
      s.br.unread.length + s.br.budget.toNat = t.br.unread.length + t.br.budget.toNat)
    (payload : s.blk.active = true →
      s.br.unread.length + s.blk.bytesLeft.toNat = t.br.unread.length + t.blk.bytesLeft.toNat)
    (idle : s.blk.active = false → s.seq.phase ≠ .noctx →
      s.src.stream = t.src.stream ∧ (s.seq.phase = .ready → s.blk.bytesLeft = t.blk.bytesLeft)) :
    SameButSplit s t := by
  obtain ⟨b, r, l, n, rfl⟩ := h
  exact ⟨rfl, rfl, rfl, rfl, rfl, rfl, rfl, rfl, rfl, rfl, rfl, rfl, pending, live, payload, idle⟩

/-- One response given in both runs. -/
theorem SameButSplit.setResp {s t : State} (h : SameButSplit s t) (r : Option Response) :
    SameButSplit (s.setResp r) (t.setResp r) :=
  { h with resp := rfl }

/-- The states two commands answer. -/
theorem SameButSplit.of_next {a b s t : State} (h : SameButSplit a b)
    (hs : (.next a : Out) = .next s) (ht : (.next b : Out) = .next t) : SameButSplit s t := by
  obtain rfl := Host.Outcome.next.inj hs
  obtain rfl := Host.Outcome.next.inj ht
  exact h

/-- An update leaves two states that differ in the reader only so. -/
def BlindToReader (f : State → State) : Prop :=
  ∀ s t, SameButReader s t → SameButReader (f s) (f t)

/-- An update that neither reads nor writes what may differ. -/
theorem BlindToReader.of_commutes {f : State → State}
    (hf : ∀ s b r l n,
      f ((((s.setBr b).setSrc r).setLog l).setBlk { s.blk with bytesLeft := n }) =
        ((((f s).setBr b).setSrc r).setLog l).setBlk { (f s).blk with bytesLeft := n }) :
    BlindToReader f := by
  rintro s _ ⟨b, r, l, n, rfl⟩
  exact ⟨b, r, l, n, hf s b r l n⟩

theorem endStream_blindToReader (c : Cause) : BlindToReader (endStream c) :=
  .of_commutes fun _ _ _ _ _ => rfl

theorem SameButReader.ite {p q : Prop} [Decidable p] [Decidable q] {a b c d : State} (hpq : p ↔ q)
    (h1 : SameButReader a c) (h2 : SameButReader b d) :
    SameButReader (if p then a else b) (if q then c else d) := by
  by_cases h : p
  · rw [if_pos h, if_pos (hpq.1 h)]
    exact h1
  · rw [if_neg h, if_neg fun hq => h (hpq.2 hq)]
    exact h2

theorem latchTotal_blindToReader : BlindToReader latchTotal := by
  rintro s _ ⟨b, r, l, n, rfl⟩
  exact .ite Iff.rfl ⟨b, r, l, n, rfl⟩ ⟨b, r, l, n, rfl⟩

theorem verifyBlock_blindToReader : BlindToReader verifyBlock := by
  rintro s _ ⟨b, r, l, n, rfl⟩
  exact .ite Iff.rfl ⟨b, r, l, n, rfl⟩ ⟨b, r, l, n, rfl⟩

theorem writeSample_blindToReader (n : Nat) (v : S32) : BlindToReader (writeSample n v) := by
  rintro s _ ⟨b, r, l, m, rfl⟩
  rw [writeSample_eq, writeSample_eq]
  exact ⟨b, r, _, m, rfl⟩

theorem writeSilence_blindToReader (n i : Nat) : BlindToReader (writeSilence n i) := by
  induction n generalizing i with
  | zero => exact fun _ _ h => h
  | succ n ih => exact fun s t h => ih (i + 1) _ _ (writeSample_blindToReader i 0 s t h)

theorem writeSlots_blindToReader (P : Params) (base : Nat) (v : Frame) (w c : Nat) :
    BlindToReader (writeSlots P base v w c) := by
  induction w generalizing c with
  | zero => exact fun _ _ h => h
  | succ w ih =>
    intro s t h
    rw [writeSlots, writeSlots, h.registers.flags, h.registers.fexp]
    exact ih (c + 1) _ _ (writeSample_blindToReader _ _ s t h)

theorem advance_blindToReader (n : Nat) : BlindToReader (advance n) :=
  .of_commutes fun _ _ _ _ _ => rfl

theorem gapStep_blindToReader (lim k : Nat) : BlindToReader (gapStep lim k) := by
  intro s t h
  simp only [gapStep, gapFrames, h.registers.ctx, h.registers.blockIndex]
  exact advance_blindToReader _ _ _ (writeSilence_blindToReader _ _ _ _ h)

theorem finishFrame_blindToReader (P : Params) (k : Nat) (x : Frame) :
    BlindToReader (finishFrame P k x) := by
  rintro s _ ⟨b, r, l, n, rfl⟩
  exact advance_blindToReader 1 _ _ (writeSlots_blindToReader P _ _ _ 0 _ _ ⟨b, r, l, n, rfl⟩)

/-! ### Equal streams: the operations that bypass the bit reader -/

/-- Two states that differ in the split only, with equal streams. -/
structure SameStream (s t : State) : Prop where
  apart : SameButReader s t
  stream : s.src.stream = t.src.stream
  pending : s.br.acc = t.br.acc ∧ s.br.cnt = t.br.cnt ∧ s.br.eod = t.br.eod

/-- Updates of the registers alone. -/
theorem SameStream.map {s t : State} {f : State → State} (h : SameStream s t) (hf : BlindToReader f)
    (hk : ∀ u, (f u).br = u.br ∧ (f u).src = u.src) : SameStream (f s) (f t) := by
  obtain ⟨hsb, hss⟩ := hk s
  obtain ⟨htb, hts⟩ := hk t
  refine ⟨hf s t h.apart, ?_, ?_⟩
  · rw [hss, hts]
    exact h.stream
  · rw [hsb, htb]
    exact h.pending

/-- Requests that leave equal streams. -/
theorem SameStream.onlySource {s t s' t' : State} (h : SameStream s t) (hs : OnlySource s s')
    (ht : OnlySource t t') (he : s'.src.stream = t'.src.stream) : SameStream s' t' := by
  refine ⟨(hs.sameButReader.symm.trans h.apart).trans ht.sameButReader, he, ?_⟩
  obtain ⟨r, l, rfl⟩ := hs
  obtain ⟨r', l', rfl⟩ := ht
  exact h.pending

theorem drain_sameStream (n : Nat) {s t : State} (h : SameStream s t) :
    (drain n s).1 = (drain n t).1 ∧ SameStream (drain n s).2 (drain n t).2 := by
  refine ⟨by rw [drain_fst, drain_fst, h.stream], ?_⟩
  refine h.onlySource (drain_onlySource n s) (drain_onlySource n t) ?_
  rw [drain_stream, drain_stream, h.stream]

theorem fillWindow_sameStream {s t : State} (h : SameStream s t) :
    SameStream (fillWindow s) (fillWindow t) := by
  simp only [fillWindow, h.apart.registers.win]
  generalize hdrBytes - s.win.length = n
  obtain ⟨hs1, hs2, -⟩ := srcTake_eq n n s le_rfl
  obtain ⟨ht1, ht2, -⟩ := srcTake_eq n n t le_rfl
  have htake := h.onlySource (srcTake_onlySource n n s) (srcTake_onlySource n n t)
    (by rw [hs2, ht2, h.stream])
  rw [hs1, ht1, ← h.stream]
  exact htake.map (f := fun u => u.setWin (s.win ++ s.src.stream.take n))
    (.of_commutes fun _ _ _ _ _ => rfl) fun _ => ⟨rfl, rfl⟩

theorem invalidateHdr_sameStream {s t : State} (h : SameStream s t) :
    SameStream (invalidateHdr s) (invalidateHdr t) :=
  h.map (.of_commutes fun _ _ _ _ _ => rfl) fun _ => ⟨rfl, rfl⟩

theorem acceptHeader_sameStream {s t : State} (h : SameStream s t) :
    SameStream (acceptHeader s) (acceptHeader t) :=
  h.map (.of_commutes fun _ _ _ _ _ => rfl) fun _ => ⟨rfl, rfl⟩

theorem dropByte_sameStream {s t : State} (h : SameStream s t) :
    SameStream (dropByte s) (dropByte t) :=
  h.map (.of_commutes fun _ _ _ _ _ => rfl) fun _ => ⟨rfl, rfl⟩

theorem latchTotal_sameStream {s t : State} (h : SameStream s t) :
    SameStream (latchTotal s) (latchTotal t) := by
  refine h.map latchTotal_blindToReader fun u => ?_
  rcases latchTotal_cases u with hu | ⟨-, -, hu⟩ <;> rw [hu] <;> exact ⟨rfl, rfl⟩

/-- A locate of two equal streams answers the same and leaves equal streams. -/
theorem locateLoop_sameStream (P : Params) (left S : Nat) {s t : State} (h : SameStream s t) :
    (locateLoop P left S s).cause = (locateLoop P left S t).cause ∧
      (locateLoop P left S s).skipped = (locateLoop P left S t).skipped ∧
      SameStream (locateLoop P left S s).state (locateLoop P left S t).state := by
  induction left generalizing S s t with
  | zero =>
    have hf := fillWindow_sameStream h
    unfold locateLoop
    simp only [hf.apart.registers.win]
    split_ifs
    · exact ⟨rfl, rfl, invalidateHdr_sameStream hf⟩
    · exact ⟨rfl, rfl, invalidateHdr_sameStream hf⟩
    · exact ⟨rfl, rfl, acceptHeader_sameStream hf⟩
    · exact ⟨rfl, rfl, invalidateHdr_sameStream (dropByte_sameStream hf)⟩
  | succ left ih =>
    have hf := fillWindow_sameStream h
    unfold locateLoop
    simp only [hf.apart.registers.win]
    split_ifs
    · exact ⟨rfl, rfl, invalidateHdr_sameStream hf⟩
    · exact ⟨rfl, rfl, invalidateHdr_sameStream hf⟩
    · exact ⟨rfl, rfl, acceptHeader_sameStream hf⟩
    · exact ih (S + 1) (dropByte_sameStream hf)

theorem locate_sameStream (P : Params) {s t : State} (h : SameStream s t) :
    (locate P s).cause = (locate P t).cause ∧ (locate P s).skipped = (locate P t).skipped ∧
      SameStream (locate P s).state (locate P t).state :=
  locateLoop_sameStream P resyncBudget 0 h

/-- The metadata loop on two equal streams and payload counts. -/
theorem metaLoop_sameStream (P : Params) (left : Nat) (q : List Byte) {s t : State}
    (h : SameStream s t) (hl : s.blk.bytesLeft = t.blk.bytesLeft) :
    (metaLoop P left q s).1 = (metaLoop P left q t).1 ∧
      SameStream (metaLoop P left q s).2 (metaLoop P left q t).2 ∧
      (metaLoop P left q s).2.blk.bytesLeft = (metaLoop P left q t).2.blk.bytesLeft := by
  induction left generalizing q s t with
  | zero =>
    unfold metaLoop
    rw [h.apart.registers.hdr]
    split <;> exact ⟨rfl, h, hl⟩
  | succ left ih =>
    unfold metaLoop
    rw [h.apart.registers.hdr]
    split
    · exact ⟨rfl, h, hl⟩
    · exact ⟨rfl, h, hl⟩
    · have hans : (srcRead 1 t).1 = (srcRead 1 s).1 := by
        rw [srcRead_fst, srcRead_fst, answer_one, answer_one, h.stream]
      have hread := h.onlySource (srcRead_onlySource 1 s) (srcRead_onlySource 1 t) (by
        have hstream := srcRead_stream 1 s
        rw [h.stream, ← srcRead_stream 1 t, hans] at hstream
        exact List.append_cancel_left hstream)
      simp only [hans]
      split_ifs
      · exact ⟨rfl, hread, hl⟩
      · refine ih (q ++ (srcRead 1 s).1) ⟨?_, hread.stream, hread.pending⟩ (congrArg (· - 1) hl)
        obtain ⟨b, r, l, n, e⟩ := hread.apart
        rw [e]
        exact ⟨b, r, l, n - 1, rfl⟩

theorem copyHeader_sameStream {s t : State} (h : SameStream s t) :
    SameStream (copyHeader s) (copyHeader t) ∧
      (copyHeader s).blk.bytesLeft = (copyHeader t).blk.bytesLeft := by
  refine ⟨h.map ?_ fun _ => ⟨rfl, rfl⟩, ?_⟩
  · rintro u _ ⟨b, r, l, n, rfl⟩
    exact ⟨b, r, l, u.hdr.ckSize - 24, rfl⟩
  · exact congrArg (fun k : Hdr => k.ckSize - 24) h.apart.registers.hdr.symm

/-- Two ends of `BeginBlock` that differ in the split only: a failure with one cause, or one configuration
committed. -/
def BegunAlike (P : Params) (r r' : Cause × State) : Prop :=
  (∃ c u v, c ≠ .none ∧ SameStream u v ∧ r = (c, u) ∧ r' = (c, v)) ∨
    ∃ cfg bitlen u v, SameStream u v ∧ u.blk.bytesLeft = v.blk.bytesLeft ∧
      bitlen.toNat ≤ u.blk.bytesLeft.toNat ∧ r = (.none, commitBlock P cfg bitlen u) ∧
      r' = (.none, commitBlock P cfg bitlen v)

theorem beginBlock_sameStream (P : Params) {s t : State} (h : SameStream s t) :
    BegunAlike P (beginBlock P s) (beginBlock P t) := by
  obtain ⟨hcopy, hleft⟩ := copyHeader_sameStream h
  obtain ⟨hread, hsame, hpay⟩ :=
    metaLoop_sameStream P (copyHeader s).blk.bytesLeft.toNat [] hcopy hleft
  have hbad := metaLoop_bad P (copyHeader s).blk.bytesLeft.toNat [] (copyHeader s)
  have hreg := hsame.apart.registers
  simp only [beginBlock, ← hleft, ← hread, hreg.flags, hreg.ctx, ← hpay, hreg.chainOf]
  split
  · rename_i c hc
    refine .inl ⟨c, _, _, ?_, hsame, rfl, rfl⟩
    rcases hbad c hc with rfl | rfl <;> simp
  · split_ifs
    · exact .inl ⟨_, _, _, by simp, hsame, rfl, rfl⟩
    · exact .inl ⟨_, _, _, by simp, hsame, rfl, rfl⟩
    · exact .inl ⟨_, _, _, by simp, hsame, rfl, rfl⟩
    · exact .inr ⟨_, _, _, _, hsame, hpay, by omega, rfl, rfl⟩

end Sys2Proof.Machine
end

section
/-! SUPPORT. OPEN and UNPACK in two runs that differ in the split only: the residuals of a frame are a
function of the reader's view, and where a block is left the runs meet in equal streams. -/

namespace Sys2Proof.Machine

/-! ### Equal views: the operations of the bit reader -/

/-- Two readers of an active block with one view. -/
structure SameView (P : Params) (s t : State) : Prop where
  view : readerView s = readerView t
  left : ReaderLive P s
  right : ReaderLive P t

/-- What an operation that leaves the reader and the source alone keeps of them. -/
structure KeepsReader (s t : State) : Prop where
  br : t.br = s.br
  src : t.src = s.src
  seq : t.seq = s.seq
  bytesLeft : t.blk.bytesLeft = s.blk.bytesLeft
  active : t.blk.active = s.blk.active

theorem KeepsReader.readerView {s t : State} (h : KeepsReader s t) :
    readerView t = readerView s := by
  rw [Machine.readerView, Machine.readerView, h.br, h.src, h.bytesLeft]

theorem KeepsReader.readerLive {P : Params} {s t : State} (h : KeepsReader s t)
    (hs : ReaderLive P s) : ReaderLive P t := by
  refine ⟨?_, ?_, ?_, ?_⟩
  · rw [BufOk, h.br]
    exact hs.buf
  · rw [h.seq]
    exact hs.ready
  · rw [h.br, h.bytesLeft]
    exact hs.le
  · rw [h.br]
    exact hs.eod

theorem SameView.keep {P : Params} {s t s' t' : State} (h : SameView P s t) (hs : KeepsReader s s')
    (ht : KeepsReader t t') : SameView P s' t' :=
  ⟨by rw [hs.readerView, ht.readerView, h.view], hs.readerLive h.left, ht.readerLive h.right⟩

section
variable {P : Params} {s t : State} (h : SameView P s t)
include h

/-! What two equal views say of the registers they are made of. -/

theorem SameView.bytes : s.br.unread ++ s.src.stream = t.br.unread ++ t.src.stream :=
  congrArg ReaderView.bytes h.view

theorem SameView.budget :
    s.br.unread.length + s.br.budget.toNat = t.br.unread.length + t.br.budget.toNat :=
  congrArg ReaderView.budget h.view

theorem SameView.payload :
    s.br.unread.length + s.blk.bytesLeft.toNat = t.br.unread.length + t.blk.bytesLeft.toNat :=
  congrArg ReaderView.left h.view

theorem SameView.pending : s.br.acc = t.br.acc ∧ s.br.cnt = t.br.cnt ∧ s.br.eod = t.br.eod :=
  ⟨congrArg ReaderView.acc h.view, congrArg ReaderView.cnt h.view, congrArg ReaderView.eod h.view⟩

end

/-- A view from what it is made of. -/
theorem readerView_eq {s t : State}
    (bytes : s.br.unread ++ s.src.stream = t.br.unread ++ t.src.stream)
    (budget : s.br.unread.length + s.br.budget.toNat = t.br.unread.length + t.br.budget.toNat)
    (payload : s.br.unread.length + s.blk.bytesLeft.toNat =
      t.br.unread.length + t.blk.bytesLeft.toNat)
    (pending : s.br.acc = t.br.acc ∧ s.br.cnt = t.br.cnt ∧ s.br.eod = t.br.eod) :
    readerView s = readerView t := by
  obtain ⟨hacc, hcnt, heod⟩ := pending
  rw [readerView, readerView, bytes, budget, payload, hacc, hcnt, heod]

/-- At the end of data nothing is unread, so the streams are equal. -/
theorem SameView.stream_of_eod {P : Params} {s t : State} (h : SameView P s t)
    (he : s.br.eod = true) : s.src.stream = t.src.stream := by
  obtain ⟨-, -, heod⟩ := h.pending
  have hbytes := h.bytes
  rwa [h.left.eod he, h.right.eod (heod.symm.trans he)] at hbytes

theorem brReadBitsOp_view {P : Params} (n : Nat) {s t : State} (h : SameView P s t) :
    (brReadBitsOp P n s).1 = (brReadBitsOp P n t).1 ∧
      SameView P (brReadBitsOp P n s).2 (brReadBitsOp P n t).2 := by
  obtain ⟨hview, hs, ht⟩ := brFill_view n n h.view h.left h.right
  have hacc : (brFill P n n s).br.acc = (brFill P n n t).br.acc := congrArg ReaderView.acc hview
  refine ⟨by simp only [brReadBitsOp, hacc], ?_, ⟨hs.buf, hs.ready, hs.le, hs.eod⟩,
    ⟨ht.buf, ht.ready, ht.le, ht.eod⟩⟩
  exact congrArg (fun v : ReaderView => { v with acc := v.acc >>> n, cnt := v.cnt - n }) hview

theorem runBits_view {α : Type} {P : Params} (p : BitProg α) {s t : State} (h : SameView P s t) :
    (runBits P p s).1 = (runBits P p t).1 ∧ SameView P (runBits P p s).2 (runBits P p t).2 := by
  induction p generalizing s t with
  | ret a => exact ⟨rfl, h⟩
  | read n k ih =>
    obtain ⟨hbits, hnext⟩ := brReadBitsOp_view n.val h
    simp only [runBits, hbits]
    exact ih _ hnext

theorem residual_view {P : Params} (c : Chan) {s t : State} (h : SameView P s t)
    (he : s.es = t.es) :
    (residual P c s).1 = (residual P c t).1 ∧ (residual P c s).2.es = (residual P c t).2.es ∧
      SameView P (residual P c s).2 (residual P c t).2 := by
  obtain ⟨hval, hnext⟩ := runBits_view (P.entropyDecode s.es c) h
  simp only [residual, ← he, hval]
  exact ⟨trivial, rfl, hnext.keep ⟨rfl, rfl, rfl, rfl, rfl⟩ ⟨rfl, rfl, rfl, rfl, rfl⟩⟩

theorem residuals_view {P : Params} {s t : State} (h : SameView P s t) (he : s.es = t.es)
    (hbc : s.blk.bc = t.blk.bc) :
    (residuals P s).1 = (residuals P t).1 ∧ (residuals P s).2.es = (residuals P t).2.es ∧
      SameView P (residuals P s).2 (residuals P t).2 := by
  obtain ⟨ha, hea, hva⟩ := residual_view .a h he
  obtain ⟨hb, heb, hvb⟩ := residual_view .b hva hea
  simp only [residuals, ← hbc, ha, hb]
  split_ifs
  · exact ⟨rfl, hea, hva⟩
  · exact ⟨rfl, heb, hvb⟩

/-! ### The rounds of UNPACK -/

theorem drain_seq (n : Nat) (s : State) : (drain n s).2.seq = s.seq := by
  obtain ⟨r, l, e⟩ := drain_onlySource n s
  rw [e]
  rfl

theorem latchTotal_blk (s : State) : (latchTotal s).blk = s.blk := by
  rcases latchTotal_cases s with h | ⟨-, -, h⟩ <;> rw [h]
  rfl

/-- Two states with an active block that differ in the split only. -/
structure LivePair (P : Params) (s t : State) : Prop extends SameView P s t where
  apart : SameButReader s t
  active : s.blk.active = true

/-- Two states with a context and no active block that differ in the split only: their streams are equal, and
in READY so is what is left of the payload. -/
structure IdlePair (s t : State) : Prop extends SameStream s t where
  inactive : s.blk.active = false
  context : s.seq.phase ≠ .noctx
  payload : s.seq.phase = .ready → s.blk.bytesLeft = t.blk.bytesLeft

/-- What two runs of UNPACK keep between them. -/
def RoundPair (P : Params) (s t : State) : Prop := LivePair P s t ∨ IdlePair s t

theorem RoundPair.apart {P : Params} {s t : State} (h : RoundPair P s t) : SameButReader s t :=
  h.elim LivePair.apart fun h => h.toSameStream.apart

theorem RoundPair.pending {P : Params} {s t : State} (h : RoundPair P s t) :
    s.br.acc = t.br.acc ∧ s.br.cnt = t.br.cnt ∧ s.br.eod = t.br.eod := by
  rcases h with h | h
  · exact h.pending
  · exact h.pending

theorem RoundPair.sameButSplit {P : Params} {s t : State} (h : RoundPair P s t) :
    SameButSplit s t := by
  refine h.apart.sameButSplit h.pending ?_ ?_ ?_ <;> rcases h with h | h
  · exact fun _ => ⟨h.bytes, h.budget⟩
  · exact fun hl => hl.elim (fun ha => absurd ha (by simp [h.inactive])) fun hp => absurd hp h.context
  · exact fun _ => h.payload
  · exact fun ha => absurd ha (by simp [h.inactive])
  · exact fun ha => absurd ha (by simp [h.active])
  · exact fun _ _ => ⟨h.stream, h.payload⟩

theorem LivePair.map {P : Params} {s t : State} {f : State → State} (h : LivePair P s t)
    (hf : BlindToReader f) (hk : ∀ u, KeepsReader u (f u)) : LivePair P (f s) (f t) :=
  ⟨h.toSameView.keep (hk s) (hk t), hf s t h.apart, by rw [(hk s).active, h.active]⟩

theorem IdlePair.map {s t : State} {f : State → State} (h : IdlePair s t)
    (hf : BlindToReader f) (hk : ∀ u, KeepsReader u (f u)) : IdlePair (f s) (f t) := by
  refine ⟨h.toSameStream.map hf fun u => ⟨(hk u).br, (hk u).src⟩, ?_, ?_, ?_⟩
  · rw [(hk s).active, h.inactive]
  · rw [(hk s).seq]
    exact h.context
  · rw [(hk s).seq, (hk s).bytesLeft, (hk t).bytesLeft]
    exact h.payload

theorem RoundPair.map {P : Params} {s t : State} {f : State → State} (h : RoundPair P s t)
    (hf : BlindToReader f) (hk : ∀ u, KeepsReader u (f u)) : RoundPair P (f s) (f t) :=
  h.imp (fun h => h.map hf hk) fun h => h.map hf hk

theorem finishFrame_keepsReader (P : Params) (k : Nat) (x : Frame) (s : State) :
    KeepsReader s (finishFrame P k x s) := by
  obtain ⟨hseq, hbr, -, -, -, -, hsrc, -, -, hblk⟩ := finishFrame_frame P k x s
  exact ⟨hbr, hsrc, hseq, by rw [hblk], by rw [hblk]⟩

theorem gapStep_keepsReader (lim k : Nat) (s : State) : KeepsReader s (gapStep lim k s) := by
  obtain ⟨m, l, e⟩ := silentFrames_frame (gapFrames lim s) k s
  rw [gapStep_eq, e]
  exact ⟨rfl, rfl, rfl, rfl, rfl⟩

theorem verifyBlock_keepsReader (s : State) : KeepsReader s (verifyBlock s) := by
  unfold verifyBlock
  split_ifs <;> exact ⟨rfl, rfl, rfl, rfl, rfl⟩

/-- The stream ends in both runs. -/
theorem SameStream.endStream {s t : State} (h : SameStream s t) (c : Cause) :
    IdlePair (endStream c s) (endStream c t) :=
  ⟨h.map (endStream_blindToReader c) fun _ => ⟨rfl, rfl⟩, rfl, by simp [endStream_eq],
    by simp [endStream_eq]⟩

theorem residuals_apart {P : Params} {s t : State} (h : SameButReader s t)
    (he : (residuals P s).2.es = (residuals P t).2.es) :
    SameButReader (residuals P s).2 (residuals P t).2 := by
  obtain ⟨u, hu, es⟩ := residuals_reader P s
  obtain ⟨v, hv, et⟩ := residuals_reader P t
  rw [es, et, he]
  obtain ⟨b, r, l, n, e⟩ := (hu.sameButReader.symm.trans h).trans hv.sameButReader
  rw [e]
  exact ⟨b, r, l, n, rfl⟩

theorem residuals_live {P : Params} {s t : State} (h : LivePair P s t) :
    (residuals P s).1 = (residuals P t).1 ∧ LivePair P (residuals P s).2 (residuals P t).2 := by
  have hreg := h.apart.registers
  obtain ⟨hval, hes, hview⟩ := residuals_view h.toSameView hreg.es.symm hreg.bc.symm
  refine ⟨hval, hview, residuals_apart h.apart hes, ?_⟩
  obtain ⟨-, -, -, -, -, -, -, hblk⟩ := residuals_frame P s
  rw [← h.active]
  conv_rhs => rw [← hblk]

/-- The frames of a decode step: the runs go on alike, or both meet the end of data, where nothing is unread. -/
theorem decodeFrames_pair {P : Params} (n k : Nat) {s t : State} (h : LivePair P s t) :
    (decodeFrames P n k s).1 = (decodeFrames P n k t).1 ∧
      RoundPair P (decodeFrames P n k s).2 (decodeFrames P n k t).2 := by
  induction n generalizing k s t with
  | zero => exact ⟨rfl, .inl h⟩
  | succ n ih =>
    obtain ⟨hval, hlive⟩ := residuals_live h
    obtain ⟨-, -, heod⟩ := hlive.pending
    simp only [decodeFrames, decodeFrame, hval, heod]
    by_cases he : (residuals P t).2.br.eod = true
    · simp only [he, if_true, Bool.false_eq_true, if_false]
      have hstream := hlive.stream_of_eod (heod.trans he)
      exact ⟨trivial, .inr (SameStream.endStream ⟨hlive.apart, hstream, hlive.pending⟩ _)⟩
    · simp only [he, Bool.false_eq_true, if_false, if_true]
      exact ih (k + 1) (hlive.map (finishFrame_blindToReader P k _) (finishFrame_keepsReader P k _))

theorem decodeStep_pair {P : Params} (lim k : Nat) {s t : State} (h : LivePair P s t) :
    (decodeStep P lim k s).1 = (decodeStep P lim k t).1 ∧
      RoundPair P (decodeStep P lim k s).2 (decodeStep P lim k t).2 := by
  have hreg := h.apart.registers
  obtain ⟨hcount, hpair⟩ :=
    decodeFrames_pair (min (s.blk.fin - s.ctx.cursor.toNat) lim) k h
  have hend := hpair.apart.registers
  simp only [decodeStep, hreg.fin, hreg.ctx, hend.seq, hend.ctx, hend.fin]
  split_ifs
  · exact ⟨hcount, hpair.map verifyBlock_blindToReader verifyBlock_keepsReader⟩
  · exact ⟨hcount, hpair⟩

/-- The drain of an active block takes the rest of its payload, buffered or not; that of a block skipped takes
the same bytes in both runs. -/
theorem drain_pair {P : Params} {s t : State} (h : RoundPair P s t) (hp : s.seq.phase = .ready) :
    (drain s.blk.bytesLeft.toNat s).1 = (drain t.blk.bytesLeft.toNat t).1 ∧
      SameStream (drain s.blk.bytesLeft.toNat s).2 (drain t.blk.bytesLeft.toNat t).2 := by
  rcases h with h | h
  · have hleft := h.payload
    have hlen := congrArg List.length h.bytes
    rw [List.length_append, List.length_append] at hlen
    refine ⟨?_, ((drain_onlySource _ s).sameButReader.symm.trans h.apart).trans
      (drain_onlySource _ t).sameButReader, ?_, ?_⟩
    · rw [drain_fst, drain_fst, decide_eq_decide]
      omega
    · have hdrop := congrArg (List.drop (s.br.unread.length + s.blk.bytesLeft.toNat)) h.bytes
      rw [List.drop_length_add_append, hleft, List.drop_length_add_append] at hdrop
      rw [drain_stream, drain_stream, hdrop]
    · obtain ⟨r, l, e⟩ := drain_onlySource s.blk.bytesLeft.toNat s
      obtain ⟨r', l', e'⟩ := drain_onlySource t.blk.bytesLeft.toNat t
      rw [e, e']
      exact h.pending
  · rw [← h.payload hp]
    exact drain_sameStream _ h.toSameStream

theorem commitBlock_blindToReader (P : Params) (cfg : MetaCfg) (bitlen : Word) :
    BlindToReader (commitBlock P cfg bitlen) := by
  rintro s _ ⟨b, r, l, n, rfl⟩
  rw [commitBlock_eq, commitBlock_eq]
  exact ⟨_, r, l, n, rfl⟩

/-- A block begun in both runs, with nothing read ahead in either. -/
theorem commitBlock_live {P : Params} {cfg : MetaCfg} {bitlen : Word} {s t : State}
    (h : SameStream s t) (hl : s.blk.bytesLeft = t.blk.bytesLeft)
    (hle : bitlen.toNat ≤ s.blk.bytesLeft.toNat) (hp : s.seq.phase = .ready) :
    LivePair P (commitBlock P cfg bitlen s) (commitBlock P cfg bitlen t) := by
  have hlive : ∀ u : State, bitlen.toNat ≤ u.blk.bytesLeft.toNat → u.seq.phase = .ready →
      ReaderLive P (commitBlock P cfg bitlen u) := fun u hu hup =>
    ⟨⟨le_rfl, Nat.zero_le _, Nat.zero_le _⟩, hup, hu, fun he => by cases he⟩
  have hview : readerView (commitBlock P cfg bitlen s) = readerView (commitBlock P cfg bitlen t) := by
    simp [readerView, commitBlock_eq, BitReader.unread, h.stream, hl]
  exact ⟨⟨hview, hlive s hle hp, hlive t (hl ▸ hle) (by rw [h.apart.registers.seq, hp])⟩,
    commitBlock_blindToReader P cfg bitlen s t h.apart, rfl⟩

/-- UNPACK goes on into the block that has begun, or the stream ends with the cause of the failure. -/
theorem BegunAlike.pair {P : Params} {r r' : Cause × State} (h : BegunAlike P r r')
    (hp : r.2.seq.phase = .ready) :
    RoundPair P (if r.1 = .none then r.2 else endStream r.1 r.2)
      (if r'.1 = .none then r'.2 else endStream r'.1 r'.2) := by
  rcases h with ⟨c, u, v, hc, hsame, rfl, rfl⟩ | ⟨cfg, bitlen, u, v, hsame, hl, hle, rfl, rfl⟩
  · simp only [if_neg hc]
    exact .inr (hsame.endStream c)
  · simp only [if_true]
    exact .inl (commitBlock_live hsame hl hle hp)

theorem takeHeader_pair (P : Params) {s t : State} (h : SameStream s t)
    (hp : s.seq.phase = .ready) (hi : s.blk.active = false) :
    RoundPair P (takeHeader P s) (takeHeader P t) := by
  have hreg := h.apart.registers
  have hskip : skipsHeader t = skipsHeader s := by
    rw [skipsHeader, skipsHeader, hreg.hdr, hreg.ctx]
  simp only [takeHeader, hskip, hreg.hdr, hreg.ctx]
  by_cases hsmall : s.hdr.ckSize.toNat < 24
  · simp only [if_pos hsmall]
    exact .inr (h.endStream .format)
  simp only [if_neg hsmall]
  by_cases hskips : skipsHeader s = true
  · simp only [if_pos hskips]
    refine .inr ⟨⟨?_, h.stream, h.pending⟩, hi, by simp [hp], fun _ => rfl⟩
    obtain ⟨b, r, l, n, e⟩ := h.apart
    rw [e]
    exact ⟨b, r, l, s.hdr.ckSize - 24, rfl⟩
  simp only [if_neg hskips]
  by_cases hbehind : s.hdr.blockIndex.toNat < s.ctx.cursor.toNat
  · simp only [if_pos hbehind]
    exact .inr (h.endStream .format)
  simp only [if_neg hbehind]
  exact (beginBlock_sameStream P h).pair (by rw [(beginBlock_seq P s).1, hp])

theorem leaveBlock_sameStream {s t : State} (h : SameStream s t) :
    SameStream (leaveBlock s) (leaveBlock t) := by
  refine h.map ?_ fun _ => ⟨rfl, rfl⟩
  rintro u _ ⟨b, r, l, n, rfl⟩
  exact ⟨b, r, l, 0, rfl⟩

/-- A fetch starts from whichever pair the round before left and ends with a block begun, one to skip, or the
stream ended. -/
theorem fetchStep_pair {P : Params} {s t : State} (h : RoundPair P s t)
    (hp : s.seq.phase = .ready) : RoundPair P (fetchStep P s) (fetchStep P t) := by
  obtain ⟨hdone, hdrain⟩ := drain_pair h hp
  obtain ⟨hcause, -, hloc⟩ := locate_sameStream P (leaveBlock_sameStream hdrain)
  simp only [fetchStep, ← hdone, ← hcause]
  split_ifs
  · exact .inr (hdrain.endStream _)
  · exact .inr (hloc.endStream _)
  · obtain ⟨hseq, -, -, hblk, -⟩ := (locate_onlyLocator P (leaveBlock
      (drain s.blk.bytesLeft.toNat s).2)).frame
    refine takeHeader_pair P (latchTotal_sameStream hloc) ?_ ?_
    · rw [(latchTotal_seq _).1, hseq]
      exact (congrArg Seq.phase (drain_seq _ s)).trans hp
    · rw [latchTotal_blk, hblk]
      rfl

theorem unpackRound_pair {P : Params} (remaining k : Nat) {s t : State} (h : RoundPair P s t)
    (hp : s.seq.phase = .ready) :
    (unpackRound P remaining k s).1 = (unpackRound P remaining k t).1 ∧
      RoundPair P (unpackRound P remaining k s).2 (unpackRound P remaining k t).2 := by
  have hreg := h.apart.registers
  have hlim : frameLimit remaining t = frameLimit remaining s := by
    rw [frameLimit, frameLimit, hreg.ctx]
  have hgap : ∀ lim, gapFrames lim t = gapFrames lim s := fun lim => by
    rw [gapFrames, gapFrames, hreg.ctx, hreg.blockIndex]
  simp only [unpackRound, hlim, hgap, hreg.active, hreg.fin, hreg.ctx, hreg.blockIndex]
  split_ifs with hfetch hsilent
  · exact ⟨rfl, fetchStep_pair h hp⟩
  · exact ⟨rfl, h.map (gapStep_blindToReader _ k) (gapStep_keepsReader _ k)⟩
  · rcases h with h | h
    · exact decodeStep_pair _ k h
    · exact absurd (.inl h.inactive) hfetch

theorem unpackDone_pair {P : Params} (k : Nat) {s t : State} (h : RoundPair P s t) :
    SameButSplit (unpackDone k s) (unpackDone k t) := by
  rw [unpackDone, unpackDone, h.apart.registers.seq]
  exact h.sameButSplit.setResp _

/-- Two loops of UNPACK that end leave states that differ in the split only, whatever bounds their rounds. -/
theorem unpackLoop_pair {P : Params} {max : Nat} (fuel fuel' k : Nat) {s t s' t' : State}
    (h : RoundPair P s t) (hp : s.seq.phase = .ready) (hs : unpackLoop P max fuel k s = .next s')
    (ht : unpackLoop P max fuel' k t = .next t') : SameButSplit s' t' := by
  induction fuel generalizing fuel' k s t with
  | zero => simp [unpackLoop] at hs
  | succ fuel ih =>
    cases fuel' with
    | zero => simp [unpackLoop] at ht
    | succ fuel' =>
      have hreg := h.apart.registers
      have htotal : totalReached t = totalReached s := by
        rw [totalReached, totalReached, hreg.ctx]
      obtain ⟨hcount, hround⟩ := unpackRound_pair (max - k) k h hp
      simp only [unpackLoop, htotal, ← hcount, hround.apart.registers.seq] at hs ht
      split_ifs at hs ht with hstop hended
      · exact (unpackDone_pair k h).of_next hs ht
      · exact (unpackDone_pair _ hround).of_next hs ht
      · have hseq := (unpackRound_seq P (max - k) k s).of_not_ended hended
        exact ih fuel' _ hround (by rw [hseq, hp]) hs ht

/-! ### OPEN -/

theorem contextClear_sameStream (P : Params) {s t : State} (h : SameStream s t) :
    SameStream (contextClear P s) (contextClear P t) := by
  obtain ⟨⟨b, r, l, n, rfl⟩, hstream, -⟩ := h
  exact ⟨⟨{ b with idx := 0, fin := 0, acc := 0, cnt := 0, eod := false, budget := 0 }, r, l, 0, rfl⟩,
    hstream, rfl, rfl, rfl⟩

theorem openFail_pair (P : Params) (c : Cause) {s t : State} (h : SameStream s t) :
    SameButSplit (openFail P c s) (openFail P c t) := by
  have hclear := contextClear_sameStream P h
  have hidle : IdlePair
      ((contextClear P s).setSeq { (contextClear P s).seq with phase := .failed, cause := c })
      ((contextClear P t).setSeq { (contextClear P t).seq with phase := .failed, cause := c }) := by
    refine ⟨?_, rfl, by simp, by simp⟩
    exact hclear.map (f := fun u => u.setSeq { u.seq with phase := .failed, cause := c })
      (.of_commutes fun _ _ _ _ _ => rfl) fun _ => ⟨rfl, rfl⟩
  exact (RoundPair.sameButSplit (P := P) (.inr hidle)).setResp _

/-- READY with the cursor at the first index of the block that has begun (spec/42_context.md R203). -/
def enterReady (s : State) : State :=
  (s.setCtx { s.ctx with cursor := s.blk.blockIndex.setWidth 64 }).setSeq
    { s.seq with phase := .ready }

theorem openAccept_pair (P : Params) {s t : State} (h : SameStream s t) :
    SameButSplit (openAccept P s) (openAccept P t) := by
  have hderive : SameStream (deriveCtx P s) (deriveCtx P t) :=
    h.map (.of_commutes fun _ _ _ _ _ => rfl) fun _ => ⟨rfl, rfl⟩
  rcases beginBlock_sameStream P hderive with
    ⟨c, u, v, hc, hsame, e, e'⟩ | ⟨cfg, bitlen, u, v, hsame, hl, hle, e, e'⟩ <;>
    simp only [openAccept, e, e']
  · simp only [if_neg hc]
    exact openFail_pair P c hsame
  · have hready : SameStream (enterReady u) (enterReady v) :=
      hsame.map (.of_commutes fun _ _ _ _ _ => rfl) fun _ => ⟨rfl, rfl⟩
    have hlive : LivePair P (commitBlock P cfg bitlen (enterReady u))
        (commitBlock P cfg bitlen (enterReady v)) := commitBlock_live hready hl hle rfl
    exact (RoundPair.sameButSplit (.inl hlive)).setResp _

theorem openLoop_pair {P : Params} (fuel : Nat) {s t s' t' : State} (h : SameStream s t)
    (hs : openLoop P fuel s = .next s') (ht : openLoop P fuel t = .next t') :
    SameButSplit s' t' := by
  induction fuel generalizing s t with
  | zero => simp [openLoop] at hs
  | succ fuel ih =>
    obtain ⟨hcause, -, hloc⟩ := locate_sameStream P h
    have hlatch := latchTotal_sameStream hloc
    obtain ⟨hdone, hdrain⟩ :=
      drain_sameStream ((latchTotal (locate P s).state).hdr.ckSize.toNat - 24) hlatch
    simp only [openLoop, ← hcause, hlatch.apart.registers.hdr, ← hdone] at hs ht
    split_ifs at hs ht
    · exact (openFail_pair P _ hloc).of_next hs ht
    · exact (openFail_pair P _ hlatch).of_next hs ht
    · exact ih hdrain hs ht
    · exact (openFail_pair P _ hdrain).of_next hs ht
    · exact (openAccept_pair P hlatch).of_next hs ht

theorem openStart_sameStream (P : Params) {s t : State} (h : SameStream s t) :
    SameStream (openStart P s) (openStart P t) :=
  (contextClear_sameStream P h).map
    (f := fun u => (u.setWin []).setSeq { u.seq with cause := .none })
    (.of_commutes fun _ _ _ _ _ => rfl) fun _ => ⟨rfl, rfl⟩

end Sys2Proof.Machine
end

section
/-! SUPPORT. Every command in two runs that differ in the split only (spec/20_memory.md R63,
spec/43_decorrelation.md R271). -/

namespace Sys2Proof.Machine

/-! ### Reads of bits in NOCTX -/

/-- Two states with one bit reader and one source. -/
def SameReader (s t : State) : Prop := s.br = t.br ∧ s.src = t.src

theorem deductPayload_sameReader (n m : Nat) {s t : State} (h : SameReader s t) :
    SameReader (deductPayload n s) (deductPayload m t) := by
  rw [SameReader, deductPayload_br, deductPayload_br, deductPayload_src, deductPayload_src]
  exact h

theorem brRefill_sameReader (P : Params) {s t : State} (h : SameReader s t) :
    (brRefill P s).1 = (brRefill P t).1 ∧ SameReader (brRefill P s).2 (brRefill P t).2 := by
  obtain ⟨hbr, hsrc⟩ := h
  have hread : ∀ L, (srcRead L s).1 = (srcRead L t).1 ∧
      SameReader (srcRead L s).2 (srcRead L t).2 := fun L => by
    simp [SameReader, srcRead_snd, hbr, hsrc]
  simp only [brRefill, hbr, (hread _).1]
  split_ifs
  · exact ⟨rfl, (hread _).2⟩
  · refine ⟨rfl, deductPayload_sameReader _ _ ⟨?_, (hread _).2.2⟩⟩
    simp only [State.setBr_br, (hread _).2.1]
  · exact ⟨rfl, hbr, hsrc⟩

theorem brFetchByte_sameReader (P : Params) {s t : State} (h : SameReader s t) :
    (brFetchByte P s).1 = (brFetchByte P t).1 ∧
      SameReader (brFetchByte P s).2 (brFetchByte P t).2 := by
  have hnext : ∀ {u v : State}, SameReader u v →
      (brNextByte u).1 = (brNextByte v).1 ∧ SameReader (brNextByte u).2 (brNextByte v).2 := by
    rintro u v ⟨hbr, hsrc⟩
    simp [brNextByte, SameReader, hbr, hsrc]
  obtain ⟨hmore, hbr, hsrc⟩ := brRefill_sameReader P h
  simp only [brFetchByte, h.1, hmore]
  split_ifs
  · exact hnext ⟨hbr, hsrc⟩
  · exact ⟨rfl, by simp only [State.setBr_br, hbr], hsrc⟩
  · exact hnext h

theorem brFill_sameReader (P : Params) (fuel n : Nat) {s t : State} (h : SameReader s t) :
    SameReader (brFill P fuel n s) (brFill P fuel n t) := by
  induction fuel generalizing s t with
  | zero => exact h
  | succ fuel ih =>
    obtain ⟨hbyte, hbr, hsrc⟩ := brFetchByte_sameReader P h
    simp only [brFill, h.1, hbyte]
    split_ifs
    · exact ih ⟨by simp only [State.setBr_br, hbr], hsrc⟩
    · exact h

/-- What a read of bits delivers and leaves of the reader and the source depends on these two alone. -/
theorem brReadBitsOp_sameReader (P : Params) (n : Nat) {s t : State} (h : SameReader s t) :
    (brReadBitsOp P n s).1 = (brReadBitsOp P n t).1 ∧
      SameReader (brReadBitsOp P n s).2 (brReadBitsOp P n t).2 := by
  obtain ⟨hbr, hsrc⟩ := brFill_sameReader P n n h
  simp only [brReadBitsOp, hbr]
  exact ⟨trivial, by simp only [State.setBr_br], hsrc⟩

/-- The reader of a state put into a block whose payload is its budget: what `ReaderLive` says of the reader
of an active block then serves the component commands. -/
def insideBlock (s : State) : State :=
  (s.setSeq { s.seq with phase := .ready }).setBlk { s.blk with bytesLeft := s.br.budget }

theorem insideBlock_sameReader (s : State) : SameReader s (insideBlock s) := ⟨rfl, rfl⟩

theorem bufOk_of_readerOk {s : State} (h : ReaderOk s) : BufOk s.params s := h.2.2

theorem unread_of_drainedOk {s : State} (h : DrainedOk s) (he : s.br.eod = true) :
    s.br.unread = [] := by
  simp [BitReader.unread, h he]

theorem insideBlock_live {s : State} (hr : ReaderOk s) (hd : DrainedOk s) :
    ReaderLive s.params (insideBlock s) :=
  ⟨bufOk_of_readerOk hr, rfl, le_rfl, unread_of_drainedOk hd⟩

/-- `SameButSplit` in NOCTX, where no block is active. -/
theorem SameButReader.sameButSplit_noctx {s t : State} (h : SameButReader s t)
    (hp : s.seq.phase = .noctx) (hi : s.blk.active = false)
    (pending : s.br.acc = t.br.acc ∧ s.br.cnt = t.br.cnt ∧ s.br.eod = t.br.eod)
    (bytes : s.br.unread ++ s.src.stream = t.br.unread ++ t.src.stream)
    (budget : s.br.unread.length + s.br.budget.toNat = t.br.unread.length + t.br.budget.toNat) :
    SameButSplit s t :=
  h.sameButSplit pending (fun _ => ⟨bytes, budget⟩) (fun ha => absurd ha (by simp [hi]))
    fun _ hn => absurd hp hn

/-- Two states that differ in the split only, with the invariants of the reader and of the block. -/
structure SplitPair (s t : State) : Prop where
  same : SameButSplit s t
  readers : ReaderOk s ∧ ReaderOk t
  drained : DrainedOk s ∧ DrainedOk t
  blocks : BlockOk s ∧ BlockOk t

theorem SplitPair.inactive {s t : State} (h : SplitPair s t) (hp : s.seq.phase ≠ .ready) :
    s.blk.active = false := by
  by_contra ha
  exact hp (h.blocks.1 (by simpa using ha)).1

theorem SplitPair.params {s t : State} (h : SplitPair s t) : t.params = s.params :=
  h.same.sameButReader.registers.params

theorem SplitPair.insideBlock_view {s t : State} (h : SplitPair s t) (hp : s.seq.phase = .noctx) :
    SameView s.params (insideBlock s) (insideBlock t) := by
  obtain ⟨hbytes, hbudget⟩ := h.same.live (.inr hp)
  exact ⟨readerView_eq hbytes hbudget hbudget h.same.pending,
    insideBlock_live h.readers.1 h.drained.1, h.params ▸ insideBlock_live h.readers.2 h.drained.2⟩

/-- The response of a read of bits, and what it leaves. -/
theorem brReadBitsOp_pair {s t : State} (n : Nat) (h : SplitPair s t)
    (hp : s.seq.phase = .noctx) :
    SameButSplit
      ((brReadBitsOp s.params n s).2.respond .ok (brReadBitsOp s.params n s).1)
      ((brReadBitsOp s.params n t).2.respond .ok (brReadBitsOp s.params n t).1) := by
  obtain ⟨hbits, hview⟩ := brReadBitsOp_view n (h.insideBlock_view hp)
  obtain ⟨hbits_s, hbr_s, hsrc_s⟩ :=
    brReadBitsOp_sameReader s.params n (insideBlock_sameReader s)
  obtain ⟨hbits_t, hbr_t, hsrc_t⟩ :=
    brReadBitsOp_sameReader s.params n (insideBlock_sameReader t)
  have hbytes := hview.bytes
  have hbudget := hview.budget
  have hpend := hview.pending
  rw [← hbr_s, ← hbr_t] at hbytes hbudget hpend
  rw [← hsrc_s, ← hsrc_t] at hbytes
  have hs := brReadBitsOp_onlyReader s.params n s
  have ht := brReadBitsOp_onlyReader s.params n t
  rw [hbits_s, hbits, ← hbits_t]
  refine SameButSplit.setResp (((hs.sameButReader.symm.trans h.same.sameButReader).trans
    ht.sameButReader).sameButSplit_noctx ?_ ?_ hpend hbytes hbudget) _
  · rw [hs.frame.1, hp]
  · rw [hs.blk_eq (by simp [hp])]
    exact h.inactive (by simp [hp])

/-! ### Whole commands -/

theorem SplitPair.sameStream {s t : State} (h : SplitPair s t)
    (he : s.src.stream = t.src.stream) : SameStream s t :=
  ⟨h.same.sameButReader, he, h.same.pending⟩

theorem SplitPair.roundPair {s t : State} (h : SplitPair s t) (hp : s.seq.phase = .ready) :
    RoundPair s.params s t := by
  by_cases ha : s.blk.active = true
  · have hreg := h.same.sameButReader.registers
    obtain ⟨hbytes, hbudget⟩ := h.same.live (.inl ha)
    have hview := readerView_eq hbytes hbudget (h.same.payload ha) h.same.pending
    have hlive : ∀ u : State, ReaderOk u → DrainedOk u → BlockOk u → u.blk.active = true →
        ReaderLive u.params u := fun u hr hd hb hu => by
      obtain ⟨hready, -, -, -, hle⟩ := hb hu
      exact ⟨bufOk_of_readerOk hr, hready, hle, unread_of_drainedOk hd⟩
    refine .inl ⟨⟨hview, hlive s h.readers.1 h.drained.1 h.blocks.1 ha, ?_⟩, h.same.sameButReader, ha⟩
    exact h.params ▸ hlive t h.readers.2 h.drained.2 h.blocks.2 (hreg.active.trans ha)
  · have hi : s.blk.active = false := by simpa using ha
    obtain ⟨hstream, hleft⟩ := h.same.idle hi (by simp [hp])
    exact .inr ⟨h.sameStream hstream, hi, by simp [hp], hleft⟩

theorem execUnpack_pair {max : Word} {s t s' t' : State} (h : SplitPair s t)
    (hs : execUnpack max s = .next s') (ht : execUnpack max t = .next t') : SameButSplit s' t' := by
  have hseq := h.same.sameButReader.registers.seq
  by_cases hp : s.seq.phase = .ready
  · rw [execUnpack_ready max hp] at hs
    rw [execUnpack_ready max (by rw [hseq, hp]), h.params] at ht
    exact unpackLoop_pair _ _ 0 (h.roundPair hp) hp hs ht
  · rw [execUnpack_not_ready max hp] at hs
    rw [execUnpack_not_ready max (by rw [hseq]; exact hp), hseq] at ht
    exact (h.same.setResp _).of_next hs ht

/-- OPEN abandons what was read ahead, so it starts from the streams alone. -/
theorem execOpenCtx_pair {s t s' t' : State} (h : SplitPair s t)
    (he : s.src.stream = t.src.stream) (hs : execOpenCtx s = .next s')
    (ht : execOpenCtx t = .next t') : SameButSplit s' t' := by
  rw [execOpenCtx, h.params, ← he] at ht
  exact openLoop_pair _ (openStart_sameStream s.params (h.sameStream he)) hs ht

theorem execCloseCtx_pair {s t s' t' : State} (h : SplitPair s t)
    (he : s.src.stream = t.src.stream) (hs : execCloseCtx s = .next s')
    (ht : execCloseCtx t = .next t') : SameButSplit s' t' := by
  rw [execCloseCtx, h.params] at ht
  have hclear := contextClear_sameStream s.params (h.sameStream he)
  refine (SameButSplit.setResp ?_ _).of_next hs ht
  refine SameButReader.sameButSplit_noctx ?_ rfl rfl ⟨rfl, rfl, rfl⟩ ?_ ?_
  · obtain ⟨b, r, l, n, e⟩ := hclear.apart
    rw [e]
    exact ⟨b, r, l, n, rfl⟩
  · simpa [contextClear_eq, BitReader.unread] using he
  · simp [contextClear_eq, BitReader.unread]

/-- A command of NOCTX, which elsewhere answers ILLEGAL_STATE. -/
theorem onlyInNoctx_pair {a b : Out} {s t s' t' : State} (h : SameButSplit s t)
    (hs : onlyInNoctx s a = .next s') (ht : onlyInNoctx t b = .next t')
    (run : s.seq.phase = .noctx → a = .next s' → b = .next t' → SameButSplit s' t') :
    SameButSplit s' t' := by
  rw [onlyInNoctx, ← h.seq] at ht
  rw [onlyInNoctx] at hs
  split_ifs at hs ht with hp
  · exact run hp hs ht
  · exact (h.setResp _).of_next hs ht

theorem execBrAttach_pair {b : Word} {s t s' t' : State} (h : SplitPair s t)
    (he : s.src.stream = t.src.stream) (hs : execBrAttach b s = .next s')
    (ht : execBrAttach b t = .next t') : SameButSplit s' t' := by
  refine onlyInNoctx_pair h.same hs ht fun hp hs ht => ?_
  refine (SameButSplit.setResp ?_ _).of_next hs ht
  refine SameButReader.sameButSplit_noctx ?_ hp (h.inactive (by simp [hp])) ⟨rfl, rfl, rfl⟩ ?_ ?_
  · obtain ⟨_, r, l, n, rfl⟩ := h.same.sameButReader
    exact ⟨_, r, l, n, rfl⟩
  · simpa [brAttachOp_eq, BitReader.unread] using he
  · simp [brAttachOp_eq, BitReader.unread]

theorem execBrReadBits_pair {n : BitVec 8} {s t s' t' : State} (h : SplitPair s t)
    (hs : execBrReadBits n s = .next s') (ht : execBrReadBits n t = .next t') :
    SameButSplit s' t' := by
  refine onlyInNoctx_pair h.same hs ht fun hp hs ht => ?_
  rw [h.params] at ht
  split_ifs at hs ht
  · refine (SameButSplit.setResp ?_ _).of_next hs ht
    obtain ⟨hbytes, hbudget⟩ := h.same.live (.inr hp)
    refine SameButReader.sameButSplit_noctx ?_ hp (h.inactive (by simp [hp])) h.same.pending hbytes
      hbudget
    obtain ⟨b, r, l, m, rfl⟩ := h.same.sameButReader
    exact ⟨b, r, l, m, rfl⟩
  · exact (brReadBitsOp_pair (immOperand n) h hp).of_next hs ht

theorem execBrReadBit_pair {s t s' t' : State} (h : SplitPair s t)
    (hs : execBrReadBit s = .next s') (ht : execBrReadBit t = .next t') : SameButSplit s' t' := by
  refine onlyInNoctx_pair h.same hs ht fun hp hs ht => ?_
  rw [h.params] at ht
  exact (brReadBitsOp_pair 1 h hp).of_next hs ht

theorem execLocReadHeader_pair {s t s' t' : State} (h : SplitPair s t)
    (he : s.src.stream = t.src.stream) (hs : execLocReadHeader s = .next s')
    (ht : execLocReadHeader t = .next t') : SameButSplit s' t' := by
  refine onlyInNoctx_pair h.same hs ht fun hp hs ht => ?_
  obtain ⟨hcause, hskipped, hloc⟩ := locate_sameStream s.params (h.sameStream he)
  rw [h.params] at ht
  simp only [← hcause, ← hskipped] at ht
  obtain ⟨hseq_s, hbr_s, -, hblk_s, -⟩ := (locate_onlyLocator s.params s).frame
  obtain ⟨-, hbr_t, -⟩ := (locate_onlyLocator s.params t).frame
  obtain ⟨hbytes, hbudget⟩ := h.same.live (.inr hp)
  have hunread : s.br.unread = t.br.unread := by
    rw [he] at hbytes
    exact List.append_cancel_right hbytes
  refine (SameButSplit.setResp ?_ _).of_next hs ht
  refine SameButReader.sameButSplit_noctx ?_ ?_ ?_ hloc.pending ?_ ?_
  · obtain ⟨b, r, l, n, e⟩ := hloc.apart
    rw [e]
    exact ⟨b, r, l, n, rfl⟩
  · exact (congrArg Seq.phase hseq_s).trans hp
  · exact (congrArg Blk.active hblk_s).trans (h.inactive (by simp [hp]))
  · simp only [State.setSeq_br, State.setSeq_src, hbr_s, hbr_t, hunread, hloc.stream]
  · simp only [State.setSeq_br, hbr_s, hbr_t, hbudget]

/-- An accessor answers one word in both runs. -/
theorem answer_pair {d d' : Word} {s t s' t' : State} (h : SameButSplit s t) (hd : d = d')
    (hs : answer d s = .next s') (ht : answer d' t = .next t') : SameButSplit s' t' := by
  subst hd
  exact (h.setResp _).of_next hs ht

theorem execGetCursor_pair {k : BitVec 8} {s t s' t' : State} (h : SameButSplit s t)
    (hs : execGetCursor k s = .next s') (ht : execGetCursor k t = .next t') :
    SameButSplit s' t' := by
  rw [execGetCursor, h.ctx] at hs
  rw [execGetCursor] at ht
  cases hw : cursorWord (immOperand k) t.ctx.cursor with
  | none =>
    rw [hw] at hs ht
    exact (h.setResp _).of_next hs ht
  | some w =>
    rw [hw] at hs ht
    exact answer_pair h rfl hs ht

theorem execGetHdr_pair {k : BitVec 8} {s t s' t' : State} (h : SameButSplit s t)
    (hs : execGetHdr k s = .next s') (ht : execGetHdr k t = .next t') : SameButSplit s' t' := by
  rw [execGetHdr, h.hdr] at hs
  rw [execGetHdr] at ht
  cases hw : hdrField (immOperand k) t.hdr with
  | none =>
    rw [hw] at hs ht
    exact (h.setResp _).of_next hs ht
  | some w =>
    rw [hw] at hs ht
    exact answer_pair h rfl hs ht

theorem statusWord_pair {s t : State} (h : SameButSplit s t) : statusWord s = statusWord t := by
  rw [statusWord, statusWord, h.seq, h.hdr, h.pending.2.2]

/-- The same command in two states that differ in the split only. -/
theorem exec_pair {i : Instr} {s t s' t' : State} (h : SplitPair s t)
    (he : i = .openCtx ∨ i = .closeCtx ∨ (∃ b, i = .brAttach b) ∨ i = .locReadHeader →
      s.src.stream = t.src.stream)
    (hs : exec i s = .next s') (ht : exec i t = .next t') : SameButSplit s' t' := by
  have hctx := h.same.ctx
  cases i with
  | openCtx => exact execOpenCtx_pair h (he (by simp)) hs ht
  | unpack max => exact execUnpack_pair h hs ht
  | closeCtx => exact execCloseCtx_pair h (he (by simp)) hs ht
  | getSampleRate => exact answer_pair h.same (congrArg Ctx.rate hctx) hs ht
  | getNumChannels => exact answer_pair h.same (congrArg Ctx.nch hctx) hs ht
  | getBitsPerSample => exact answer_pair h.same (congrArg Ctx.bits hctx) hs ht
  | getBytesPerSample => exact answer_pair h.same (congrArg Ctx.bytes hctx) hs ht
  | getNumSamples => exact answer_pair h.same (congrArg Ctx.total hctx) hs ht
  | getCrcErrors => exact answer_pair h.same (congrArg Ctx.crcErrors hctx) hs ht
  | getReducedChannels => exact answer_pair h.same (congrArg Ctx.reduced hctx) hs ht
  | getChannelMask => exact answer_pair h.same (congrArg Ctx.mask hctx) hs ht
  | getFloatExp => exact answer_pair h.same h.same.fexp hs ht
  | getCursor k => exact execGetCursor_pair h.same hs ht
  | getStatus => exact answer_pair h.same (statusWord_pair h.same) hs ht
  | getHdr k => exact execGetHdr_pair h.same hs ht
  | brAttach b => exact execBrAttach_pair h (he (by simp)) hs ht
  | brReadBits n => exact execBrReadBits_pair h hs ht
  | brReadBit => exact execBrReadBit_pair h hs ht
  | locReadHeader => exact execLocReadHeader_pair h (he (by simp)) hs ht

/-- Without unread bytes the streams are equal. -/
theorem SameButSplit.stream_of_unread_nil {s t : State} (h : SameButSplit s t)
    (hs : s.br.unread = []) (ht : t.br.unread = []) : s.src.stream = t.src.stream := by
  by_cases hl : s.blk.active = true ∨ s.seq.phase = .noctx
  · obtain ⟨hbytes, -⟩ := h.live hl
    rwa [hs, ht] at hbytes
  · obtain ⟨ha, hp⟩ := not_or.1 hl
    exact (h.idle (by simpa using ha) hp).1

/-- Settles O58: a fetch is a function of the reader's view, the operations that bypass the reader are functions
of the stream, and a command goes from the one to the other only where the two views give equal streams. -/
theorem splitIndependence : Obligations.SplitIndependence := by
  unfold Obligations.SplitIndependence
  refine ⟨fun i s t s' t' hsame hrs hrt hds hdt hbs hbt he hs ht => ?_, fun s t hsame hs ht => ?_⟩
  · exact exec_pair ⟨hsame, ⟨hrs, hrt⟩, ⟨hds, hdt⟩, ⟨hbs, hbt⟩⟩ he hs ht
  · exact hsame.stream_of_unread_nil hs ht

end Sys2Proof.Machine
end

section
/-! SUPPORT. The memories of WVCORE: the output buffer (spec/20_memory.md R66), the byte order of a header
(R69), and the transactions of a whole command (R60 to R65). -/

namespace Sys2Proof.Machine

/-- Settles O34, from the laws of a buffer in canonical form. -/
theorem outputReadAfterWrite : Obligations.OutputReadAfterWrite := by
  unfold Obligations.OutputReadAfterWrite
  exact fun m i v hm => ⟨Memory.wf_write hm i v, Memory.read_write_same m i v,
    fun j hj => Memory.read_write_other m v hj⟩

/-! ### Little-endian fields (R69) -/

/-- A byte below a number is the low byte of the word. -/
theorem ofNat_byte_add {n : Nat} (b : Byte) (v : Nat) :
    BitVec.ofNat (n + 8) (b.toNat + 256 * v) = BitVec.ofNat n v ++ b := by
  have hb : b.toNat < 2 ^ 8 := b.isLt
  have hlow : (b.toNat + 256 * v) % 2 ^ 8 = b.toNat := by omega
  have hhigh : (b.toNat + 256 * v) / 2 ^ 8 = v := by omega
  apply BitVec.eq_of_toNat_eq
  calc (BitVec.ofNat (n + 8) (b.toNat + 256 * v)).toNat
      = (b.toNat + 256 * v) % (2 ^ 8 * 2 ^ n) := by
        rw [BitVec.toNat_ofNat, pow_add, mul_comm (2 ^ n)]
    _ = 2 ^ 8 * (v % 2 ^ n) + b.toNat := by rw [Nat.mod_mul, hlow, hhigh, add_comm]
    _ = (BitVec.ofNat n v ++ b).toNat := by
        rw [BitVec.toNat_append, BitVec.toNat_ofNat, ← Nat.shiftLeft_add_eq_or_of_lt hb,
          Nat.shiftLeft_eq, mul_comm]

theorem leField_succ {w : List Byte} {o : Nat} (n : Nat) (h : o < w.length) :
    leField w o (n + 1) = (w.getD o 0).toNat + 256 * leField w (o + 1) n := by
  rw [leField, leField, List.drop_eq_getElem_cons h, List.take_succ_cons, leNat,
    List.getD_eq_getElem _ _ h]

theorem leField_one {w : List Byte} {o : Nat} (h : o < w.length) :
    BitVec.ofNat 8 (leField w o 1) = w.getD o 0 := by
  rw [leField_succ 0 h, leField, List.take_zero, leNat, mul_zero, add_zero, BitVec.ofNat_toNat,
    BitVec.setWidth_eq]

theorem leField_two {w : List Byte} {o : Nat} (h : o + 1 < w.length) :
    BitVec.ofNat 16 (leField w o 2) = w.getD (o + 1) 0 ++ w.getD o 0 := by
  rw [leField_succ 1 (by omega), ofNat_byte_add (n := 8), leField_one h]

theorem leField_four {w : List Byte} {o : Nat} (h : o + 3 < w.length) :
    BitVec.ofNat 32 (leField w o 4) =
      w.getD (o + 3) 0 ++ w.getD (o + 2) 0 ++ w.getD (o + 1) 0 ++ w.getD o 0 := by
  rw [leField_succ 3 (by omega), ofNat_byte_add (n := 24), leField_succ 2 (by omega),
    ofNat_byte_add (n := 16), leField_two (by omega)]

/-- Settles O30: each field is one of `leField_four` and `leField_two`, or a byte. -/
theorem headerFieldsLittleEndian : Obligations.HeaderFieldsLittleEndian := by
  unfold Obligations.HeaderFieldsLittleEndian
  intro w hw
  exact ⟨leField_four (by omega), leField_four (by omega), leField_two (by omega), rfl, rfl,
    leField_four (by omega), leField_four (by omega), leField_four (by omega),
    leField_four (by omega), leField_four (by omega), rfl⟩

/-! ### The transactions of a whole command -/

theorem openFail_transacts (P : Params) (c : Cause) (s : State) : Transacts [] s (openFail P c s) :=
  .same rfl rfl rfl

theorem openAccept_transacts (P : Params) (s : State) : Transacts [] s (openAccept P s) := by
  have hderive : Transacts [] s (deriveCtx P s) := .same rfl rfl rfl
  have hbegin := hderive.trans' (beginBlock_transacts P (deriveCtx P s))
  simp only [openAccept]
  split_ifs
  · exact hbegin.trans' (.same rfl rfl rfl)
  · exact hbegin.trans' (openFail_transacts P _ _)

theorem openLoop_transacts {P : Params} (fuel : Nat) {s t : State}
    (h : openLoop P fuel s = .next t) : Transacts [] s t := by
  induction fuel generalizing s with
  | zero => simp [openLoop] at h
  | succ fuel ih =>
    have hloc := locate_transacts P s
    have hlatch := hloc.trans' (latchTotal_transacts (locate P s).state)
    have hsize := (latchTotal (locate P s).state).hdr.ckSize.isLt
    have hdrain := hlatch.trans' (drain_transacts
      ((latchTotal (locate P s).state).hdr.ckSize.toNat - 24) _ (by omega))
    simp only [openLoop] at h
    split_ifs at h
    · obtain rfl := Host.Outcome.next.inj h
      exact hloc.trans' (openFail_transacts P _ _)
    · obtain rfl := Host.Outcome.next.inj h
      exact hlatch.trans' (openFail_transacts P _ _)
    · exact hdrain.trans' (ih h)
    · obtain rfl := Host.Outcome.next.inj h
      exact hdrain.trans' (openFail_transacts P _ _)
    · obtain rfl := Host.Outcome.next.inj h
      exact hlatch.trans' (openAccept_transacts P _)

theorem execOpenCtx_transacts {s t : State} (h : execOpenCtx s = .next t) : Transacts [] s t :=
  .after (t := openStart s.params s) (.same rfl rfl rfl) (openLoop_transacts _ h)

/-- An UNPACK in READY has written the samples of a whole number of frames, in order. -/
theorem execUnpack_wrote {max : Word} {s t : State} (hp : s.seq.phase = .ready)
    (h : execUnpack max s = .next t) :
    ∃ k u, Wrote s k u ∧ t = unpackDone k u := by
  rw [execUnpack_ready max hp] at h
  obtain ⟨k, u, hu, ht, -⟩ := unpackLoop_induct (I := Wrote s)
    (fun k u hu _ _ _ => unpackRound_wrote s _ k u hu) _ 0 s t
    ⟨rfl, by simpa using Transacts.refl s⟩ (by simp [hp]) h
  exact ⟨k, u, hu, ht⟩

theorem execUnpack_transacts {max : Word} {s t : State} (h : execUnpack max s = .next t) :
    ∃ ws, Transacts ws s t := by
  by_cases hp : s.seq.phase = .ready
  · obtain ⟨k, u, hu, rfl⟩ := execUnpack_wrote hp h
    exact ⟨_, hu.2.before (.same rfl rfl rfl)⟩
  · rw [execUnpack_not_ready max hp] at h
    obtain rfl := Host.Outcome.next.inj h
    exact ⟨[], .same rfl rfl rfl⟩

/-- A command of NOCTX makes the transactions of its run, or none. -/
theorem onlyInNoctx_transacts {a : Out} {s t : State} (h : onlyInNoctx s a = .next t)
    (run : a = .next t → Transacts [] s t) : Transacts [] s t := by
  unfold onlyInNoctx at h
  split_ifs at h
  · exact run h
  · obtain rfl := Host.Outcome.next.inj h
    exact .same rfl rfl rfl

theorem execBrReadBits_transacts {n : BitVec 8} {s t : State} (h : execBrReadBits n s = .next t) :
    Transacts [] s t := by
  refine onlyInNoctx_transacts h fun h => ?_
  split_ifs at h
  · obtain rfl := Host.Outcome.next.inj h
    exact .same rfl rfl rfl
  · obtain rfl := Host.Outcome.next.inj h
    exact (brReadBitsOp_transacts _ _ s).trans' (.same rfl rfl rfl)

/-- Every command but UNPACK writes no sample. -/
theorem exec_transacts {i : Instr} {s t : State} (hi : ∀ max, i ≠ .unpack max)
    (h : exec i s = .next t) : Transacts [] s t := by
  cases i with
  | openCtx => exact execOpenCtx_transacts h
  | unpack max => exact absurd rfl (hi max)
  | getCursor k =>
    simp only [exec, execGetCursor] at h
    split at h <;> (obtain rfl := Host.Outcome.next.inj h; exact .same rfl rfl rfl)
  | getHdr k =>
    simp only [exec, execGetHdr] at h
    split at h <;> (obtain rfl := Host.Outcome.next.inj h; exact .same rfl rfl rfl)
  | brAttach b =>
    refine onlyInNoctx_transacts h fun h => ?_
    obtain rfl := Host.Outcome.next.inj h
    exact .same rfl rfl rfl
  | brReadBits n => exact execBrReadBits_transacts h
  | brReadBit =>
    refine onlyInNoctx_transacts h fun h => ?_
    obtain rfl := Host.Outcome.next.inj h
    exact (brReadBitsOp_transacts _ 1 s).trans' (.same rfl rfl rfl)
  | locReadHeader =>
    refine onlyInNoctx_transacts h fun h => ?_
    obtain rfl := Host.Outcome.next.inj h
    exact (locate_transacts _ s).trans' (.same rfl rfl rfl)
  | _ =>
    obtain rfl := Host.Outcome.next.inj h
    exact .same rfl rfl rfl

/-- Settles O13: every operation's transactions are in the record, and only UNPACK's write. -/
theorem portTransactions : Obligations.PortTransactions := by
  unfold Obligations.PortTransactions
  intro i s t h
  by_cases hi : ∃ max, i = .unpack max
  · obtain ⟨max, rfl⟩ := hi
    obtain ⟨ws, l, hlog, hok, hstream, htaken, hread, -⟩ := execUnpack_transacts h
    exact ⟨l, hlog, hok, hstream, htaken, hread, fun hn => absurd rfl (hn max)⟩
  · obtain ⟨l, hlog, hok, hstream, htaken, hread, hws, hout⟩ :=
      exec_transacts (fun max e => hi ⟨max, e⟩) h
    exact ⟨l, hlog, hok, hstream, htaken, hread, fun _ => ⟨hws, hout rfl⟩⟩

end Sys2Proof.Machine
end

section
/-! SUPPORT. The decoder and the encoder of the command port (spec/30_encoding.md R90 to R99): the fields
of a word as numbers, what the opcode map answers, the one condition under which a word decodes, and the
port's two answers to a command. -/

namespace Sys2Proof.Machine

/-! ### The fields of a command word (R91) -/

@[simp] theorem cmdOp_toNat (cmd : Word) : (cmdOp cmd).toNat = cmd.toNat % 0x100 := by
  simp [cmdOp, BitVec.extractLsb'_toNat]

@[simp] theorem cmdImm_toNat (cmd : Word) : (cmdImm cmd).toNat = cmd.toNat / 0x100 % 0x100 := by
  simp [cmdImm, BitVec.extractLsb'_toNat, Nat.shiftRight_eq_div_pow]

theorem cmdRsv_eq_zero_iff (cmd : Word) : cmdRsv cmd = 0 ↔ cmd.toNat < 0x10000 := by
  have hcmd := cmd.isLt
  rw [← BitVec.toNat_inj, cmdRsv, BitVec.extractLsb'_toNat, Nat.shiftRight_eq_div_pow]
  simp only [BitVec.ofNat_eq_ofNat, BitVec.toNat_ofNat]
  omega

/-- A word without reserved bits is made of its opcode and its immediate. -/
theorem cmdWord_cmdOp_cmdImm {cmd : Word} (h : cmdRsv cmd = 0) :
    cmdWord (cmdOp cmd) (cmdImm cmd) = cmd := by
  refine BitVec.eq_of_getLsbD_eq fun i hi => ?_
  have hrsv : (cmdRsv cmd).getLsbD (i - 16) = false := by simp [h]
  rw [Laws.getLsbD_cmdWord]
  split_ifs with h8 h16
  · simp [cmdOp, h8]
  · simp [cmdImm, show i - 8 < 8 by omega, show 8 + (i - 8) = i by omega]
  · simpa [cmdRsv, show i - 16 < 16 by omega, show 16 + (i - 16) = i by omega] using hrsv.symm

/-! ### The opcode map (R95, R96) -/

/-- The opcode map inverts the fields a command is encoded with. -/
theorem opcodeMap_fields (i : Instr) : opcodeMap i.opcode i.immField i.argWord = some i := by
  cases i <;> rfl

theorem opcodeMap_eq_none_iff (op imm : BitVec 8) (arg : Word) :
    opcodeMap op imm arg = none ↔ reservedOpcode op.toNat := by
  have hop := op.isLt
  unfold opcodeMap reservedOpcode
  split
  case h_20 =>
    simp only [imp_false, true_iff] at *
    omega
  all_goals
    simp only [reduceCtorEq, false_iff]
    omega

/-- A command the opcode map answers has the map's opcode, and its operands are the map's. -/
theorem fields_of_opcodeMap {op imm : BitVec 8} {arg : Word} {i : Instr}
    (h : opcodeMap op imm arg = some i) :
    i.opcode = op ∧ (i.usesImm = true → i.immField = imm) ∧
      (i.opcode = 0x02 ∨ i.opcode = 0x20 → i.argWord = arg) := by
  unfold opcodeMap at h
  split at h
  case h_20 => cases h
  all_goals
    rename_i hop
    cases h
    exact ⟨BitVec.eq_of_toNat_eq hop.symm, by simp [Instr.usesImm, Instr.immField],
      by simp [Instr.opcode, Instr.argWord]⟩

theorem opcodeMap_arg {op imm : BitVec 8} (a b : Word) (hu : op.toNat ≠ 0x02)
    (hb : op.toNat ≠ 0x20) : opcodeMap op imm a = opcodeMap op imm b := by
  unfold opcodeMap
  split
  case h_2 h => exact absurd h hu
  case h_16 h => exact absurd h hb
  all_goals rfl

theorem immField_of_not_usesImm {i : Instr} (h : i.usesImm = false) : i.immField = 0 := by
  cases i with
  | getCursor | getHdr | brReadBits => cases h
  | _ => rfl

/-- An immediate illegal by the numbers of R96 is one the command does not name, or one it refuses. -/
theorem illegalImmediate_iff {op imm : BitVec 8} {arg : Word} {i : Instr}
    (h : opcodeMap op imm arg = some i) :
    illegalImmediate op.toNat imm.toNat ↔ (i.usesImm = false ∧ imm ≠ 0) ∨ i.immLegal = false := by
  obtain ⟨rfl, himm, -⟩ := fields_of_opcodeMap h
  cases hu : i.usesImm with
  | true =>
    obtain rfl := himm hu
    cases i <;> cases hu <;>
      simp [illegalImmediate, Instr.opcode, Instr.immField, Instr.immLegal]
  | false =>
    cases i <;> cases hu <;>
      simp [illegalImmediate, Instr.opcode, Instr.immLegal, ← BitVec.toNat_inj]

theorem not_illegalImmediate_iff {op imm : BitVec 8} {arg : Word} {i : Instr}
    (h : opcodeMap op imm arg = some i) :
    ¬ illegalImmediate op.toNat imm.toNat ↔ (i.usesImm = false → imm = 0) ∧ WellFormed i := by
  simp [illegalImmediate_iff h]

/-! ### The decoder (R98 steps 1 to 3) -/

/-- The illegal words of R93 and R96, by the fields of the word. -/
theorem illegalWord_iff (cmd : Word) : illegalWord cmd ↔ cmdRsv cmd ≠ 0 ∨
    reservedOpcode (cmdOp cmd).toNat ∨ illegalImmediate (cmdOp cmd).toNat (cmdImm cmd).toNat := by
  rw [illegalWord, ne_eq, cmdRsv_eq_zero_iff, not_lt, cmdOp_toNat, cmdImm_toNat]

theorem not_illegalWord_iff (cmd : Word) : ¬ illegalWord cmd ↔ cmdRsv cmd = 0 ∧
    ¬ reservedOpcode (cmdOp cmd).toNat ∧
      ¬ illegalImmediate (cmdOp cmd).toNat (cmdImm cmd).toNat := by
  rw [illegalWord_iff, not_or, not_or, not_not]

section Decode
variable {cmd arg : Word} {i : Instr}

theorem decode_of_reservedBits (hrsv : cmdRsv cmd ≠ 0) : decode cmd arg = .error .reservedBits :=
  if_pos hrsv

theorem decode_of_reservedOpcode (hrsv : cmdRsv cmd = 0) (hop : reservedOpcode (cmdOp cmd).toNat) :
    decode cmd arg = .error .reservedOpcode := by
  simp [decode, hrsv, (opcodeMap_eq_none_iff _ (cmdImm cmd) arg).2 hop]

theorem decode_of_opcodeMap (hrsv : cmdRsv cmd = 0)
    (hmap : opcodeMap (cmdOp cmd) (cmdImm cmd) arg = some i) :
    decode cmd arg = if (i.usesImm = false ∧ cmdImm cmd ≠ 0) ∨ i.immLegal = false then
      .error .illegalImm else .ok i := by
  rw [ite_or]
  simp [decode, hrsv, hmap]

/-- An opcode that is not reserved has a command in the map. -/
theorem opcodeMap_of_not_reserved (hop : ¬ reservedOpcode (cmdOp cmd).toNat) :
    ∃ i, opcodeMap (cmdOp cmd) (cmdImm cmd) arg = some i :=
  Option.ne_none_iff_exists'.1 (mt (opcodeMap_eq_none_iff _ _ _).1 hop)

theorem decode_of_illegalImm (hrsv : cmdRsv cmd = 0) (hop : ¬ reservedOpcode (cmdOp cmd).toNat)
    (himm : illegalImmediate (cmdOp cmd).toNat (cmdImm cmd).toNat) :
    decode cmd arg = .error .illegalImm := by
  obtain ⟨i, hmap⟩ := opcodeMap_of_not_reserved (arg := arg) hop
  rw [decode_of_opcodeMap hrsv hmap, if_pos ((illegalImmediate_iff hmap).1 himm)]

theorem decode_of_illegalWord (h : illegalWord cmd) (arg : Word) :
    ∃ e, decode cmd arg = .error e := by
  by_cases hrsv : cmdRsv cmd = 0
  · by_cases hop : reservedOpcode (cmdOp cmd).toNat
    · exact ⟨_, decode_of_reservedOpcode hrsv hop⟩
    · have himm := (((illegalWord_iff cmd).1 h).resolve_left (not_not_intro hrsv)).resolve_left hop
      exact ⟨_, decode_of_illegalImm hrsv hop himm⟩
  · exact ⟨_, decode_of_reservedBits hrsv⟩

/-- What the decoder accepts: a word that is not illegal, as the command of the opcode map. -/
theorem decode_eq_ok_iff :
    decode cmd arg = .ok i ↔
      ¬ illegalWord cmd ∧ opcodeMap (cmdOp cmd) (cmdImm cmd) arg = some i := by
  by_cases hill : illegalWord cmd
  · obtain ⟨e, he⟩ := decode_of_illegalWord hill arg
    simp [he, hill]
  · obtain ⟨hrsv, hop, himm⟩ := (not_illegalWord_iff cmd).1 hill
    obtain ⟨j, hmap⟩ := opcodeMap_of_not_reserved (arg := arg) hop
    rw [decode_of_opcodeMap hrsv hmap, if_neg (mt (illegalImmediate_iff hmap).2 himm)]
    simp [hmap, hill]

theorem decode_accepts_iff : (∃ i, decode cmd arg = .ok i) ↔ ¬ illegalWord cmd := by
  refine ⟨fun ⟨i, h⟩ => (decode_eq_ok_iff.1 h).1, fun h => ?_⟩
  obtain ⟨-, hop, -⟩ := (not_illegalWord_iff cmd).1 h
  obtain ⟨i, hmap⟩ := opcodeMap_of_not_reserved (arg := arg) hop
  exact ⟨i, decode_eq_ok_iff.2 ⟨h, hmap⟩⟩

end Decode

/-- Settles O3: the word's fields as numbers, then one lemma for each step of the order. -/
theorem decodeOrder : Obligations.DecodeOrder := by
  unfold Obligations.DecodeOrder
  intro cmd arg
  simp only [← cmdOp_toNat, ← cmdImm_toNat, ← cmdRsv_eq_zero_iff]
  exact ⟨fun h => decode_of_reservedBits (mt (cmdRsv_eq_zero_iff cmd).1 (not_lt.2 h)),
    decode_of_reservedOpcode, decode_of_illegalImm, decode_accepts_iff.2⟩

/-! ### Decoding and encoding (R91, R92, R99) -/

theorem not_illegalWord_encode {i : Instr} (hi : WellFormed i) : ¬ illegalWord (encode i).1 := by
  obtain ⟨hrsv, hop, himm⟩ := Laws.EncodedForm.all i
  have hmap := opcodeMap_fields i
  rw [not_illegalWord_iff, hop, himm, ← opcodeMap_eq_none_iff i.opcode i.immField i.argWord, hmap,
    not_illegalImmediate_iff hmap]
  exact ⟨hrsv, Option.some_ne_none i, immField_of_not_usesImm, hi⟩

theorem decode_encode {i : Instr} (hi : WellFormed i) :
    decode (encode i).1 (encode i).2 = .ok i := by
  obtain ⟨-, hop, himm⟩ := Laws.EncodedForm.all i
  rw [decode_eq_ok_iff, hop, himm]
  exact ⟨not_illegalWord_encode hi, opcodeMap_fields i⟩

/-- The table numbering of two words: the argument word follows the command word (log entry 25). -/
theorem tableWords_pair (cmd arg : Word) :
    tableWords 64 (cmd.toNat + 2 ^ 32 * arg.toNat) = (cmd, arg) := by
  have hcmd := cmd.isLt
  have harg := arg.isLt
  refine Prod.ext (BitVec.eq_of_toNat_eq ?_) (BitVec.eq_of_toNat_eq ?_) <;>
    simp only [tableWords, BitVec.toNat_ofNat] <;> omega

theorem decodeTableWord_eq_some_iff (nbits w : Nat) (i : Instr) :
    decodeTableWord nbits w = some i ↔
      decode (tableWords nbits w).1 (tableWords nbits w).2 = .ok i := by
  unfold decodeTableWord
  cases decode (tableWords nbits w).1 (tableWords nbits w).2 <;> simp

/-- Settles O1: the opcode map inverts the fields, which the command word holds. -/
theorem decodeOfEncode : Obligations.DecodeOfEncode := by
  unfold Obligations.DecodeOfEncode
  intro i hi
  rw [decodeTableWord_eq_some_iff, tableWords_pair]
  exact ⟨decode_encode hi, decode_encode hi⟩

/-- Settles O2: an accepted word has no reserved bits, so its opcode and immediate make it up, and they
are the command's. -/
theorem acceptedWordIsEncoding : Obligations.AcceptedWordIsEncoding := by
  unfold Obligations.AcceptedWordIsEncoding
  intro cmd arg i h
  obtain ⟨hill, hmap⟩ := decode_eq_ok_iff.1 h
  obtain ⟨hrsv, -, hlegal⟩ := (not_illegalWord_iff cmd).1 hill
  obtain ⟨hzero, hwf⟩ := (not_illegalImmediate_iff hmap).1 hlegal
  obtain ⟨hop, huses, harg⟩ := fields_of_opcodeMap hmap
  have himm : i.immField = cmdImm cmd := by
    cases hu : i.usesImm with
    | true => exact huses hu
    | false => rw [immField_of_not_usesImm hu, hzero hu]
  refine ⟨hwf, ?_, fun h => (harg h).symm⟩
  rw [encode, hop, himm, cmdWord_cmdOp_cmdImm hrsv]

/-- Settles O5: each word is the encoding of its command. -/
theorem writtenOutWordsDecode : Obligations.WrittenOutWordsDecode := by
  unfold Obligations.WrittenOutWordsDecode
  exact ⟨decode_encode (i := .openCtx) rfl, decode_encode (i := .unpack 4096) rfl,
    decode_encode (i := .getCursor 1) rfl, decode_encode (i := .getHdr 7) rfl,
    decode_encode (i := .brAttach 3) rfl, decode_encode (i := .brReadBits 12) rfl,
    decode_encode (i := .locReadHeader) rfl⟩

/-! ### The argument word (R97) -/

theorem decode_arg {cmd : Word} (a b : Word) (hu : cmd.toNat % 0x100 ≠ 0x02)
    (hb : cmd.toNat % 0x100 ≠ 0x20) : decode cmd a = decode cmd b := by
  rw [← cmdOp_toNat] at hu hb
  unfold decode
  rw [opcodeMap_arg a b hu hb]

/-- UNPACK of no frames ends before its first round (R241). -/
theorem execUnpack_zero {s : State} (hp : s.seq.phase = .ready) :
    execUnpack 0 s = .next (s.setResp (some ⟨.ok, 0⟩)) := by
  rw [execUnpack_ready 0 hp]
  simp [unpackBound, unpackLoop, unpackDone, State.respond, hp]

/-- Settles O4: acceptance is by the command word alone. -/
theorem argumentNeverChecked : Obligations.ArgumentNeverChecked := by
  unfold Obligations.ArgumentNeverChecked
  exact ⟨fun cmd a b h => decode_accepts_iff.2 (decode_accepts_iff.1 h),
    fun cmd a b hu hb => decode_arg a b hu hb, fun s hp => execUnpack_zero hp⟩

/-! ### The command port (R90, R98, R306, R307) -/

theorem runCommand_of_ok {cmd arg : Word} {i : Instr} (h : decode cmd arg = .ok i) (s : State) :
    runCommand cmd arg s = exec i s := by
  rw [runCommand, h]

theorem runCommand_of_illegal {cmd : Word} (h : illegalWord cmd) (arg : Word) (s : State) :
    runCommand cmd arg s = .next (s.setResp (some ⟨.illegalCmd, 0⟩)) := by
  obtain ⟨e, he⟩ := decode_of_illegalWord h arg
  rw [runCommand, he]
  rfl

theorem step_command {s : State} {cmd arg : Word} {rest : List HostInput}
    (h : s.host = .command cmd arg :: rest) :
    step s = runCommand cmd arg ((s.setHost rest).setLog []) := by
  rw [step, h]
  rfl

/-- The step of a command placed with `withFetchWord` (log entry 12). -/
theorem step_withFetchWord (s : State) (nbits w : Nat) :
    step (s.withFetchWord nbits w) =
      runCommand (tableWords nbits w).1 (tableWords nbits w).2 (s.setLog []) :=
  step_command rfl

/-- Settles O6: the port's step, then the decoded command. -/
theorem stepRunsDecodedCommand : Obligations.StepRunsDecodedCommand := by
  unfold Obligations.StepRunsDecodedCommand
  refine ⟨fun s cmd arg i rest hhost h => ?_, fun s nbits w i h => ?_⟩
  · rw [step_command hhost, runCommand_of_ok h]
  · rw [step_withFetchWord, runCommand_of_ok ((decodeTableWord_eq_some_iff nbits w i).1 h)]

/-- Settles O7: every illegal word is an error of the decoder, to which the port answers alike. -/
theorem illegalCommandResponse : Obligations.IllegalCommandResponse := by
  unfold Obligations.IllegalCommandResponse
  intro s cmd arg rest hhost hill
  rw [step_command hhost, runCommand_of_illegal hill]

theorem onlyInNoctx_refuses {s : State} (hp : s.seq.phase ≠ .noctx) (run : Out) :
    onlyInNoctx s run = .next (s.setResp (some ⟨.illegalState, 0⟩)) := if_neg hp

/-- Settles O8: the phase checks of R98, steps 4 and 5. -/
theorem illegalStateResponse : Obligations.IllegalStateResponse := by
  unfold Obligations.IllegalStateResponse
  refine fun s => ⟨fun hp i hi => ?_, fun hp max => ?_⟩
  · obtain ⟨b, rfl⟩ | ⟨n, rfl⟩ | rfl | rfl := hi
    all_goals exact onlyInNoctx_refuses hp _
  · have hready : s.seq.phase ≠ .ready := by rintro h; simp [h] at hp
    have hended : s.seq.phase ≠ .ended := by rintro h; simp [h] at hp
    exact (execUnpack_not_ready max hready).trans (by rw [if_neg hended])

end Sys2Proof.Machine
end

section
/-! SUPPORT. A read of bits, by the fetches it makes (spec/40_bit_reader.md R131 to R136): how a refill and
a fetch can end, the induction over the fetches of a read, and what the two read commands answer. -/

namespace Sys2Proof.Machine

/-! ### How a refill and a fetch end (R131, R132) -/

/-- The two ways a refill ends: with the registers as they were, or with the bytes of one answer loaded and
charged to the budget. -/
theorem brRefill_cases (P : Params) (s : State) :
    ((brRefill P s).1 = false ∧ (brRefill P s).2.br = s.br ∧
        (brRefill P s).2.src.taken = s.src.taken) ∨
      ((brRefill P s).1 = true ∧ s.br.eod = false ∧ ∃ d : List Byte,
        d.length ≤ s.br.budget.toNat ∧ (brRefill P s).2.br = s.br.load d ∧
        (brRefill P s).2.src.taken = s.src.taken + d.length) := by
  simp only [brRefill]
  split_ifs with hguard hnone
  · have hd : s.src.answer (min P.bufBytes s.br.budget.toNat) = [] := hnone
    exact .inl ⟨rfl, rfl, by simp [srcRead_snd, hd]⟩
  · refine .inr ⟨rfl, hguard.1, s.src.answer (min P.bufBytes s.br.budget.toNat),
      (Source.answer_length_le _ _).trans (min_le_right _ _), ?_, ?_⟩
    · rw [deductPayload_br]; rfl
    · rw [deductPayload_src]; rfl
  · exact .inl ⟨rfl, rfl, rfl⟩

/-- After the end of data a refill does nothing. -/
theorem brRefill_of_eod (P : Params) {s : State} (he : s.br.eod = true) :
    brRefill P s = (false, s) := by
  simp [brRefill, he]

/-- The three ways a fetch ends: with a byte of the buffer, with a byte of the refilled buffer, or at the end
of data. -/
theorem brFetchByte_cases {P : Params} {J : State → Prop} {s : State}
    (buffered : s.br.idx ≠ s.br.fin → J (brNextByte s).2)
    (refilled : s.br.idx = s.br.fin → (brRefill P s).1 = true → J (brNextByte (brRefill P s).2).2)
    (ended : s.br.idx = s.br.fin → (brRefill P s).1 = false →
      J ((brRefill P s).2.setBr { (brRefill P s).2.br with eod := true })) :
    J (brFetchByte P s).2 := by
  simp only [brFetchByte]
  split_ifs with hidx hmore
  · exact refilled hidx hmore
  · exact ended hidx (by simpa using hmore)
  · exact buffered hidx

/-- A fetch leaves no byte unread behind the end of data: it sets the flag only on a used buffer. -/
theorem brFetchByte_drained (P : Params) {s : State} (h : DrainedOk s) :
    DrainedOk (brFetchByte P s).2 := by
  refine brFetchByte_cases (fun hidx he => absurd (h he) hidx) (fun _ hmore => ?_) fun hidx hmore => ?_
  · obtain ⟨hnone, -⟩ | ⟨-, he, d, -, hbr, -⟩ := brRefill_cases P s
    · simp [hnone] at hmore
    · simp [DrainedOk, brNextByte, hbr, BitReader.load, he]
  · obtain ⟨-, hbr, -⟩ | ⟨hsome, -⟩ := brRefill_cases P s
    · simp [DrainedOk, hbr, hidx]
    · simp [hsome] at hmore

/-- A fetch charges the bytes it takes to the budget. -/
theorem brFetchByte_budget (P : Params) (s : State) :
    (brFetchByte P s).2.br.budget.toNat + (brFetchByte P s).2.src.taken =
      s.br.budget.toNat + s.src.taken := by
  refine brFetchByte_cases (J := fun t => t.br.budget.toNat + t.src.taken = _)
    (fun _ => rfl) (fun _ hmore => ?_) fun _ hmore => ?_
  · obtain ⟨hnone, -⟩ | ⟨-, -, d, hd, hbr, htaken⟩ := brRefill_cases P s
    · simp [hnone] at hmore
    · have hlt := s.br.budget.isLt
      simp only [brNextByte, State.setBr_br, State.setBr_src, hbr, htaken, BitReader.load,
        BitVec.toNat_sub, BitVec.toNat_ofNat]
      omega
  · obtain ⟨-, hbr, htaken⟩ | ⟨hsome, -⟩ := brRefill_cases P s
    · simp [hbr, htaken]
    · simp [hsome] at hmore

/-- The ports have not been used since `s`, and the end of data has been met. -/
def EndedSince (s t : State) : Prop := t.br.eod = true ∧ t.log = s.log ∧ t.src = s.src

/-- After the end of data a fetch uses no port (R142). -/
theorem brFetchByte_endedSince (P : Params) {s t : State} (h : EndedSince s t) :
    EndedSince s (brFetchByte P t).2 := by
  obtain ⟨he, hlog, hsrc⟩ := h
  refine brFetchByte_cases (fun _ => ⟨he, hlog, hsrc⟩) (fun _ hmore => ?_) fun _ _ => ?_
  · simp [brRefill_of_eod P he] at hmore
  · rw [brRefill_of_eod P he]
    exact ⟨rfl, hlog, hsrc⟩

/-! ### The fetches of a read (R134) -/

section
variable {P : Params} {J : State → Prop}
  (pending : ∀ s acc cnt, J s → J (s.setBr { s.br with acc := acc, cnt := cnt }))
  (fetch : ∀ s, J s → J (brFetchByte P s).2)
include pending fetch

theorem brFill_induct (fuel n : Nat) {s : State} (h : J s) : J (brFill P fuel n s) := by
  induction fuel generalizing s with
  | zero => exact h
  | succ fuel ih =>
    simp only [brFill]
    split_ifs
    · exact ih (pending _ _ _ (fetch s h))
    · exact h

/-- A property that every fetch keeps, and that does not depend on the pending bits, is kept by a read. -/
theorem brReadBitsOp_induct (n : Nat) {s : State} (h : J s) : J (brReadBitsOp P n s).2 :=
  pending _ _ _ (brFill_induct pending fetch n n h)

end

theorem brReadBitsOp_drained (P : Params) (n : Nat) {s : State} (h : DrainedOk s) :
    DrainedOk (brReadBitsOp P n s).2 :=
  brReadBitsOp_induct (fun _ _ _ h => h) (fun _ => brFetchByte_drained P) n h

theorem brReadBitsOp_budget (P : Params) (n : Nat) (s : State) :
    (brReadBitsOp P n s).2.br.budget.toNat + (brReadBitsOp P n s).2.src.taken =
      s.br.budget.toNat + s.src.taken :=
  brReadBitsOp_induct (P := P)
    (J := fun t => t.br.budget.toNat + t.src.taken = s.br.budget.toNat + s.src.taken)
    (fun _ _ _ h => h) (fun t h => (brFetchByte_budget P t).trans h) n rfl

theorem brReadBitsOp_endedSince (P : Params) (n : Nat) {s : State} (he : s.br.eod = true) :
    EndedSince s (brReadBitsOp P n s).2 :=
  brReadBitsOp_induct (fun _ _ _ h => h) (fun _ => brFetchByte_endedSince P) n ⟨he, rfl, rfl⟩

/-- Each byte a fill puts above the pending bits is the next fetchable one (R141). -/
theorem brFill_fetches {P : Params} (fuel n : Nat) {s : State} (hb : BufOk P s) :
    ∃ k, (brFill P fuel n s).br.cnt = s.br.cnt + 8 * k ∧
      (brFill P fuel n s).fetchable = s.fetchable.drop k := by
  induction fuel generalizing s with
  | zero => exact ⟨0, rfl, rfl⟩
  | succ fuel ih =>
    simp only [brFill]
    split_ifs
    · obtain ⟨-, hfetch, hbuf, -, hcnt⟩ := brFetchByte_spec hb
      obtain ⟨k, hk, hf⟩ := ih
        (s := (brFetchByte P s).2.setBr ((brFetchByte P s).2.br.shiftIn (brFetchByte P s).1)) hbuf
      refine ⟨k + 1, hk.trans ?_, hf.trans ?_⟩
      · show (brFetchByte P s).2.br.cnt + 8 + 8 * k = _
        omega
      · show (brFetchByte P s).2.fetchable.drop k = _
        rw [hfetch, List.drop_tail]
    · exact ⟨0, rfl, rfl⟩

/-- A read of n bits fetches the bytes it lacks and no more, and holds the bits above its own (R134). -/
theorem brReadBitsOp_fetches {P : Params} (n : Nat) {s : State} (hn : n ≤ 32) (hb : BufOk P s)
    (ha : AccOk s) :
    (brReadBitsOp P n s).2.br.cnt = s.br.cnt + 8 * ((n - s.br.cnt + 7) / 8) - n ∧
      (brReadBitsOp P n s).2.fetchable = s.fetchable.drop ((n - s.br.cnt + 7) / 8) := by
  obtain ⟨-, -, -, hcnt⟩ := brFill_spec n n s hn hb ha (by omega)
  obtain ⟨k, hk, hf⟩ := brFill_fetches n n hb
  obtain rfl : k = (n - s.br.cnt + 7) / 8 := by
    rw [hk] at hcnt
    split_ifs at hcnt <;> omega
  exact ⟨congrArg (· - n) hk, hf⟩

/-! ### The read commands (R135, R136) -/

theorem OnlyReader.params {s t : State} (h : OnlyReader s t) : t.params = s.params := by
  obtain ⟨b, r, l, n, -, rfl⟩ := h
  rfl

theorem readerOk_iff (s : State) : ReaderOk s ↔ AccOk s ∧ BufOk s.params s := by
  simp only [ReaderOk, AccOk, BufOk, and_assoc]

/-- The state with which a read of n bits responds. -/
def bitsRead (n : Nat) (s : State) : State :=
  (brReadBitsOp s.params n s).2.setResp (some ⟨.ok, (brReadBitsOp s.params n s).1⟩)

@[simp] theorem bitsRead_resp (n : Nat) (s : State) :
    (bitsRead n s).resp = some ⟨.ok, (brReadBitsOp s.params n s).1⟩ := rfl

@[simp] theorem bitsRead_br (n : Nat) (s : State) :
    (bitsRead n s).br = (brReadBitsOp s.params n s).2.br := rfl

@[simp] theorem bitsRead_seq (n : Nat) (s : State) : (bitsRead n s).seq = s.seq :=
  (brReadBitsOp_onlyReader s.params n s).frame.1

@[simp] theorem bitsRead_params (n : Nat) (s : State) : (bitsRead n s).params = s.params :=
  (brReadBitsOp_onlyReader s.params n s).params

theorem bitsRead_readerOk {n : Nat} {s : State} (h : ReaderOk s) (hn : n ≤ 32) :
    ReaderOk (bitsRead n s) := by
  rw [readerOk_iff] at h
  obtain ⟨hbuf, hacc, -⟩ := brReadBitsOp_spec n s hn h.2 h.1
  rw [readerOk_iff, bitsRead_params]
  exact ⟨hacc, hbuf⟩

/-- A read of n bits delivers the next n bits, the first in bit 0, and drops them (R140). -/
theorem bitsRead_delivers {n : Nat} {s : State} (h : ReaderOk s) (hn : n ≤ 32) :
    ∃ v : Word, (bitsRead n s).resp = some ⟨.ok, v⟩ ∧ v.toNat < 2 ^ n ∧
      (∀ i, i < n → v.getLsbD i = s.bitAt i) ∧ ∀ i, (bitsRead n s).bitAt i = s.bitAt (i + n) := by
  rw [readerOk_iff] at h
  obtain ⟨-, -, hlt, hbits, hdrop, -⟩ := brReadBitsOp_spec n s hn h.2 h.1
  exact ⟨_, rfl, hlt, hbits, hdrop⟩

theorem bitsRead_fetches {n : Nat} {s : State} (h : ReaderOk s) (hn : n ≤ 32) :
    (bitsRead n s).br.cnt = s.br.cnt + 8 * ((n - s.br.cnt + 7) / 8) - n ∧
      (bitsRead n s).fetchable = s.fetchable.drop ((n - s.br.cnt + 7) / 8) := by
  rw [readerOk_iff] at h
  exact brReadBitsOp_fetches n hn h.2 h.1

section
variable {s : State} (hp : s.seq.phase = .noctx)
include hp

theorem onlyInNoctx_runs (run : Out) : onlyInNoctx s run = run := if_pos hp

theorem exec_brReadBits {n : BitVec 8} (hn : n.toNat ≤ 32) :
    exec (.brReadBits n) s = .next (bitsRead n.toNat s) :=
  (onlyInNoctx_runs hp _).trans (if_neg (Nat.not_lt.2 hn))

theorem exec_brReadBits_wide {n : BitVec 8} (hn : 32 < n.toNat) :
    exec (.brReadBits n) s =
      .next ((s.setSeq { s.seq with contract := true }).setResp (some ⟨.contract, 0⟩)) :=
  (onlyInNoctx_runs hp _).trans (if_pos hn)

theorem exec_brReadBit : exec .brReadBit s = .next (bitsRead 1 s) := onlyInNoctx_runs hp _

/-- Both read commands are a read of at most 32 bits. -/
theorem exec_read {i : Instr}
    (hi : i = .brReadBit ∨ ∃ n : BitVec 8, n.toNat ≤ 32 ∧ i = .brReadBits n) :
    ∃ n ≤ 32, exec i s = .next (bitsRead n s) := by
  obtain rfl | ⟨n, hn, rfl⟩ := hi
  · exact ⟨1, by decide, exec_brReadBit hp⟩
  · exact ⟨n.toNat, hn, exec_brReadBits hp hn⟩

end

end Sys2Proof.Machine
end

section
/-! SUPPORT. The statements about the component commands of the bit reader (spec/40_bit_reader.md R133 to
R142). -/

namespace Sys2Proof.Machine

/-- Settles O20: with no bit pending and no byte unread, the bits to come are those of the stream. -/
theorem attachReadiesReader : Obligations.AttachReadiesReader := by
  unfold Obligations.AttachReadiesReader
  intro s budget hp
  refine ⟨_, onlyInNoctx_runs hp _, rfl, fun i => ?_⟩
  simp [State.bitAt, State.fetchable, BitReader.unread, brAttachOp_eq]

/-- Settles O21: the command is a read of n bits. -/
theorem readBitsDeliversNextBits : Obligations.ReadBitsDeliversNextBits := by
  unfold Obligations.ReadBitsDeliversNextBits
  intro s n hr hp hn
  obtain ⟨v, hv⟩ := bitsRead_delivers hr hn
  exact ⟨_, v, exec_brReadBits hp hn, hv⟩

/-- A word of one bit, by that bit. -/
theorem eq_ite_of_lt_two {v : Word} {b : Bool} (hlt : v.toNat < 2 ^ 1) (hb : v.getLsbD 0 = b) :
    v = if b then 1 else 0 := by
  obtain h | h : v.toNat = 0 ∨ v.toNat = 1 := by omega
  · obtain rfl : v = 0 := BitVec.eq_of_toNat_eq h
    subst hb
    rfl
  · obtain rfl : v = 1 := BitVec.eq_of_toNat_eq h
    subst hb
    rfl

/-- Settles O22: both commands are a read of one bit. -/
theorem readBitDeliversNextBit : Obligations.ReadBitDeliversNextBit := by
  unfold Obligations.ReadBitDeliversNextBit
  intro s hr hp
  obtain ⟨v, hresp, hlt, hbits, hdrop⟩ := bitsRead_delivers (n := 1) hr (by decide)
  refine ⟨⟨_, exec_brReadBit hp, ?_, hdrop⟩, ?_⟩
  · rw [hresp, eq_ite_of_lt_two hlt (hbits 0 Nat.one_pos)]
  · exact (exec_brReadBit hp).trans (exec_brReadBits hp (n := 1) (by decide)).symm

/-- A number of m + n bits is made of its low m bits and the n bits above them. -/
theorem toNat_eq_of_parts {a b c : Word} {m n : Nat} (ha : a.toNat < 2 ^ m) (hb : b.toNat < 2 ^ n)
    (hc : c.toNat < 2 ^ (m + n)) (hlow : ∀ i, i < m → c.getLsbD i = a.getLsbD i)
    (hhigh : ∀ i, i < n → c.getLsbD (i + m) = b.getLsbD i) :
    c.toNat = a.toNat + 2 ^ m * b.toNat := by
  rw [Nat.add_comm]
  refine Nat.eq_of_testBit_eq fun i => ?_
  rw [Nat.testBit_two_pow_mul_add _ ha]
  split_ifs with hi
  · exact hlow i hi
  · by_cases hin : i < m + n
    · have := hhigh (i - m) (by omega)
      rwa [Nat.sub_add_cancel (by omega)] at this
    · rw [Nat.testBit_lt_two_pow (hc.trans_le (Nat.pow_le_pow_right two_pos (by omega))),
        Nat.testBit_lt_two_pow (hb.trans_le (Nat.pow_le_pow_right two_pos (by omega)))]

/-- Settles O23: the bits of the long read are those of the first, then those of the second. -/
theorem twoReadsMakeOne : Obligations.TwoReadsMakeOne := by
  unfold Obligations.TwoReadsMakeOne
  intro s m n hr hp hmn
  have hsum : (m + n).toNat = m.toNat + n.toNat := by
    rw [BitVec.toNat_add, Nat.mod_eq_of_lt (by omega)]
  have hm : m.toNat ≤ 32 := by omega
  have hn : n.toNat ≤ 32 := by omega
  obtain ⟨a, ra, la, ba, da⟩ := bitsRead_delivers hr hm
  obtain ⟨b, rb, lb, bb, -⟩ := bitsRead_delivers (bitsRead_readerOk hr hm) hn
  obtain ⟨c, rc, lc, bc, -⟩ := bitsRead_delivers (n := (m + n).toNat) hr (by omega)
  refine ⟨_, _, _, a, b, c, exec_brReadBits hp hm, exec_brReadBits (by simpa using hp) hn,
    exec_brReadBits hp (by omega), ra, rb, rc, ?_⟩
  rw [hsum] at lc bc
  refine toNat_eq_of_parts la lb lc (fun i hi => ?_) fun i hi => ?_
  · rw [bc i (by omega), ba i hi]
  · rw [bc (i + m.toNat) (by omega), bb i hi, da]

/-- A sequence of reads from fewer than 8 pending bits fetches the bytes it lacks and no more. -/
theorem afterReads_fetches {ns : List (BitVec 8)} {s : State} (hr : ReaderOk s)
    (hp : s.seq.phase = .noctx) (hc : s.br.cnt < 8) (hns : ∀ n ∈ ns, n.toNat ≤ 32) :
    ∃ t, s.afterReads ns = some t ∧
      t.br.cnt = s.br.cnt + 8 * (((ns.map BitVec.toNat).sum - s.br.cnt + 7) / 8) -
        (ns.map BitVec.toNat).sum ∧
      t.fetchable = s.fetchable.drop (((ns.map BitVec.toNat).sum - s.br.cnt + 7) / 8) := by
  induction ns generalizing s with
  | nil =>
    exact ⟨s, rfl, by simp, by simp⟩
  | cons n ns ih =>
    have hn := hns n List.mem_cons_self
    obtain ⟨hcnt, hfetch⟩ := bitsRead_fetches hr hn
    obtain ⟨t, ht, htc, htf⟩ := ih (bitsRead_readerOk hr hn) (by simpa using hp) (by omega)
      fun x hx => hns x (List.mem_cons_of_mem _ hx)
    have hrest : (n.toNat - s.br.cnt + 7) / 8 +
        ((ns.map BitVec.toNat).sum - (bitsRead n.toNat s).br.cnt + 7) / 8 =
          (n.toNat + (ns.map BitVec.toNat).sum - s.br.cnt + 7) / 8 := by
      rw [hcnt]
      omega
    refine ⟨t, ?_, ?_, ?_⟩
    · rw [State.afterReads, exec_brReadBits hp hn]
      exact ht
    · rw [htc, List.map_cons, List.sum_cons, ← hrest, hcnt]
      omega
    · rw [htf, hfetch, List.drop_drop, List.map_cons, List.sum_cons, hrest]

/-- Settles O24: the general sequence, from no pending bit. -/
theorem readsFetchNoAhead : Obligations.ReadsFetchNoAhead := by
  unfold Obligations.ReadsFetchNoAhead
  intro ns s hr hp hc hns
  have h := afterReads_fetches hr hp (by omega) hns
  rwa [hc, Nat.sub_zero, Nat.zero_add] at h

/-- A read of no bits leaves the reader alone (R138). -/
theorem bitsRead_zero (s : State) : bitsRead 0 s = s.setResp (some ⟨.ok, 0⟩) := by
  have hv : (brReadBitsOp s.params 0 s).1 = 0 := by simp [brReadBitsOp, brFill, Nat.mod_one]
  have hs : (brReadBitsOp s.params 0 s).2 = s := by
    rw [brReadBitsOp, brFill, BitVec.ushiftRight_zero, Nat.sub_zero, State.setBr_self]
  rw [bitsRead, hv, hs]

/-- Settles O25: a read of no bits, and the contract violation. -/
theorem readBitsEdgeWidths : Obligations.ReadBitsEdgeWidths := by
  unfold Obligations.ReadBitsEdgeWidths
  refine ⟨fun s hp => ?_, fun s n hp hn => exec_brReadBits_wide hp hn⟩
  rw [exec_brReadBits hp (by decide)]
  exact congrArg _ (bitsRead_zero s)

/-- Settles O27: a read in NOCTX changes the reader, the source and the record only. -/
theorem readCommandsFrame : Obligations.ReadCommandsFrame := by
  unfold Obligations.ReadCommandsFrame
  intro i s t _ hp hi h
  obtain ⟨n, -, hexec⟩ := exec_read hp hi
  obtain rfl := Host.Outcome.next.inj (hexec.symm.trans h)
  have honly := brReadBitsOp_onlyReader s.params n s
  refine ⟨?_, ⟨_, rfl⟩, brReadBitsOp_budget s.params n s, fun j => ?_⟩
  · obtain ⟨b, r, l, k, hk, e⟩ := honly
    have hk := hk (by simp [hp])
    subst hk
    rw [bitsRead, e]
    rfl
  · obtain ⟨-, -, -, -, -, -, -, hout, -⟩ := honly.frame
    exact congrArg (Memory.read · j) hout

/-- Settles O28: no fetch of the read uses a port. -/
theorem endOfDataReadsGoOn : Obligations.EndOfDataReadsGoOn := by
  unfold Obligations.EndOfDataReadsGoOn
  intro i s _ hp he hi
  obtain ⟨n, -, hexec⟩ := exec_read hp hi
  obtain ⟨heod, hlog, hsrc⟩ := brReadBitsOp_endedSince s.params n he
  exact ⟨_, _, hexec, rfl, heod, hlog, hsrc⟩

/-! ### The contract bit (R137, spec/60_exceptions.md R305) -/

theorem execOpenCtx_contract {s t : State} (h : execOpenCtx s = .next t) :
    t.seq.contract = s.seq.contract := by
  obtain ⟨u, ⟨r, l, w, k, total, rfl⟩, ⟨c, -, ho⟩ | ⟨-, -, ho⟩⟩ := execOpenCtx_cases s
  · obtain rfl := Host.Outcome.next.inj (ho.symm.trans h)
    rfl
  · obtain rfl := Host.Outcome.next.inj (ho.symm.trans h)
    rcases openAccept_cases s.params _ with
      ⟨c, v, -, ⟨r', l', n, rfl⟩, ha⟩ | ⟨cfg, bitlen, v, ⟨r', l', n, rfl⟩, -, -, -, -, ha⟩ <;>
      rw [ha] <;> rfl

/-- Every command keeps the contract bit, or is a bit request wider than 32, which sets it. -/
theorem exec_contract {i : Instr} {s t : State} (h : exec i s = .next t) :
    t.seq.contract = s.seq.contract ∨ ∃ n : BitVec 8, 32 < n.toNat ∧ i = .brReadBits n ∧
      t.resp = some ⟨.contract, 0⟩ ∧ t.seq.contract = true := by
  cases i with
  | openCtx => exact .inl (execOpenCtx_contract h)
  | closeCtx =>
    obtain rfl := Host.Outcome.next.inj h
    exact .inl rfl
  | unpack max => exact .inl (execUnpack_keeps h).contract
  | _ => exact (exec_keepsContext h (by simp) (by simp) (by simp)).contract

/-- A step that changes the contract bit only as R305 allows, for the input it carries out. -/
structure ContractRule (input : HostInput) (s t : State) : Prop where
  cleared : s.seq.contract = true → t.seq.contract = false →
    input = .reset ∨ ∃ n cmd arg, input = .resetDuring n cmd arg
  raised : s.seq.contract = false → t.seq.contract = true →
    t.resp = some ⟨.contract, 0⟩ ∧ ∃ n : BitVec 8, 32 < n.toNat ∧ ∃ cmd arg,
      (input = .command cmd arg ∨ ∃ cmd2 arg2, input = .overlapped cmd arg cmd2 arg2) ∧
      decode cmd arg = .ok (.brReadBits n)

theorem ContractRule.of_kept {input : HostInput} {s t : State}
    (h : t.seq.contract = s.seq.contract) : ContractRule input s t where
  cleared hs ht := by simp [h, hs] at ht
  raised hs ht := by simp [h, hs] at ht

/-- Reset clears the bit. -/
theorem ContractRule.of_reset {input : HostInput} {s t : State}
    (hi : input = .reset ∨ ∃ n cmd arg, input = .resetDuring n cmd arg)
    (h : t.seq.contract = false) : ContractRule input s t where
  cleared _ _ := hi
  raised _ ht := by simp [h] at ht

theorem runCommand_contractRule {input : HostInput} {cmd arg : Word} {s t : State}
    (hi : input = .command cmd arg ∨ ∃ cmd2 arg2, input = .overlapped cmd arg cmd2 arg2)
    (h : runCommand cmd arg s = .next t) : ContractRule input s t := by
  unfold runCommand at h
  split at h
  next =>
    obtain rfl := Host.Outcome.next.inj h
    exact .of_kept rfl
  next i hdec =>
    obtain hkept | ⟨n, hn, rfl, hresp, hset⟩ := exec_contract h
    · exact .of_kept hkept
    · exact ⟨fun _ ht => by simp [hset] at ht, fun _ _ => ⟨hresp, n, hn, cmd, arg, hi, hdec⟩⟩

theorem runInput_contractRule {input : HostInput} {s t : State} (h : runInput input s = .next t) :
    ContractRule input s t := by
  cases input with
  | command cmd arg => exact runCommand_contractRule (.inl rfl) h
  | overlapped cmd arg cmd2 arg2 => exact runCommand_contractRule (.inr ⟨_, _, rfl⟩) h
  | reset =>
    obtain rfl := Host.Outcome.next.inj h
    exact .of_reset (.inl rfl) rfl
  | resetDuring n cmd arg =>
    simp only [runInput, runInterrupted] at h
    split at h
    · obtain rfl := Host.Outcome.next.inj h
      exact .of_reset (.inr ⟨_, _, _, rfl⟩) rfl
    · cases h
    · cases h
  | connect stream splits =>
    obtain rfl := Host.Outcome.next.inj h
    exact .of_kept rfl
  | taken n =>
    obtain rfl := Host.Outcome.next.inj h
    exact .of_kept rfl
  | provideBuffer =>
    obtain rfl := Host.Outcome.next.inj h
    exact .of_kept rfl

/-- Settles O26: the rule of the input that the step carries out. -/
theorem contractBitSticky : Obligations.ContractBitSticky := by
  unfold Obligations.ContractBitSticky
  intro s t h
  unfold step at h
  split at h
  next =>
    obtain rfl := Host.Outcome.next.inj h
    exact ⟨fun h1 h2 => by simp [h1] at h2, fun h1 h2 => by simp [h1] at h2⟩
  next input rest hhost =>
    have hrule := runInput_contractRule h
    refine ⟨fun hs ht => ⟨input, rest, hhost, hrule.cleared hs ht⟩, fun hs ht => ?_⟩
    obtain ⟨hresp, n, hn, cmd, arg, hi, hdec⟩ := hrule.raised hs ht
    refine ⟨hresp, n, hn, cmd, arg, rest, ?_, hdec⟩
    rw [hhost]
    obtain rfl | ⟨cmd2, arg2, rfl⟩ := hi
    · exact .inl rfl
    · exact .inr ⟨cmd2, arg2, rfl⟩

end Sys2Proof.Machine
end

section
/-! SUPPORT. The ranges of the bit reader, the window and the output buffer through a whole step
(spec/10_state.md R25, R26, spec/20_memory.md R66). -/

namespace Sys2Proof.Machine

/-- The bit reader, the window and the output buffer stand in their ranges. -/
structure InRanges (P : Params) (s : State) : Prop where
  buf : BufOk P s
  acc : AccOk s
  drained : DrainedOk s
  window : WindowOk s
  output : Memory.wf s.out

theorem InRanges.readerOk {s : State} (h : InRanges s.params s) : ReaderOk s :=
  (readerOk_iff s).2 ⟨h.acc, h.buf⟩

/-- Two states agree on the bit reader, the window and the output buffer. -/
structure SameRanges (s t : State) : Prop where
  br : t.br = s.br
  win : t.win = s.win
  out : t.out = s.out

section
variable {P : Params} {s t : State} (h : InRanges P s)
include h

theorem InRanges.of_same (hst : SameRanges s t) : InRanges P t where
  buf := by rw [BufOk, hst.br]; exact h.buf
  acc := by rw [AccOk, hst.br]; exact h.acc
  drained := by rw [DrainedOk, hst.br]; exact h.drained
  window := by rw [WindowOk, hst.win]; exact h.window
  output := by rw [hst.out]; exact h.output

/-- What writes samples keeps the rest. -/
theorem InRanges.of_output (hst : OnlyOutput s t) (ht : Memory.wf t.out) : InRanges P t := by
  obtain ⟨m, l, rfl⟩ := hst
  exact ⟨h.buf, h.acc, h.drained, h.window, ht⟩

theorem InRanges.of_locate : InRanges P (locate P s).state := by
  have hwin := locate_window P s h.window
  obtain ⟨r, l, w, k, e⟩ := locate_onlyLocator P s
  rw [e] at hwin ⊢
  exact ⟨h.buf, h.acc, h.drained, hwin, h.output⟩

end

/-- A reader that has been attached to a stream is empty (R133). -/
theorem inRanges_of_attached {P : Params} {b : BitReader} {budget : Word} {s : State}
    (hbr : s.br = { b with idx := 0, fin := 0, acc := 0, cnt := 0, eod := false, budget := budget })
    (hwin : WindowOk s) (hout : Memory.wf s.out) : InRanges P s where
  buf := by rw [BufOk, hbr]; exact ⟨le_rfl, Nat.zero_le _, Nat.zero_le _⟩
  acc := by rw [AccOk, hbr]; exact ⟨Nat.zero_le _, Nat.one_pos⟩
  drained := fun _ => by rw [hbr]
  window := hwin
  output := hout

theorem OnlyLocator.params {s t : State} (h : OnlyLocator s t) : t.params = s.params := by
  obtain ⟨r, l, w, k, rfl⟩ := h
  rfl

/-! ### The operations that leave all three alone -/

theorem OnlySource.sameRanges {s t : State} (h : OnlySource s t) : SameRanges s t := by
  obtain ⟨r, l, rfl⟩ := h
  exact ⟨rfl, rfl, rfl⟩

theorem OnlyPayload.sameRanges {s t : State} (h : OnlyPayload s t) : SameRanges s t := by
  obtain ⟨r, l, n, rfl⟩ := h
  exact ⟨rfl, rfl, rfl⟩

theorem endStream_sameRanges (c : Cause) (s : State) : SameRanges s (endStream c s) :=
  ⟨rfl, rfl, rfl⟩

theorem latchTotal_sameRanges (s : State) : SameRanges s (latchTotal s) := by
  obtain h | ⟨-, -, h⟩ := latchTotal_cases s <;> rw [h] <;> exact ⟨rfl, rfl, rfl⟩

theorem verifyBlock_sameRanges (s : State) : SameRanges s (verifyBlock s) := by
  unfold verifyBlock
  split_ifs <;> exact ⟨rfl, rfl, rfl⟩

/-! ### Reads of bits -/

theorem brReadBitsOp_inRanges {P : Params} {n : Nat} (hn : n ≤ 32) {s : State} (h : InRanges P s) :
    InRanges P (brReadBitsOp P n s).2 := by
  obtain ⟨hbuf, hacc, -⟩ := brReadBitsOp_spec n s hn h.buf h.acc
  obtain ⟨-, hwin, -, -, -, -, -, hout, -⟩ := (brReadBitsOp_onlyReader P n s).frame
  refine ⟨hbuf, hacc, brReadBitsOp_drained P n h.drained, ?_, ?_⟩
  · rw [WindowOk, hwin]; exact h.window
  · rw [hout]; exact h.output

theorem runBits_inRanges {α : Type} {P : Params} (p : BitProg α) {s : State} (h : InRanges P s) :
    InRanges P (runBits P p s).2 := by
  induction p generalizing s with
  | ret a => exact h
  | read n k ih => exact ih _ (brReadBitsOp_inRanges (by omega) h)

theorem residual_inRanges {P : Params} (c : Chan) {s : State} (h : InRanges P s) :
    InRanges P (residual P c s).2 :=
  (runBits_inRanges _ h).of_same ⟨rfl, rfl, rfl⟩

theorem residuals_inRanges {P : Params} {s : State} (h : InRanges P s) :
    InRanges P (residuals P s).2 := by
  simp only [residuals]
  split_ifs
  · exact residual_inRanges .a h
  · exact residual_inRanges .b (residual_inRanges .a h)

/-! ### Samples written -/

theorem writeSilence_wf (n i : Nat) {s : State} (h : Memory.wf s.out) :
    Memory.wf (writeSilence n i s).out := by
  induction n generalizing i s with
  | zero => exact h
  | succ n ih =>
    refine ih _ ?_
    rw [writeSample_out]
    exact Memory.wf_write h _ _

theorem writeSlots_wf (P : Params) (base : Nat) (v : Frame) (w c : Nat) {s : State}
    (h : Memory.wf s.out) : Memory.wf (writeSlots P base v w c s).out := by
  induction w generalizing c s with
  | zero => exact h
  | succ w ih =>
    refine ih _ ?_
    rw [writeSample_out]
    exact Memory.wf_write h _ _

theorem gapStep_inRanges {P : Params} (lim k : Nat) {s : State} (h : InRanges P s) :
    InRanges P (gapStep lim k s) :=
  (h.of_output (writeSilence_onlyOutput _ _ s) (writeSilence_wf _ _ h.output)).of_same
    ⟨rfl, rfl, rfl⟩

theorem finishFrame_inRanges {P : Params} (k : Nat) (x : Frame) {s : State} (h : InRanges P s) :
    InRanges P (finishFrame P k x s) := by
  have hchain : InRanges P ((s.setPass (passChain P s.pass x).2).setBlk
      { s.blk with crc := foldCrc P s.blk.crc (postChain P s.blk.flags (passChain P s.pass x).1) }) :=
    h.of_same ⟨rfl, rfl, rfl⟩
  exact (hchain.of_output (writeSlots_onlyOutput P _ _ _ _ _)
    (writeSlots_wf P _ _ _ _ hchain.output)).of_same ⟨rfl, rfl, rfl⟩

/-! ### A round of UNPACK -/

theorem beginBlock_inRanges {P : Params} {s : State} (h : InRanges P s) :
    InRanges P (beginBlock P s).2 := by
  obtain ⟨u, hu, -, hcase⟩ := beginBlock_cases P s
  have hcopy : InRanges P (copyHeader s) := h.of_same ⟨rfl, rfl, rfl⟩
  have hread : InRanges P u := hcopy.of_same hu.sameRanges
  obtain ⟨c, -, hb⟩ | ⟨cfg, bitlen, hb, -⟩ := hcase <;> rw [hb]
  · exact hread
  · exact inRanges_of_attached (congrArg State.br (commitBlock_eq P cfg bitlen u)) hread.window
      hread.output

theorem takeHeader_inRanges {P : Params} {s : State} (h : InRanges P s) :
    InRanges P (takeHeader P s) := by
  have hbegin := beginBlock_inRanges h
  simp only [takeHeader]
  split_ifs
  · exact h.of_same (endStream_sameRanges _ s)
  · exact h.of_same ⟨rfl, rfl, rfl⟩
  · exact h.of_same (endStream_sameRanges _ s)
  · exact hbegin
  · exact hbegin.of_same (endStream_sameRanges _ _)

theorem fetchStep_inRanges {P : Params} {s : State} (h : InRanges P s) :
    InRanges P (fetchStep P s) := by
  have hdrain : InRanges P (drain s.blk.bytesLeft.toNat s).2 :=
    h.of_same (drain_onlySource _ s).sameRanges
  have hloc : InRanges P (locate P (leaveBlock (drain s.blk.bytesLeft.toNat s).2)).state :=
    (hdrain.of_same (t := leaveBlock _) ⟨rfl, rfl, rfl⟩).of_locate
  simp only [fetchStep]
  split_ifs
  · exact hdrain.of_same (endStream_sameRanges _ _)
  · exact hloc.of_same (endStream_sameRanges _ _)
  · exact takeHeader_inRanges (hloc.of_same (latchTotal_sameRanges _))

theorem decodeFrames_inRanges {P : Params} (n k : Nat) {s : State} (h : InRanges P s) :
    InRanges P (decodeFrames P n k s).2 :=
  decodeFrames_induct (P := P) (I := fun _ _ u => InRanges P u)
    (fun _ k _ hu _ => finishFrame_inRanges k _ (residuals_inRanges hu))
    (fun _ _ _ hu _ => (residuals_inRanges hu).of_same (endStream_sameRanges _ _)) n k s h

theorem decodeStep_inRanges {P : Params} (lim k : Nat) {s : State} (h : InRanges P s) :
    InRanges P (decodeStep P lim k s).2 := by
  rw [decodeStep_eq, verifyAtEnd]
  split_ifs
  · exact (decodeFrames_inRanges _ k h).of_same (verifyBlock_sameRanges _)
  · exact decodeFrames_inRanges _ k h

theorem unpackRound_inRanges {P : Params} (remaining k : Nat) {s : State} (h : InRanges P s) :
    InRanges P (unpackRound P remaining k s).2 := by
  simp only [unpackRound]
  split_ifs
  · exact fetchStep_inRanges h
  · exact gapStep_inRanges _ k h
  · exact decodeStep_inRanges _ k h

/-! ### Every command and every step -/

theorem execUnpack_inRanges {max : Word} {s t : State} (h : InRanges s.params s)
    (ht : execUnpack max s = .next t) : InRanges t.params t := by
  refine execUnpack_induct (J := fun u => InRanges u.params u)
    (fun _ _ h => h.of_same ⟨rfl, rfl, rfl⟩) ?_ max s t h ht
  rintro _ remaining k u rfl hu -
  rw [(unpackRound_keeps u.params remaining k u).1.params]
  exact unpackRound_inRanges remaining k hu

/-- OPEN empties the reader, whether it fails or opens a context. -/
theorem execOpenCtx_inRanges {s t : State} (h : InRanges s.params s)
    (ht : execOpenCtx s = .next t) : InRanges t.params t := by
  refine execOpenCtx_induct (J := fun u => InRanges u.params u) ht ?_ ?_
  · exact fun c u _ hwin hout => inRanges_of_attached (b := u.br) rfl hwin (hout ▸ h.output)
  · exact fun cfg bitlen v _ hwin hout _ _ _ _ _ _ =>
      inRanges_of_attached (b := v.br) rfl hwin (hout ▸ h.output)

/-- A command of NOCTX keeps the ranges if its run does: outside NOCTX it only responds. -/
theorem onlyInNoctx_inRanges {run : Out} {s t : State} (h : InRanges s.params s)
    (ht : onlyInNoctx s run = .next t)
    (hrun : s.seq.phase = .noctx → run = .next t → InRanges t.params t) : InRanges t.params t := by
  unfold onlyInNoctx at ht
  split_ifs at ht with hp
  · exact hrun hp ht
  · obtain rfl := Host.Outcome.next.inj ht
    exact h.of_same ⟨rfl, rfl, rfl⟩

theorem bitsRead_inRanges {n : Nat} (hn : n ≤ 32) {s : State} (h : InRanges s.params s) :
    InRanges (bitsRead n s).params (bitsRead n s) := by
  rw [bitsRead_params]
  exact (brReadBitsOp_inRanges hn h).of_same ⟨rfl, rfl, rfl⟩

theorem exec_inRanges {i : Instr} {s t : State} (h : InRanges s.params s)
    (ht : exec i s = .next t) : InRanges t.params t := by
  cases i with
  | openCtx => exact execOpenCtx_inRanges h ht
  | unpack max => exact execUnpack_inRanges h ht
  | closeCtx =>
    obtain rfl := Host.Outcome.next.inj ht
    exact inRanges_of_attached (b := s.br) rfl h.window h.output
  | getCursor k =>
    simp only [exec, execGetCursor] at ht
    split at ht <;> (obtain rfl := Host.Outcome.next.inj ht; exact h.of_same ⟨rfl, rfl, rfl⟩)
  | getHdr k =>
    simp only [exec, execGetHdr] at ht
    split at ht <;> (obtain rfl := Host.Outcome.next.inj ht; exact h.of_same ⟨rfl, rfl, rfl⟩)
  | brAttach budget =>
    refine onlyInNoctx_inRanges h ht fun _ hrun => ?_
    obtain rfl := Host.Outcome.next.inj hrun
    exact inRanges_of_attached (b := s.br) rfl h.window h.output
  | brReadBits n =>
    refine onlyInNoctx_inRanges h ht fun hp _ => ?_
    by_cases hn : n.toNat ≤ 32
    · obtain rfl := Host.Outcome.next.inj ((exec_brReadBits hp hn).symm.trans ht)
      exact bitsRead_inRanges hn h
    · obtain rfl := Host.Outcome.next.inj ((exec_brReadBits_wide hp (by omega)).symm.trans ht)
      exact h.of_same ⟨rfl, rfl, rfl⟩
  | brReadBit =>
    refine onlyInNoctx_inRanges h ht fun hp _ => ?_
    obtain rfl := Host.Outcome.next.inj ((exec_brReadBit hp).symm.trans ht)
    exact bitsRead_inRanges (by decide) h
  | locReadHeader =>
    refine onlyInNoctx_inRanges h ht fun _ hrun => ?_
    obtain rfl := Host.Outcome.next.inj hrun
    rw [respond_eq, State.setResp_params, State.setSeq_params, (locate_onlyLocator s.params s).params]
    exact h.of_locate.of_same ⟨rfl, rfl, rfl⟩
  | _ =>
    obtain rfl := Host.Outcome.next.inj ht
    exact h.of_same ⟨rfl, rfl, rfl⟩

theorem step_inRanges {s t : State} (h : InRanges s.params s) (ht : step s = .next t) :
    InRanges t.params t :=
  step_induct (J := fun u => InRanges u.params u)
    (hhost := fun _ _ h => h.of_same ⟨rfl, rfl, rfl⟩)
    (hlog := fun _ _ h => h.of_same ⟨rfl, rfl, rfl⟩)
    (hsrc := fun _ _ h => h.of_same ⟨rfl, rfl, rfl⟩)
    (hbuf := fun _ h => ⟨h.buf, h.acc, h.drained, h.window, Memory.wf_nil⟩)
    (hwrite := fun _ i v h => ⟨h.buf, h.acc, h.drained, h.window, Memory.wf_write h.output i v⟩)
    (hreset := fun _ h => inRanges_of_attached (b := BitReader.reset) rfl (Nat.zero_le _) h.output)
    (hresp := fun _ _ h => h.of_same ⟨rfl, rfl, rfl⟩)
    (hexec := fun _ _ _ => exec_inRanges) s t h ht

/-- Settles O54: the ranges together are kept by every round of UNPACK, every command and every step. -/
theorem rangesKept : Obligations.RangesKept := by
  unfold Obligations.RangesKept
  intro s t hreader hwindow hdrained hout h
  obtain ⟨hacc, hbuf⟩ := (readerOk_iff s).1 hreader
  have ht := step_inRanges ⟨hbuf, hacc, hdrained, hwindow, hout⟩ h
  exact ⟨ht.readerOk, ht.window, ht.drained, ht.output⟩

end Sys2Proof.Machine
end

section
/-! SUPPORT. LOC_READ_HEADER (spec/41_block_locator.md R168): the validity test of a header, the bytes a
failed locate leaves, and the command as a locate with its answer. -/

namespace Sys2Proof.Machine

/-! ### The validity test (R161) -/

theorem magicOk_iff {w : List Byte} (h : 4 ≤ w.length) :
    magicOk w = true ↔ w.take 4 = [0x77, 0x76, 0x70, 0x6B] := by
  match w, h with
  | _ :: _ :: _ :: _ :: _, _ => simp [magicOk, and_assoc]

theorem versionOk_iff (P : Params) (w : List Byte) :
    versionOk P w = true ↔ P.hvVMin.toNat ≤ (w.getD (P.hvVersOffLess4.val + 4) 0).toNat ∧
      (w.getD (P.hvVersOffLess4.val + 4) 0).toNat ≤ P.hvVMax.toNat := by
  simp only [versionOk, Bool.and_eq_true, decide_eq_true_eq]

theorem constraintHolds_iff (c : HvConstraint) (w : List Byte) :
    constraintHolds c w = true ↔ w.getD (c.offLess4.val + 4) 0 &&& c.mask = c.value :=
  decide_eq_true_iff

theorem headerValid_iff (P : Params) {w : List Byte} (h : 4 ≤ w.length) :
    headerValid P w = true ↔
      w.take 4 = [0x77, 0x76, 0x70, 0x6B] ∧
      P.hvVMin.toNat ≤ (w.getD (P.hvVersOffLess4.val + 4) 0).toNat ∧
      (w.getD (P.hvVersOffLess4.val + 4) 0).toNat ≤ P.hvVMax.toNat ∧
      ∀ c ∈ P.hvConstraints, w.getD (c.offLess4.val + 4) 0 &&& c.mask = c.value := by
  simp only [headerValid, Bool.and_eq_true, List.all_eq_true, magicOk_iff h, versionOk_iff,
    constraintHolds_iff, and_assoc]

/-- The default constraint triples, each at its byte. -/
theorem tiConstraints_hold_iff (w : List Byte) :
    (∀ c ∈ Params.ti.hvConstraints, w.getD (c.offLess4.val + 4) 0 &&& c.mask = c.value) ↔
      w.getD 4 0 &&& 0x01 = 0 ∧ w.getD 6 0 &&& 0xF0 = 0 ∧ w.getD 7 0 = 0 ∧ w.getD 9 0 = 4 := by
  have whole : ∀ b : Byte, b &&& 0xFF = b := fun b => BitVec.and_allOnes
  simp only [Params.ti, tiConstraints, List.forall_mem_cons, whole]
  simp

/-- Settles O29: the test part by part, and then the constants of the default table. -/
theorem headerValidityTest : Obligations.HeaderValidityTest := by
  unfold Obligations.HeaderValidityTest
  refine ⟨fun P w h => headerValid_iff P (by omega), fun w h => ?_⟩
  rw [headerValid_iff Params.ti (by omega), tiConstraints_hold_iff]
  rfl

/-! ### The bytes a failed locate leaves (R167) -/

/-- The bytes a failed locate leaves when it has skipped n of those ahead of `s`: the window keeps at most the
next 31, and the rest is still in the stream. -/
structure LeftAfterSkip (s : State) (n : Nat) (t : State) : Prop where
  window : t.win = (s.ahead.drop n).take 31
  stream : t.src.stream = s.ahead.drop (n + 31)

theorem LeftAfterSkip.ahead {s t : State} {n : Nat} (h : LeftAfterSkip s n t) :
    t.ahead = s.ahead.drop n := by
  rw [State.ahead, h.window, h.stream, ← List.drop_drop, List.take_append_drop]

/-- Only the window and the stream matter. -/
theorem LeftAfterSkip.of_same {s t u : State} {n : Nat} (h : LeftAfterSkip s n t) (hw : u.win = t.win)
    (hs : u.src.stream = t.src.stream) : LeftAfterSkip s n u :=
  ⟨hw.trans h.window, hs.trans h.stream⟩

theorem fillWindow_leaves {s : State} (hw : s.win.length ≤ hdrBytes)
    (h : (fillWindow s).win.length < hdrBytes) : LeftAfterSkip s 0 (fillWindow s) := by
  have hl : s.ahead.length < hdrBytes := (fillWindow_short_iff hw).1 h
  constructor
  · rw [fillWindow_win s hw, List.drop_zero, List.take_of_length_le hl.le,
      List.take_of_length_le (Nat.le_of_lt_succ hl)]
  · rw [fillWindow_stream s hw, List.drop_of_length_le hl.le,
      List.drop_of_length_le (Nat.le_of_lt_succ hl)]

theorem dropByte_leaves {s : State} (hw : s.win.length ≤ hdrBytes) :
    LeftAfterSkip s 1 (dropByte (fillWindow s)) := by
  constructor
  · rw [dropByte, State.setWin_win, fillWindow_win s hw, ← List.drop_one, List.drop_take]
    rfl
  · exact fillWindow_stream s hw

/-- A skipped byte is one more for the rounds after it. -/
theorem LeftAfterSkip.succ {s u t : State} {n : Nat} (hu : u.ahead = s.ahead.drop 1)
    (h : LeftAfterSkip u n t) : LeftAfterSkip s (n + 1) t := by
  obtain ⟨hwin, hstream⟩ := h
  rw [hu, List.drop_drop] at hwin hstream
  exact ⟨by rw [hwin, Nat.add_comm], by rw [hstream, Nat.add_comm 1, Nat.add_right_comm]⟩

theorem locateLoop_leaves {P : Params} (left S : Nat) (s : State) (hw : s.win.length ≤ hdrBytes)
    (hc : (locateLoop P left S s).cause ≠ .none) :
    ∃ n, (locateLoop P left S s).skipped = S + n ∧
      LeftAfterSkip s n (locateLoop P left S s).state := by
  by_cases hshort : (fillWindow s).win.length < hdrBytes
  · rw [locateLoop_short hshort]
    exact ⟨0, rfl, (fillWindow_leaves hw hshort).of_same rfl rfl⟩
  have hv : headerValid P (fillWindow s).win = false := by
    by_contra hv
    exact hc (by rw [locateLoop_match hshort (by simpa using hv)])
  cases left with
  | zero =>
    rw [locateLoop_budget hshort hv]
    exact ⟨1, rfl, (dropByte_leaves hw).of_same rfl rfl⟩
  | succ left =>
    obtain ⟨hahead, hwin⟩ := dropByte_ahead_eq hw hshort
    rw [locateLoop_next hshort hv] at hc ⊢
    obtain ⟨n, hn, hleft⟩ := locateLoop_leaves left (S + 1) _ hwin hc
    exact ⟨n + 1, by rw [hn]; omega, hleft.succ hahead⟩

theorem locate_leaves {P : Params} {s : State} (hw : s.win.length ≤ hdrBytes)
    (hc : (locate P s).cause ≠ .none) :
    LeftAfterSkip s (locate P s).skipped (locate P s).state := by
  obtain ⟨n, hn, hleft⟩ := locateLoop_leaves _ 0 s hw hc
  rw [Nat.zero_add] at hn
  rw [locate, hn]
  exact hleft

theorem locate_format {P : Params} {s : State} (hw : s.win.length ≤ hdrBytes)
    (hl : resyncBudget + hdrBytes ≤ s.ahead.length)
    (hno : ∀ i, i ≤ resyncBudget → ¬ headerAt P s.ahead i) :
    (locate P s).cause = .format ∧ (locate P s).skipped = resyncBudget + 1 := by
  have h := locateLoop_format (P := P) resyncBudget 0 s hw hl fun i hi =>
    headerValid_of_not_headerAt (by omega) (hno i hi)
  rwa [Nat.zero_add] at h

theorem locate_exhausted {P : Params} {s : State} (hw : s.win.length ≤ hdrBytes)
    (hl : s.ahead.length < resyncBudget + hdrBytes) (hno : ∀ i, ¬ headerAt P s.ahead i) :
    (locate P s).cause = (if s.ahead = [] then .eos else .exhausted) ∧
      (locate P s).skipped = s.ahead.length - 31 := by
  have h := locateLoop_exhausted (P := P) resyncBudget 0 s hw hl fun i hi =>
    headerValid_of_not_headerAt hi (hno i)
  simp only [true_and, Nat.zero_add] at h
  exact h

/-! ### The command (R168) -/

/-- The state a locate leaves, with its cause in SEQ and its answer in the response. -/
def locateAnswered (s : State) : State :=
  ((locate s.params s).state.setSeq { s.seq with cause := (locate s.params s).cause }).setResp
    (some ⟨if (locate s.params s).cause = .none then .ok else .fail,
      BitVec.ofNat 32 (locate s.params s).skipped⟩)

theorem exec_locReadHeader {s : State} (hp : s.seq.phase = .noctx) :
    exec .locReadHeader s = .next (locateAnswered s) := by
  have hseq := (locate_onlyLocator s.params s).frame.1
  refine (onlyInNoctx_runs hp _).trans ?_
  simp only [respond_eq, hseq]
  rfl

@[simp] theorem locateAnswered_seq (s : State) :
    (locateAnswered s).seq = { s.seq with cause := (locate s.params s).cause } := rfl

theorem locateAnswered_resp_ok {s : State} (h : (locate s.params s).cause = .none) :
    (locateAnswered s).resp = some ⟨.ok, BitVec.ofNat 32 (locate s.params s).skipped⟩ := by
  rw [locateAnswered, if_pos h]
  rfl

theorem locateAnswered_resp_fail {s : State} (h : (locate s.params s).cause ≠ .none) :
    (locateAnswered s).resp = some ⟨.fail, BitVec.ofNat 32 (locate s.params s).skipped⟩ := by
  rw [locateAnswered, if_neg h]
  rfl

/-- Settles O31: the locate ends at the first header, and the command answers with what it found. -/
theorem locateFindsFirstHeader : Obligations.LocateFindsFirstHeader := by
  unfold Obligations.LocateFindsFirstHeader
  intro s j hw hp hj hat hno
  obtain ⟨hcause, hskipped, hhdr, hwin, hstream⟩ := locate_first hw ⟨hj, hat, hno⟩
  have hresp := locateAnswered_resp_ok hcause
  rw [hskipped] at hresp
  refine ⟨_, exec_locReadHeader hp, hresp, ?_, hhdr, (locate_hdr _ _).1 hcause, hwin, hstream⟩
  rw [locateAnswered_seq, hcause]

/-- A failed LOC_READ_HEADER, by the cause and the bytes skipped of its locate. -/
theorem exec_locReadHeader_fails {s : State} {c : Cause} {n : Nat} (hw : WindowOk s)
    (hp : s.seq.phase = .noctx) (hc : (locate s.params s).cause = c) (hne : c ≠ .none)
    (hn : (locate s.params s).skipped = n) :
    ∃ t, exec .locReadHeader s = .next t ∧ t.resp = some ⟨.fail, BitVec.ofNat 32 n⟩ ∧
      t.seq = { s.seq with cause := c } ∧ t.hdr = { s.hdr with valid := false } ∧
      LeftAfterSkip s n t := by
  subst hc hn
  exact ⟨_, exec_locReadHeader hp, locateAnswered_resp_fail hne, rfl, (locate_hdr _ _).2 hne,
    (locate_leaves hw hne).of_same rfl rfl⟩

/-- Settles O32: the locate's cause and skipped bytes in each case, and the bytes that a failure leaves. -/
theorem locateFailures : Obligations.LocateFailures := by
  unfold Obligations.LocateFailures
  refine ⟨fun s hw hp hl hno => ?_, fun s hw hp hl hno => ?_⟩
  · obtain ⟨hc, hn⟩ := locate_format hw hl hno
    obtain ⟨t, ht, hresp, hseq, hhdr, hleft⟩ := exec_locReadHeader_fails hw hp hc (by simp) hn
    exact ⟨t, ht, hresp, hseq, hhdr, hleft.ahead, hleft.stream⟩
  · obtain ⟨hc, hn⟩ := locate_exhausted hw hl hno
    obtain ⟨t, ht, hresp, hseq, hhdr, hwin, hstream⟩ :=
      exec_locReadHeader_fails hw hp hc (by split_ifs <;> simp) hn
    refine ⟨t, ht, hresp, hseq, hhdr, ?_, ?_⟩
    · rw [hwin, List.take_of_length_le (by rw [List.length_drop]; omega)]
    · rw [hstream, List.drop_of_length_le (by omega)]

theorem locateAnswered_frame (s : State) :
    locateAnswered s = (((((s.setWin (locateAnswered s).win).setHdr (locateAnswered s).hdr).setSrc
      (locateAnswered s).src).setLog (locateAnswered s).log).setSeq
      { s.seq with cause := (locateAnswered s).seq.cause }).setResp (locateAnswered s).resp := by
  obtain ⟨r, l, w, k, h⟩ := locate_onlyLocator s.params s
  simp only [locateAnswered, h]
  rfl

/-- Settles O33: a locate's own frame, and what HDR holds by the way it ends. -/
theorem locateFrame : Obligations.LocateFrame := by
  unfold Obligations.LocateFrame
  intro s t hp ht
  obtain rfl := Host.Outcome.next.inj ((exec_locReadHeader hp).symm.trans ht)
  obtain ⟨hfound, hfailed⟩ := locate_hdr s.params s
  refine ⟨locateAnswered_frame s, ?_, fun j => by rw [locateAnswered_frame]; rfl⟩
  by_cases hc : (locate s.params s).cause = .none
  · exact .inl ⟨_, locateAnswered_resp_ok hc, hc, hfound hc⟩
  · exact .inr ⟨_, locateAnswered_resp_fail hc, hc, hfailed hc⟩

end Sys2Proof.Machine
end

section
/-! SUPPORT. The statements about the decoder context (spec/42_context.md) but for OPEN: the two accessors
with an immediate, the derived configuration, CLOSE, and what UNPACK leaves alone. -/

namespace Sys2Proof.Machine

/-! ### Commands by their words (spec/30_encoding.md R91, R96) -/

/-- A word written as opcode and immediate, by its value. -/
theorem ofNat_fields_toNat {op imm : Nat} (hop : op < 256) (himm : imm < 256) :
    (BitVec.ofNat 32 (op + 256 * imm)).toNat = op + 256 * imm := by
  rw [BitVec.toNat_ofNat]
  omega

theorem ofNat_fields_eq_cmdWord {op imm : Nat} (hop : op < 256) (himm : imm < 256) :
    BitVec.ofNat 32 (op + 256 * imm) = cmdWord (BitVec.ofNat 8 op) (BitVec.ofNat 8 imm) := by
  have hrsv : cmdRsv (BitVec.ofNat 32 (op + 256 * imm)) = 0 := by
    rw [cmdRsv_eq_zero_iff, ofNat_fields_toNat hop himm]
    omega
  rw [← cmdWord_cmdOp_cmdImm hrsv]
  congr 1 <;> apply BitVec.eq_of_toNat_eq
  · rw [cmdOp_toNat, ofNat_fields_toNat hop himm, BitVec.toNat_ofNat]
    omega
  · rw [cmdImm_toNat, ofNat_fields_toNat hop himm, BitVec.toNat_ofNat]
    omega

theorem illegalWord_of_illegalImmediate {op imm : Nat} (hop : op < 256) (himm : imm < 256)
    (h : illegalImmediate op imm) : illegalWord (BitVec.ofNat 32 (op + 256 * imm)) := by
  have h1 : (op + 256 * imm) % 0x100 = op := by omega
  have h2 : (op + 256 * imm) / 0x100 % 0x100 = imm := by omega
  rw [illegalWord, ofNat_fields_toNat hop himm, h1, h2]
  exact .inr (.inr h)

/-- The command word of a command that has no argument runs it, whatever the argument word (R97). -/
theorem runCommand_encode {i : Instr} (hi : WellFormed i) (hu : i.opcode ≠ 0x02)
    (hb : i.opcode ≠ 0x20) (arg : Word) (s : State) : runCommand (encode i).1 arg s = exec i s := by
  have hop : (encode i).1.toNat % 0x100 = i.opcode.toNat := by
    rw [← cmdOp_toNat, (Laws.EncodedForm.all i).2.1]
  refine runCommand_of_ok ((decode_arg arg (encode i).2 ?_ ?_).trans (decode_encode hi)) s
  · rw [hop]
    exact fun h => hu (BitVec.eq_of_toNat_eq h)
  · rw [hop]
    exact fun h => hb (BitVec.eq_of_toNat_eq h)

/-! ### The cursor and the header fields (R223, R225) -/

theorem cursorWords_toNat (c : BitVec 64) :
    (c.extractLsb' 0 32).toNat = c.toNat % 2 ^ 32 ∧
      (c.extractLsb' 32 32).toNat = c.toNat / 2 ^ 32 := by
  have hc := c.isLt
  simp only [BitVec.extractLsb'_toNat, Nat.shiftRight_eq_div_pow]
  omega

/-- Settles O17: the words of the two legal immediates, both 0 of the cleared cursor; the decoder refuses
the other immediates. -/
theorem getCursorWords : Obligations.GetCursorWords := by
  unfold Obligations.GetCursorWords
  refine ⟨fun s => ?_, fun s k arg h1 hk => ?_⟩
  · obtain ⟨hlo, hhi⟩ := cursorWords_toNat s.ctx.cursor
    refine ⟨_, _, rfl, rfl, hlo, hhi, fun hclear hnone => ?_, fun arg => ⟨?_, ?_⟩⟩
    · obtain ⟨hctx, -⟩ := hclear hnone
      simp [hctx, Ctx.reset]
    · exact runCommand_encode (i := .getCursor 0) rfl (by decide) (by decide) arg s
    · exact runCommand_encode (i := .getCursor 1) rfl (by decide) (by decide) arg s
  · exact runCommand_of_illegal
      (illegalWord_of_illegalImmediate (by omega) hk (.inl ⟨rfl, h1⟩)) arg s

theorem runCommand_getHdr {k : Nat} (hk : k ≤ 10) (arg : Word) (s : State) :
    runCommand (BitVec.ofNat 32 (0x1B + 256 * k)) arg s = exec (.getHdr (BitVec.ofNat 8 k)) s := by
  rw [ofNat_fields_eq_cmdWord (by omega) (by omega)]
  refine runCommand_encode (i := .getHdr (BitVec.ofNat 8 k)) ?_ ?_ ?_ arg s
  · refine decide_eq_true ?_
    rw [BitVec.toNat_ofNat]
    omega
  · simp [Instr.opcode]
  · simp [Instr.opcode]

/-- Settles O19: the field of each legal immediate; the decoder refuses the other immediates. -/
theorem getHdrFields : Obligations.GetHdrFields := by
  unfold Obligations.GetHdrFields
  refine ⟨fun s => ?_, fun s k arg h1 hk => ?_⟩
  · have hversion : 0#16 ++ s.hdr.version = s.hdr.version.setWidth 32 :=
      (BitVec.setWidth_eq_append (by decide)).symm
    have hbyte (b : Byte) : 0#24 ++ b = b.setWidth 32 := (BitVec.setWidth_eq_append (by decide)).symm
    rw [hversion, hbyte, hbyte]
    exact ⟨rfl, rfl, rfl, rfl, rfl, rfl, rfl, rfl, rfl, rfl, rfl,
      fun k arg hk => runCommand_getHdr hk arg s⟩
  · exact runCommand_of_illegal
      (illegalWord_of_illegalImmediate (by omega) hk (.inr (.inl ⟨rfl, h1⟩))) arg s

/-! ### The derived configuration (R205 to R210) -/

/-- The stored byte count plus one does not wrap. -/
theorem storedBytes_toNat (stored : BitVec 2) :
    (stored.setWidth 32 + 1 : Word).toNat = stored.toNat + 1 := by
  have h := stored.isLt
  have hone : (1 : Word).toNat = 1 := rfl
  rw [BitVec.toNat_add, BitVec.toNat_setWidth, hone]
  omega

/-- The integer bit count is the exact difference, wrapped to 32 bits. -/
theorem integerBits_eq (bytes : Word) (shift : BitVec 5) :
    8 * bytes - shift.setWidth 32 = BitVec.ofInt 32 (8 * (bytes.toNat : Int) - shift.toNat) := by
  rw [Int.sub_eq_add_neg, BitVec.ofInt_add, BitVec.ofInt_neg, BitVec.ofInt_mul,
    BitVec.ofInt_natCast, BitVec.ofInt_natCast, BitVec.ofNat_toNat, BitVec.ofNat_toNat,
    BitVec.setWidth_eq, BitVec.sub_eq_add_neg]
  rfl

/-- Settles O37: the mode decides bytes and bits; the other lines are `Derive`'s own. -/
theorem derivedConfiguration : Obligations.DerivedConfiguration := by
  unfold Obligations.DerivedConfiguration
  rintro P flags c _ _ rfl rfl
  refine ⟨fun hf => ?_, fun hf => ?_, rfl, rfl, rfl, ?_, rfl, rfl, rfl, rfl⟩
  · simp [Ctx.derive, hf, floatBytes, floatBits]
  · simp only [Ctx.derive, hf, Bool.false_eq_true, if_false]
    exact ⟨storedBytes_toNat _, integerBits_eq _ _⟩
  · simp [Ctx.derive]

/-! ### CLOSE and UNPACK (R211, R213) -/

/-- Settles O38: CLOSE is the clearing of the context, then phase, cause and response. -/
theorem closeClearsContext : Obligations.CloseClearsContext := by
  unfold Obligations.CloseClearsContext
  exact fun s => ⟨fun arg => runCommand_encode (i := .closeCtx) rfl (by decide) (by decide) arg s, rfl⟩

theorem UnpackKeeps.ctx {s t : State} (h : UnpackKeeps s t) :
    t.ctx = { s.ctx with
      total := t.ctx.total, crcErrors := t.ctx.crcErrors, cursor := t.ctx.cursor } :=
  congrArg (fun c : Ctx => { c with
    total := t.ctx.total, crcErrors := t.ctx.crcErrors, cursor := t.ctx.cursor }) h.frozen

/-- Settles O44: what the rounds of UNPACK keep, and the one change of SEQ. -/
theorem unpackFrame : Obligations.UnpackFrame := by
  unfold Obligations.UnpackFrame
  intro s t max h
  have hk := execUnpack_keeps h
  refine ⟨hk.contract, hk.host, hk.build, hk.ctx, fun hp => ?_⟩
  obtain hseq | ⟨-, c, -, hseq⟩ := execUnpack_seq h
  · exact hseq
  · exact absurd (by rw [hseq]) hp

end Sys2Proof.Machine
end

section
/-! SUPPORT. OPEN (spec/42_context.md R200 to R205, R212): what it keeps while it searches, the two ways it
can end, and which of them the bytes of the stream decide. -/

namespace Sys2Proof.Machine

/-! ### What OPEN keeps while it searches (R202) -/

/-- The header loop starts with the context cleared and no cause. -/
theorem openStart_registers (P : Params) (s : State) :
    (openStart P s).seq = { s.seq with cause := .none } ∧ (openStart P s).ctx = Ctx.reset P ∧
      (openStart P s).pass = [] ∧ (openStart P s).es = P.esReset ∧ (openStart P s).fexp = 0 ∧
      (openStart P s).out = s.out ∧ (openStart P s).host = s.host ∧
      (openStart P s).build = s.build := by
  simp [openStart, contextClear_eq]

/-- The registers a block begins with in OPEN: the cleared ones but for a latched total. -/
theorem OnlySearch.registers {P : Params} {s u : State} (h : OnlySearch (openStart P s) u) :
    u.seq = { s.seq with cause := .none } ∧ u.ctx = { Ctx.reset P with total := u.ctx.total } ∧
      u.pass = [] ∧ u.es = P.esReset ∧ u.fexp = 0 ∧ u.out = s.out ∧ u.host = s.host ∧
      u.build = s.build := by
  rw [← (openStart_registers P s).2.1]
  obtain ⟨hseq, -, hpass, hes, hfexp, hout, hhost, hbuild⟩ := openStart_registers P s
  obtain ⟨r, l, w, k, total, rfl⟩ := h
  exact ⟨hseq, rfl, hpass, hes, hfexp, hout, hhost, hbuild⟩

/-- The registers while the audio block's metadata are read: those OPEN searched with, the derived
configuration and the copies of BLK. -/
theorem OnlyPayload.registers {P : Params} {u v : State}
    (h : OnlyPayload (copyHeader (deriveCtx P u)) v) :
    v.seq = u.seq ∧ v.win = u.win ∧ v.hdr = u.hdr ∧ v.ctx = u.ctx.derive P u.hdr.flags ∧
      v.blk = { u.blk with
        blockIndex := u.hdr.blockIndex
        blockSamples := u.hdr.blockSamples
        flags := u.hdr.flags
        crcStored := u.hdr.crc
        bytesLeft := v.blk.bytesLeft } ∧
      v.pass = u.pass ∧ v.es = u.es ∧ v.fexp = u.fexp ∧ v.out = u.out ∧ v.host = u.host ∧
      v.build = u.build := by
  obtain ⟨r, l, n, rfl⟩ := h
  simp [copyHeader, deriveCtx]

/-- The registers and ports OPEN leaves alone until it ends; only the cause has been cleared (R202). -/
structure OpenKeeps (s u : State) : Prop where
  seq : u.seq = { s.seq with cause := .none }
  out : u.out = s.out
  host : u.host = s.host
  build : u.build = s.build

theorem OnlySearch.openKeeps {s u : State} (h : OnlySearch (openStart s.params s) u) :
    OpenKeeps s u := by
  obtain ⟨hseq, -, -, -, -, hout, hhost, hbuild⟩ := h.registers
  exact ⟨hseq, hout, hhost, hbuild⟩

theorem OpenKeeps.beginning {s u v : State} {P : Params} (h : OpenKeeps s u)
    (hv : OnlyPayload (copyHeader (deriveCtx P u)) v) : OpenKeeps s v := by
  obtain ⟨hseq, -, -, -, -, -, -, -, hout, hhost, hbuild⟩ := hv.registers
  exact ⟨hseq.trans h.seq, hout.trans h.out, hhost.trans h.host, hbuild.trans h.build⟩

/-! ### The two ways OPEN ends (R203, R204) -/

/-- An emptied bit reader with a budget (spec/40_bit_reader.md R133). -/
def BitReader.Attached (b : BitReader) (budget : Word) : Prop :=
  b.idx = 0 ∧ b.fin = 0 ∧ b.acc = 0 ∧ b.cnt = 0 ∧ b.eod = false ∧ b.budget = budget

/-- An OPEN of `s` has ended in `t` with a failure (R204). -/
structure OpenFailed (s : State) (c : Cause) (t : State) : Prop where
  resp : t.resp = some ⟨.fail, 0⟩
  seq : t.seq = { s.seq with phase := .failed, cause := c }
  out : t.out = s.out
  host : t.host = s.host
  build : t.build = s.build
  cleared : ContextCleared t
  reader : t.br.Attached 0

theorem openFail_failed {s u : State} (c : Cause) (h : OpenKeeps s u) :
    OpenFailed s c (openFail s.params c u) := by
  have hcleared := openFail_cleared c (congrArg Build.params h.build).symm
  rw [openFail, contextClear_eq] at *
  exact ⟨rfl, by simp [h.seq], h.out, h.host, h.build, hcleared, ⟨rfl, rfl, rfl, rfl, rfl, rfl⟩⟩

/-- An OPEN of `s` has ended in `t` on the audio block with header `h`, with a total and a payload count
(R203). -/
structure OpenReady (s : State) (h : Hdr) (total bytesLeft : Word) (cfg : MetaCfg) (bitlen : Word)
    (t : State) : Prop where
  resp : t.resp = some ⟨.ok, 0⟩
  seq : t.seq = { s.seq with phase := .ready, cause := .none }
  out : t.out = s.out
  host : t.host = s.host
  build : t.build = s.build
  hdr : t.hdr = h
  ctx : t.ctx = { (Ctx.reset s.params).derive s.params h.flags with
    total := total, cursor := h.blockIndex.setWidth 64 }
  pass : t.pass = chainFor cfg []
  es : t.es = cfg.esInit.getD s.params.esReset
  fexp : t.fexp = cfg.fexp.getD 0
  blk : t.blk =
    { active := true, bytesLeft := bytesLeft, crc := s.params.crcInit,
      bc := codedChannels s.params h.flags, blockIndex := h.blockIndex,
      blockSamples := h.blockSamples, flags := h.flags, crcStored := h.crc }
  reader : t.br.Attached bitlen

/-- The state OPEN answers with when its block has begun: the cursor at the block, READY, OK (R203). -/
def contextReady (P : Params) (cfg : MetaCfg) (bitlen : Word) (v : State) : State :=
  (((commitBlock P cfg bitlen v).setCtx
      { v.ctx with cursor := v.blk.blockIndex.setWidth 64 }).setSeq
    { v.seq with phase := .ready }).setResp (some ⟨.ok, 0⟩)

theorem contextReady_ready {s u v : State} (cfg : MetaCfg) (bitlen : Word)
    (hu : OnlySearch (openStart s.params s) u)
    (hv : OnlyPayload (copyHeader (deriveCtx s.params u)) v) :
    OpenReady s u.hdr u.ctx.total v.blk.bytesLeft cfg bitlen (contextReady s.params cfg bitlen v) := by
  have hkeeps := hu.openKeeps.beginning hv
  obtain ⟨-, hctx, hpass, hes, hfexp, -⟩ := hu.registers
  obtain ⟨-, -, hhdr', hctx', hblk', hpass', hes', hfexp', -⟩ := hv.registers
  have hchain : chainOf cfg v = chainFor cfg [] := by rw [chainOf, hpass', hpass, chainFor]
  rw [contextReady, commitBlock_eq, hchain, hes', hes, hfexp', hfexp]
  refine ⟨rfl, ?_, hkeeps.out, hkeeps.host, hkeeps.build, hhdr', ?_, rfl, rfl, rfl, ?_,
    ⟨rfl, rfl, rfl, rfl, rfl, rfl⟩⟩
  · simp [hkeeps.seq]
  · rw [State.setResp_ctx, State.setSeq_ctx, State.setCtx_ctx, hctx', hblk', hctx]
    rfl
  · rw [State.setResp_blk, State.setSeq_blk, State.setCtx_blk, State.setBlk_blk, hblk']

theorem contextReady_rest (P : Params) (cfg : MetaCfg) (bitlen : Word) (v : State) :
    (contextReady P cfg bitlen v).win = v.win ∧ (contextReady P cfg bitlen v).src = v.src := by
  simp [contextReady, commitBlock_eq]

/-- Every way OPEN can end, with the registers it leaves. -/
theorem exec_openCtx_cases (s : State) :
    ∃ t, exec .openCtx s = .next t ∧
      ((∃ h total bytesLeft cfg bitlen, h.valid = true ∧ 24 ≤ h.ckSize.toNat ∧ h.blockSamples ≠ 0 ∧
          OpenReady s h total bytesLeft cfg bitlen t) ∨
        ∃ c, c ≠ .none ∧ OpenFailed s c t) := by
  obtain ⟨u, hu, -, ⟨c, hc, ho⟩ | ⟨h24, hn, hv, ho⟩⟩ := openLoop_ends s.params
    (s.src.stream.length + 1) (openStart s.params s) (Nat.lt_succ_self _)
  · exact ⟨_, ho, .inr ⟨c, hc, openFail_failed c hu.openKeeps⟩⟩
  · refine ⟨_, ho, ?_⟩
    obtain ⟨c, v, hc, hp, ha⟩ | ⟨cfg, bitlen, v, hp, -, -, -, -, ha⟩ := openAccept_cases s.params u
    · rw [ha]
      exact .inr ⟨c, hc, openFail_failed c (hu.openKeeps.beginning hp)⟩
    · rw [ha]
      exact .inl ⟨_, _, _, cfg, bitlen, hv, h24, hn, contextReady_ready cfg bitlen hu hp⟩

/-! ### What the bytes of a block decide (R203) -/

theorem ofNat_codedChannels (P : Params) (flags : Word) :
    BitVec.ofNat 32 (codedChannels P flags) = if (P.flagField flags).mono then 1 else 2 := by
  unfold codedChannels
  split_ifs <;> rfl

theorem derive_frameWidth (P : Params) (flags : Word) (c : Ctx) :
    (c.derive P flags).frameWidth = BitVec.ofNat 32 (codedChannels P flags) :=
  (ofNat_codedChannels P flags).symm

theorem openAccept_fails {P : Params} {u : State} {c : Cause} (h24 : 24 ≤ u.hdr.ckSize.toNat)
    (h : beginFails P u.hdr u.pass (BitVec.ofNat 32 (codedChannels P u.hdr.flags)) u.src.stream c) :
    ∃ v, openAccept P u = openFail P c v ∧ OnlyPayload (copyHeader (deriveCtx P u)) v := by
  rw [← derive_frameWidth P u.hdr.flags u.ctx] at h
  obtain ⟨hc, rfl, hp⟩ := beginBlock_fails (s := deriveCtx P u) h24 h
  exact ⟨_, if_neg hc, hp⟩

theorem openAccept_begins {P : Params} {u : State} {k : Nat} {cfg : MetaCfg} {bitlen : Word}
    (h24 : 24 ≤ u.hdr.ckSize.toNat)
    (h : beginsWith P u.hdr u.pass (BitVec.ofNat 32 (codedChannels P u.hdr.flags)) u.src.stream k cfg
      bitlen) :
    ∃ v, openAccept P u = contextReady P cfg bitlen v ∧
      OnlyPayload (copyHeader (deriveCtx P u)) v ∧ v.src.stream = u.src.stream.drop k ∧
      v.blk.bytesLeft = u.hdr.ckSize - 24 - BitVec.ofNat 32 k := by
  rw [← derive_frameWidth P u.hdr.flags u.ctx] at h
  obtain ⟨v, hb, hp, hstream, hblk⟩ := beginBlock_begins (s := deriveCtx P u) h24 h
  refine ⟨v, ?_, hp, hstream, by rw [hblk]; rfl⟩
  simp only [openAccept, hb, if_true]
  rfl

/-! ### A round of the header loop, by the header it finds (R202) -/

/-- The rest of a round of OPEN's header loop, once a header is located and its total latched. -/
def openHeader (P : Params) (fuel : Nat) (u : State) : Out :=
  if u.hdr.ckSize.toNat < 24 then .next (openFail P .format u)
  else if u.hdr.blockSamples = 0 then
    if (drain (payloadLength u.hdr) u).1 then openLoop P fuel (drain (payloadLength u.hdr) u).2
    else .next (openFail P .exhausted (drain (payloadLength u.hdr) u).2)
  else .next (openAccept P u)

theorem openLoop_located {P : Params} {s : State} (h : (locate P s).cause = .none) (fuel : Nat) :
    openLoop P (fuel + 1) s = openHeader P fuel (latchTotal (locate P s).state) :=
  if_neg (not_not_intro h)

theorem openLoop_not_located {P : Params} {s : State} (h : (locate P s).cause ≠ .none) (fuel : Nat) :
    openLoop P (fuel + 1) s = .next (openFail P (locate P s).cause (locate P s).state) :=
  if_pos h

/-- A header at offset `j` of the stream is the one the round goes on with. -/
structure HeaderFound (P : Params) (s : State) (j : Nat) (u : State) : Prop where
  round : ∀ fuel, openLoop P (fuel + 1) s = openHeader P fuel u
  search : OnlySearch s u
  win : u.win = []
  hdr : u.hdr = parseHeader ((s.src.stream.drop j).take hdrBytes)
  stream : u.src.stream = s.src.stream.drop (j + hdrBytes)
  total : u.ctx.total = if s.ctx.total = totalUnknown then u.hdr.total else s.ctx.total

theorem latchTotal_located (s : State) : (latchTotal s).win = s.win ∧ (latchTotal s).hdr = s.hdr ∧
    (latchTotal s).src = s.src := by
  rcases latchTotal_cases s with h | ⟨-, -, h⟩ <;> rw [h] <;> exact ⟨rfl, rfl, rfl⟩

theorem openLoop_first {P : Params} {s : State} {j : Nat} (hwin : s.win = [])
    (h : firstHeader P s.src.stream j) : ∃ u, HeaderFound P s j u := by
  have hahead : s.ahead = s.src.stream := by rw [State.ahead, hwin, List.nil_append]
  obtain ⟨hc, -, hhdr, hw, hstream⟩ := locate_first (P := P) (s := s) (j := j)
    (by rw [hwin]; exact Nat.zero_le _) (hahead.symm ▸ h)
  obtain ⟨hw', hhdr', hsrc'⟩ := latchTotal_located (locate P s).state
  have hloc := locate_onlyLocator P s
  refine ⟨latchTotal (locate P s).state, openLoop_located hc,
    hloc.onlySearch.trans (latchTotal_onlySearch _), hw'.trans hw, ?_, ?_, ?_⟩
  · rw [hhdr', hhdr, hahead]
  · rw [hsrc', hstream, hahead]
  · rw [latchTotal_total, hhdr', hloc.frame.2.2.1]

/-- OPEN runs the header loop on the bytes after any number of whole metadata-only blocks, with the first
known total latched. -/
theorem exec_openCtx_past {s : State} {blocks : List MetaBlock} {tail : List Byte}
    (hs : s.src.stream = blockBytes blocks ++ tail) (h : metadataOnly s.params tail blocks) :
    ∃ fuel u, exec .openCtx s = openLoop s.params (fuel + 1) u ∧
      OnlySearch (openStart s.params s) u ∧ u.win = [] ∧ u.src.stream = tail ∧
      u.ctx.total =
        latchedTotal totalUnknown (blocks.map fun b => (parseHeader b.header).total) := by
  obtain ⟨fuel, u, hloop, hlt, hrest⟩ := openLoop_metadataOnly (s := openStart s.params s) blocks
    (s.src.stream.length + 1) rfl hs h (Nat.lt_succ_self _)
  obtain ⟨fuel, rfl⟩ : ∃ f, fuel = f + 1 := ⟨fuel - 1, by omega⟩
  exact ⟨fuel, u, hloop, hrest⟩

/-! ### Failures by the stream (R202 to R204) -/

/-- A header that is not one of a whole metadata-only block, and whose block does not begin, fails OPEN. -/
theorem openHeader_fails {s u : State} {c : Cause} (hu : OnlySearch (openStart s.params s) u)
    (fuel : Nat)
    (h : (u.hdr.ckSize.toNat < 24 ∧ c = .format) ∨
      (24 ≤ u.hdr.ckSize.toNat ∧ u.hdr.blockSamples = 0 ∧
        u.src.stream.length < payloadLength u.hdr ∧ c = .exhausted) ∨
      (24 ≤ u.hdr.ckSize.toNat ∧ u.hdr.blockSamples ≠ 0 ∧
        beginFails s.params u.hdr [] (BitVec.ofNat 32 (codedChannels s.params u.hdr.flags))
          u.src.stream c)) :
    ∃ v, openHeader s.params fuel u = .next (openFail s.params c v) ∧ OpenKeeps s v := by
  rcases h with ⟨h24, rfl⟩ | ⟨h24, hn, hlen, rfl⟩ | ⟨h24, hn, hb⟩
  · exact ⟨u, if_pos h24, hu.openKeeps⟩
  · have hdrain : ¬ (drain (payloadLength u.hdr) u).1 = true := by
      rw [drain_fst, decide_eq_true_iff]
      omega
    refine ⟨_, ?_, (hu.trans (drain_onlySource (payloadLength u.hdr) u).onlySearch).openKeeps⟩
    rw [openHeader, if_neg (by omega), if_pos hn, if_neg hdrain]
  · obtain ⟨-, -, hpass, -⟩ := hu.registers
    rw [← hpass] at hb
    obtain ⟨v, ha, hp⟩ := openAccept_fails h24 hb
    refine ⟨v, ?_, hu.openKeeps.beginning hp⟩
    rw [openHeader, if_neg (by omega), if_neg hn, ha]

/-- The header loop fails with the cause its stream gives. -/
theorem openLoop_fails {s u : State} {c : Cause} (hu : OnlySearch (openStart s.params s) u)
    (hwin : u.win = []) (fuel : Nat) (h : openFails s.params u.src.stream c) :
    ∃ v, openLoop s.params (fuel + 1) u = .next (openFail s.params c v) ∧ OpenKeeps s v := by
  obtain hl | ⟨j, _, _, hj, rfl, rfl, h⟩ := h
  · have hahead : u.ahead = u.src.stream := by rw [State.ahead, hwin, List.nil_append]
    obtain ⟨rfl, hc⟩ := locate_fails (P := s.params) (s := u) (by rw [hwin]; exact Nat.zero_le _)
      (hahead.symm ▸ hl)
    exact ⟨_, openLoop_not_located hc fuel, (hu.trans (locate_onlyLocator _ u).onlySearch).openKeeps⟩
  · obtain ⟨v, hv⟩ := openLoop_first hwin hj
    rw [← hv.hdr, ← hv.stream] at h
    rw [hv.round]
    exact openHeader_fails (hu.trans hv.search) fuel h

/-- Settles O36: the two ways OPEN ends, with their registers, and the failure that the first bytes after
the metadata-only blocks decide. -/
theorem openOutcomes : Obligations.OpenOutcomes := by
  unfold Obligations.OpenOutcomes
  refine ⟨fun s => ?_, fun s blocks bytes c hs hblocks hfails => ?_⟩
  · obtain ⟨t, ht, ⟨h, total, left, cfg, bitlen, hvalid, h24, hn, ho⟩ | ⟨c, hc, ho⟩⟩ :=
      exec_openCtx_cases s
    · obtain ⟨-, -, -, hcnt, heod, -⟩ := ho.reader
      obtain rfl := ho.hdr
      exact ⟨t, ht, ho.out, ho.host, ho.build, by rw [ho.seq], .inl ⟨ho.resp, by rw [ho.seq],
        by rw [ho.seq], hvalid, h24, hn, by rw [ho.blk], by rw [ho.blk], by rw [ho.blk],
        by rw [ho.blk], by rw [ho.blk], by rw [ho.ctx], hcnt, heod⟩⟩
    · obtain ⟨hctx, hfexp, hblk, hpass, hes⟩ := ho.cleared
      have hP : t.params = s.params := congrArg Build.params ho.build
      rw [hP] at hctx hblk hes
      exact ⟨t, ht, ho.out, ho.host, ho.build, by rw [ho.seq], .inr ⟨ho.resp, by rw [ho.seq],
        by rw [ho.seq]; exact hc, hctx, hfexp, hblk, hpass, hes, ho.reader⟩⟩
  · obtain ⟨fuel, u, hopen, hu, hwin, rfl, -⟩ := exec_openCtx_past hs hblocks
    obtain ⟨v, hv, hkeeps⟩ := openLoop_fails hu hwin fuel hfails
    have ho := openFail_failed c hkeeps
    exact ⟨_, hopen.trans hv, ho.resp, ho.seq⟩

/-! ### The audio block of a stream (R203, R212) -/

theorem latchedTotal_append (total t : Word) (ts : List Word) :
    latchedTotal total (ts ++ [t]) =
      if latchedTotal total ts = totalUnknown then t else latchedTotal total ts := by
  induction ts generalizing total with
  | nil => rfl
  | cons x xs ih => exact ih _

/-- A header after skipped bytes that begin none is the first one. -/
theorem firstHeader_of_skipped {P : Params} {skipped w rest : List Byte}
    (hlen : skipped.length ≤ resyncBudget) (hw : w.length = hdrBytes) (hv : headerValid P w = true)
    (hno : ∀ i, i < skipped.length → ¬ headerAt P (skipped ++ (w ++ rest)) i) :
    firstHeader P (skipped ++ (w ++ rest)) skipped.length := by
  refine ⟨hlen, ⟨?_, ?_⟩, hno⟩
  · simp only [List.length_append]
    omega
  · rw [List.drop_left, ← hw, List.take_left]
    exact hv

/-- The header found after skipped bytes, and the bytes that follow it. -/
theorem HeaderFound.of_skipped {P : Params} {s u : State} {skipped w rest : List Byte}
    (h : HeaderFound P s skipped.length u) (hs : s.src.stream = skipped ++ (w ++ rest))
    (hw : w.length = hdrBytes) : u.hdr = parseHeader w ∧ u.src.stream = rest := by
  refine ⟨?_, ?_⟩
  · rw [h.hdr, hs, List.drop_left, ← hw, List.take_left]
  · rw [h.stream, hs, ← List.drop_drop, List.drop_left, ← hw, List.drop_left]

/-- The metadata of a payload that MetaParse ends at, and not before, with an answer that fits. -/
theorem beginsWith_of_metadata {P : Params} {h : Hdr} {pass : List Pass} {W bitlen : Word}
    {q rest : List Byte} {cfg : MetaCfg}
    (hneed : ∀ k, k < q.length → P.parseMeta h (q.take k) = .need)
    (hdone : P.parseMeta h q = .done cfg bitlen)
    (hfit : q.length + bitlen.toNat ≤ payloadLength h)
    (hcfg : cfg.fresh = true → configValid P cfg.passes = true)
    (hchain : chainFits P (chainFor cfg pass) (codedChannels P h.flags) W = true) :
    beginsWith P h pass W (q ++ rest) q.length cfg bitlen := by
  refine ⟨⟨by omega, by simp, fun i hi => ?_⟩, ?_, by omega, hcfg, hchain⟩
  · rw [List.take_append_of_le_length hi.le]
    exact hneed i hi
  · rw [List.take_left]
    exact hdone

/-- Settles O35: the loop reaches the audio block, finds its header first, and begins it. -/
theorem openAcceptsAudioBlock : Obligations.OpenAcceptsAudioBlock := by
  unfold Obligations.OpenAcceptsAudioBlock
  intro s blocks skipped w q rest cfg bitlen hs hblocks hskip hw hv hno h24 hn hneed hdone hfit hcfg
    hchain
  have htail : skipped ++ w ++ q ++ rest = skipped ++ (w ++ (q ++ rest)) := by
    simp only [List.append_assoc]
  rw [htail] at hs hblocks hno
  obtain ⟨fuel, u, hopen, hu, hwin, hstream, htotal⟩ := exec_openCtx_past hs hblocks
  have hfirst := firstHeader_of_skipped (P := s.params) hskip hw hv hno
  rw [← hstream] at hfirst
  obtain ⟨L, hL⟩ := openLoop_first hwin hfirst
  obtain ⟨hLhdr, hLstream⟩ := hL.of_skipped hstream hw
  have hsearch := hu.trans hL.search
  obtain ⟨-, -, hpass, -⟩ := hsearch.registers
  have hbegins : beginsWith s.params L.hdr L.pass
      (BitVec.ofNat 32 (codedChannels s.params L.hdr.flags)) L.src.stream q.length cfg bitlen := by
    rw [hLhdr, hLstream, hpass, ofNat_codedChannels]
    exact beginsWith_of_metadata hneed hdone hfit hcfg hchain
  rw [← hLhdr] at h24 hn
  obtain ⟨v, ha, hp, hvstream, hleft⟩ := openAccept_begins h24 hbegins
  have hready := contextReady_ready cfg bitlen hsearch hp
  have hround : openHeader s.params fuel L = .next (contextReady s.params cfg bitlen v) := by
    rw [openHeader, if_neg (by omega), if_neg hn, ha]
  obtain ⟨-, hvwin, -⟩ := hp.registers
  obtain ⟨htwin, htsrc⟩ := contextReady_rest s.params cfg bitlen v
  refine ⟨_, hopen.trans ((hL.round fuel).trans hround), hready.resp, hready.seq,
    hready.hdr.trans hLhdr, htwin.trans (hvwin.trans hL.win), ?_, ?_, hready.pass, hready.es,
    hready.fexp, ?_, hready.reader⟩
  · rw [htsrc, hvstream, hLstream, List.drop_left]
  · rw [hready.ctx, hready.hdr, latchedTotal_append, hL.total, htotal]
    rfl
  · rw [hready.blk, hready.hdr, hleft]
    rfl

end Sys2Proof.Machine
end

section
/-! SUPPORT. The active block through a whole step (spec/43_decorrelation.md R247 to R250): the reader pays
each byte it takes from the payload count, the pass chain keeps its terms, and a block that cannot go on is
left. -/

namespace Sys2Proof.Machine

/-- What an active block needs to be decoded: READY, one or two coded channels, a chain that fits them, no
end of data, and a bit budget within the payload left. -/
structure Decodable (P : Params) (s : State) : Prop where
  ready : s.seq.phase = .ready
  channels : s.blk.bc = 1 ∨ s.blk.bc = 2
  fits : chainFits P s.pass s.blk.bc s.ctx.frameWidth = true
  data : s.br.eod = false
  paid : s.br.budget.toNat ≤ s.blk.bytesLeft.toNat

/-- `BlockOk` with the parameters named, so that it can be carried through the operations that take them. -/
def BlockDecodable (P : Params) (s : State) : Prop := s.blk.active = true → Decodable P s

theorem blockOk_iff (s : State) : BlockOk s ↔ BlockDecodable s.params s :=
  forall_congr' fun _ =>
    ⟨fun ⟨ready, channels, fits, data, paid⟩ => ⟨ready, channels, fits, data, paid⟩,
      fun ⟨ready, channels, fits, data, paid⟩ => ⟨ready, channels, fits, data, paid⟩⟩

theorem BlockDecodable.of_inactive {P : Params} {s : State} (h : s.blk.active = false) :
    BlockDecodable P s :=
  fun ha => by simp [h] at ha

/-- Two states agree on all that an active block needs. -/
structure SameBlock (s t : State) : Prop where
  phase : t.seq.phase = s.seq.phase
  blk : t.blk = s.blk
  pass : t.pass = s.pass
  width : t.ctx.frameWidth = s.ctx.frameWidth
  br : t.br = s.br

theorem BlockDecodable.of_same {P : Params} {s t : State} (h : BlockDecodable P s)
    (hst : SameBlock s t) : BlockDecodable P t := by
  intro ha
  obtain ⟨ready, channels, fits, data, paid⟩ := h (hst.blk ▸ ha)
  refine ⟨?_, ?_, ?_, ?_, ?_⟩
  · rwa [hst.phase]
  · rwa [hst.blk]
  · rwa [hst.pass, hst.blk, hst.width]
  · rwa [hst.br]
  · rwa [hst.br, hst.blk]

/-! ### The reader pays for what it takes (R131) -/

/-- In READY the bit budget is within the payload left. -/
def Paid (s : State) : Prop :=
  s.seq.phase = .ready ∧ s.br.budget.toNat ≤ s.blk.bytesLeft.toNat

/-- Loaded bytes come off the budget and off the payload count alike. -/
theorem load_paid {s : State} {d : List Byte} (h : Paid s) (hd : d.length ≤ s.br.budget.toNat) :
    Paid (deductPayload d.length (s.setBr (s.br.load d))) := by
  obtain ⟨hready, hle⟩ := h
  have hb := s.br.budget.isLt
  have hl := s.blk.bytesLeft.isLt
  have hphase : (s.setBr (s.br.load d)).seq.phase = .ready := hready
  rw [deductPayload, if_pos hphase]
  refine ⟨hready, ?_⟩
  simp only [State.setBlk_br, State.setBr_br, State.setBlk_blk, State.setBr_blk, BitReader.load,
    BitVec.toNat_sub, BitVec.toNat_ofNat]
  omega

theorem brRefill_paid (P : Params) {s : State} (h : Paid s) : Paid (brRefill P s).2 := by
  simp only [brRefill]
  split_ifs
  · exact h
  · exact load_paid (s := (srcRead (min P.bufBytes s.br.budget.toNat) s).2) h
      ((Source.answer_length_le _ _).trans (min_le_right _ _))
  · exact h

theorem brFetchByte_paid (P : Params) {s : State} (h : Paid s) : Paid (brFetchByte P s).2 :=
  brFetchByte_cases (J := Paid) (fun _ => h) (fun _ _ => brRefill_paid P h)
    fun _ _ => brRefill_paid P h

theorem runBits_paid {α : Type} (P : Params) (p : BitProg α) {s : State} (h : Paid s) :
    Paid (runBits P p s).2 := by
  induction p generalizing s with
  | ret a => exact h
  | read n k ih =>
    exact ih _ (brReadBitsOp_induct (J := Paid) (fun _ _ _ h => h) (fun _ => brFetchByte_paid P) _ h)

theorem residual_paid (P : Params) (c : Chan) {s : State} (h : Paid s) : Paid (residual P c s).2 :=
  runBits_paid P _ h

theorem residuals_paid (P : Params) {s : State} (h : Paid s) : Paid (residuals P s).2 := by
  simp only [residuals]
  split_ifs
  · exact residual_paid P .a h
  · exact residual_paid P .b (residual_paid P .a h)

/-! ### The frames of a block (R244, R250) -/

/-- The fields of BLK a frame's residuals leave alone: all but the payload count. -/
theorem residuals_blk (P : Params) (s : State) :
    (residuals P s).2.blk = { s.blk with bytesLeft := (residuals P s).2.blk.bytesLeft } :=
  have ⟨_, _, _, _, _, _, _, h⟩ := residuals_frame P s
  congrArg (fun b : Blk => { b with bytesLeft := (residuals P s).2.blk.bytesLeft }) h

theorem finishFrame_decodable {P : Params} (k : Nat) {s : State} (h : BlockDecodable P s)
    (he : (residuals P s).2.br.eod = false) :
    BlockDecodable P (finishFrame P k (residuals P s).1 (residuals P s).2) := by
  obtain ⟨hseq, -, -, hctx, hpass, -⟩ := residuals_frame P s
  obtain ⟨fseq, fbr, -, -, -, -, -, fctx, fpass, fblk⟩ :=
    finishFrame_frame P k (residuals P s).1 (residuals P s).2
  have hblk := residuals_blk P s
  intro ha
  rw [fblk, hblk] at ha
  obtain ⟨ready, channels, fits, -, paid⟩ := h ha
  refine ⟨by rw [fseq, hseq, ready], ?_, ?_, by rw [fbr, he], ?_⟩
  · rw [fblk, hblk]
    exact channels
  · rw [fblk, hblk, fpass, fctx, hpass, hctx, ← fits]
    exact chainFits_of_terms P (passChain_terms P _ _) _ _
  · rw [fbr, fblk]
    exact (residuals_paid P ⟨ready, paid⟩).2

theorem verifyBlock_sameBlock (s : State) : SameBlock s (verifyBlock s) := by
  unfold verifyBlock
  split_ifs <;> exact ⟨rfl, rfl, rfl, rfl, rfl⟩

theorem decodeStep_decodable {P : Params} (lim k : Nat) {s : State} (h : BlockDecodable P s) :
    BlockDecodable P (decodeStep P lim k s).2 := by
  have hframes :=
    decodeFrames_induct (P := P) (I := fun _ _ u => BlockDecodable P u)
      (fun _ k _ hu he => finishFrame_decodable k hu he) (fun _ _ _ _ _ => .of_inactive rfl)
      (min (s.blk.fin - s.ctx.cursor.toNat) lim) k s h
  rw [decodeStep_eq, verifyAtEnd]
  split_ifs
  · exact hframes.of_same (verifyBlock_sameBlock _)
  · exact hframes

theorem gapStep_sameBlock (lim k : Nat) (s : State) : SameBlock s (gapStep lim k s) := by
  obtain ⟨m, l, e⟩ := silentFrames_frame (gapFrames lim s) k s
  rw [gapStep_eq, e]
  exact ⟨rfl, rfl, rfl, rfl, rfl⟩

/-! ### A block that begins (R247) -/

/-- A committed block is decodable: `BeginBlock` has checked the chain and the bitstream length. -/
theorem commitBlock_decodable {P : Params} {cfg : MetaCfg} {bitlen : Word} {s : State}
    (hready : s.seq.phase = .ready) (hlen : bitlen.toNat ≤ s.blk.bytesLeft.toNat)
    (hfits : chainFits P (chainOf cfg s) (codedChannels P s.blk.flags) s.ctx.frameWidth = true) :
    Decodable P (commitBlock P cfg bitlen s) := by
  rw [commitBlock_eq]
  exact ⟨hready, codedChannels_eq P _, hfits, rfl, hlen⟩

theorem takeHeader_decodable {P : Params} {s : State} (hready : s.seq.phase = .ready)
    (hidle : s.blk.active = false) : BlockDecodable P (takeHeader P s) := by
  obtain ⟨u, hu, -, hcase⟩ := beginBlock_cases P s
  have huready : u.seq.phase = .ready := by
    obtain ⟨r, l, n, rfl⟩ := hu
    exact hready
  simp only [takeHeader]
  split_ifs with _ _ _ hbegun
  · exact .of_inactive rfl
  · exact .of_inactive hidle
  · exact .of_inactive rfl
  · obtain ⟨c, hc, hb⟩ | ⟨cfg, bitlen, hb, hlen, -, hfits, -⟩ := hcase <;> rw [hb] at hbegun ⊢
    · subst hbegun
      simp at hc
    · exact fun _ => commitBlock_decodable huready hlen hfits
  · exact .of_inactive rfl

/-- A fetch leaves the block before it locates a header, so an active block after it is one that has just
begun. -/
theorem fetchStep_decodable {P : Params} {s : State} (hready : s.seq.phase = .ready) :
    BlockDecodable P (fetchStep P s) := by
  obtain ⟨hseq, -, -, hblk, -⟩ :=
    (locate_onlyLocator P (leaveBlock (drain s.blk.bytesLeft.toNat s).2)).frame
  simp only [fetchStep]
  split_ifs
  · exact .of_inactive rfl
  · exact .of_inactive rfl
  · refine takeHeader_decodable ?_ ?_
    · rw [(latchTotal_seq _).1, hseq]
      exact (congrArg Seq.phase (drain_seq _ s)).trans hready
    · rw [latchTotal_blk, hblk]
      rfl

theorem unpackRound_decodable {P : Params} (remaining k : Nat) {s : State}
    (hready : s.seq.phase = .ready) (h : BlockDecodable P s) :
    BlockDecodable P (unpackRound P remaining k s).2 := by
  simp only [unpackRound]
  split_ifs
  · exact fetchStep_decodable hready
  · exact h.of_same (gapStep_sameBlock _ k s)
  · exact decodeStep_decodable _ k h

/-! ### Every command and every step -/

theorem execUnpack_blockOk {max : Word} {s t : State} (h : BlockOk s)
    (ht : execUnpack max s = .next t) : BlockOk t := by
  refine execUnpack_induct (J := BlockOk) (fun _ _ h => h) ?_ max s t h ht
  rintro _ remaining k u rfl hu hready
  rw [blockOk_iff] at hu ⊢
  rw [(unpackRound_keeps u.params remaining k u).1.params]
  exact unpackRound_decodable remaining k hready hu

/-- OPEN leaves no block, or the one it has begun. -/
theorem execOpenCtx_blockOk {s t : State} (ht : execOpenCtx s = .next t) : BlockOk t := by
  refine execOpenCtx_induct (J := BlockOk) ht ?_ ?_
  · exact fun c u _ _ _ => (blockOk_iff _).2 (.of_inactive rfl)
  · intro cfg bitlen v hbuild _ _ _ hlen _ hfits _ _
    have hP : v.params = s.params := congrArg Build.params hbuild
    rw [← hP] at hfits ⊢
    rw [blockOk_iff, commitBlock_eq]
    exact fun _ => ⟨rfl, codedChannels_eq _ _, hfits, rfl, hlen⟩

/-- A command that is not OPEN, CLOSE or UNPACK only responds while a block is active, since a block is
active in READY only. -/
theorem KeepsContext.blockOk {i : Instr} {s t : State} (hk : KeepsContext i s t) (h : BlockOk s) :
    BlockOk t := by
  intro ha
  obtain ⟨hready, -⟩ := h (hk.blk ▸ ha)
  rw [hk.outsideNoctx (by simp [hready])] at ha ⊢
  exact h ha

theorem exec_blockOk {i : Instr} {s t : State} (h : BlockOk s) (ht : exec i s = .next t) :
    BlockOk t := by
  cases i with
  | openCtx => exact execOpenCtx_blockOk ht
  | closeCtx =>
    obtain rfl := Host.Outcome.next.inj ht
    exact (blockOk_iff _).2 (.of_inactive rfl)
  | unpack max => exact execUnpack_blockOk h ht
  | _ => exact (exec_keepsContext ht (by simp) (by simp) (by simp)).blockOk h

/-- Settles O57: a block is active only once it has begun decodable, and every round of UNPACK keeps it so
or leaves it. -/
theorem activeBlockKept : Obligations.ActiveBlockKept := by
  unfold Obligations.ActiveBlockKept
  exact step_induct (J := BlockOk) (hhost := fun _ _ h => h) (hlog := fun _ _ h => h)
    (hsrc := fun _ _ h => h) (hbuf := fun _ h => h) (hwrite := fun _ _ _ h => h)
    (hreset := fun _ _ => (blockOk_iff _).2 (.of_inactive rfl)) (hresp := fun _ _ h => h)
    (hexec := fun _ _ _ => exec_blockOk)

end Sys2Proof.Machine
end

section
/-! SUPPORT. One pass on one frame (spec/43_decorrelation.md R253 to R262, R267): the weight update, the
history, the steps of the kinds of terms, and the order of passes and channels. -/

namespace Sys2Proof.Machine

/-! ### The weight and the output of a step (R257, R260) -/

theorem sgn_eq_sign (v : Int) : sgn v = v.sign := by
  obtain hneg | rfl | hpos := Int.lt_trichotomy v 0
  · rw [sgn, if_pos hneg, Int.sign_eq_neg_one_of_neg hneg]
  · rfl
  · rw [sgn, if_neg hpos.not_gt, if_neg hpos.ne', Int.sign_eq_one_of_pos hpos]

theorem clampInt_eq (v : Int) {b : Int} (hb : 0 ≤ b) : clampInt v (-b) b = max (-b) (min b v) := by
  unfold clampInt
  omega

/-- The update is the exact step, clamped to the bound. -/
theorem updWeight_eq (P : Params) (t : BitVec 8) (delta : Nat) (w : Int) (s x : S32) :
    P.updWeight t delta w s x =
      max (-(P.wBound t : Int)) (min (P.wBound t : Int)
        (w + s.toInt.sign * x.toInt.sign * (delta : Int))) := by
  rw [Params.updWeight, sgn_eq_sign, sgn_eq_sign, clampInt_eq _ (Int.natCast_nonneg _)]

theorem updWeight_natAbs_le (P : Params) (t : BitVec 8) (delta : Nat) (w : Int) (s x : S32) :
    (P.updWeight t delta w s x).natAbs ≤ P.wBound t :=
  of_decide_eq_true (updWeight_ok P t delta w s x)

/-- An updated weight fits in WEIGHT_BITS. -/
theorem updWeight_range (P : Params) (t : BitVec 8) (delta : Nat) (w : Int) (s x : S32) :
    -(2 ^ (P.weightBits - 1)) ≤ P.updWeight t delta w s x ∧
      P.updWeight t delta w s x < 2 ^ (P.weightBits - 1) := by
  have habs := updWeight_natAbs_le P t delta w s x
  have hlt : (P.wBound t : Int) < 2 ^ (P.weightBits - 1) := by exact_mod_cast wBound_lt P t
  omega

/-- A zero input or a zero residual moves no weight. -/
theorem updWeight_of_zero {P : Params} {t : BitVec 8} {w : Int} {s x : S32} (delta : Nat)
    (hw : w.natAbs ≤ P.wBound t) (h : s = 0 ∨ x = 0) : P.updWeight t delta w s x = w := by
  have hstep : s.toInt.sign * x.toInt.sign = 0 := by obtain rfl | rfl := h <;> simp
  rw [updWeight_eq, hstep]
  omega

/-- The sum of two s32 is the wrapped exact sum (R14). -/
theorem add_eq_ofInt (a b : S32) : a + b = BitVec.ofInt 32 (a.toInt + b.toInt) := by
  rw [BitVec.ofInt_add, BitVec.ofInt_toInt, BitVec.ofInt_toInt]

/-! ### The history (R261) -/

theorem maxHist_ge (P : Params) : 8 ≤ P.maxHist := le_max_left _ _

/-- A pushed value moves every entry one back. -/
theorem histPush_getD_succ (P : Params) (h : Hist) (y : S32) {i : Nat} (hi : i + 1 < P.maxHist) :
    (P.histPush h y).getD (i + 1) 0 = h.getD i 0 := by
  have hlt : i < P.maxHist - 1 := by omega
  simp [Params.histPush, hlt]

/-- The newest values of a history are the last ones pushed. -/
theorem foldl_histPush_getD (P : Params) (h : Hist) (ys : List S32) {i : Nat} (hi : i < P.maxHist)
    (hlen : i < ys.length) : (ys.foldl P.histPush h).getD i 0 = ys.getD (ys.length - (i + 1)) 0 := by
  induction ys using List.reverseRecOn generalizing i with
  | nil => simp at hlen
  | append_singleton ys y ih =>
    rw [List.foldl_concat, List.length_append, List.length_singleton]
    cases i with
    | zero => simp [Params.histPush]
    | succ i =>
      have hlen' : i < ys.length := by simpa using hlen
      rw [histPush_getD_succ P _ y hi, ih (by omega) hlen', Nat.add_sub_add_right,
        List.getD_append _ _ _ _ (by omega)]

theorem histFit_of_length {P : Params} {h : Hist} (hl : h.length = P.maxHist) : P.histFit h = h := by
  simp [Params.histFit, ← hl]

/-! ### The steps by the kind of the term (R255, R256) -/

theorem termKind_short (P : Params) {t : BitVec 8} (h1 : 1 ≤ t.toNat) (h8 : t.toNat ≤ 8) :
    P.termKind t = .short := if_pos ⟨h1, h8⟩

theorem passStep_lag {P : Params} {p : Pass}
    (h : P.termKind p.term = .short ∨ P.termKind p.term = .long) (v : Frame) :
    passStep P p v = lagStep P p v := by
  obtain h | h := h <;> simp [passStep, h]

theorem passStep_joint {P : Params} {p : Pass} (h : P.termKind p.term = .joint) (a b : S32) :
    passStep P p (.stereo a b) =
      (.stereo (P.jointStep p a b).1.1 (P.jointStep p a b).1.2, (P.jointStep p a b).2) := by
  simp [passStep, h, crossStep]

/-- Settles O49: the clamped update, the push, and the step of a SHORT or LONG term. -/
theorem channelStep : Obligations.ChannelStep := by
  unfold Obligations.ChannelStep
  refine ⟨?_, ?_⟩
  · rintro P t delta w x h _ rfl
    exact ⟨add_eq_ofInt _ _, updWeight_eq _ _ _ _ _ _, updWeight_natAbs_le _ _ _ _ _ _,
      updWeight_range _ _ _ _ _ _, updWeight_of_zero delta, rfl,
      fun i hi => histPush_getD_succ P h _ hi, histPush_length _⟩
  · rintro P p a b _ _ hk rfl rfl
    exact ⟨passStep_lag hk _, passStep_lag hk _⟩

/-- Settles O50: the input of a SHORT term is an entry of the history, and the entries are the values
pushed. -/
theorem shortTermLag : Obligations.ShortTermLag := by
  unfold Obligations.ShortTermLag
  intro P t h ys h1 h8 hlen
  have hmax := maxHist_ge P
  have hentry := foldl_histPush_getD P h ys (i := t.toNat - 1) (by omega) (by omega)
  rw [Nat.sub_add_cancel h1] at hentry
  simp only [Params.predInput, termKind_short P h1 h8, histAt]
  exact hentry

/-- Settles O51: the chain by its last pass. -/
theorem passesRunInReverse : Obligations.PassesRunInReverse := by
  unfold Obligations.PassesRunInReverse
  exact ⟨fun _ _ => rfl, passChain_append_one⟩

/-! ### JOINT passes (R262) -/

/-- The cross-channel terms of the test instantiation. -/
theorem ti_termKind_joint {t : BitVec 8} (h : t = 0xFF ∨ t = 0xFE ∨ t = 0xFD) :
    Params.ti.termKind t = .joint := by
  obtain rfl | rfl | rfl := h <;> decide

/-- A cross-channel pass of the test instantiation, by the default plan. -/
theorem ti_passStep {p q : Pass} {a b yA yB : S32} (hk : p.term = 0xFF ∨ p.term = 0xFE ∨ p.term = 0xFD)
    (h : passStep Params.ti p (.stereo a b) = (.stereo yA yB, q)) :
    yA = a + tiApplyWeight p.wA (tiJointPlan p a b).sA ∧
      yB = b + tiApplyWeight p.wB (tiJointPlan p a b).sB ∧
      q.wA = Params.ti.updWeight p.term p.delta p.wA (tiJointPlan p a b).sA a ∧
      q.wB = Params.ti.updWeight p.term p.delta p.wB (tiJointPlan p a b).sB b ∧
      q.hA = Params.ti.histFit (tiJointPlan p a b).hA ∧
      q.hB = Params.ti.histFit (tiJointPlan p a b).hB := by
  rw [passStep_joint (ti_termKind_joint hk)] at h
  obtain ⟨hy, rfl⟩ := Prod.mk.inj h
  obtain ⟨rfl, rfl⟩ := Frame.stereo.inj hy
  exact ⟨rfl, rfl, rfl, rfl, rfl, rfl⟩

/-- Settles O52: the general step by `JointStep`'s form, the default ones by their plans. -/
theorem jointSteps : Obligations.JointSteps := by
  unfold Obligations.JointSteps
  refine ⟨?_, ?_⟩
  · intro P p a b hk
    refine ⟨(P.jointPlan p a b).sA, (P.jointPlan p a b).sB, P.histFit (P.jointPlan p a b).hA,
      P.histFit (P.jointPlan p a b).hB, _, _, ?_, rfl, rfl, updWeight_natAbs_le _ _ _ _ _ _,
      updWeight_natAbs_le _ _ _ _ _ _, histFit_length P _, histFit_length P _⟩
    rw [passStep_joint hk, ← add_eq_ofInt, ← add_eq_ofInt]
    rfl
  · rintro p a b yA yB q _ h rfl hA hB
    have fits {g : Hist} (hg : g.length = 8) (y : S32) :
        Params.ti.histFit g = g ∧ Params.ti.histFit (g.set 0 y) = g.set 0 y :=
      ⟨histFit_of_length hg, histFit_of_length ((List.length_set ..).trans hg)⟩
    have hstep := fun hk => ti_passStep hk h
    simp only [tiJointPlan] at hstep
    refine ⟨fun ht => ?_, fun ht => ?_, fun ht => ?_⟩
    · rw [if_pos ht] at hstep
      obtain ⟨rfl, rfl, hwA, hwB, hhA, hhB⟩ := hstep (.inl ht)
      exact ⟨rfl, rfl, hwA, hwB, hhA.trans (fits hA _).2, hhB.trans (fits hB 0).1⟩
    · rw [if_neg (by simp [ht]), if_pos ht] at hstep
      obtain ⟨rfl, rfl, hwA, hwB, hhA, hhB⟩ := hstep (.inr (.inl ht))
      exact ⟨rfl, rfl, hwB, hwA, hhB.trans (fits hB _).2, hhA.trans (fits hA 0).1⟩
    · rw [if_neg (by simp [ht]), if_neg (by simp [ht])] at hstep
      obtain ⟨rfl, rfl, hwA, hwB, hhA, hhB⟩ := hstep (.inr (.inr ht))
      exact ⟨rfl, rfl, hwA, hwB, hhA.trans (fits hA _).2, hhB.trans (fits hB _).2⟩

/-! ### The channels of a frame (R245, R253) -/

/-- Settles O60: the definitions of the residuals, the fold and the slots, case by case. -/
theorem frameChannelOrder : Obligations.FrameChannelOrder := by
  unfold Obligations.FrameChannelOrder
  refine ⟨fun s x0 es0 s0 h0 => ?_, fun P crc a b j => ⟨rfl, rfl, rfl, rfl, rfl⟩⟩
  have hA : residual s.params .a s = (x0, s0.setEs es0) := by simp [residual, h0]
  refine ⟨fun hbc => ?_, fun hbc x1 es1 s1 h1 => ?_⟩
  · simp [residuals, hA, hbc]
  · have hB : residual s.params .b (s0.setEs es0) = (x1, s1.setEs es1) := by simp [residual, h1]
    simp [residuals, hA, hB, hbc]

end Sys2Proof.Machine
end

section
/-! SUPPORT. What an UNPACK answers (spec/43_decorrelation.md R240 to R243, R265, R269, R270): it is the run of
one-frame rounds up to where it stops, so each statement exhibits a run. -/

namespace Sys2Proof.Machine

/-! ### UNPACK by its run -/

theorem exec_unpack (max : Word) (s : State) : exec (.unpack max) s = execUnpack max s := rfl

theorem unpackDone_eq (k : Nat) (s : State) : unpackDone k s =
    s.setResp (some ⟨if s.seq.phase = .ended then .endOfStream else .ok, BitVec.ofNat 32 k⟩) := rfl

theorem unpackDone_same (k : Nat) (s : State) : SameButOutput s (unpackDone k s) := ⟨_, _, _, rfl⟩

theorem totalReached_eq_false_iff (s : State) : totalReached s = false ↔
    (s.ctx.total ≠ totalUnknown → s.ctx.cursor.toNat < s.ctx.total.toNat) := by
  rw [Bool.eq_false_iff, ne_eq, totalReached_iff]
  simp

/-- An UNPACK answers with the end of any run of one-frame rounds that stops. -/
theorem exec_unpack_of_unitRun {s u : State} {max : Word} {k : Nat} (hp : s.seq.phase = .ready)
    (hrun : UnitRun s.params max.toNat 0 s k u) (hstop : UnpackStopsAt max.toNat k u) :
    exec (.unpack max) s = .next (unpackDone k u) := by
  obtain ⟨k', u', hrun', hstop', -, hexec⟩ := execUnpack_unitRun max hp
  obtain ⟨rfl, rfl⟩ := hrun.unique hstop hrun' hstop'
  exact hexec

/-- The cursor moves with the count. -/
theorem UnitRun.cursor {P : Params} {max k k' : Nat} {s t : State} (h : UnitRun P max k s k' t) :
    t.ctx.cursor.toNat + k = s.ctx.cursor.toNat + k' := by
  induction h with
  | stay => rfl
  | @round k s _ _ _ _ _ _ ih =>
    have hround := unpackRound_cursor P 1 k s
    omega

/-- No round is made at a known total, so none takes the cursor past it (R241, R269). -/
theorem UnitRun.cursor_le_total {P : Params} {max k k' : Nat} {s t : State}
    (h : UnitRun P max k s k' t) (hknown : s.ctx.total ≠ totalUnknown)
    (hle : s.ctx.cursor.toNat ≤ s.ctx.total.toNat) : t.ctx.cursor.toNat ≤ t.ctx.total.toNat := by
  induction h with
  | stay => exact hle
  | @round k s _ _ _ ht _ _ ih =>
    have hlt := (totalReached_eq_false_iff s).1 ht hknown
    obtain ⟨hkeeps, -, hcount⟩ := unpackRound_keeps P 1 k s
    have hcursor := unpackRound_cursor P 1 k s
    have htotal := hkeeps.total hknown
    exact ih (by rwa [htotal]) (by rw [htotal]; omega)

theorem SeqEnds.trans {s t u : State} (h : SeqEnds s t) (h' : SeqEnds t u) : SeqEnds s u := by
  obtain h' | ⟨c', hc', h'⟩ := h'
  · rwa [SeqEnds, h']
  · refine .inr ⟨c', hc', h'.trans ?_⟩
    obtain h | ⟨c, -, h⟩ := h <;> rw [h]

/-- A run ends the stream or keeps SEQ. -/
theorem UnitRun.seq {P : Params} {max k k' : Nat} {s t : State} (h : UnitRun P max k s k' t) :
    SeqEnds s t := by
  induction h with
  | stay => exact .inl rfl
  | round _ _ _ _ ih => exact (unpackRound_seq P 1 _ _).trans ih

theorem Wrote.refl (s : State) : Wrote s 0 s := ⟨rfl, by simpa using Transacts.refl s⟩

/-- The samples of a run are those of its frames, in order (R265). -/
theorem UnitRun.wrote {r : State} {max k k' : Nat} {s t : State}
    (h : UnitRun r.params max k s k' t) (hs : Wrote r k s) : Wrote r k' t := by
  induction h with
  | stay => exact hs
  | round _ _ _ _ ih => exact ih (unpackRound_wrote r 1 _ _ hs)

/-- Settles O41: the cursor moves with the count of the run, and a run that stops short of the frames asked
for has ended or reached the total. -/
theorem unpackResponse : Obligations.UnpackResponse := by
  unfold Obligations.UnpackResponse
  intro s max hp
  by_cases hready : s.seq.phase = .ready
  · obtain ⟨k, u, hrun, hstop, hk, hexec⟩ := execUnpack_unitRun max hready
    refine ⟨_, k, hexec, hk, rfl, hrun.cursor, fun hlt hgoes => ?_⟩
    obtain hmax | htotal | hended := hstop
    · exact absurd hmax hlt.ne
    · exact (totalReached_iff u).1 htotal
    · exact absurd hended hgoes
  · have hended := hp.resolve_left hready
    exact ⟨_, 0, execUnpack_not_ready max hready, Nat.zero_le _, by simp [hended], rfl,
      fun _ hgoes => absurd hended hgoes⟩

/-! ### The stops (R240, R241, R269) -/

/-- An UNPACK that stops at once only responds. -/
theorem exec_unpack_stops {s : State} {max : Word} (hp : s.seq.phase = .ready)
    (h : max = 0 ∨ totalReached s = true) :
    exec (.unpack max) s = .next (s.setResp (some ⟨.ok, 0⟩)) := by
  have hstop : UnpackStopsAt max.toNat 0 s := by
    obtain rfl | h := h
    · exact .inl rfl
    · exact .inr (.inl h)
  rw [exec_unpack_of_unitRun hp (.stay 0 s) hstop, unpackDone_eq, hp]
  rfl

/-- Settles O42: the runs without a round, and the runs up to a known total. -/
theorem unpackStops : Obligations.UnpackStops := by
  unfold Obligations.UnpackStops
  refine ⟨fun s max hp => ?_, fun s hp => exec_unpack_stops hp (.inl rfl),
    fun s max hp hknown hle => exec_unpack_stops hp (.inr ((totalReached_iff s).2 ⟨hknown, hle⟩)),
    fun s max hp hknown hle => ?_⟩
  · rw [exec_unpack, execUnpack_not_ready max (by simp [hp]), if_pos hp]
  · obtain ⟨k, u, hrun, -, -, hexec⟩ := execUnpack_unitRun max hp
    exact ⟨_, hexec, hrun.cursor_le_total hknown hle⟩

/-! ### The indexes written (R265) -/

/-- The output buffer after k frames: a sample at each of their indexes, and the others as before. -/
theorem Wrote.read {s u : State} {k : Nat} (h : Wrote s k u) :
    (∀ j, j < k * s.ctx.frameWidth.toNat → (u.out.read j).isSome = true) ∧
      ∀ j, k * s.ctx.frameWidth.toNat ≤ j → u.out.read j = s.out.read j := by
  obtain ⟨-, l, -, -, -, -, hread, hindexes, -⟩ := h
  have hwritten (j : Nat) :
      (lastWritten l j).isSome = true ↔ j < k * s.ctx.frameWidth.toNat := by
    rw [lastWritten_isSome, hindexes, List.mem_range]
  refine ⟨fun j hj => ?_, fun j hj => ?_⟩
  · rw [hread, Option.isSome_or, (hwritten j).2 hj, Bool.true_or]
  · have hnone : lastWritten l j = none := by
      rw [← Option.not_isSome_iff_eq_none, hwritten]
      omega
    rw [hread, hnone, Option.none_or]

/-- Settles O43: the record of a run, and the output buffer by the record. -/
theorem outputIndexesInOrder : Obligations.OutputIndexesInOrder := by
  unfold Obligations.OutputIndexesInOrder
  intro s t max hp ht
  by_cases hready : s.seq.phase = .ready
  · obtain ⟨k, u, hrun, -, hk, hexec⟩ := execUnpack_unitRun max hready
    obtain rfl := Host.Outcome.next.inj (ht.symm.trans hexec)
    have hwrote : Wrote s k u := hrun.wrote (.refl s)
    obtain ⟨hsome, hsame⟩ := hwrote.read
    obtain ⟨-, l, hlog, -, -, -, -, hindexes, -⟩ := hwrote
    exact ⟨k, l, hk, hlog, ⟨_, rfl⟩, hindexes, hsome, hsame⟩
  · rw [exec_unpack, execUnpack_not_ready max hready] at ht
    obtain rfl := Host.Outcome.next.inj ht
    exact ⟨0, [], Nat.zero_le _, rfl, ⟨_, rfl⟩, by simp [writtenIndexes], by simp, fun _ _ => rfl⟩

/-! ### Gaps (R243) -/

/-- The samples of silent frames. -/
theorem silentFrames_read (n k : Nat) (s : State) (j : Nat) :
    (silentFrames n k s).out.read j =
      if k * s.ctx.frameWidth.toNat ≤ j ∧
          j < k * s.ctx.frameWidth.toNat + n * s.ctx.frameWidth.toNat then some 0
      else s.out.read j :=
  writeSilence_read _ _ s j

/-- Settles O45: the gap is one run of silent frames. -/
theorem unpackGapIsSilent : Obligations.UnpackGapIsSilent := by
  unfold Obligations.UnpackGapIsSilent
  intro s max hp hactive hpos hgap htotal
  have hbi := s.blk.blockIndex.isLt
  have hfin : s.blk.blockIndex.toNat ≤ s.blk.fin := Nat.le_add_right _ _
  have hgoes : totalReached s = false := by
    rw [totalReached_eq_false_iff]
    intro hknown
    have := htotal hknown
    omega
  have hlim : max.toNat ≤ frameLimit (max.toNat - 0) s := by
    unfold frameLimit
    split_ifs with hunknown
    · exact le_rfl
    · have := htotal hunknown
      omega
  have hrun := silentFrames_unitRun (P := s.params) (max := max.toNat) max.toNat 0 s hpos
    (Nat.zero_add _).le hactive (by omega) hgap hlim hgoes (by simp [hp])
  rw [Nat.zero_add] at hrun
  refine ⟨_, exec_unpack_of_unitRun hp hrun (.inl rfl), ?_⟩
  have hcursor := hrun.cursor
  obtain ⟨m, l, e⟩ := silentFrames_frame max.toNat 0 s
  refine ⟨?_, ?_, hcursor, ?_, ?_⟩
  · rw [unpackDone_eq, e]
    simp [hp]
  · rw [unpackDone_eq, e]
    rfl
  · exact fun j => (silentFrames_read max.toNat 0 s j).trans (by simp)
  · rw [unpackDone_eq, e]
    simp

end Sys2Proof.Machine
end

section
/-! SUPPORT. The frames of a block in an UNPACK (spec/43_decorrelation.md R244, R245, R250, R251): a frame
decoded, a frame discarded at the end of data, and the frames of two commands as those of one. -/

namespace Sys2Proof.Machine

/-! ### One frame of a block (R244, R245, R250, R251) -/

/-- An UNPACK in READY that wants a frame decodes one here: the cursor stands at a frame of the active block
and below a known total. -/
structure AtFrame (s : State) : Prop where
  ready : s.seq.phase = .ready
  active : s.blk.active = true
  begun : s.blk.blockIndex.toNat ≤ s.ctx.cursor.toNat
  within : s.ctx.cursor.toNat < s.blk.fin
  goesOn : totalReached s = false

/-- A round at a frame is the frame, and the check of the block's end. -/
theorem AtFrame.unitRun {P : Params} {max k : Nat} {s : State} (h : AtFrame s) (hk : k < max) :
    UnitRun P max k s (verifyAtEnd (decodeFrames P 1 k s)).1
      (verifyAtEnd (decodeFrames P 1 k s)).2 :=
  decodeFrames_unitRun 1 k s Nat.one_pos hk h.active h.begun h.within
    (frameLimit_pos (by omega) h.goesOn) h.goesOn (by simp [h.ready])

/-- The state after a frame that met the end of data: the frame is discarded, and the stream ends (R250). -/
def discardedFrame (P : Params) (s : State) : State := endStream .exhausted (residuals P s).2


theorem AtFrame.unitRun_discarded {P : Params} {max k : Nat} {s : State} (h : AtFrame s) (hk : k < max)
    (he : (residuals P s).2.br.eod = true) :
    UnitRun P max k s k (discardedFrame P s) := by
  have hround : verifyAtEnd (decodeFrames P 1 k s) = (k, discardedFrame P s) := by
    simp [decodeFrames, decodeFrame, he, verifyAtEnd, discardedFrame, endStream_eq]
  have hrun := h.unitRun (P := P) hk
  rwa [hround] at hrun

/-- The count of mismatches after a block's checksum is verified (R251). -/
def verifiedErrors (s : State) : Word :=
  if s.blk.crc ≠ s.blk.crcStored then
    BitVec.ofNat 32 (min (s.ctx.crcErrors.toNat + 1) 0xFFFFFFFF)
  else s.ctx.crcErrors

theorem verifiedErrors_of_kept {s : State}
    (h : s.blk.crc = s.blk.crcStored ∨ s.ctx.crcErrors = 0xFFFFFFFF) :
    verifiedErrors s = s.ctx.crcErrors := by
  unfold verifiedErrors
  split_ifs with hcrc
  · have hmax := h.resolve_left hcrc
    rw [hmax]
    rfl
  · rfl

theorem verifiedErrors_of_counted {s : State}
    (h : ¬ (s.blk.crc = s.blk.crcStored ∨ s.ctx.crcErrors = 0xFFFFFFFF)) :
    verifiedErrors s = s.ctx.crcErrors + 1 := by
  obtain ⟨hcrc, hmax⟩ := not_or.1 h
  have hlt := s.ctx.crcErrors.isLt
  have hne : s.ctx.crcErrors.toNat ≠ 0xFFFFFFFF := fun hn => hmax (BitVec.eq_of_toNat_eq hn)
  rw [verifiedErrors, if_pos hcrc, min_eq_left (by omega), BitVec.ofNat_add, BitVec.ofNat_toNat,
    BitVec.setWidth_eq]
  rfl

theorem verifyBlock_eq (s : State) :
    verifyBlock s = s.setCtx { s.ctx with crcErrors := verifiedErrors s } := by
  unfold verifyBlock
  split_ifs with h
  · rw [verifiedErrors_of_kept h]
    rfl
  · rw [verifiedErrors_of_counted h]

/-- The state after a frame whose residuals used no padding. -/
def finishedFrame (P : Params) (k : Nat) (s : State) : State :=
  finishFrame P k (residuals P s).1 (residuals P s).2

/-- Within a block the cursor does not wrap. -/
theorem cursor_succ_toNat {s : State} (h : s.ctx.cursor.toNat < s.blk.fin) :
    (s.ctx.cursor + BitVec.ofNat 64 1).toNat = s.ctx.cursor.toNat + 1 := by
  have hle := Blk.fin_lt s.blk
  simp only [BitVec.toNat_add, BitVec.toNat_ofNat]
  omega

/-- What a finished frame leaves, in the terms of the state before it: the registers of the residuals, the
run of the chain, the fold, and the slots. -/
structure FrameFinished (P : Params) (k : Nat) (s t : State) : Prop where
  seq : t.seq = s.seq
  br : t.br = (residuals P s).2.br
  win : t.win = s.win
  hdr : t.hdr = s.hdr
  ctx : t.ctx = { s.ctx with cursor := s.ctx.cursor + BitVec.ofNat 64 1 }
  blk : t.blk = { (residuals P s).2.blk with
    crc := foldCrc P s.blk.crc
      (postChain P s.blk.flags (passChain P s.pass (residuals P s).1).1) }
  pass : t.pass = (passChain P s.pass (residuals P s).1).2
  es : t.es = (residuals P s).2.es
  fexp : t.fexp = s.fexp
  src : t.src = (residuals P s).2.src
  out : ∀ j, t.out.read j =
    if k * s.ctx.frameWidth.toNat ≤ j ∧ j < (k + 1) * s.ctx.frameWidth.toNat then
      some (P.fixup s.blk.flags s.fexp
        ((postChain P s.blk.flags (passChain P s.pass (residuals P s).1).1).slot
          (j - k * s.ctx.frameWidth.toNat)))
    else s.out.read j
  host : t.host = s.host
  build : t.build = s.build

theorem finishedFrame_finished (P : Params) (k : Nat) {s : State}
    (h : s.ctx.cursor.toNat < s.blk.fin) : FrameFinished P k s (finishedFrame P k s) := by
  have hle := Blk.fin_lt s.blk
  obtain ⟨hseq, hwin, hhdr, hctx, hpass, hfexp, hout, -⟩ := residuals_frame P s
  have hcrc : (residuals P s).2.blk.crc = s.blk.crc := by rw [residuals_blk]
  have hflags : (residuals P s).2.blk.flags = s.blk.flags := by rw [residuals_blk]
  obtain ⟨fseq, fbr, fwin, fhdr, fes, ffexp, fsrc, fctx, fpass, fblk⟩ :=
    finishFrame_frame P k (residuals P s).1 (residuals P s).2
  have fout := finishFrame_read P k (residuals P s).1 (residuals P s).2
  have hkeeps := (residuals_keeps P s).trans
    (finishFrame_keeps P k (residuals P s).1 (residuals P s).2 (by rw [hctx]; omega))
  simp only [hctx, hpass, hfexp, hout, hflags] at fctx fpass fout
  rw [hpass, hcrc, hflags] at fblk
  exact ⟨fseq.trans hseq, fbr, fwin.trans hwin, fhdr.trans hhdr, fctx, fblk, fpass, fes,
    ffexp.trans hfexp, fsrc, fout, hkeeps.host, hkeeps.build⟩

theorem FrameFinished.fin {P : Params} {k : Nat} {s t : State} (h : FrameFinished P k s t) :
    t.blk.fin = s.blk.fin := by
  rw [h.blk, ← residuals_fin P s]
  rfl

/-- A finished frame, with the checksum verified where it is the block's last (R251). -/
def frameDone (P : Params) (k : Nat) (s : State) : State :=
  (finishedFrame P k s).setCtx { s.ctx with
    cursor := s.ctx.cursor + BitVec.ofNat 64 1
    crcErrors :=
      if s.ctx.cursor.toNat + 1 = s.blk.fin ∧ (finishedFrame P k s).blk.crc ≠ s.blk.crcStored then
        BitVec.ofNat 32 (min (s.ctx.crcErrors.toNat + 1) 0xFFFFFFFF)
      else s.ctx.crcErrors }

/-- At the block's last frame a decode step verifies the checksum. -/
theorem verifyAtEnd_finished {P : Params} {k : Nat} {s : State} (h : AtFrame s) :
    verifyAtEnd (k + 1, finishedFrame P k s) = (k + 1, frameDone P k s) := by
  have hf := finishedFrame_finished P k h.within
  have hcursor : (finishedFrame P k s).ctx.cursor.toNat = s.ctx.cursor.toNat + 1 := by
    rw [hf.ctx]
    exact cursor_succ_toNat h.within
  have hphase : (finishedFrame P k s).seq.phase ≠ .ended := by rw [hf.seq, h.ready]; simp
  have hstored : (finishedFrame P k s).blk.crcStored = s.blk.crcStored := by
    rw [hf.blk, residuals_blk]
  by_cases hlast : s.ctx.cursor.toNat + 1 = s.blk.fin
  · rw [verifyAtEnd, if_pos ⟨hphase, by rw [hcursor, hf.fin, hlast]⟩, verifyBlock_eq, verifiedErrors,
      hstored, hf.ctx, frameDone]
    simp only [hlast, true_and]
  · rw [verifyAtEnd, if_neg fun hv => hlast (by rw [← hcursor, hv.2, hf.fin]), frameDone,
      if_neg fun hv => hlast hv.1, ← hf.ctx]
    rfl

/-- A frame without padding is finished. -/
theorem AtFrame.unitRun_done {P : Params} {max k : Nat} {s : State} (h : AtFrame s) (hk : k < max)
    (he : (residuals P s).2.br.eod = false) : UnitRun P max k s (k + 1) (frameDone P k s) := by
  have hframes : decodeFrames P 1 k s = (k + 1, finishedFrame P k s) := by
    simp [decodeFrames, decodeFrame, he, finishedFrame]
  have hrun := h.unitRun (P := P) hk
  rwa [hframes, verifyAtEnd_finished h] at hrun

/-- Settles O46: one round at a frame, without padding. -/
theorem unpackOneFrame : Obligations.UnpackOneFrame := by
  unfold Obligations.UnpackOneFrame
  intro s hp hactive hbegun hwithin htotal he
  have hframe : AtFrame s := ⟨hp, hactive, hbegun, hwithin, (totalReached_eq_false_iff s).2 htotal⟩
  have hf := finishedFrame_finished s.params 0 hframe.within
  refine ⟨_, exec_unpack_of_unitRun hp (hframe.unitRun_done Nat.one_pos he) (.inl rfl), ?_,
    cursor_succ_toNat hframe.within, hf.pass, hf.es, hf.br, hf.src, hf.blk, fun j => ?_, rfl, hf.seq,
    hf.win, hf.hdr, hf.fexp, hf.host, hf.build⟩
  · rw [unpackDone_eq, frameDone, State.setCtx_seq, hf.seq, hp]
    rfl
  · exact (hf.out j).trans (by simp)

/-! ### The end of data (R250) -/

/-- The state a discarded frame leaves, in the terms of the state before it. -/
theorem discarded_frame (P : Params) (s : State) :
    (discardedFrame P s).seq = { s.seq with phase := .ended, cause := .exhausted } ∧
      (discardedFrame P s).blk.active = false ∧
      (discardedFrame P s).blk.crc = s.blk.crc ∧
      (discardedFrame P s).ctx = s.ctx ∧
      (discardedFrame P s).pass = s.pass ∧
      (discardedFrame P s).out = s.out := by
  obtain ⟨hseq, -, -, hctx, hpass, -, hout, -⟩ := residuals_frame P s
  have hcrc : (residuals P s).2.blk.crc = s.blk.crc := by rw [residuals_blk P s]
  rw [discardedFrame, endStream_eq]
  exact ⟨by simp [hseq], rfl, hcrc, hctx, hpass, hout⟩

/-- An UNPACK k that responds OK with k is a run of k frames that has not ended. -/
theorem unitRun_of_exec_unpack {s t : State} {k : Word} (hp : s.seq.phase = .ready)
    (h : exec (.unpack k) s = .next t) (hresp : t.resp = some ⟨.ok, k⟩) :
    ∃ u, UnitRun s.params k.toNat 0 s k.toNat u ∧ u.seq = s.seq ∧ t = unpackDone k.toNat u := by
  obtain ⟨n, u, hrun, -, hn, hexec⟩ := execUnpack_unitRun k hp
  obtain rfl := Host.Outcome.next.inj (h.symm.trans hexec)
  have hk := k.isLt
  rw [unpackDone_eq, State.setResp_resp] at hresp
  obtain ⟨hcode, hdata⟩ := Response.mk.inj (Option.some.inj hresp)
  obtain rfl : n = k.toNat := by
    rw [← hdata, BitVec.toNat_ofNat, Nat.mod_eq_of_lt (by omega)]
  refine ⟨u, hrun, hrun.seq.of_not_ended fun hended => ?_, rfl⟩
  rw [if_pos hended] at hcode
  cases hcode

/-- Settles O47: a discarded frame at the end of a run, of none or of k frames. -/
theorem endOfDataDiscardsFrame : Obligations.EndOfDataDiscardsFrame := by
  unfold Obligations.EndOfDataDiscardsFrame
  refine ⟨fun s max hp hactive hmax hbegun hwithin htotal he => ?_,
    fun s t k max hp ht hresp hlt hactive hbegun hwithin htotal he => ?_⟩
  · have hframe : AtFrame s := ⟨hp, hactive, hbegun, hwithin, (totalReached_eq_false_iff s).2 htotal⟩
    exact ⟨_, exec_unpack_of_unitRun hp (hframe.unitRun_discarded hmax he) (.inr (.inr rfl)), rfl,
      discarded_frame s.params s⟩
  · obtain ⟨u, hrun, hseq, rfl⟩ := unitRun_of_exec_unpack hp ht hresp
    have hP : u.params = s.params := hrun.keeps.params
    have hframe : AtFrame u := ⟨by rw [hseq, hp], hactive, hbegun, hwithin,
      (totalReached_eq_false_iff u).2 htotal⟩
    have he' : (residuals s.params u).2.br.eod = true := by
      obtain ⟨-, hsame⟩ := residuals_blind u.params _ _ (unpackDone_same k.toNat u)
      obtain ⟨-, hbr, -⟩ := hsame.frame
      rw [← hP, ← hbr]
      exact he
    obtain ⟨hseq', hrest⟩ := discarded_frame s.params u
    refine ⟨_, exec_unpack_of_unitRun hp ((hrun.mono hlt.le (Nat.zero_le _)).trans
      (hframe.unitRun_discarded hlt he')) (.inr (.inr rfl)), ?_, hseq'.trans (by rw [hseq]), hrest⟩
    rw [unpackDone_eq, BitVec.ofNat_toNat, BitVec.setWidth_eq]
    rfl

/-! ### An UNPACK in two parts (R241, R265) -/

/-- A run stops after m other frames where it stops by itself. -/
theorem UnpackStopsAt.after {n k : Nat} {u v : State} (m : Nat) (h : UnpackStopsAt n k u)
    (hsame : SameButOutput u v) : UnpackStopsAt (m + n) (m + k) v := by
  obtain ⟨hseq, -, -, -, hctx, -⟩ := hsame.frame
  obtain rfl | htotal | hended := h
  · exact .inl rfl
  · exact .inr (.inl (by rwa [totalReached, hctx]))
  · exact .inr (.inr (by rwa [hseq]))

/-- Settles O59: the run of the first command, then that of the second, as many frames later. -/
theorem unpackInParts : Obligations.UnpackInParts := by
  unfold Obligations.UnpackInParts
  intro s t m n hp hlt ht hresp
  obtain ⟨w, hrun, hseq, rfl⟩ := unitRun_of_exec_unpack hp ht hresp
  have hready : (unpackDone m.toNat w).seq.phase = .ready := by
    rw [unpackDone_eq, State.setResp_seq, hseq, hp]
  have hP : (unpackDone m.toNat w).params = s.params := hrun.keeps.params
  have hW : (unpackDone m.toNat w).ctx.frameWidth = s.ctx.frameWidth := hrun.keeps.frameWidth
  have hsum : (m + n).toNat = m.toNat + n.toNat := by
    rw [BitVec.toNat_add, Nat.mod_eq_of_lt hlt]
  obtain ⟨k, u, hrun', hstop, hk, hexec⟩ := execUnpack_unitRun n hready
  rw [hP] at hrun'
  have hwrote : Wrote s m.toNat w := hrun.wrote (.refl s)
  obtain ⟨v, hrunv, hsame, hout⟩ := hrun'.shift (m := m.toNat) (unpackDone_same _ w).symm
    (low := (unpackDone m.toNat w).out.read) (high := s.out.read) (by
      intro j
      rw [hW, Nat.add_zero]
      split_ifs with hj
      · rfl
      · exact hwrote.read.2 j (by omega))
  have hstopv : UnpackStopsAt (m + n).toNat (m.toNat + k) v := hsum ▸ hstop.after m.toNat hsame
  refine ⟨_, _, k, _, hexec, hk, rfl, exec_unpack_of_unitRun hp
    ((hrun.mono (by omega) (Nat.zero_le _)).trans (hsum ▸ hrunv)) hstopv, ?_, ?_, ?_⟩
  · rw [unpackDone_eq, State.setResp_resp, hsame.frame.1]
  · obtain ⟨o, l, r, rfl⟩ := hsame
    simp only [unpackDone_eq]
    rfl
  · rw [hW] at hout
    exact hout

end Sys2Proof.Machine
end

section
/-! SUPPORT. The search of UNPACK for the next block (spec/43_decorrelation.md R242, R247 to R249): the state
it locates from, the header it finds, and what that header decides. -/

namespace Sys2Proof.Machine

/-! ### Where a fetch searches (R242) -/

/-- The state a fetch locates from: the payload drained and the block left. -/
def fetchStart (s : State) : State := leaveBlock (drain s.blk.bytesLeft.toNat s).2

/-- What the state a fetch locates from keeps, and the bytes it searches. -/
theorem fetchStart_frame (s : State) :
    (fetchStart s).seq = s.seq ∧ (fetchStart s).br = s.br ∧ (fetchStart s).win = s.win ∧
      (fetchStart s).ctx = s.ctx ∧ (fetchStart s).pass = s.pass ∧ (fetchStart s).es = s.es ∧
      (fetchStart s).fexp = s.fexp ∧ (fetchStart s).blk.active = false ∧
      (fetchStart s).ahead = s.win ++ s.src.stream.drop s.blk.bytesLeft.toNat := by
  have hstream := drain_stream s.blk.bytesLeft.toNat s
  obtain ⟨r, l, e⟩ := drain_onlySource s.blk.bytesLeft.toNat s
  rw [fetchStart, State.ahead, leaveBlock, State.setBlk_src, hstream, e]
  simp

theorem fetchStep_undrained {P : Params} {s : State}
    (h : s.src.stream.length < s.blk.bytesLeft.toNat) :
    fetchStep P s = endStream .exhausted (drain s.blk.bytesLeft.toNat s).2 := by
  refine if_pos ?_
  rw [drain_fst, decide_eq_false_iff_not]
  omega

theorem fetchStep_drained {P : Params} {s : State}
    (h : s.blk.bytesLeft.toNat ≤ s.src.stream.length) :
    fetchStep P s =
      if (locate P (fetchStart s)).cause ≠ .none then
        endStream (locate P (fetchStart s)).cause (locate P (fetchStart s)).state
      else takeHeader P (latchTotal (locate P (fetchStart s)).state) := by
  refine if_neg ?_
  rw [drain_fst, decide_eq_true h]
  simp

/-- The header at offset `j` of the bytes a fetch searches is found in `u`, its total latched; the block of
`s` has been left. -/
structure FetchFound (P : Params) (s : State) (bytes : List Byte) (j : Nat) (u : State) : Prop where
  step : fetchStep P s = takeHeader P u
  hdr : u.hdr = parseHeader ((bytes.drop j).take hdrBytes)
  stream : u.src.stream = bytes.drop (j + hdrBytes)
  ctx : u.ctx = { s.ctx with
    total := if s.ctx.total = totalUnknown then u.hdr.total else s.ctx.total }
  idle : u.blk.active = false
  seq : u.seq = s.seq
  br : u.br = s.br
  pass : u.pass = s.pass
  es : u.es = s.es
  fexp : u.fexp = s.fexp

theorem OnlySearch.frame {s t : State} (h : OnlySearch s t) :
    t.seq = s.seq ∧ t.br = s.br ∧ t.ctx = { s.ctx with total := t.ctx.total } ∧ t.blk = s.blk ∧
      t.pass = s.pass ∧ t.es = s.es ∧ t.fexp = s.fexp := by
  obtain ⟨r, l, w, k, total, rfl⟩ := h
  simp

theorem fetchStep_first {P : Params} {s : State} {j : Nat} (hwin : WindowOk s)
    (hdrained : s.blk.bytesLeft.toNat ≤ s.src.stream.length)
    (h : firstHeader P (s.win ++ s.src.stream.drop s.blk.bytesLeft.toNat) j) :
    ∃ u, FetchFound P s (s.win ++ s.src.stream.drop s.blk.bytesLeft.toNat) j u := by
  obtain ⟨hseq, hbr, hw, hctx, hpass, hes, hfexp, hidle, hahead⟩ := fetchStart_frame s
  rw [← hahead] at h ⊢
  obtain ⟨hcause, -, hhdr, -, hstream⟩ := locate_first (s := fetchStart s) (by rw [hw]; exact hwin) h
  obtain ⟨-, hhdr', hsrc'⟩ := latchTotal_located (locate P (fetchStart s)).state
  obtain ⟨-, -, lctx, -⟩ := (locate_onlyLocator P (fetchStart s)).frame
  have htotal := latchTotal_total (locate P (fetchStart s)).state
  rw [lctx, hctx, ← hhdr'] at htotal
  obtain ⟨useq, ubr, uctx, ublk, upass, ues, ufexp⟩ :=
    ((locate_onlyLocator P (fetchStart s)).onlySearch.trans (latchTotal_onlySearch _)).frame
  refine ⟨latchTotal (locate P (fetchStart s)).state, ?_, hhdr'.trans hhdr, ?_, ?_, ?_,
    useq.trans hseq, ubr.trans hbr, upass.trans hpass, ues.trans hes, ufexp.trans hfexp⟩
  · rw [fetchStep_drained hdrained, if_neg (not_not_intro hcause)]
  · rw [hsrc', hstream]
  · rw [← htotal, ← hctx]
    exact uctx
  · rw [ublk, hidle]

/-! ### What the header decides (R242, R247) -/

theorem takeHeader_hdr (P : Params) (s : State) : (takeHeader P s).hdr = s.hdr := by
  unfold takeHeader
  split_ifs
  · rfl
  · rfl
  · rfl
  · simp only
    split_ifs <;> exact (beginBlock_seq P s).2.2

theorem skipsHeader_iff (s : State) : skipsHeader s = true ↔ s.hdr.blockSamples = 0 ∨
    s.hdr.blockIndex.toNat + s.hdr.blockSamples.toNat ≤ s.ctx.cursor.toNat := by
  simp [skipsHeader]

theorem OnlyPayload.kept {s t : State} (h : OnlyPayload (copyHeader s) t) :
    t.seq = s.seq ∧ t.br = s.br ∧ t.pass = s.pass ∧ t.es = s.es ∧ t.fexp = s.fexp := by
  obtain ⟨r, l, n, rfl⟩ := h
  simp [copyHeader]

section
variable {P : Params} {u : State}

theorem takeHeader_small (h : u.hdr.ckSize.toNat < 24) : takeHeader P u = endStream .format u :=
  if_pos h

variable (h24 : 24 ≤ u.hdr.ckSize.toNat)
include h24

theorem takeHeader_skips (hskip : skipsHeader u = true) :
    takeHeader P u = u.setBlk { u.blk with bytesLeft := u.hdr.ckSize - 24 } := by
  rw [takeHeader, if_neg h24.not_gt, if_pos hskip]

theorem takeHeader_overlaps (hskip : ¬ skipsHeader u = true)
    (hover : u.hdr.blockIndex.toNat < u.ctx.cursor.toNat) :
    takeHeader P u = endStream .format u := by
  rw [takeHeader, if_neg h24.not_gt, if_neg hskip, if_pos hover]

variable (hn : u.hdr.blockSamples ≠ 0) (hahead : u.ctx.cursor.toNat ≤ u.hdr.blockIndex.toNat)
include hn hahead

theorem takeHeader_begins : takeHeader P u =
    if (beginBlock P u).1 = .none then (beginBlock P u).2
    else endStream (beginBlock P u).1 (beginBlock P u).2 := by
  have hpos : 0 < u.hdr.blockSamples.toNat :=
    Nat.pos_of_ne_zero fun h0 => hn (BitVec.eq_of_toNat_eq h0)
  have hskip : ¬ skipsHeader u = true := by
    rw [skipsHeader_iff, not_or]
    exact ⟨hn, by omega⟩
  rw [takeHeader, if_neg h24.not_gt, if_neg hskip, if_neg (by omega)]

/-- A block that cannot begin ends the stream with its cause, the persistent registers kept. -/
theorem takeHeader_beginFails {c : Cause}
    (h : beginFails P u.hdr u.pass u.ctx.frameWidth u.src.stream c) :
    (takeHeader P u).seq = { u.seq with phase := .ended, cause := c } ∧
      (takeHeader P u).blk.active = false ∧ (takeHeader P u).pass = u.pass ∧
      (takeHeader P u).es = u.es ∧ (takeHeader P u).fexp = u.fexp := by
  obtain ⟨hc, rfl, hp⟩ := beginBlock_fails h24 h
  obtain ⟨hseq, -, hpass, hes, hfexp⟩ := hp.kept
  rw [takeHeader_begins h24 hn hahead, if_neg hc, endStream_eq]
  exact ⟨by simp [hseq], rfl, hpass, hes, hfexp⟩

/-- A block that begins. -/
theorem takeHeader_beginsWith {k : Nat} {cfg : MetaCfg} {bitlen : Word}
    (h : beginsWith P u.hdr u.pass u.ctx.frameWidth u.src.stream k cfg bitlen) :
    (takeHeader P u).seq = u.seq ∧ (takeHeader P u).pass = chainFor cfg u.pass ∧
      (takeHeader P u).es = cfg.esInit.getD u.es ∧ (takeHeader P u).fexp = cfg.fexp.getD u.fexp ∧
      (takeHeader P u).blk =
        { active := true, bytesLeft := u.hdr.ckSize - 24 - BitVec.ofNat 32 k, crc := P.crcInit,
          bc := codedChannels P u.hdr.flags, blockIndex := u.hdr.blockIndex,
          blockSamples := u.hdr.blockSamples, flags := u.hdr.flags, crcStored := u.hdr.crc } ∧
      (takeHeader P u).br =
        { u.br with idx := 0, fin := 0, acc := 0, cnt := 0, eod := false, budget := bitlen } ∧
      (takeHeader P u).src.stream = u.src.stream.drop k := by
  obtain ⟨v, hb, hp, hstream, hblk⟩ := beginBlock_begins h24 h
  obtain ⟨hseq, hbr, hpass, hes, hfexp⟩ := hp.kept
  have hstep : takeHeader P u = commitBlock P cfg bitlen v := by
    rw [takeHeader_begins h24 hn hahead, hb, if_pos rfl]
  have hchain : chainOf cfg v = chainFor cfg u.pass := by rw [chainOf, hpass, chainFor]
  rw [hstep, commitBlock_eq, hblk, hchain, hes, hfexp, hbr]
  exact ⟨hseq, rfl, rfl, rfl, rfl, rfl, hstream⟩

end

/-! ### The search (R241, R242) -/

/-- An UNPACK that wants frames, with no active block left, fetches first. -/
theorem unpackRound_fetches {P : Params} {s : State} (k : Nat)
    (h : s.blk.active = false ∨ s.blk.fin ≤ s.ctx.cursor.toNat) :
    unpackRound P 1 k s = (k, fetchStep P s) := if_pos h

/-- UNPACK is its first round and what UNPACK does from there, if that round makes no frame. -/
theorem exec_unpack_fetches {s : State} {max : Word} (hp : s.seq.phase = .ready)
    (hmax : 0 < max.toNat) (hgoes : totalReached s = false)
    (hblk : s.blk.active = false ∨ s.blk.fin ≤ s.ctx.cursor.toNat) :
    ((fetchStep s.params s).seq.phase = .ended →
      exec (.unpack max) s =
        .next ((fetchStep s.params s).setResp (some ⟨.endOfStream, 0⟩))) ∧
    ((fetchStep s.params s).seq.phase ≠ .ended →
      exec (.unpack max) s = exec (.unpack max) (fetchStep s.params s)) := by
  have hround := UnitRun.one (P := s.params) hmax.ne hgoes (by simp [hp])
  rw [unpackRound_fetches 0 hblk] at hround
  refine ⟨fun hended => ?_, fun hlive => ?_⟩
  · rw [exec_unpack_of_unitRun hp hround (.inr (.inr hended)), unpackDone_eq, if_pos hended]
    rfl
  · have hready : (fetchStep s.params s).seq.phase = .ready := by
      rw [(fetchStep_seq s.params s).1.of_not_ended hlive, hp]
    obtain ⟨k, u, hrun, hstop, -, hexec⟩ := execUnpack_unitRun max hready
    rw [(fetchStep_keeps s.params s).params] at hrun
    rw [exec_unpack_of_unitRun hp (hround.trans hrun) hstop, exec_unpack, hexec]

/-- Settles O48: the drain, then the locate, then the header found. -/
theorem fetchStepDecides : Obligations.FetchStepDecides := by
  unfold Obligations.FetchStepDecides
  refine ⟨fun s max hp hmax htotal hblk =>
    exec_unpack_fetches hp hmax ((totalReached_eq_false_iff s).2 htotal) hblk, ?_⟩
  rintro s _ _ hwin rfl rfl
  refine ⟨fun hshort => ?_, fun hdrained c hfails => ?_, fun hdrained j h hfirst hh => ?_⟩
  · rw [fetchStep_undrained hshort, endStream_eq]
    exact ⟨by simp [drain_seq], rfl⟩
  · obtain ⟨hseq, -, hw, hctx, hpass, -, -, -, hahead⟩ := fetchStart_frame s
    rw [← hahead] at hfails
    obtain ⟨hcause, hc⟩ := locate_fails (s := fetchStart s) (by rw [hw]; exact hwin) hfails
    obtain ⟨lseq, -, lctx, -, lpass, -⟩ := (locate_onlyLocator s.params (fetchStart s)).frame
    rw [fetchStep_drained hdrained, hcause, if_pos hc, endStream_eq]
    exact ⟨by simp [lseq, hseq], rfl, lctx.trans hctx, lpass.trans hpass⟩
  · obtain ⟨u, hu⟩ := fetchStep_first hwin hdrained hfirst
    obtain rfl : h = u.hdr := hh.trans hu.hdr.symm
    have hcursor : u.ctx.cursor = s.ctx.cursor := by rw [hu.ctx]
    have hwidth : u.ctx.frameWidth = s.ctx.frameWidth := by rw [hu.ctx]
    have hstream : u.src.stream = (s.win ++ s.src.stream.drop s.blk.bytesLeft.toNat).drop (j + 32) :=
      hu.stream
    rw [hu.step, ← hcursor, ← hwidth, ← hu.pass, ← hu.es, ← hu.fexp, ← hu.seq, ← hu.br, ← hstream]
    refine ⟨takeHeader_hdr _ u, (takeHeader_seq _ u).2.trans hu.ctx, fun hsmall => ?_,
      fun h24 hskip => ?_, fun h24 hn hover hlt => ?_, fun h24 hn hahead => ⟨fun c hfails => ?_,
        fun k cfg bitlen hbegins => ?_⟩⟩
    · rw [takeHeader_small hsmall]
      exact ⟨rfl, rfl⟩
    · rw [takeHeader_skips h24 ((skipsHeader_iff u).2 hskip)]
      exact ⟨rfl, hu.idle, BitVec.toNat_sub_of_le (BitVec.le_def.2 h24), rfl⟩
    · rw [takeHeader_overlaps h24 _ hover]
      · exact ⟨rfl, rfl⟩
      · rw [skipsHeader_iff, not_or]
        exact ⟨hn, by omega⟩
    · exact takeHeader_beginFails h24 hn hahead hfails
    · have hb := takeHeader_beginsWith h24 hn hahead hbegins
      rw [← List.drop_drop, ← hstream]
      exact hb

end Sys2Proof.Machine
end

section
/-! SUPPORT. How a step ends (spec/60_exceptions.md R300, R305, R319; spec/70_reset_and_hazards.md R345, R352):
every command answers a next state, so every input does, and the two inputs that change nothing or no more
than one command. -/

namespace Sys2Proof.Machine

/-! ### Every command answers (R300, R352) -/

theorem onlyInNoctx_answers {run : Out} (s : State) (h : ∃ t, run = .next t) :
    ∃ t, onlyInNoctx s run = .next t := by
  unfold onlyInNoctx
  split_ifs
  · exact h
  · exact ⟨_, rfl⟩

/-- UNPACK ends: in READY its run of rounds stops, and in every other phase it makes none. -/
theorem exec_unpack_answers (max : Word) (s : State) : ∃ t, exec (.unpack max) s = .next t := by
  by_cases hready : s.seq.phase = .ready
  · obtain ⟨k, u, -, -, -, hexec⟩ := execUnpack_unitRun max hready
    exact ⟨_, hexec⟩
  · exact ⟨_, execUnpack_not_ready max hready⟩

/-- No command faults or is refused. Only OPEN and UNPACK have loops that the source must end. -/
theorem exec_answers (i : Instr) (s : State) : ∃ t, exec i s = .next t := by
  cases i with
  | openCtx =>
    obtain ⟨t, ht, -⟩ := exec_openCtx_cases s
    exact ⟨t, ht⟩
  | unpack max => exact exec_unpack_answers max s
  | getCursor k =>
    simp only [exec, execGetCursor]
    split <;> exact ⟨_, rfl⟩
  | getHdr k =>
    simp only [exec, execGetHdr]
    split <;> exact ⟨_, rfl⟩
  | brAttach budget => exact onlyInNoctx_answers s ⟨_, rfl⟩
  | brReadBits n =>
    refine onlyInNoctx_answers s ?_
    split_ifs <;> exact ⟨_, rfl⟩
  | brReadBit => exact onlyInNoctx_answers s ⟨_, rfl⟩
  | locReadHeader => exact onlyInNoctx_answers s ⟨_, rfl⟩
  | _ => exact ⟨_, rfl⟩

/-! ### Every input answers (R305, R306) -/

theorem runCommand_answers (cmd arg : Word) (s : State) : ∃ t, runCommand cmd arg s = .next t := by
  unfold runCommand
  split
  · exact ⟨_, rfl⟩
  · exact exec_answers _ s

theorem runInput_answers (i : HostInput) (s : State) : ∃ t, runInput i s = .next t := by
  cases i with
  | command cmd arg => exact runCommand_answers cmd arg s
  | overlapped cmd arg _ _ => exact runCommand_answers cmd arg s
  | resetDuring n cmd arg =>
    obtain ⟨t, ht⟩ := runCommand_answers cmd arg s
    simp only [runInput, runInterrupted, ht]
    exact ⟨_, rfl⟩
  | _ => exact ⟨_, rfl⟩

theorem step_idle {s : State} (h : s.host = []) : step s = .next s := by
  rw [step, h]

theorem step_input {s : State} {i : HostInput} {rest : List HostInput} (h : s.host = i :: rest) :
    step s = runInput i (s.accept rest) := by
  rw [step, h]

/-- Settles O14: a step is idle or runs an input, and every input answers. -/
theorem stepNeverStops : Obligations.StepNeverStops := by
  unfold Obligations.StepNeverStops
  intro s
  cases hhost : s.host with
  | nil => exact ⟨s, step_idle hhost⟩
  | cons i rest =>
    obtain ⟨t, ht⟩ := runInput_answers i (s.accept rest)
    exact ⟨t, (step_input hhost).trans ht⟩

/-! ### Idle, and a second command while one runs (R319, R345) -/

theorem step_overlapped {s : State} {cmd arg cmd2 arg2 : Word} {rest : List HostInput}
    (h : s.host = .overlapped cmd arg cmd2 arg2 :: rest) :
    step s = runCommand cmd arg ((s.setHost rest).setLog []) :=
  step_input h

/-- Settles O9: both inputs run the first command from the same state. -/
theorem idleAndSecondCommand : Obligations.IdleAndSecondCommand := by
  unfold Obligations.IdleAndSecondCommand
  refine ⟨fun s => step_idle, fun s cmd arg cmd2 arg2 rest h => ?_⟩
  rw [step_overlapped h, step_command (State.setHost_host s (.command cmd arg :: rest)),
    State.setHost_setHost]

end Sys2Proof.Machine
end

section
/-! SUPPORT. Reset (spec/70_reset_and_hazards.md R340 to R342): the reset input between commands, and a reset
that leaves done the first transactions of the command it interrupts. -/

namespace Sys2Proof.Machine

/-- Settles O11: the reset state's record is empty, as is that of an input just taken. -/
theorem resetInput : Obligations.ResetInput := by
  unfold Obligations.ResetInput
  intro s rest h
  exact step_input h

/-! ### The transactions that remain done (R342) -/

/-- `t` is `s` after the environment has met the transactions `l`, newest first: the stream less the bytes
they took, the buffer with the samples they wrote, the record with them on top. -/
structure Met (l : List PortEvent) (s t : State) : Prop where
  log : t.log = l ++ s.log
  stream : t.src.stream = s.src.stream.drop (bytesTaken l)
  taken : t.src.taken = s.src.taken + bytesTaken l
  read : ∀ j, t.out.read j = (lastWritten l j).or (s.out.read j)
  host : t.host = s.host
  build : t.build = s.build

theorem Met.refl (s : State) : Met [] s s where
  log := rfl
  stream := rfl
  taken := rfl
  read _ := rfl
  host := rfl
  build := rfl

theorem Met.trans {l m : List PortEvent} {s t u : State} (h : Met l s t) (h' : Met m t u) :
    Met (m ++ l) s u where
  log := by rw [h'.log, h.log, List.append_assoc]
  stream := by rw [h'.stream, h.stream, List.drop_drop, bytesTaken_append, Nat.add_comm]
  taken := by rw [h'.taken, h.taken, bytesTaken_append, Nat.add_assoc, Nat.add_comm (bytesTaken l)]
  read j := by rw [h'.read, h.read, lastWritten_append, Option.or_assoc]
  host := h'.host.trans h.host
  build := h'.build.trans h.build

/-- A sample read back after one write is what the record of that write says. -/
theorem read_write_or (m : Memory) (i : Nat) (v : S32) (j : Nat) :
    (m.write i v).read j = (if i = j then some v else none).or (m.read j) := by
  simp only [Memory.read_write, eq_comm (a := j)]
  split_ifs <;> rfl

theorem applyEvent_met (e : PortEvent) (s : State) : Met [e] s (applyEvent s e) := by
  cases e with
  | srcRead len count => exact ⟨rfl, rfl, rfl, fun _ => rfl, rfl, rfl⟩
  | outWrite i v => exact ⟨rfl, rfl, rfl, read_write_or s.out i.toNat v, rfl, rfl⟩
  | outWriteFar n v => exact ⟨rfl, rfl, rfl, read_write_or s.out n v, rfl, rfl⟩

/-- Replaying transactions, oldest first, has the environment meet each of them once. -/
theorem foldl_applyEvent_met (l : List PortEvent) (s : State) :
    Met l.reverse s (l.foldl applyEvent s) := by
  induction l generalizing s with
  | nil => exact .refl s
  | cons e l ih =>
    rw [List.reverse_cons]
    exact (applyEvent_met e s).trans (ih (applyEvent s e))

theorem runInterrupted_of_next {n : Nat} {cmd arg : Word} {s t : State}
    (h : runCommand cmd arg s = .next t) :
    runInterrupted n cmd arg s = .next (resetRegs ((t.log.reverse.take n).foldl applyEvent s)) := by
  rw [runInterrupted, h]

/-- Settles O12: the command answers, its first n transactions are replayed on the state before it, and the
registers of the result are reset. -/
theorem resetDuringCommand : Obligations.ResetDuringCommand := by
  unfold Obligations.ResetDuringCommand
  intro s n cmd arg rest h
  obtain ⟨t, ht⟩ := runCommand_answers cmd arg (s.accept rest)
  have hstep := (step_input h).trans (runInterrupted_of_next (n := n) ht)
  have hmet := foldl_applyEvent_met (t.log.reverse.take n) (s.accept rest)
  generalize (t.log.reverse.take n).foldl applyEvent (s.accept rest) = v at hstep hmet
  have hlog : v.log = (t.log.reverse.take n).reverse := hmet.log.trans (List.append_nil _)
  refine ⟨t, resetRegs v, ht, hstep, ?_, ?_, ?_, fun j => ?_, ?_, rfl⟩
  · exact (congrArg List.reverse hlog).trans (List.reverse_reverse _)
  · exact hlog ▸ hmet.stream
  · exact hlog ▸ hmet.taken
  · exact hlog ▸ hmet.read j
  · rw [← show v.build = s.build from hmet.build, ← show v.host = rest from hmet.host]
    rfl

end Sys2Proof.Machine
end
